-- ==== Sys2Proof/Word.lean ====
section
/-!
DEFINITION. Words, the enumerations of the number formats and of the modifier fields, the operand
classes of R56, and the shapes of operand lists that the instruction words share.
-/

namespace Sys2Proof

/-- A 64-bit register, address or memory word. -/
abbrev Word := BitVec 64
/-- The unit of memory (R80). -/
abbrev Byte := BitVec 8

/-! ## Operand classes (R56) -/

/-- Class V: v0-v255; v255 reads zero and discards writes. -/
abbrev VReg := Fin 256
/-- Class P: p0-p7; p7 reads all ones and discards writes. -/
abbrev PReg := Fin 8
/-- Class X: index registers. -/
abbrev XReg := Fin 4
/-- Class T: tile registers. -/
abbrev TReg := Fin 16
/-- Class Q: cursors. -/
abbrev QReg := Fin 4
/-- Class I: an 8-bit immediate. -/
abbrev Imm8 := Fin 256

/-- Class S: s0-s63, or the encoding 0xFF, which reads zero and discards the result. -/
inductive SReg where
  | s (n : Fin 64)
  | zero
  deriving DecidableEq, Repr

/-- A V-class source B: a register (form W) or the literal K (form L, R53). -/
inductive VSrc where
  | reg (v : VReg)
  | lit (k : BitVec 32)
  deriving DecidableEq, Repr

/-- An S-class source B: a register (form W) or the literal K (form L, R53). -/
inductive SSrc where
  | reg (s : SReg)
  | lit (k : BitVec 32)
  deriving DecidableEq, Repr

/-- The guard field (R55): predicate number and inversion. -/
structure Guard where
  inv : Bool
  p   : PReg
  deriving DecidableEq, Repr

/-- The guard that means always. -/
def Guard.always : Guard := ⟨false, 7⟩

/-! ## Number types (R20) -/

/-- The type codes of R20; `none` is code 0. -/
inductive Ty where
  | none
  | i8 | n8 | i16 | n16 | i32 | n32 | i64 | n64
  | f16 | bf16 | f32 | f64
  | e4m3 | e5m2 | e3m2 | e2m3 | e2m1
  | e8m0
  | mxe4m3 | mxe5m2 | mxe3m2 | mxe2m3 | mxe2m1
  | mxint8
  | aq8
  | x2f32
  deriving DecidableEq, Repr

/-- Rounding codes 0-6 of R32. -/
inductive Rnd where
  | rne | rtz | rup | rdn | rna | sr | dyn
  deriving DecidableEq, Repr

/-- Scale policies of R40. -/
inductive Policy where
  | floor | fit
  deriving DecidableEq, Repr

/-- The spaces of R58 and R119. -/
inductive Space where
  | g | l | c
  deriving DecidableEq, Repr

/-- The scopes of R58. -/
inductive Scope where
  | core | quad | die | pkg | pod | sys
  deriving DecidableEq, Repr

/-- Comparison conditions (R225, R232); the last two are legal for VFCMP only. -/
inductive Cond where
  | eq | ne | lt | le | gt | ge | un | or
  deriving DecidableEq, Repr

/-- Operations of atomics, reductions and trays (R139). -/
inductive AtomOp where
  | add | min | max | and | or | xor | xchg | cas
  deriving DecidableEq, Repr

/-- Operations of XRED and XSCAN (R258). -/
inductive RedOp where
  | add | min | max | and | or | xor
  deriving DecidableEq, Repr

/-- Sub-functions of XVOTE (R258). -/
inductive VoteFn where
  | all | any | ballot
  deriving DecidableEq, Repr

/-- Cursor modes of R191. -/
inductive CurMode where
  | isect | merge | expand
  deriving DecidableEq, Repr

/-- Clause classes of R65. -/
inductive ClauseClass where
  | vector | memory | matrix | coord
  deriving DecidableEq, Repr

/-- HINT's two forms (R351). -/
inductive HintOp where
  | spin
  | pace (a : SReg)
  deriving DecidableEq, Repr

/-- The special registers held per lane (R361). -/
inductive LaneSpec where
  | laneid | sliceid | fflags
  deriving DecidableEq, Repr

/-- The other special registers of R63. -/
inductive SpecReg where
  | waveid | groupid | coreid | quadid | dieid | pkgid | clock
  | grain | grainctr | fmode
  | tvec | tcause | tpc | tlanes | tinfo
  | amask | accord | cnt | barst | memcap
  | ck (n : Fin 4) (w : Fin 5)
  deriving DecidableEq, Repr

/-- MFS: a per-lane register into a V register, any other into an S register (R361). -/
inductive MfsOp where
  | lane (g : Guard) (d : VReg) (r : LaneSpec)
  | wave (d : SReg) (r : SpecReg)
  deriving DecidableEq, Repr

/-- MTS: %fflags from a V source, any other register from an S source (R362). -/
inductive MtsOp where
  | fflags (g : Guard) (b : VSrc)
  | wave (r : SpecReg) (b : SSrc)
  deriving DecidableEq, Repr

/-- CUNPK's three sub-functions with their sources (R199). -/
inductive UnpkOp where
  | bm (b : SReg)
  | rl
  | d16 (a : VReg) (b : SReg)
  deriving DecidableEq, Repr

/-- MCK's two forms (R284). -/
inductive MckOp where
  | col (d : VReg) (t : Ty)
  | ck (n : Fin 4)
  deriving DecidableEq, Repr

/-! ## Shapes of operand lists -/

/-- D, A, B with a type, rounding code and SAT (R219). -/
structure VBin where
  g : Guard
  d : VReg
  a : VReg
  b : VSrc
  t : Ty
  rnd : Rnd
  sat : Bool
  deriving DecidableEq, Repr

/-- D, A, B, C with a type, rounding code and SAT (R219). -/
structure VTern where
  g : Guard
  d : VReg
  a : VReg
  b : VSrc
  c : VReg
  t : Ty
  rnd : Rnd
  sat : Bool
  deriving DecidableEq, Repr

/-- D, A with a type, rounding code and SAT (R219). -/
structure VUn where
  g : Guard
  d : VReg
  a : VReg
  t : Ty
  rnd : Rnd
  sat : Bool
  deriving DecidableEq, Repr

/-- A compare into a predicate (R225, R232). -/
structure VCmpOp where
  g : Guard
  d : PReg
  a : VReg
  b : VSrc
  t : Ty
  cond : Cond
  any : Bool
  deriving DecidableEq, Repr

/-- A conversion: destination type, source type, part (R228, R229). -/
structure VCvt where
  g : Guard
  d : VReg
  a : VReg
  t : Ty
  src : Ty
  part : Fin 8
  rnd : Rnd
  sat : Bool
  deriving DecidableEq, Repr

/-- Scalar D, A, B (R363). -/
structure SBin where
  d : SReg
  a : SReg
  b : SSrc
  t : Ty
  sat : Bool
  deriving DecidableEq, Repr

/-- Scalar D, A (R363). -/
structure SUn where
  d : SReg
  a : SReg
  t : Ty
  deriving DecidableEq, Repr

/-- A block instruction that quantises (R245): auto selects the scale by the policy. -/
structure QuantOp where
  g : Guard
  d : VReg
  a : VReg
  t : Ty
  src : Ty
  rnd : Rnd
  auto : Bool
  policy : Policy
  deriving DecidableEq, Repr

/-- A shuffle (R258): addresses in B, relative or absolute. -/
structure ShflOp where
  g : Guard
  d : VReg
  a : VReg
  b : VSrc
  t : Ty
  rel : Bool
  deriving DecidableEq, Repr

/-- A per-lane memory access (R132): D or C is the data register, as the instruction has it. -/
structure LaneMem where
  g : Guard
  r : VReg
  a : VReg
  b : SSrc
  t : Ty
  sp : Space
  deriving DecidableEq, Repr

/-- A per-wave memory access (R132). -/
structure WaveMem where
  r : SReg
  a : SReg
  b : SSrc
  t : Ty
  sp : Space
  deriving DecidableEq, Repr

/-- A block load or store (R135). -/
structure BlockMem where
  g : Guard
  r : VReg
  a : SReg
  b : SSrc
  c : SReg
  t : Ty
  sp : Space
  deriving DecidableEq, Repr

/-- ATOM (R138). -/
structure AtomMem where
  g : Guard
  d : VReg
  a : VReg
  b : SSrc
  c : VReg
  t : Ty
  sp : Space
  op : AtomOp
  deriving DecidableEq, Repr

/-- RED (R138): no destination. -/
structure RedMem where
  g : Guard
  a : VReg
  b : SSrc
  c : VReg
  t : Ty
  sp : Space
  op : AtomOp
  deriving DecidableEq, Repr

/-- QPOP, QSTEAL (R132): destination, predicate, descriptor address. -/
structure DequeMem where
  g : Guard
  d : VReg
  a : VReg
  b : SSrc
  sp : Space
  p : PReg
  deriving DecidableEq, Repr

/-- A tile product (R284): descriptors in scalar registers; `c` is QMMA's join key and MMAX's count. -/
structure MmaOp where
  d : TReg
  a : SReg
  b : SReg
  t : Ty
  nk : Fin 16
  int : Bool
  deriving DecidableEq, Repr

/-! ## What crosses the package's edge -/

/-- A block of a collective in wire format with its scale beside it, or one element of a WIRE that is not MX
(R328): the scale, the codes, and whether it is poisoned. -/
structure WireBlock where
  scale  : Nat
  codes  : List Nat
  poison : Bool
  deriving DecidableEq, Repr

/-- What travels between the engines of a collective (R327-R329): a join with its digest, the root's word that every
participant has joined, a partial value for a level, the final value with NF, or the end without a write. A join bears the
number that its sender has given its command, which the root's word and the end bear back, and a run has a number: no
message of one collective enters another of the same ID (R331). -/
inductive CollMsg where
  | join (digest num : Nat)
  | start (num run : Nat)
  | part (run level : Nat) (blocks : List WireBlock)
  | final (run : Nat) (blocks : List WireBlock) (nf : Bool)
  | stop (num err : Nat)
  deriving DecidableEq, Repr

/-- The head of a packet that carries a message of a collective: its source, its number in the request flow and its
version (R320, R321); for a join also the number of its sender's command. -/
structure PacketHead where
  src : Nat
  seq : Nat
  ver : Nat
  num : Nat
  deriving DecidableEq, Repr

/-- A request of one package to another (R319). A pair read is the line reads of one block as one event (R303). A write
tells the home that its line is to be poisoned, where an engine writes a poisoned source (R97, R98), and that with it the
last part of a full-line write arrives (R97). A native write gives the place of its bytes behind the first line, `tail`
(R436); where these lie at another home, they go there by themselves. -/
inductive PodReq where
  | lineRead (addr : Nat)
  | pairRead (addr next : Nat)
  | write (addr : Nat) (bytes : List (Option Byte)) (poison whole : Bool)
  | nativeWrite (addr : Nat) (fmt : Nat) (tag : Nat) (scale : Byte) (bytes : List Byte) (tail : Nat) (whole : Bool)
  | nativeTail (addr fmt place : Nat) (bytes : List Byte)
  | atomic (addr : Nat) (op : AtomOp) (t : Ty) (v : Word) (cmp : Word)
  | collective (id : Nat) (m : CollMsg)
  deriving DecidableEq, Repr

/-- The answer to a pod request: data with line metadata, an old value, or the error response (R318, R319). -/
inductive PodResp where
  | line (bytes : List Byte) (md : BitVec 128) (poison : Bool)
  | pair (bytes : List Byte) (md : BitVec 128) (poison : Bool) (bytes2 : List Byte) (md2 : BitVec 128) (poison2 : Bool)
  | written
  | old (v : Word) (poison : Bool)
  | error
  deriving DecidableEq, Repr

/-- The answer of the host to a read or atomic (R335). -/
inductive HostResp where
  | data (bytes : List Byte)
  | error
  deriving DecidableEq, Repr

/-- One packet between packages (R320, R322, R327, R328). A notice leaves by a port; without a link it
announces staged tables. -/
inductive Packet where
  | request (src dst seq ver : Nat) (r : PodReq)
  | response (src dst seq ver : Nat) (r : PodResp)
  | ack (src dst seq ver : Nat)
  | notice (out ver : Nat) (link : Option (Nat × Nat))
  | collective (src dst seq ver id : Nat) (m : CollMsg)
  deriving DecidableEq, Repr

end Sys2Proof
end

