-- ==== Sys2Proof/Syntax.lean ====
section
/-!
DEFINITION. The instructions and the steps of the engines, the scheduler, the fabric and the host
interface: one constructor per row of the opcode table (spec/opcode_table.json,
spec/95_what_each_step_holds.md).
-/

namespace Sys2Proof

/-- One constructor per row of spec/opcode_table.json.
181 rows are instruction words (R50-R62); the others are steps that no instruction word names,
with the unit that makes the step and what the outside supplies as arguments.
The rows without operands stand last. -/
inductive Instr where
  -- control (R340)
  | bra (g : Guard) (all : Bool) (k : BitVec 32)
  | brs (g : Guard) (join : BitVec 16) (k : BitVec 32)
  | brx (g : Guard) (all : Bool) (a : SReg) (b : SSrc)
  | call (d : VReg) (k : BitVec 32)
  | calli (d : VReg) (a : SReg) (b : SSrc)
  | ret (a : VReg)
  | regang (b : SSrc)
  | clause (cls : ClauseClass) (len : Fin 16) (l st c m : Imm8)
  | wait (l st c m : Imm8)
  | bar (n : Fin 4) (b : SSrc)
  | arrive (n : Fin 4) (b : SSrc)
  | spawn (d : SReg) (p : PReg) (a : Fin 57) (b : SSrc)
  | release (tiles spad : Bool)
  | trap (code : Imm8)
  | mfs (o : MfsOp)
  | mts (o : MtsOp)
  | hint (o : HintOp)
  -- scalar (R363) and index registers (R367)
  | sadd (o : SBin)
  | ssub (o : SBin)
  | smul (o : SBin)
  | smulh (o : SBin)
  | sdiv (o : SBin)
  | srem (o : SBin)
  | sand (o : SBin)
  | sor (o : SBin)
  | sxor (o : SBin)
  | sshl (o : SBin)
  | sshr (o : SBin)
  | smin (o : SBin)
  | smax (o : SBin)
  | scmp (d a : SReg) (b : SSrc) (t : Ty) (cond : Cond)
  | ssel (d a : SReg) (b : SSrc) (c : SReg)
  | smov (d : SReg) (b : SSrc) (t : Ty)
  | slea (d a : SReg) (b : SSrc) (sh : Fin 8)
  | sbfx (o : SBin)
  | sbfi (d a : SReg) (b : SSrc) (c : SReg) (t : Ty)
  | spopc (o : SUn)
  | sclz (o : SUn)
  | sarg (d : SReg) (n : Imm8)
  | xsetb (d : XReg) (a : SReg) (b : SSrc)
  | xld (g : Guard) (d : XReg) (a : VReg)
  -- vector integer (R219)
  | vadd (o : VBin)
  | vsub (o : VBin)
  | vmul (o : VBin)
  | vmulh (o : VBin)
  | vmad (o : VTern)
  | vdiv (o : VBin)
  | vrem (o : VBin)
  | vand (o : VBin)
  | vor (o : VBin)
  | vxor (o : VBin)
  | vnot (o : VUn)
  | vshl (o : VBin)
  | vshr (o : VBin)
  | vmin (o : VBin)
  | vmax (o : VBin)
  | vabs (o : VUn)
  | vneg (o : VUn)
  | vcmp (o : VCmpOp)
  | vsel (g : Guard) (d a : VReg) (b : VSrc) (c : PReg)
  | vmov (g : Guard) (d : VReg) (b : VSrc) (t : Ty)
  | vpopc (o : VUn)
  | vclz (o : VUn)
  | vbfx (o : VBin)
  | vbfi (o : VTern)
  | vdot4 (o : VTern)
  | viota (g : Guard) (d : VReg) (a : SReg) (t : Ty)
  | vrdx (g : Guard) (d : VReg) (a : XReg)
  | vwrx (g : Guard) (d : XReg) (a : VReg)
  | vcvti (o : VCvt)
  | vpack (g : Guard) (d a b : VReg) (t src : Ty) (sat : Bool)
  | vunpk (g : Guard) (d a : VReg) (t src : Ty) (sat : Bool)
  | vpermb (g : Guard) (d a b c : VReg)
  -- vector floating point (R219)
  | vfadd (o : VBin)
  | vfsub (o : VBin)
  | vfmul (o : VBin)
  | vfma (o : VTern)
  | vfdiv (o : VBin)
  | vfsqrt (o : VUn)
  | vfmin (o : VBin)
  | vfmax (o : VBin)
  | vfcmp (o : VCmpOp)
  | vfclass (o : VUn)
  | vfrcp (o : VUn)
  | vfrsq (o : VUn)
  | vfexp2 (o : VUn)
  | vflog2 (o : VUn)
  | vfscale (o : VBin)
  | vfrnd (g : Guard) (d a : VReg) (t : Ty) (rnd : Rnd) (exact : Bool)
  | vfcvt (o : VCvt)
  | vfcvti (o : VCvt)
  | vicvtf (o : VCvt)
  | vfslice (g : Guard) (d a : VReg) (b : VSrc) (j p : Fin 8)
  | vfjoin (o : VTern)
  | voptm (g : Guard) (d a : VReg) (c : Fin 62)
  | vckadd (g : Guard) (ck : Fin 4) (a : VReg) (t : Ty) (neg : Bool)
  | vcktst (d : SReg) (a b : Fin 4) (c : SReg) (trap : Bool)
  | vfdot2 (g : Guard) (d a b c : VReg) (t : Ty) (rnd : Rnd) (sat : Bool)
  -- block-aware (R245)
  | bamax (g : Guard) (d a : VReg) (t : Ty)
  | bscale (g : Guard) (d a : VReg) (t : Ty) (policy : Policy) (byte1 : Bool)
  | bquant (o : QuantOp)
  | bdeq (g : Guard) (d a : VReg) (t src : Ty) (rnd : Rnd) (sat : Bool)
  | brescale (o : QuantOp)
  | scget (g : Guard) (d a : VReg)
  | scset (g : Guard) (d : VReg) (b : VSrc) (lo hi : Bool)
  | aqparm (g : Guard) (d a : VReg)
  | aquant (g : Guard) (d a b : VReg) (rnd : Rnd) (part : Fin 4)
  | adeq (g : Guard) (d a b : VReg) (rnd : Rnd) (sat : Bool) (part : Fin 4)
  -- cross-lane (R258)
  | xshfl (o : ShflOp)
  | xpush (o : ShflOp) (p : PReg)
  | xbfly (g : Guard) (d a b : VReg) (stage : Fin 5)
  | xbcast (g : Guard) (d a : VReg) (b : SSrc) (t : Ty)
  | xvote (g : Guard) (d : SReg) (a : PReg) (fn : VoteFn)
  | xred (g : Guard) (d : SReg) (a : VReg) (t : Ty) (rnd : Rnd) (op : RedOp)
  | xscan (g : Guard) (d a : VReg) (t : Ty) (rnd : Rnd) (op : RedOp) (excl : Bool)
  | xcompact (g : Guard) (d a : VReg) (b : PReg) (c : SReg)
  | xsample (g : Guard) (d : SReg) (a : VReg) (b : SSrc) (t : Ty)
  | xmatch (g : Guard) (d a : VReg) (t : Ty)
  -- memory (R132) and FENCE (R311)
  | ld (o : LaneMem)
  | st (o : LaneMem)
  | lds (o : WaveMem)
  | sts (o : WaveMem)
  | ldb (o : BlockMem)
  | stb (o : BlockMem)
  | atom (o : AtomMem)
  | red (o : RedMem)
  | fence (sc : Scope)
  | ownGive (a : SReg) (b : SSrc)
  | ownTake (a : SReg) (b : SSrc)
  | ownt (d a : SReg) (b : SSrc)
  | qpush (o : DequeMem) (c : VReg)
  | qpop (o : DequeMem)
  | qsteal (o : DequeMem)
  | pref (g : Guard) (a : VReg) (b : SSrc) (l2 : Bool)
  -- engines and trays (R151, R174, R180)
  | push (d : SReg) (p : PReg) (a : Fin 57) (b : SSrc)
  | engst (d : SReg) (b : SSrc) (fn : Fin 3)
  | trayputAppend (g : Guard) (d a : VReg) (b : SSrc) (c : VReg) (t : Ty) (op : AtomOp) (p : PReg)
  | trayputDrain (d : SReg) (p : PReg) (a : Fin 57) (b : SSrc)
  -- coordinates (R200)
  | copen (d : QReg) (a c : SReg) (mode : CurMode)
  | cnext (g : Guard) (d : VReg) (a : QReg) (c : SReg) (p : PReg)
  | csplit (g : Guard) (d a : VReg) (b : QReg)
  | cseek (d : QReg) (a b c : SReg)
  | csave (a : SReg) (b : SSrc) (c : QReg) (sp : Space)
  | cload (d : QReg) (a : SReg) (b : SSrc) (sp : Space)
  | cstatH (d : SReg) (a : QReg) (w : Fin 4)
  | cstatW (d : SReg) (a : QReg) (w : Fin 4)
  | ccloseH (d : QReg)
  | ccloseW (d : QReg)
  | cunpk (g : Guard) (d : VReg) (c : SReg) (p : PReg) (o : UnpkOp)
  -- matrix (R284)
  | accord (d a : SReg)
  | mma (o : MmaOp)
  | qmma (o : MmaOp) (c : SReg)
  | mmax (o : MmaOp) (c : SReg)
  | mzeroH (d : TReg) (i64 : Bool)
  | mzeroW (d : TReg) (i64 : Bool)
  | mload (d : TReg) (a : SReg) (b : SSrc) (t : Ty) (sp : Space)
  | mstore (a : SReg) (b : SSrc) (c : TReg) (t : Ty) (sp : Space) (rnd : Rnd)
  | mread (g : Guard) (d : VReg) (a : TReg) (b : SReg) (t : Ty)
  | mwrite (g : Guard) (d : TReg) (a : VReg) (b : SReg) (t : Ty)
  | mstatH (d : SReg) (a : TReg) (clr : Bool)
  | mstatW (d : SReg) (a : TReg) (clr : Bool)
  | wbload (a b : SReg) (t : Ty) (slot : Fin 8)
  | mfoldH (d : TReg)
  | mfoldW (d : TReg)
  | mscale (d : TReg) (b : SSrc)
  | mck (a : TReg) (o : MckOp)
  -- steps inside the core
  | hintExpiry (gid wave slice : Nat)
  | lCountedCompletion (gid wave : Nat)
  | sCountedCompletion (gid wave : Nat)
  | enlargerStep (gid : Nat)
  | matrixCompletion (gid wave : Nat)
  | commonRegisterWrite (die core : Nat)
  -- engines: the unit of a die takes its next command
  | engineHeadAging (die unit prio : Nat)
  | copyCmd (die eng : Nat)
  | gatherCmd (die eng : Nat)
  | importCmd (die eng : Nat)
  | exportCmd (die eng : Nat)
  | wbfillCmd (die eng : Nat)
  | landCmd (die eng : Nat)
  | trayDrain (die : Nat)
  | malformedCommand (die unit : Nat)
  -- translation
  | hostWalkRequest (die : Nat)
  | hostWalkAnswer (slot level : Nat) (leaf : Word)
  | hostWalkTimeout (n : Nat)
  | trinvRange (v : Word)
  | trinvAsid (v : Word)
  | trinvAll (v : Word)
  -- device registers and the fabric
  | registerWrite (off bytes : Nat) (v : Word)
  | fabcfgModeNone (v : Word)
  | fabcfgModeMesh (v : Word)
  | fabcfgModeSwitched (v : Word)
  | portTrainingDone (port : Nat) (up : Bool) (pkg far : Nat)
  | shadowRotation (port : Nat)
  | weakLane (port lane : Nat)
  | laneRecalibrated (port lane : Nat)
  | portDead (port : Nat)
  | advanceNotice (ver : Nat) (link : Option (Nat × Nat))
  | rtadv (v : Word)
  | packetForward (p : Packet)
  | podRequestArrival (src seq ver : Nat) (r : PodReq)
  | podResponseArrival (src seq ver : Nat) (r : PodResp)
  | retryTimerExpiry (pkg : Nat) (resp : Bool)
  | fabtmoExpiry (pkg : Nat)
  | dataLinkRetry (port : Nat)
  | d2dLinkDegraded (die link : Nat)
  -- collectives
  | allreduceCmd (die asid : Nat)
  | reduceCmd (die asid : Nat)
  | broadcastCmd (die asid : Nat)
  | collectiveJoin (h : PacketHead) (id digest : Nat)
  | collectiveJoinTimeout (id : Nat)
  | collectivePayload (h : PacketHead) (id : Nat) (m : CollMsg)
  -- the host port
  | bar4Read (off len : Nat)
  | bar4Write (off : Nat) (bytes : List Byte)
  | hostCompletion (r : HostResp)
  | hostWriteFailure (addr : Nat)
  | submit (die prio : Nat)
  -- the scheduler
  | groupPop (die core : Nat)
  | queueAging (die prio : Nat)
  | acquireAdmission (die core : Nat)
  | admissionSpill (die core : Nat)
  | opPointStable (die : Nat)
  | groupEnd (gid : Nat)
  | joinEnqueueRetry (gid : Nat)
  | vacreqVacate (v : Word)
  | vacreqRelease (v : Word)
  | groupSave (gid : Nat)
  | vacateTimeout (gid : Nat)
  -- faults and containment
  | faultServiceRequest (gid wave : Nat)
  | faultServiceAnswer (slot : Nat) (resp : Nat)
  | faultServiceTimeout (gid wave : Nat)
  | coreUncorrectableError (die core : Nat)
  | fencereqFence (v : Word)
  | fencereqDiscard (v : Word)
  | reservedOpcode (w : BitVec 32)
  | fetchFault (kind : Nat) (level : Nat) (va : Word)
  -- the system
  | loadreq (v : Word)
  | powerOnReset (pass : List Bool)
  | bringupRetry (pass : List Bool)
  | powerLimitExceeded (pmin : Nat)
  | measuredPowerUpdate (watts : Nat)
  -- the rows without operands: the words of R340, then the steps
  | nopH
  | nopW
  | joinH
  | joinW
  | yieldH
  | yieldW
  | exitH
  | exitW
  | acquireH
  | acquireW
  | tretH
  | tretW
  | trinvDone
  | completionTimeout
  | freeze
  | freezeNHigh
  | safelightReadout
  deriving DecidableEq, Repr

end Sys2Proof
end

