-- ==== Sys2Proof/WellFormed.lean ====
section
/-!
DEFINITION. What the operand types of Syntax.lean leave open and the spec's encoding tables
forbid: types, rounding codes, operand ranges and literals an instruction may carry.
-/

namespace Sys2Proof

/-- The 5-bit code of a type (R20). -/
def Ty.code : Ty → Nat
  | .none => 0 | .i8 => 1 | .n8 => 2 | .i16 => 3 | .n16 => 4 | .i32 => 5 | .n32 => 6
  | .i64 => 7 | .n64 => 8 | .f16 => 9 | .bf16 => 10 | .f32 => 11 | .f64 => 12
  | .e4m3 => 13 | .e5m2 => 14 | .e3m2 => 15 | .e2m3 => 16 | .e2m1 => 17 | .e8m0 => 18
  | .mxe4m3 => 19 | .mxe5m2 => 20 | .mxe3m2 => 21 | .mxe2m3 => 22 | .mxe2m1 => 23
  | .mxint8 => 24 | .aq8 => 25 | .x2f32 => 26

/-- Bits of one element in a register (R20, R214; a narrow element takes a byte, R27). -/
def Ty.width : Ty → Nat
  | .none => 64
  | .i8 => 8 | .n8 => 8 | .i16 => 16 | .n16 => 16 | .i32 => 32 | .n32 => 32
  | .i64 => 64 | .n64 => 64 | .f16 => 16 | .bf16 => 16 | .f32 => 32 | .f64 => 64
  | .x2f32 => 64
  | _ => 8

/-- The code lies in a range of the table of R20. -/
def Ty.within (t : Ty) (lo hi : Nat) : Bool := lo ≤ t.code && t.code ≤ hi

/-- Significand bits as R32 counts them. -/
def Ty.sigBits : Ty → Nat
  | .f64 => 53 | .f32 => 24 | .f16 => 11 | .bf16 => 8
  | .e4m3 => 4 | .e5m2 => 3 | .e3m2 => 3 | .e2m3 => 4 | .e2m1 => 2 | .e8m0 => 1
  | .i8 => 7 | .i16 => 15 | .i32 => 31 | .i64 => 63
  | .n8 => 8 | .n16 => 16 | .n32 => 32 | .n64 => 64
  | .mxe4m3 => 4 | .mxe5m2 => 3 | .mxe3m2 => 3 | .mxe2m3 => 4 | .mxe2m1 => 2
  | .mxint8 => 7 | .aq8 => 8
  | .none | .x2f32 => 0

/-- The rank of a source's largest finite magnitude among all types (R22, R23, R26, R28, R40): an MX source's is
Max × 2^127, an aq8 source's unbounded (R32). -/
def Ty.maxRank : Ty → Nat
  | .e2m1 => 0 | .e2m3 => 1 | .e3m2 => 2 | .i8 => 3 | .n8 => 4 | .e4m3 => 5 | .i16 => 6
  | .e5m2 => 7 | .f16 => 8 | .n16 => 9 | .i32 => 10 | .n32 => 11 | .i64 => 12 | .n64 => 13
  | .e8m0 => 14 | .mxint8 => 15 | .bf16 => 16 | .f32 => 17
  | .mxe2m1 => 18 | .mxe2m3 => 19 | .mxe3m2 => 20 | .mxe4m3 => 21 | .mxe5m2 => 22
  | .f64 => 23 | .aq8 => 24
  | .none | .x2f32 => 0

/-- A narrowing conversion from any type to one of the types 9-18 (R32). -/
def narrowing (dst src : Ty) : Bool :=
  dst != .f64 && (dst.sigBits < src.sigBits || dst.maxRank < src.maxRank)

/-- A guard other than 0b1111 (R55). -/
def Guard.wf (g : Guard) : Bool := !(g.inv && g.p == 7)

/-- The bits of K above those that the type reads are zero (R71). -/
def litOk (t : Ty) (k : BitVec 32) : Bool :=
  match t with
  | .i8 | .n8 => k.toNat < 256
  | .i16 | .n16 | .f16 | .bf16 => k.toNat < 65536
  | .none | .i32 | .n32 | .i64 | .n64 | .f32 | .f64 | .x2f32 => true
  | _ => k.toNat < 256

/-- A V source whose literal fits the type. -/
def VSrc.wf (t : Ty) : VSrc → Bool
  | .reg _ => true
  | .lit k => litOk t k

/-- An S source whose literal fits the type. -/
def SSrc.wf (t : Ty) : SSrc → Bool
  | .reg _ => true
  | .lit k => litOk t k

/-- An S source whose literal lies at or below a bound. -/
def SSrc.litLe (n : Nat) : SSrc → Bool
  | .reg _ => true
  | .lit k => k.toNat ≤ n

/-- Rounding codes 0-3 and 6 (R32: legal everywhere). -/
def Rnd.basic : Rnd → Bool
  | .rna => false
  | .sr => false
  | _ => true

/-- The literal of VFSCALE is read as the integer type of the operand's width (R230). -/
def scaleIntTy : Ty → Ty
  | .f16 => .i16
  | .bf16 => .i16
  | .f32 => .i32
  | _ => .i64

/-- Operands of an integer VBin: type range, SAT allowed. -/
def VBin.wfInt (o : VBin) (lo : Nat) (sat : Bool) : Bool :=
  o.g.wf && o.t.within lo 8 && o.b.wf o.t && o.rnd == .rne && (sat || !o.sat)

/-- Operands of an integer VUn. -/
def VUn.wfInt (o : VUn) (lo : Nat) (sat : Bool) : Bool :=
  o.g.wf && o.t.within lo 8 && o.rnd == .rne && (sat || !o.sat)

/-- Operands of an integer VTern. -/
def VTern.wfInt (o : VTern) (lo hi : Nat) (sat : Bool) : Bool :=
  o.g.wf && o.t.within lo hi && o.b.wf o.t && o.rnd == .rne && (sat || !o.sat)

/-- Operands of a floating-point VBin. -/
def VBin.wfFloat (o : VBin) : Bool :=
  o.g.wf && o.t.within 9 12 && o.b.wf o.t && o.rnd.basic

/-- A conversion: distinct types, and a part below their ratio (R228). -/
def VCvt.wfParts (o : VCvt) : Bool :=
  o.g.wf && o.t != o.src &&
    o.part.val < max o.t.width o.src.width / min o.t.width o.src.width

/-- Blocks per slice of an MX type (R243). -/
def Ty.blocks : Ty → Nat
  | .mxe2m1 => 2
  | _ => 1

/-- Registers that a run of 32 K values of the type fills (R243). -/
def runRegs (t : Ty) (blocks : Nat) : Nat := 32 * blocks * t.width / 256

/-- A run that starts at the register ends at v254 or below (R243). -/
def runOk (v : VReg) (n : Nat) : Bool := v.val + n ≤ 255

/-- Operations and types that go together (R139). -/
def atomOk (op : AtomOp) (t : Ty) : Bool :=
  (t.within 5 8 || t.within 11 12) &&
    match op with
    | .and | .or | .xor => t.within 5 8
    | _ => true

/-- Types legal in a space (R132): the `.c` space takes 64-bit types only. -/
def spaceTyOk (sp : Space) (t : Ty) : Bool :=
  match sp with
  | .c => t == .i64 || t == .n64 || t == .f64 || t == .x2f32
  | _ => true

/-- Types of LD, ST, LDS, STS (R132). -/
def memTyOk (sp : Space) (t : Ty) : Bool := (t.within 1 18 || t == .x2f32) && spaceTyOk sp t

/-- Writable special registers (R63). -/
def SpecReg.writable : SpecReg → Bool
  | .grain | .grainctr | .fmode | .tvec | .tcause | .tpc | .tlanes | .tinfo
  | .accord | .barst | .ck _ _ => true
  | _ => false

/-- Types of a tile product (R284). -/
def mmaTyOk (t : Ty) : Bool := t.within 9 10 || t.within 19 25

/-- Every condition that the encoding tables set beside the operand classes. -/
def Instr.wf : Instr → Bool
  | .bra g _ _ => g.wf
  | .brs g _ _ => g.wf
  | .brx g _ _ _ => g.wf
  | .regang b => b.litLe 255
  | .bar _ b => b.litLe 65535
  | .arrive _ b => b.litLe 65535
  | .spawn _ _ _ b => b.litLe 7
  | .release tiles spad => tiles || spad
  | .mfs (.lane g _ _) => g.wf
  | .mfs (.wave _ _) => true
  | .mts (.fflags g _) => g.wf
  | .mts (.wave r b) => r.writable &&
      match r, b with
      | .tlanes, .lit k => k.toNat < 2147483648
      | _, _ => true
  -- scalar
  | .sadd o | .ssub o | .smul o | .sdiv o | .sshl o => o.t.within 1 8 && o.b.wf o.t
  | .smulh o | .srem o | .sshr o | .smin o | .smax o =>
      o.t.within 1 8 && o.b.wf o.t && !o.sat
  | .sand o | .sor o | .sxor o => o.t.within 0 8 && o.b.wf o.t && !o.sat
  | .scmp _ _ b t cond => t.within 1 8 && b.wf t && cond != .un && cond != .or
  | .smov _ b t => t.within 0 8 && b.wf t
  | .sbfx o => o.t.within 5 8 && o.b.wf o.t && !o.sat
  | .sbfi _ _ b _ t => t.within 5 8 && b.wf t
  | .spopc o | .sclz o => o.t.within 1 8
  | .xsetb _ _ b => b.litLe 256
  | .xld g _ _ => g.wf
  -- vector integer
  | .vadd o | .vsub o | .vmul o | .vdiv o | .vshl o => o.wfInt 1 true
  | .vmulh o | .vrem o | .vshr o | .vmin o | .vmax o => o.wfInt 1 false
  | .vmad o => o.wfInt 1 8 true
  | .vand o | .vor o | .vxor o => o.wfInt 0 false
  | .vnot o => o.wfInt 0 false
  | .vabs o | .vneg o => o.wfInt 1 true
  | .vcmp o => o.g.wf && o.t.within 1 8 && o.b.wf o.t && o.cond != .un && o.cond != .or
  | .vsel g _ _ _ _ => g.wf
  | .vmov g _ b t => g.wf && t.within 0 12 && b.wf t &&
      match b with
      | .reg _ => t == .none
      | .lit _ => true
  | .vpopc o | .vclz o => o.wfInt 1 false
  | .vbfx o => o.wfInt 5 false
  | .vbfi o => o.wfInt 5 8 false
  | .vdot4 o => o.wfInt 5 6 true
  | .viota g _ _ t => g.wf && t.within 1 8
  | .vrdx g _ _ => g.wf
  | .vwrx g _ _ => g.wf
  | .vcvti o => o.wfParts && o.t.within 1 8 && o.src.within 1 8 && o.rnd == .rne
  | .vpack g _ _ _ t src _ => g.wf && t.within 1 6 && src.within 3 8 && src.width == 2 * t.width
  | .vunpk g d _ t src _ => g.wf && t.within 3 8 && src.within 1 6 && t.width == 2 * src.width
      && d.val ≤ 253
  | .vpermb g _ _ _ _ => g.wf
  -- vector floating point
  | .vfadd o | .vfsub o | .vfmul o | .vfdiv o => o.wfFloat
  | .vfma o => o.g.wf && o.t.within 9 12 && o.b.wf o.t && o.rnd.basic
  | .vfsqrt o => o.g.wf && o.t.within 9 12 && o.rnd.basic && !o.sat
  | .vfmin o | .vfmax o => o.wfFloat && o.rnd == .rne && !o.sat
  | .vfcmp o => o.g.wf && o.t.within 9 12 && o.b.wf o.t
  | .vfclass o => o.g.wf && o.t.within 9 12 && o.rnd == .rne && !o.sat
  | .vfrcp o | .vfrsq o | .vfexp2 o | .vflog2 o =>
      o.g.wf && o.t.within 9 11 && o.rnd == .rne && !o.sat
  | .vfscale o => o.g.wf && o.t.within 9 12 && o.b.wf (scaleIntTy o.t) && o.rnd.basic
  | .vfrnd g _ _ t rnd _ => g.wf && t.within 9 12 && rnd.basic
  | .vfcvt o => o.wfParts && o.t.within 9 18 && o.src.within 9 18 &&
      (o.rnd != .sr || narrowing o.t o.src)
  | .vfcvti o => o.wfParts && o.t.within 1 8 && o.src.within 9 12 && o.rnd != .sr
  | .vicvtf o => o.wfParts && o.t.within 9 12 && o.src.within 1 8 && o.rnd != .sr
  | .vfslice g _ _ _ _ _ => g.wf
  | .vfjoin o => o.g.wf && o.t == .f64 && o.rnd.basic
  | .voptm g d _ _ => g.wf && d.val ≤ 252
  | .vckadd g _ _ t _ => g.wf && (t == .i32 || t == .i64 || t == .f32 || t == .f64)
  | .vfdot2 g _ _ _ _ t rnd _ => g.wf && t.within 9 10 && rnd.basic
  -- block-aware
  | .bamax g _ a t => g.wf && t.within 9 11 && runOk a (runRegs t 1)
  | .bscale g _ _ t _ byte1 => g.wf && t.within 19 24 && (!byte1 || t == .mxe2m1)
  | .bquant o => o.g.wf && o.t.within 19 24 && o.src.within 9 11 &&
      (o.auto || o.policy == .floor) && runOk o.a (runRegs o.src o.t.blocks)
  | .bdeq g d _ t src rnd _ => g.wf && t.within 9 11 && src.within 19 24 && rnd != .sr &&
      runOk d (runRegs t src.blocks)
  | .brescale o => o.g.wf && o.t.within 19 24 && o.src.within 19 24 &&
      o.src.blocks == o.t.blocks && (o.auto || o.policy == .floor)
  | .scget g _ _ => g.wf
  | .scset g _ b lo hi => g.wf && b.wf .f16 && (lo || hi)
  | .aqparm g _ _ => g.wf
  | .aquant g _ _ _ _ _ => g.wf
  | .adeq g _ _ _ rnd _ _ => g.wf && rnd.basic
  -- cross-lane
  | .xshfl o => o.g.wf && o.t.within 0 12 && o.b.wf .i8
  | .xpush o _ => o.g.wf && o.t.within 0 12 && o.b.wf .i8
  | .xbfly g d _ _ _ => g.wf && d.val ≤ 253
  | .xbcast g _ _ b t => g.wf && t.within 0 12 && b.wf .i8
  | .xvote g _ _ _ => g.wf
  | .xred g _ _ t rnd op => g.wf && t.within 1 12 &&
      (if t.within 9 12 then rnd.basic && (op == .add || op == .min || op == .max) else rnd == .rne)
  | .xscan g _ _ t rnd op _ => g.wf && t.within 1 12 &&
      (if t.within 9 12 then rnd.basic && (op == .add || op == .min || op == .max) else rnd == .rne)
  | .xcompact g _ _ _ _ => g.wf
  | .xsample g _ _ _ t => g.wf && t.within 11 12
  | .xmatch g _ _ t => g.wf && (t == .none || t.within 5 8 || t.within 11 12)
  -- memory
  | .ld o | .st o => o.g.wf && memTyOk o.sp o.t
  | .lds o | .sts o => memTyOk o.sp o.t
  | .ldb o | .stb o => o.g.wf && (o.t == .none || o.t.within 19 24) && o.sp != .c
  | .atom o => o.g.wf && atomOk o.op o.t && spaceTyOk o.sp o.t && (o.op != .cas || o.c.val ≤ 253)
  | .red o => o.g.wf && atomOk o.op o.t && spaceTyOk o.sp o.t && o.op != .xchg && o.op != .cas
  | .ownGive _ b => b.litLe 512
  | .ownTake _ b => b.litLe 512
  | .ownt _ _ b => b.litLe 64
  | .qpush o _ => o.g.wf && o.sp != .c
  | .qpop o | .qsteal o => o.g.wf && o.sp != .c
  | .pref g _ _ _ => g.wf
  | .push _ _ _ b => b.litLe 1023
  | .engst _ b _ => b.litLe 65535
  | .trayputAppend g _ _ _ _ t op _ => g.wf && atomOk op t && op != .cas
  | .trayputDrain _ _ _ b => b.litLe 31
  -- coordinates
  | .cnext g d _ _ _ => g.wf && d.val ≤ 252
  | .csplit g d _ _ => g.wf && d.val ≤ 253
  | .csave _ _ _ sp => sp != .c
  | .cload _ _ _ sp => sp != .c
  | .cunpk g _ _ _ _ => g.wf
  -- matrix
  | .mma o => mmaTyOk o.t
  | .qmma o _ => mmaTyOk o.t
  | .mmax o _ => mmaTyOk o.t && o.nk == 0
  | .mload _ _ _ t sp => (t == .i64 || t == .f32) && sp != .c
  | .mstore _ _ _ t sp rnd => (t == .i64 || t.within 9 11) && sp != .c && rnd.basic &&
      (t.within 9 10 || rnd == .rne)
  | .mread g d _ _ t => g.wf && (t == .f32 || t == .i64 && d.val ≤ 253)
  | .mwrite g _ a _ t => g.wf && (t == .f32 || t == .i64 && a.val ≤ 253)
  | .wbload _ _ t _ => mmaTyOk t
  | .mck _ (.col d t) => d.val ≤ 253 && (t == .i64 || t == .f64)
  | .mck _ (.ck _) => true
  -- every value of the operand types is legal
  | .nopH | .nopW | .joinH | .joinW | .call .. | .calli .. | .ret .. | .clause .. | .wait ..
  | .yieldH | .yieldW | .exitH | .exitW | .acquireH | .acquireW | .trap .. | .tretH | .tretW
  | .hint .. | .ssel .. | .slea .. | .sarg .. | .vcktst .. | .fence .. | .copen .. | .cseek ..
  | .cstatH .. | .cstatW .. | .ccloseH .. | .ccloseW .. | .accord .. | .mzeroH .. | .mzeroW ..
  | .mstatH .. | .mstatW .. | .mfoldH .. | .mfoldW .. | .mscale .. => true
  -- the steps that no instruction word names carry no encoded operand
  | .hintExpiry .. | .lCountedCompletion .. | .sCountedCompletion .. | .enlargerStep ..
  | .matrixCompletion .. | .commonRegisterWrite .. | .engineHeadAging .. | .copyCmd ..
  | .gatherCmd .. | .importCmd .. | .exportCmd .. | .wbfillCmd .. | .landCmd .. | .trayDrain ..
  | .malformedCommand .. | .hostWalkRequest .. | .hostWalkAnswer .. | .hostWalkTimeout ..
  | .trinvRange .. | .trinvAsid .. | .trinvAll .. | .trinvDone | .registerWrite ..
  | .fabcfgModeNone .. | .fabcfgModeMesh .. | .fabcfgModeSwitched .. | .portTrainingDone ..
  | .shadowRotation .. | .weakLane .. | .laneRecalibrated .. | .portDead .. | .advanceNotice ..
  | .rtadv .. | .packetForward .. | .podRequestArrival .. | .podResponseArrival ..
  | .retryTimerExpiry .. | .fabtmoExpiry .. | .dataLinkRetry .. | .d2dLinkDegraded ..
  | .allreduceCmd .. | .reduceCmd .. | .broadcastCmd .. | .collectiveJoin ..
  | .collectiveJoinTimeout .. | .collectivePayload .. | .bar4Read .. | .bar4Write ..
  | .hostCompletion .. | .hostWriteFailure .. | .completionTimeout | .submit .. | .groupPop ..
  | .queueAging .. | .acquireAdmission .. | .admissionSpill .. | .opPointStable .. | .groupEnd ..
  | .joinEnqueueRetry .. | .vacreqVacate .. | .vacreqRelease .. | .groupSave ..
  | .vacateTimeout .. | .faultServiceRequest .. | .faultServiceAnswer ..
  | .faultServiceTimeout .. | .coreUncorrectableError .. | .fencereqFence ..
  | .fencereqDiscard .. | .reservedOpcode .. | .fetchFault .. | .loadreq .. | .powerOnReset ..
  | .bringupRetry .. | .powerLimitExceeded .. | .measuredPowerUpdate .. | .freeze
  | .freezeNHigh | .safelightReadout => true

end Sys2Proof
end

