-- ==== Sys2Proof/Decode.lean ====
section
/-!
DEFINITION. The decoder: the fields of an instruction word (R50-R53), the checks of R60 in their
order, and one row per opcode (R62).
After it, in the same file, the encoder, written from the same tables.
-/

namespace Sys2Proof

/-- The three forms of R50. -/
inductive Form where
  | h | w | l
  deriving DecidableEq, Repr

/-- The fields of R51. In form H, B, C, T and M are zero and F is X (R52); K is zero outside form L. -/
structure Fields where
  form : Form
  opc : Nat
  g : Nat
  d : Nat
  a : Nat
  b : Nat
  c : Nat
  t : Nat
  m : Nat
  f : Nat
  k : Nat
  deriving DecidableEq, Repr

/-- What the decoder answers: an instruction and its length in bytes, the number of the check of R60
that failed, or the number of bytes it needs. -/
inductive Decoded where
  | ok (i : Instr) (len : Nat)
  | illegal (check : Nat)
  | short (need : Nat)
  deriving DecidableEq, Repr

/-! ## Codes of the fields -/

/-- The type of a code (R20); reserved codes answer none. -/
def Ty.ofCode : Nat → Option Ty
  | 0 => some .none | 1 => some .i8 | 2 => some .n8 | 3 => some .i16 | 4 => some .n16
  | 5 => some .i32 | 6 => some .n32 | 7 => some .i64 | 8 => some .n64 | 9 => some .f16
  | 10 => some .bf16 | 11 => some .f32 | 12 => some .f64 | 13 => some .e4m3 | 14 => some .e5m2
  | 15 => some .e3m2 | 16 => some .e2m3 | 17 => some .e2m1 | 18 => some .e8m0
  | 19 => some .mxe4m3 | 20 => some .mxe5m2 | 21 => some .mxe3m2 | 22 => some .mxe2m3
  | 23 => some .mxe2m1 | 24 => some .mxint8 | 25 => some .aq8 | 26 => some .x2f32
  | _ => Option.none

/-- The type of a field, code 0 where the code is reserved. -/
def tyOf (n : Nat) : Ty := (Ty.ofCode n).getD .none

/-- Rounding codes (R32); code 7 is reserved. -/
def Rnd.code : Rnd → Nat
  | .rne => 0 | .rtz => 1 | .rup => 2 | .rdn => 3 | .rna => 4 | .sr => 5 | .dyn => 6

def rndOf : Nat → Rnd
  | 1 => .rtz | 2 => .rup | 3 => .rdn | 4 => .rna | 5 => .sr | 6 => .dyn | _ => .rne

def Cond.code : Cond → Nat
  | .eq => 0 | .ne => 1 | .lt => 2 | .le => 3 | .gt => 4 | .ge => 5 | .un => 6 | .or => 7

def condOf : Nat → Cond
  | 1 => .ne | 2 => .lt | 3 => .le | 4 => .gt | 5 => .ge | 6 => .un | 7 => .or | _ => .eq

def AtomOp.code : AtomOp → Nat
  | .add => 0 | .min => 1 | .max => 2 | .and => 3 | .or => 4 | .xor => 5 | .xchg => 6 | .cas => 7

def atomOpOf : Nat → AtomOp
  | 1 => .min | 2 => .max | 3 => .and | 4 => .or | 5 => .xor | 6 => .xchg | 7 => .cas | _ => .add

def RedOp.code : RedOp → Nat
  | .add => 0 | .min => 1 | .max => 2 | .and => 3 | .or => 4 | .xor => 5

def redOpOf : Nat → RedOp
  | 1 => .min | 2 => .max | 3 => .and | 4 => .or | 5 => .xor | _ => .add

def Space.code : Space → Nat
  | .g => 0 | .l => 1 | .c => 2

def spaceOf : Nat → Space
  | 1 => .l | 2 => .c | _ => .g

def Scope.code : Scope → Nat
  | .core => 0 | .quad => 1 | .die => 2 | .pkg => 3 | .pod => 4 | .sys => 5

def scopeOf : Nat → Scope
  | 1 => .quad | 2 => .die | 3 => .pkg | 4 => .pod | 5 => .sys | _ => .core

def Policy.code : Policy → Nat
  | .floor => 0 | .fit => 1

def policyOf : Nat → Policy
  | 1 => .fit | _ => .floor

def CurMode.code : CurMode → Nat
  | .isect => 0 | .merge => 1 | .expand => 2

def curModeOf : Nat → CurMode
  | 1 => .merge | 2 => .expand | _ => .isect

def VoteFn.code : VoteFn → Nat
  | .all => 0 | .any => 1 | .ballot => 2

def voteFnOf : Nat → VoteFn
  | 1 => .any | 2 => .ballot | _ => .all

def ClauseClass.code : ClauseClass → Nat
  | .vector => 0 | .memory => 1 | .matrix => 2 | .coord => 3

def clauseClassOf : Nat → ClauseClass
  | 1 => .memory | 2 => .matrix | 3 => .coord | _ => .vector

def LaneSpec.code : LaneSpec → Nat
  | .laneid => 0x00 | .sliceid => 0x01 | .fflags => 0x12

def laneSpecOf : Nat → Option LaneSpec
  | 0x00 => some .laneid | 0x01 => some .sliceid | 0x12 => some .fflags | _ => none

/-- The numbers of R63. -/
def SpecReg.code : SpecReg → Nat
  | .waveid => 0x02 | .groupid => 0x03 | .coreid => 0x04 | .quadid => 0x05 | .dieid => 0x06
  | .pkgid => 0x07 | .clock => 0x08 | .grain => 0x10 | .grainctr => 0x11 | .fmode => 0x13
  | .tvec => 0x18 | .tcause => 0x19 | .tpc => 0x1A | .tlanes => 0x1B | .tinfo => 0x1C
  | .amask => 0x20 | .accord => 0x21 | .cnt => 0x22 | .barst => 0x23 | .memcap => 0x24
  | .ck n w => 0x30 + 5 * n.val + w.val

def specRegOf : Nat → Option SpecReg
  | 0x02 => some .waveid | 0x03 => some .groupid | 0x04 => some .coreid | 0x05 => some .quadid
  | 0x06 => some .dieid | 0x07 => some .pkgid | 0x08 => some .clock | 0x10 => some .grain
  | 0x11 => some .grainctr | 0x13 => some .fmode | 0x18 => some .tvec | 0x19 => some .tcause
  | 0x1A => some .tpc | 0x1B => some .tlanes | 0x1C => some .tinfo | 0x20 => some .amask
  | 0x21 => some .accord | 0x22 => some .cnt | 0x23 => some .barst | 0x24 => some .memcap
  | 0x30 => some (.ck 0 0) | 0x31 => some (.ck 0 1) | 0x32 => some (.ck 0 2)
  | 0x33 => some (.ck 0 3) | 0x34 => some (.ck 0 4) | 0x35 => some (.ck 1 0)
  | 0x36 => some (.ck 1 1) | 0x37 => some (.ck 1 2) | 0x38 => some (.ck 1 3)
  | 0x39 => some (.ck 1 4) | 0x3A => some (.ck 2 0) | 0x3B => some (.ck 2 1)
  | 0x3C => some (.ck 2 2) | 0x3D => some (.ck 2 3) | 0x3E => some (.ck 2 4)
  | 0x3F => some (.ck 3 0) | 0x40 => some (.ck 3 1) | 0x41 => some (.ck 3 2)
  | 0x42 => some (.ck 3 3) | 0x43 => some (.ck 3 4)
  | _ => none

/-! ## Operand fields -/

def vregOf (n : Nat) : VReg := Fin.ofNat 256 n
def pregOf (n : Nat) : PReg := Fin.ofNat 8 n
def xregOf (n : Nat) : XReg := Fin.ofNat 4 n
def tregOf (n : Nat) : TReg := Fin.ofNat 16 n
def qregOf (n : Nat) : QReg := Fin.ofNat 4 n
def immOf (n : Nat) : Imm8 := Fin.ofNat 256 n

def sregOf (n : Nat) : SReg := if n < 64 then .s (Fin.ofNat 64 n) else .zero

def SReg.code : SReg → Nat
  | .s n => n.val
  | .zero => 255

def guardOf (n : Nat) : Guard := ⟨n / 8 % 2 == 1, Fin.ofNat 8 n⟩

def Guard.code (g : Guard) : Nat := g.p.val + 8 * g.inv.toNat

/-- The B source of class V: the register, or K in form L (R53). -/
def Fields.vsrc (x : Fields) : VSrc :=
  match x.form with
  | .l => .lit (BitVec.ofNat 32 x.k)
  | _ => .reg (vregOf x.b)

/-- The B source of class S: the register, or K in form L (R53). -/
def Fields.ssrc (x : Fields) : SSrc :=
  match x.form with
  | .l => .lit (BitVec.ofNat 32 x.k)
  | _ => .reg (sregOf x.b)

/-- Bit n of F. -/
def Fields.fbit (x : Fields) (n : Nat) : Bool := x.f / 2 ^ n % 2 == 1

/-- Field of class S (R56). -/
def sOk (n : Nat) : Bool := n < 64 || n == 255

/-- Field B of class S; in form L it denotes K (R57). -/
def Fields.bS (x : Fields) : Bool := x.form == .l || sOk x.b

/-- The bits of K above those the type reads are zero (R71). -/
def Fields.kOk (x : Fields) (t : Ty) : Bool := x.form != .l || litOk t (BitVec.ofNat 32 x.k)

/-- K lies at or below a bound. -/
def Fields.kLe (x : Fields) (n : Nat) : Bool := x.form != .l || x.k ≤ n

/-- A type code inside a range of R20. -/
def Fields.tIn (x : Fields) (lo hi : Nat) : Bool := lo ≤ x.t && x.t ≤ hi

/-- The modifier is a rounding code of the list, with SAT where allowed (Arithmetic layout, R58). -/
def Fields.mRnd (x : Fields) (codes : List Nat) (sat : Bool) : Bool :=
  x.m < 16 && codes.contains (x.m % 8) && (sat || x.m < 8)

/-- Rounding codes legal for every arithmetic instruction (R32). -/
def basicRnd : List Nat := [0, 1, 2, 3, 6]

def Fields.rnd (x : Fields) : Rnd := rndOf (x.m % 8)
def Fields.sat (x : Fields) : Bool := x.m / 8 % 2 == 1

/-- Memory layout with scope 0 and a space of the list (R132). -/
def Fields.mSpace (x : Fields) (hi : Nat) : Bool := x.m ≤ hi

def Fields.sp (x : Fields) : Space := spaceOf (x.m % 4)

/-! ## Shapes -/

def Fields.guard (x : Fields) : Guard := guardOf x.g

def Fields.vbin (x : Fields) : VBin :=
  ⟨x.guard, vregOf x.d, vregOf x.a, x.vsrc, tyOf x.t, x.rnd, x.sat⟩

def Fields.vtern (x : Fields) : VTern :=
  ⟨x.guard, vregOf x.d, vregOf x.a, x.vsrc, vregOf x.c, tyOf x.t, x.rnd, x.sat⟩

def Fields.vun (x : Fields) : VUn :=
  ⟨x.guard, vregOf x.d, vregOf x.a, tyOf x.t, x.rnd, x.sat⟩

def Fields.vcmp (x : Fields) : VCmpOp :=
  ⟨x.guard, pregOf x.d, vregOf x.a, x.vsrc, tyOf x.t, condOf (x.f % 8), x.fbit 3⟩

def Fields.vcvt (x : Fields) : VCvt :=
  ⟨x.guard, vregOf x.d, vregOf x.a, tyOf x.t, tyOf (x.f % 32), Fin.ofNat 8 (x.f / 32), x.rnd, x.sat⟩

def Fields.sbin (x : Fields) : SBin := ⟨sregOf x.d, sregOf x.a, x.ssrc, tyOf x.t, x.sat⟩

def Fields.sun (x : Fields) : SUn := ⟨sregOf x.d, sregOf x.a, tyOf x.t⟩

def Fields.quant (x : Fields) : QuantOp :=
  ⟨x.guard, vregOf x.d, vregOf x.a, tyOf x.t, tyOf (x.f % 32), x.rnd, x.fbit 5,
    policyOf (x.f / 64 % 2)⟩

def Fields.shfl (x : Fields) : ShflOp :=
  ⟨x.guard, vregOf x.d, vregOf x.a, x.vsrc, tyOf x.t, x.fbit 0⟩

def Fields.laneMem (x : Fields) (r : Nat) : LaneMem :=
  ⟨x.guard, vregOf r, vregOf x.a, x.ssrc, tyOf x.t, x.sp⟩

def Fields.waveMem (x : Fields) (r : Nat) : WaveMem :=
  ⟨sregOf r, sregOf x.a, x.ssrc, tyOf x.t, x.sp⟩

def Fields.blockMem (x : Fields) : BlockMem :=
  ⟨x.guard, vregOf x.d, sregOf x.a, x.ssrc, sregOf x.c, tyOf x.t, x.sp⟩

def Fields.dequeMem (x : Fields) : DequeMem :=
  ⟨x.guard, vregOf x.d, vregOf x.a, x.ssrc, x.sp, pregOf x.f⟩

def Fields.mma (x : Fields) : MmaOp :=
  ⟨tregOf x.d, sregOf x.a, sregOf x.b, tyOf x.t, Fin.ofNat 16 x.f, x.fbit 4⟩

/-! ## The rows -/

/-- What the checks 3, 4 and 6-9 of R60 find for one word, and the instruction it stands for. -/
structure Row where
  form  : Bool
  guard : Bool
  ty    : Bool
  md    : Bool
  fn    : Bool
  ops   : Bool
  instr : Instr
  deriving DecidableEq, Repr

/-- Legal forms. -/
def Fields.formWL (x : Fields) : Bool := x.form != .h
def Fields.formW (x : Fields) : Bool := x.form == .w
def Fields.formL (x : Fields) : Bool := x.form == .l
/-- Form W, or form H with X at or below a bound. -/
def Fields.formHW (x : Fields) (xmax : Nat) : Bool := x.form == .w || x.form == .h && x.f ≤ xmax

/-- G = 0b0111: the instruction acts on the wave as a whole (R55). -/
def Fields.always (x : Fields) : Bool := x.g == 7
/-- Any guard but 0b1111 (R55). -/
def Fields.anyG (x : Fields) : Bool := x.g != 15

/-- An instruction of the wave without operands: every field zero, forms H and W (R340). -/
def Fields.bare (x : Fields) (h w : Instr) : Row :=
  ⟨x.formHW 0, x.always, x.t == 0, x.m == 0, x.f == 0,
    x.d == 0 && x.a == 0 && x.b == 0 && x.c == 0, if x.form == .h then h else w⟩

/-- Scalar D, A, B (R363). -/
def Fields.rowSBin (x : Fields) (lo : Nat) (sat : Bool) (i : SBin → Instr) : Row :=
  ⟨x.formWL, x.always, x.tIn lo 8, x.m == 0 || sat && x.m == 8, x.f == 0,
    sOk x.d && sOk x.a && x.bS && x.c == 0 && x.kOk (tyOf x.t), i x.sbin⟩

/-- Integer D, A, B (R219). -/
def Fields.rowVBin (x : Fields) (lo : Nat) (sat : Bool) (i : VBin → Instr) : Row :=
  ⟨x.formWL, x.anyG, x.tIn lo 8, x.m == 0 || sat && x.m == 8, x.f == 0,
    x.c == 0 && x.kOk (tyOf x.t), i x.vbin⟩

/-- Integer D, A (R219). -/
def Fields.rowVUn (x : Fields) (lo : Nat) (sat : Bool) (i : VUn → Instr) : Row :=
  ⟨x.formW, x.anyG, x.tIn lo 8, x.m == 0 || sat && x.m == 8, x.f == 0,
    x.b == 0 && x.c == 0, i x.vun⟩

/-- Integer D, A, B, C (R219). -/
def Fields.rowVTern (x : Fields) (lo hi : Nat) (sat : Bool) (i : VTern → Instr) : Row :=
  ⟨x.formWL, x.anyG, x.tIn lo hi, x.m == 0 || sat && x.m == 8, x.f == 0,
    x.kOk (tyOf x.t), i x.vtern⟩

/-- Floating-point D, A, B (R219). -/
def Fields.rowFBin (x : Fields) (i : VBin → Instr) : Row :=
  ⟨x.formWL, x.anyG, x.tIn 9 12, x.mRnd basicRnd true, x.f == 0,
    x.c == 0 && x.kOk (tyOf x.t), i x.vbin⟩

/-- VFMIN and VFMAX (R219). -/
def Fields.rowFMinMax (x : Fields) (i : VBin → Instr) : Row :=
  ⟨x.formWL, x.anyG, x.tIn 9 12, x.m == 0, x.f == 0, x.c == 0 && x.kOk (tyOf x.t), i x.vbin⟩

/-- VFRCP and its like (R219). -/
def Fields.rowFUn (x : Fields) (hi : Nat) (i : VUn → Instr) : Row :=
  ⟨x.formW, x.anyG, x.tIn 9 hi, x.m == 0, x.f == 0, x.b == 0 && x.c == 0, i x.vun⟩

/-- The part of a conversion lies below the ratio of the widths, and the types differ (R228). -/
def Fields.partOk (x : Fields) : Bool :=
  let t := tyOf x.t
  let s := tyOf (x.f % 32)
  x.t != x.f % 32 && x.f / 32 < max t.width s.width / min t.width s.width

/-- A conversion with destination and source type ranges (R219). -/
def Fields.rowCvt (x : Fields) (tlo thi slo shi : Nat) (md : Bool) (i : VCvt → Instr) : Row :=
  ⟨x.formW, x.anyG, x.tIn tlo thi, md, slo ≤ x.f % 32 && x.f % 32 ≤ shi && x.partOk,
    x.b == 0 && x.c == 0, i x.vcvt⟩

/-- The rounding code of VFCVT: .sr only in a narrowing conversion, whatever type F[4:0] names (R32). A code to which R32
gives neither significand nor magnitude is left to check 8, except for T = f64, to which no conversion narrows. -/
def Fields.mCvt (x : Fields) : Bool :=
  x.mRnd [0, 1, 2, 3, 4, 5, 6] true &&
    (x.m % 8 != 5 || (x.t != 12 && !(1 ≤ x.f % 32 && x.f % 32 ≤ 25)) ||
      narrowing (tyOf x.t) (tyOf (x.f % 32)))

/-- The rounding code of XRED and XSCAN (R258). -/
def Fields.mRed (x : Fields) : Bool := if x.tIn 9 12 then x.mRnd basicRnd false else x.m == 0

/-- The types of XRED and XSCAN: operations 3-5 have no float form (R258). -/
def Fields.tRed (x : Fields) : Bool :=
  x.tIn 1 12 && !(x.tIn 9 12 && 3 ≤ x.f % 8 && x.f % 8 ≤ 5)

/-- Types of LD, ST, LDS and STS in the space of M (R132). -/
def Fields.tMem (x : Fields) : Bool :=
  (x.tIn 1 18 || x.t == 26) && (x.m % 4 != 2 || x.t == 7 || x.t == 8 || x.t == 12 || x.t == 26)

/-- The types of a memory operation (R139). -/
def Fields.tOp (x : Fields) (op : Nat) : Bool :=
  (x.tIn 5 8 || x.tIn 11 12) && (x.tIn 5 8 || !(3 ≤ op && op ≤ 5))

/-- Types of ATOM and RED, which the common registers bound further (R140). -/
def Fields.tAtom (x : Fields) (op : Nat) : Bool :=
  x.tOp op && (x.m % 4 != 2 || x.t == 7 || x.t == 8 || x.t == 12)

/-- Types of a tile product (R284). -/
def Fields.tMma (x : Fields) : Bool := x.tIn 9 10 || x.tIn 19 25

/-- Control, 0x00-0x16 (R340). -/
def rowControl (x : Fields) : Option Row :=
  match x.opc with
  | 0x00 => some (x.bare .nopH .nopW)
  | 0x01 => some ⟨x.formL, x.anyG, x.t == 0, x.m == 0, x.f ≤ 1, x.d == 0 && x.a == 0 && x.c == 0,
      .bra x.guard (x.fbit 0) (BitVec.ofNat 32 x.k)⟩
  | 0x02 => some ⟨x.formL, x.anyG, x.t == 0, x.m == 0, x.f == 0, x.c == 0,
      .brs x.guard (BitVec.ofNat 16 (x.d + 256 * x.a)) (BitVec.ofNat 32 x.k)⟩
  | 0x03 => some (x.bare .joinH .joinW)
  | 0x04 => some ⟨x.formWL, x.anyG, x.t == 0, x.m == 0, x.f ≤ 1,
      x.d == 0 && sOk x.a && x.bS && x.c == 0, .brx x.guard (x.fbit 0) (sregOf x.a) x.ssrc⟩
  | 0x05 => some ⟨x.formL, x.always, x.t == 0, x.m == 0, x.f == 0, x.a == 0 && x.c == 0,
      .call (vregOf x.d) (BitVec.ofNat 32 x.k)⟩
  | 0x06 => some ⟨x.formWL, x.always, x.t == 0, x.m == 0, x.f == 0,
      sOk x.a && x.bS && x.c == 0, .calli (vregOf x.d) (sregOf x.a) x.ssrc⟩
  | 0x07 => some ⟨x.formW, x.always, x.t == 0, x.m == 0, x.f == 0,
      x.d == 0 && x.b == 0 && x.c == 0, .ret (vregOf x.a)⟩
  | 0x08 => some ⟨x.formWL, x.always, x.t == 0, x.m == 0, x.f == 0,
      x.d == 0 && x.a == 0 && x.bS && x.c == 0 && x.kLe 255, .regang x.ssrc⟩
  | 0x09 => some ⟨x.formW, x.always, x.t == 0, x.m == 0, x.f / 16 ≤ 3, true,
      .clause (clauseClassOf (x.f / 16)) (Fin.ofNat 16 x.f) (immOf x.a) (immOf x.b) (immOf x.c)
        (immOf x.d)⟩
  | 0x0A => some ⟨x.formW, x.always, x.t == 0, x.m == 0, x.f == 0, true,
      .wait (immOf x.a) (immOf x.b) (immOf x.c) (immOf x.d)⟩
  | 0x0B => some (x.bare .yieldH .yieldW)
  | 0x0C => some ⟨x.formWL, x.always, x.t == 0, x.m == 0, x.f ≤ 3,
      x.d == 0 && x.a == 0 && x.bS && x.c == 0 && x.kLe 65535, .bar (Fin.ofNat 4 x.f) x.ssrc⟩
  | 0x0D => some ⟨x.formWL, x.always, x.t == 0, x.m == 0, x.f ≤ 3,
      x.d == 0 && x.a == 0 && x.bS && x.c == 0 && x.kLe 65535, .arrive (Fin.ofNat 4 x.f) x.ssrc⟩
  | 0x0E => some ⟨x.formWL, x.always, x.t == 0, x.m == 0, x.f ≤ 7,
      sOk x.d && x.a ≤ 56 && x.bS && x.c == 0 && x.kLe 7,
      .spawn (sregOf x.d) (pregOf x.f) (Fin.ofNat 57 x.a) x.ssrc⟩
  | 0x0F => some (x.bare .exitH .exitW)
  | 0x10 => some (x.bare .acquireH .acquireW)
  | 0x11 => some ⟨x.formW, x.always, x.t == 0, x.m == 0, 1 ≤ x.f && x.f ≤ 3,
      x.d == 0 && x.a == 0 && x.b == 0 && x.c == 0, .release (x.fbit 0) (x.fbit 1)⟩
  | 0x12 => some ⟨x.formW, x.always, x.t == 0, x.m == 0, true,
      x.d == 0 && x.a == 0 && x.b == 0 && x.c == 0, .trap (immOf x.f)⟩
  | 0x13 => some (x.bare .tretH .tretW)
  | 0x14 => some ⟨x.formW, if (laneSpecOf x.f).isSome then x.anyG else x.always, x.t == 0,
      x.m == 0, (laneSpecOf x.f).isSome || (specRegOf x.f).isSome,
      ((laneSpecOf x.f).isSome || sOk x.d) && x.a == 0 && x.b == 0 && x.c == 0,
      .mfs (match laneSpecOf x.f with
        | some r => .lane x.guard (vregOf x.d) r
        | none => .wave (sregOf x.d) ((specRegOf x.f).getD .waveid))⟩
  | 0x15 => some ⟨x.formWL, if x.f == 0x12 then x.anyG else x.always, x.t == 0, x.m == 0,
      x.f == 0x12 || ((specRegOf x.f).map SpecReg.writable).getD false,
      x.d == 0 && x.a == 0 && x.c == 0 && (x.f == 0x12 || x.bS) &&
        (x.f != 0x1B || x.kLe 0x7FFFFFFF),
      .mts (if x.f == 0x12 then .fflags x.guard x.vsrc
        else .wave ((specRegOf x.f).getD .waveid) x.ssrc)⟩
  | 0x16 => some ⟨x.formW, x.always, x.t == 0, x.m == 0, x.f ≤ 1,
      x.d == 0 && (if x.f == 1 then sOk x.a else x.a == 0) && x.b == 0 && x.c == 0,
      .hint (if x.f == 1 then .pace (sregOf x.a) else .spin)⟩
  | _ => none

/-- Scalar and index, 0x20-0x37 (R363, R367). -/
def rowScalar (x : Fields) : Option Row :=
  match x.opc with
  | 0x20 => some (x.rowSBin 1 true .sadd)
  | 0x21 => some (x.rowSBin 1 true .ssub)
  | 0x22 => some (x.rowSBin 1 true .smul)
  | 0x23 => some (x.rowSBin 1 false .smulh)
  | 0x24 => some (x.rowSBin 1 true .sdiv)
  | 0x25 => some (x.rowSBin 1 false .srem)
  | 0x26 => some (x.rowSBin 0 false .sand)
  | 0x27 => some (x.rowSBin 0 false .sor)
  | 0x28 => some (x.rowSBin 0 false .sxor)
  | 0x29 => some (x.rowSBin 1 true .sshl)
  | 0x2A => some (x.rowSBin 1 false .sshr)
  | 0x2B => some (x.rowSBin 1 false .smin)
  | 0x2C => some (x.rowSBin 1 false .smax)
  | 0x2D => some ⟨x.formWL, x.always, x.tIn 1 8, x.m == 0, x.f ≤ 5,
      sOk x.d && sOk x.a && x.bS && x.c == 0 && x.kOk (tyOf x.t),
      .scmp (sregOf x.d) (sregOf x.a) x.ssrc (tyOf x.t) (condOf x.f)⟩
  | 0x2E => some ⟨x.formWL, x.always, x.t == 0, x.m == 0, x.f == 0,
      sOk x.d && sOk x.a && x.bS && sOk x.c,
      .ssel (sregOf x.d) (sregOf x.a) x.ssrc (sregOf x.c)⟩
  | 0x2F => some ⟨x.formWL, x.always, x.tIn 0 8, x.m == 0, x.f == 0,
      sOk x.d && x.a == 0 && x.bS && x.c == 0 && x.kOk (tyOf x.t),
      .smov (sregOf x.d) x.ssrc (tyOf x.t)⟩
  | 0x30 => some ⟨x.formWL, x.always, x.t == 0, x.m == 0, x.f ≤ 7,
      sOk x.d && sOk x.a && x.bS && x.c == 0,
      .slea (sregOf x.d) (sregOf x.a) x.ssrc (Fin.ofNat 8 x.f)⟩
  | 0x31 => some (x.rowSBin 5 false .sbfx)
  | 0x32 => some ⟨x.formWL, x.always, x.tIn 5 8, x.m == 0, x.f == 0,
      sOk x.d && sOk x.a && x.bS && sOk x.c && x.kOk (tyOf x.t),
      .sbfi (sregOf x.d) (sregOf x.a) x.ssrc (sregOf x.c) (tyOf x.t)⟩
  | 0x33 => some ⟨x.formW, x.always, x.tIn 1 8, x.m == 0, x.f == 0,
      sOk x.d && sOk x.a && x.b == 0 && x.c == 0, .spopc x.sun⟩
  | 0x34 => some ⟨x.formW, x.always, x.tIn 1 8, x.m == 0, x.f == 0,
      sOk x.d && sOk x.a && x.b == 0 && x.c == 0, .sclz x.sun⟩
  | 0x35 => some ⟨x.formW, x.always, x.t == 0, x.m == 0, true,
      sOk x.d && x.a == 0 && x.b == 0 && x.c == 0, .sarg (sregOf x.d) (immOf x.f)⟩
  | 0x36 => some ⟨x.formWL, x.always, x.t == 0, x.m == 0, x.f == 0,
      x.d < 4 && sOk x.a && x.bS && x.c == 0 && x.kLe 256,
      .xsetb (xregOf x.d) (sregOf x.a) x.ssrc⟩
  | 0x37 => some ⟨x.formW, x.anyG, x.t == 0, x.m == 0, x.f == 0,
      x.d < 4 && x.b == 0 && x.c == 0, .xld x.guard (xregOf x.d) (vregOf x.a)⟩
  | _ => none

/-- Vector integer, 0x40-0x5F (R219). VPACK and VUNPK: R229 refuses a width pairing by check 6 and R219 a source type
outside the list by check 8, and neither says which holds of an F[4:0] that fails both. DESIGN CHOICE (log entry 62):
check 8, for an unlisted source has no pairing. -/
def rowVInt (x : Fields) : Option Row :=
  match x.opc with
  | 0x40 => some (x.rowVBin 1 true .vadd)
  | 0x41 => some (x.rowVBin 1 true .vsub)
  | 0x42 => some (x.rowVBin 1 true .vmul)
  | 0x43 => some (x.rowVBin 1 false .vmulh)
  | 0x44 => some (x.rowVTern 1 8 true .vmad)
  | 0x45 => some (x.rowVBin 1 true .vdiv)
  | 0x46 => some (x.rowVBin 1 false .vrem)
  | 0x47 => some (x.rowVBin 0 false .vand)
  | 0x48 => some (x.rowVBin 0 false .vor)
  | 0x49 => some (x.rowVBin 0 false .vxor)
  | 0x4A => some (x.rowVUn 0 false .vnot)
  | 0x4B => some (x.rowVBin 1 true .vshl)
  | 0x4C => some (x.rowVBin 1 false .vshr)
  | 0x4D => some (x.rowVBin 1 false .vmin)
  | 0x4E => some (x.rowVBin 1 false .vmax)
  | 0x4F => some (x.rowVUn 1 true .vabs)
  | 0x50 => some (x.rowVUn 1 true .vneg)
  | 0x51 => some ⟨x.formWL, x.anyG, x.tIn 1 8, x.m == 0, x.f < 16 && x.f % 8 ≤ 5,
      x.d < 8 && x.c == 0 && x.kOk (tyOf x.t), .vcmp x.vcmp⟩
  | 0x52 => some ⟨x.formWL, x.anyG, x.t == 0, x.m == 0, x.f == 0, x.c < 8,
      .vsel x.guard (vregOf x.d) (vregOf x.a) x.vsrc (pregOf x.c)⟩
  | 0x53 => some ⟨x.formWL, x.anyG, x.tIn 0 12 && (x.form != .w || x.t == 0), x.m == 0, x.f == 0,
      x.a == 0 && x.c == 0 && x.kOk (tyOf x.t), .vmov x.guard (vregOf x.d) x.vsrc (tyOf x.t)⟩
  | 0x54 => some (x.rowVUn 1 false .vpopc)
  | 0x55 => some (x.rowVUn 1 false .vclz)
  | 0x56 => some (x.rowVBin 5 false .vbfx)
  | 0x57 => some (x.rowVTern 5 8 false .vbfi)
  | 0x58 => some (x.rowVTern 5 6 true .vdot4)
  | 0x59 => some ⟨x.formW, x.anyG, x.tIn 1 8, x.m == 0, x.f == 0, sOk x.a && x.b == 0 && x.c == 0,
      .viota x.guard (vregOf x.d) (sregOf x.a) (tyOf x.t)⟩
  | 0x5A => some ⟨x.formW, x.anyG, x.t == 0, x.m == 0, x.f == 0, x.a < 4 && x.b == 0 && x.c == 0,
      .vrdx x.guard (vregOf x.d) (xregOf x.a)⟩
  | 0x5B => some ⟨x.formW, x.anyG, x.t == 0, x.m == 0, x.f == 0, x.d < 4 && x.b == 0 && x.c == 0,
      .vwrx x.guard (xregOf x.d) (vregOf x.a)⟩
  | 0x5C => some (x.rowCvt 1 8 1 8 (x.m == 0 || x.m == 8) .vcvti)
  | 0x5D => some ⟨x.formW, x.anyG, x.tIn 1 6 && (!(3 ≤ x.f % 32 && x.f % 32 ≤ 8) ||
        (tyOf (x.f % 32)).width == 2 * (tyOf x.t).width),
      x.m == 0 || x.m == 8, 3 ≤ x.f && x.f ≤ 8, x.c == 0,
      .vpack x.guard (vregOf x.d) (vregOf x.a) (vregOf x.b) (tyOf x.t) (tyOf x.f) x.sat⟩
  | 0x5E => some ⟨x.formW, x.anyG, x.tIn 3 8 && (!(1 ≤ x.f % 32 && x.f % 32 ≤ 6) ||
        (tyOf x.t).width == 2 * (tyOf (x.f % 32)).width),
      x.m == 0 || x.m == 8, 1 ≤ x.f && x.f ≤ 6, x.d ≤ 253 && x.b == 0 && x.c == 0,
      .vunpk x.guard (vregOf x.d) (vregOf x.a) (tyOf x.t) (tyOf x.f) x.sat⟩
  | 0x5F => some ⟨x.formW, x.anyG, x.t == 0, x.m == 0, x.f == 0, true,
      .vpermb x.guard (vregOf x.d) (vregOf x.a) (vregOf x.b) (vregOf x.c)⟩
  | _ => none

/-- Vector floating point, 0x60-0x78 (R219). -/
def rowVFloat (x : Fields) : Option Row :=
  match x.opc with
  | 0x60 => some (x.rowFBin .vfadd)
  | 0x61 => some (x.rowFBin .vfsub)
  | 0x62 => some (x.rowFBin .vfmul)
  | 0x63 => some ⟨x.formWL, x.anyG, x.tIn 9 12, x.mRnd basicRnd true, x.f == 0,
      x.kOk (tyOf x.t), .vfma x.vtern⟩
  | 0x64 => some (x.rowFBin .vfdiv)
  | 0x65 => some ⟨x.formW, x.anyG, x.tIn 9 12, x.mRnd basicRnd false, x.f == 0,
      x.b == 0 && x.c == 0, .vfsqrt x.vun⟩
  | 0x66 => some (x.rowFMinMax .vfmin)
  | 0x67 => some (x.rowFMinMax .vfmax)
  | 0x68 => some ⟨x.formWL, x.anyG, x.tIn 9 12, x.m == 0, x.f < 16,
      x.d < 8 && x.c == 0 && x.kOk (tyOf x.t), .vfcmp x.vcmp⟩
  | 0x69 => some (x.rowFUn 12 .vfclass)
  | 0x6A => some (x.rowFUn 11 .vfrcp)
  | 0x6B => some (x.rowFUn 11 .vfrsq)
  | 0x6C => some (x.rowFUn 11 .vfexp2)
  | 0x6D => some (x.rowFUn 11 .vflog2)
  | 0x6E => some ⟨x.formWL, x.anyG, x.tIn 9 12, x.mRnd basicRnd true, x.f == 0,
      x.c == 0 && x.kOk (scaleIntTy (tyOf x.t)), .vfscale x.vbin⟩
  | 0x6F => some ⟨x.formW, x.anyG, x.tIn 9 12, x.mRnd basicRnd false, x.f ≤ 1,
      x.b == 0 && x.c == 0,
      .vfrnd x.guard (vregOf x.d) (vregOf x.a) (tyOf x.t) x.rnd (x.fbit 0)⟩
  | 0x70 => some (x.rowCvt 9 18 9 18 x.mCvt .vfcvt)
  | 0x71 => some (x.rowCvt 1 8 9 12 (x.mRnd [0, 1, 2, 3, 4, 6] true) .vfcvti)
  | 0x72 => some (x.rowCvt 9 12 1 8 (x.mRnd [0, 1, 2, 3, 4, 6] true) .vicvtf)
  | 0x73 => some ⟨x.formWL, x.anyG, x.t == 1, x.m == 0, x.f < 64, x.c == 0,
      .vfslice x.guard (vregOf x.d) (vregOf x.a) x.vsrc (Fin.ofNat 8 x.f) (Fin.ofNat 8 (x.f / 8))⟩
  | 0x74 => some ⟨x.formWL, x.anyG, x.t == 12, x.mRnd basicRnd true, x.f == 0, true,
      .vfjoin x.vtern⟩
  | 0x75 => some ⟨x.formW, x.anyG, x.t == 11, x.m == 0, x.f == 0,
      x.d ≤ 252 && x.b == 0 && x.c ≤ 61,
      .voptm x.guard (vregOf x.d) (vregOf x.a) (Fin.ofNat 62 x.c)⟩
  | 0x76 => some ⟨x.formW, x.anyG, x.t == 5 || x.t == 7 || x.t == 11 || x.t == 12, x.m == 0,
      x.f ≤ 1, x.d ≤ 3 && x.b == 0 && x.c == 0,
      .vckadd x.guard (Fin.ofNat 4 x.d) (vregOf x.a) (tyOf x.t) (x.fbit 0)⟩
  | 0x77 => some ⟨x.formW, x.always, x.t == 0, x.m == 0, x.f ≤ 1,
      sOk x.d && x.a ≤ 3 && x.b ≤ 3 && sOk x.c,
      .vcktst (sregOf x.d) (Fin.ofNat 4 x.a) (Fin.ofNat 4 x.b) (sregOf x.c) (x.fbit 0)⟩
  | 0x78 => some ⟨x.formW, x.anyG, x.tIn 9 10, x.mRnd basicRnd true, x.f == 0, true,
      .vfdot2 x.guard (vregOf x.d) (vregOf x.a) (vregOf x.b) (vregOf x.c) (tyOf x.t) x.rnd x.sat⟩
  | _ => none

/-- Block-aware and cross-lane, 0x80-0x99 (R245, R258). -/
def rowBlock (x : Fields) : Option Row :=
  match x.opc with
  | 0x80 => some ⟨x.formW, x.anyG, x.tIn 9 11, x.m == 0, x.f == 0,
      x.b == 0 && x.c == 0 && runOk (vregOf x.a) (runRegs (tyOf x.t) 1),
      .bamax x.guard (vregOf x.d) (vregOf x.a) (tyOf x.t)⟩
  | 0x81 => some ⟨x.formW, x.anyG, x.tIn 19 24, x.m ≤ 1, x.f == 0 || x.f == 1 && x.t == 23,
      x.b == 0 && x.c == 0,
      .bscale x.guard (vregOf x.d) (vregOf x.a) (tyOf x.t) (policyOf x.m) (x.fbit 0)⟩
  | 0x82 => some ⟨x.formW, x.anyG, x.tIn 19 24, x.mRnd [0, 1, 2, 3, 4, 5, 6] false,
      x.f < 128 && 9 ≤ x.f % 32 && x.f % 32 ≤ 11 && (x.fbit 5 || !x.fbit 6),
      x.b == 0 && x.c == 0 &&
        runOk (vregOf x.a) (runRegs (tyOf (x.f % 32)) (tyOf x.t).blocks), .bquant x.quant⟩
  | 0x83 => some ⟨x.formW, x.anyG, x.tIn 9 11, x.mRnd [0, 1, 2, 3, 4, 6] true,
      19 ≤ x.f && x.f ≤ 24,
      x.b == 0 && x.c == 0 && runOk (vregOf x.d) (runRegs (tyOf x.t) (tyOf x.f).blocks),
      .bdeq x.guard (vregOf x.d) (vregOf x.a) (tyOf x.t) (tyOf x.f) x.rnd x.sat⟩
  | 0x84 => some ⟨x.formW, x.anyG, x.tIn 19 24, x.mRnd [0, 1, 2, 3, 4, 5, 6] false,
      x.f < 128 && 19 ≤ x.f % 32 && x.f % 32 ≤ 24 &&
        (tyOf (x.f % 32)).blocks == (tyOf x.t).blocks && (x.fbit 5 || !x.fbit 6),
      x.b == 0 && x.c == 0, .brescale x.quant⟩
  | 0x85 => some ⟨x.formW, x.anyG, x.t == 0, x.m == 0, x.f == 0, x.b == 0 && x.c == 0,
      .scget x.guard (vregOf x.d) (vregOf x.a)⟩
  | 0x86 => some ⟨x.formWL, x.anyG, x.t == 0, x.m == 0, 1 ≤ x.f && x.f ≤ 3,
      x.a == 0 && x.c == 0 && x.kLe 65535,
      .scset x.guard (vregOf x.d) x.vsrc (x.fbit 0) (x.fbit 1)⟩
  | 0x87 => some ⟨x.formW, x.anyG, x.t == 25, x.m == 0, x.f == 0, x.b == 0 && x.c == 0,
      .aqparm x.guard (vregOf x.d) (vregOf x.a)⟩
  | 0x88 => some ⟨x.formW, x.anyG, x.t == 25, x.mRnd [0, 1, 2, 3, 4, 5, 6] false,
      x.f % 32 == 11 && x.f / 32 ≤ 3, x.c == 0,
      .aquant x.guard (vregOf x.d) (vregOf x.a) (vregOf x.b) x.rnd (Fin.ofNat 4 (x.f / 32))⟩
  | 0x89 => some ⟨x.formW, x.anyG, x.t == 11, x.mRnd basicRnd true,
      x.f % 32 == 25 && x.f / 32 ≤ 3, x.c == 0,
      .adeq x.guard (vregOf x.d) (vregOf x.a) (vregOf x.b) x.rnd x.sat (Fin.ofNat 4 (x.f / 32))⟩
  | 0x90 => some ⟨x.formWL, x.anyG, x.tIn 0 12, x.m == 0, x.f ≤ 1, x.c == 0 && x.kLe 255,
      .xshfl x.shfl⟩
  | 0x91 => some ⟨x.formWL, x.anyG, x.tIn 0 12, x.m == 0, x.f ≤ 1, x.c < 8 && x.kLe 255,
      .xpush x.shfl (pregOf x.c)⟩
  | 0x92 => some ⟨x.formW, x.anyG, x.t == 0, x.m == 0, x.f ≤ 4, x.d ≤ 253 && x.c == 0,
      .xbfly x.guard (vregOf x.d) (vregOf x.a) (vregOf x.b) (Fin.ofNat 5 x.f)⟩
  | 0x93 => some ⟨x.formWL, x.anyG, x.tIn 0 12, x.m == 0, x.f == 0, x.bS && x.c == 0 && x.kLe 255,
      .xbcast x.guard (vregOf x.d) (vregOf x.a) x.ssrc (tyOf x.t)⟩
  | 0x94 => some ⟨x.formW, x.anyG, x.t == 0, x.m == 0, x.f ≤ 2,
      sOk x.d && x.a < 8 && x.b == 0 && x.c == 0,
      .xvote x.guard (sregOf x.d) (pregOf x.a) (voteFnOf x.f)⟩
  | 0x95 => some ⟨x.formW, x.anyG, x.tRed, x.mRed, x.f ≤ 5, sOk x.d && x.b == 0 && x.c == 0,
      .xred x.guard (sregOf x.d) (vregOf x.a) (tyOf x.t) x.rnd (redOpOf x.f)⟩
  | 0x96 => some ⟨x.formW, x.anyG, x.tRed, x.mRed, x.f < 16 && x.f % 8 ≤ 5, x.b == 0 && x.c == 0,
      .xscan x.guard (vregOf x.d) (vregOf x.a) (tyOf x.t) x.rnd (redOpOf (x.f % 8)) (x.fbit 3)⟩
  | 0x97 => some ⟨x.formW, x.anyG, x.t == 0, x.m == 0, x.f == 0, x.b < 8 && sOk x.c,
      .xcompact x.guard (vregOf x.d) (vregOf x.a) (pregOf x.b) (sregOf x.c)⟩
  | 0x98 => some ⟨x.formWL, x.anyG, x.tIn 11 12, x.m == 0, x.f == 0,
      sOk x.d && x.bS && x.c == 0,
      .xsample x.guard (sregOf x.d) (vregOf x.a) x.ssrc (tyOf x.t)⟩
  | 0x99 => some ⟨x.formW, x.anyG, x.t == 0 || x.tIn 5 8 || x.tIn 11 12, x.m == 0, x.f == 0,
      x.b == 0 && x.c == 0, .xmatch x.guard (vregOf x.d) (vregOf x.a) (tyOf x.t)⟩
  | _ => none

/-- Memory, engines and trays, 0xA0-0xB2 (R132, R151, R174, R180, R311). -/
def rowMem (x : Fields) : Option Row :=
  match x.opc with
  | 0xA0 => some ⟨x.formWL, x.anyG, x.tMem, x.mSpace 2, x.f == 0, x.bS && x.c == 0,
      .ld (x.laneMem x.d)⟩
  | 0xA1 => some ⟨x.formWL, x.anyG, x.tMem, x.mSpace 2, x.f == 0, x.d == 0 && x.bS,
      .st (x.laneMem x.c)⟩
  | 0xA2 => some ⟨x.formWL, x.always, x.tMem, x.mSpace 2, x.f == 0,
      sOk x.d && sOk x.a && x.bS && x.c == 0, .lds (x.waveMem x.d)⟩
  | 0xA3 => some ⟨x.formWL, x.always, x.tMem, x.mSpace 2, x.f == 0,
      x.d == 0 && sOk x.a && x.bS && sOk x.c, .sts (x.waveMem x.c)⟩
  | 0xA4 => some ⟨x.formWL, x.anyG, x.t == 0 || x.tIn 19 24, x.mSpace 1, x.f == 0,
      sOk x.a && x.bS && sOk x.c, .ldb x.blockMem⟩
  | 0xA5 => some ⟨x.formWL, x.anyG, x.t == 0 || x.tIn 19 24, x.mSpace 1, x.f == 0,
      sOk x.a && x.bS && sOk x.c, .stb x.blockMem⟩
  | 0xA6 => some ⟨x.formWL, x.anyG, x.tAtom x.f, x.mSpace 2, x.f ≤ 7,
      x.bS && (x.f != 7 || x.c ≤ 253),
      .atom ⟨x.guard, vregOf x.d, vregOf x.a, x.ssrc, vregOf x.c, tyOf x.t, x.sp, atomOpOf x.f⟩⟩
  | 0xA7 => some ⟨x.formWL, x.anyG, x.tAtom x.f, x.mSpace 2, x.f ≤ 5, x.d == 0 && x.bS,
      .red ⟨x.guard, vregOf x.a, x.ssrc, vregOf x.c, tyOf x.t, x.sp, atomOpOf x.f⟩⟩
  | 0xA8 => some ⟨x.formW, x.always, x.t == 0, x.m ≤ 5, x.f == 0,
      x.d == 0 && x.a == 0 && x.b == 0 && x.c == 0, .fence (scopeOf x.m)⟩
  | 0xA9 => some ⟨x.formWL, x.always, x.t == 0, x.m == 0, x.f ≤ 1,
      x.d == 0 && sOk x.a && x.bS && x.c == 0 && x.kLe 512,
      if x.f == 0 then .ownGive (sregOf x.a) x.ssrc else .ownTake (sregOf x.a) x.ssrc⟩
  | 0xAA => some ⟨x.formWL, x.always, x.t == 0, x.m == 0, x.f == 0,
      sOk x.d && sOk x.a && x.bS && x.c == 0 && x.kLe 64,
      .ownt (sregOf x.d) (sregOf x.a) x.ssrc⟩
  | 0xAB => some ⟨x.formWL, x.anyG, x.t == 0, x.mSpace 1, x.f ≤ 7, x.bS,
      .qpush x.dequeMem (vregOf x.c)⟩
  | 0xAC => some ⟨x.formWL, x.anyG, x.t == 0, x.mSpace 1, x.f ≤ 7, x.bS && x.c == 0,
      .qpop x.dequeMem⟩
  | 0xAD => some ⟨x.formWL, x.anyG, x.t == 0, x.mSpace 1, x.f ≤ 7, x.bS && x.c == 0,
      .qsteal x.dequeMem⟩
  | 0xAE => some ⟨x.formWL, x.anyG, x.t == 0, x.mSpace 0, x.f ≤ 1, x.d == 0 && x.bS && x.c == 0,
      .pref x.guard (vregOf x.a) x.ssrc (x.fbit 0)⟩
  | 0xB0 => some ⟨x.formWL, x.always, x.t == 0, x.m == 0, x.f ≤ 7,
      sOk x.d && x.a ≤ 56 && x.bS && x.c == 0 && x.kLe 1023,
      .push (sregOf x.d) (pregOf x.f) (Fin.ofNat 57 x.a) x.ssrc⟩
  | 0xB1 => some ⟨x.formWL, x.always, x.t == 0, x.m == 0, x.f ≤ 2,
      sOk x.d && x.a == 0 && x.bS && x.c == 0 && x.kLe 65535,
      .engst (sregOf x.d) x.ssrc (Fin.ofNat 3 x.f)⟩
  | 0xB2 =>
    if x.f < 128 then
      some ⟨x.formWL, x.anyG, x.tOp (x.f / 8 % 8), x.m == 0, x.f < 64 && x.f / 8 ≤ 6, x.bS,
        .trayputAppend x.guard (vregOf x.d) (vregOf x.a)
          x.ssrc (vregOf x.c) (tyOf x.t) (atomOpOf (x.f / 8)) (pregOf x.f)⟩
    else
      some ⟨x.formWL, x.always, x.t == 0, x.m == 0, x.f < 136,
        sOk x.d && x.a ≤ 56 && x.bS && x.c == 0 && x.kLe 31,
        .trayputDrain (sregOf x.d) (pregOf x.f) (Fin.ofNat 57 x.a) x.ssrc⟩
  | _ => none

/-- Coordinates and the matrix engine, 0xC0-0xDD (R200, R284). -/
def rowMatrix (x : Fields) : Option Row :=
  match x.opc with
  | 0xC0 => some ⟨x.formW, x.always, x.t == 0, x.m == 0, x.f ≤ 2,
      x.d < 4 && sOk x.a && x.b == 0 && sOk x.c,
      .copen (qregOf x.d) (sregOf x.a) (sregOf x.c) (curModeOf x.f)⟩
  | 0xC1 => some ⟨x.formW, x.anyG, x.t == 0, x.m == 0, x.f ≤ 7,
      x.d ≤ 252 && x.a < 4 && x.b == 0 && sOk x.c,
      .cnext x.guard (vregOf x.d) (qregOf x.a) (sregOf x.c) (pregOf x.f)⟩
  | 0xC2 => some ⟨x.formW, x.anyG, x.t == 0, x.m == 0, x.f == 0,
      x.d ≤ 253 && x.b < 4 && x.c == 0,
      .csplit x.guard (vregOf x.d) (vregOf x.a) (qregOf x.b)⟩
  | 0xC3 => some ⟨x.formW, x.always, x.t == 0, x.m == 0, x.f == 0,
      x.d < 4 && sOk x.a && sOk x.b && sOk x.c,
      .cseek (qregOf x.d) (sregOf x.a) (sregOf x.b) (sregOf x.c)⟩
  | 0xC4 => some ⟨x.formWL, x.always, x.t == 0, x.mSpace 1, x.f == 0,
      x.d == 0 && sOk x.a && x.bS && x.c < 4, .csave (sregOf x.a) x.ssrc (qregOf x.c) x.sp⟩
  | 0xC5 => some ⟨x.formWL, x.always, x.t == 0, x.mSpace 1, x.f == 0,
      x.d < 4 && sOk x.a && x.bS && x.c == 0, .cload (qregOf x.d) (sregOf x.a) x.ssrc x.sp⟩
  | 0xC6 => some ⟨x.formHW 3, x.always, x.t == 0, x.m == 0, x.f ≤ 3,
      sOk x.d && x.a < 4 && x.b == 0 && x.c == 0,
      if x.form == .h then .cstatH (sregOf x.d) (qregOf x.a) (Fin.ofNat 4 x.f)
      else .cstatW (sregOf x.d) (qregOf x.a) (Fin.ofNat 4 x.f)⟩
  | 0xC7 => some ⟨x.formHW 0, x.always, x.t == 0, x.m == 0, x.f == 0,
      x.d < 4 && x.a == 0 && x.b == 0 && x.c == 0,
      if x.form == .h then .ccloseH (qregOf x.d) else .ccloseW (qregOf x.d)⟩
  | 0xC8 => some ⟨x.formW, x.anyG, x.t == 0, x.m == 0, x.f < 32 && x.f / 8 ≤ 2,
      (if x.f / 8 == 2 then true else x.a == 0) && (if x.f / 8 == 1 then x.b == 0 else sOk x.b) &&
        sOk x.c,
      .cunpk x.guard (vregOf x.d) (sregOf x.c) (pregOf x.f)
        (if x.f / 8 == 0 then .bm (sregOf x.b)
         else if x.f / 8 == 1 then .rl
         else .d16 (vregOf x.a) (sregOf x.b))⟩
  | 0xD0 => some ⟨x.formW, x.always, x.t == 0, x.m == 0, x.f == 0,
      sOk x.d && sOk x.a && x.b == 0 && x.c == 0, .accord (sregOf x.d) (sregOf x.a)⟩
  | 0xD1 => some ⟨x.formW, x.always, x.tMma, x.m == 0, x.f < 32,
      x.d < 16 && sOk x.a && sOk x.b && x.c == 0, .mma x.mma⟩
  | 0xD2 => some ⟨x.formW, x.always, x.tMma, x.m == 0, x.f < 32,
      x.d < 16 && sOk x.a && sOk x.b && sOk x.c, .qmma x.mma (sregOf x.c)⟩
  | 0xD3 => some ⟨x.formW, x.always, x.tMma, x.m == 0, x.f == 0 || x.f == 16,
      x.d < 16 && sOk x.a && sOk x.b && sOk x.c, .mmax x.mma (sregOf x.c)⟩
  | 0xD4 => some ⟨x.formHW 1, x.always, x.t == 0, x.m == 0, x.f ≤ 1,
      x.d < 16 && x.a == 0 && x.b == 0 && x.c == 0,
      if x.form == .h then .mzeroH (tregOf x.d) (x.fbit 0) else .mzeroW (tregOf x.d) (x.fbit 0)⟩
  | 0xD5 => some ⟨x.formWL, x.always, x.t == 7 || x.t == 11, x.mSpace 1, x.f == 0,
      x.d < 16 && sOk x.a && x.bS && x.c == 0,
      .mload (tregOf x.d) (sregOf x.a) x.ssrc (tyOf x.t) x.sp⟩
  | 0xD6 => some ⟨x.formWL, x.always, x.t == 7 || x.tIn 9 11, x.mSpace 1,
      if x.tIn 9 10 then basicRnd.contains x.f else x.f == 0,
      x.d == 0 && sOk x.a && x.bS && x.c < 16,
      .mstore (sregOf x.a) x.ssrc (tregOf x.c) (tyOf x.t) x.sp (rndOf x.f)⟩
  | 0xD7 => some ⟨x.formW, x.anyG, x.t == 7 || x.t == 11, x.m == 0, x.f == 0,
      (x.t != 7 || x.d ≤ 253) && x.a < 16 && sOk x.b && x.c == 0,
      .mread x.guard (vregOf x.d) (tregOf x.a) (sregOf x.b) (tyOf x.t)⟩
  | 0xD8 => some ⟨x.formW, x.anyG, x.t == 7 || x.t == 11, x.m == 0, x.f == 0,
      x.d < 16 && (x.t != 7 || x.a ≤ 253) && sOk x.b && x.c == 0,
      .mwrite x.guard (tregOf x.d) (vregOf x.a) (sregOf x.b) (tyOf x.t)⟩
  | 0xD9 => some ⟨x.formHW 1, x.always, x.t == 0, x.m == 0, x.f ≤ 1,
      sOk x.d && x.a < 16 && x.b == 0 && x.c == 0,
      if x.form == .h then .mstatH (sregOf x.d) (tregOf x.a) (x.fbit 0)
      else .mstatW (sregOf x.d) (tregOf x.a) (x.fbit 0)⟩
  | 0xDA => some ⟨x.formW, x.always, x.tMma, x.m == 0, x.f ≤ 7,
      x.d == 0 && sOk x.a && sOk x.b && x.c == 0,
      .wbload (sregOf x.a) (sregOf x.b) (tyOf x.t) (Fin.ofNat 8 x.f)⟩
  | 0xDB => some ⟨x.formHW 0, x.always, x.t == 0, x.m == 0, x.f == 0,
      x.d < 16 && x.a == 0 && x.b == 0 && x.c == 0,
      if x.form == .h then .mfoldH (tregOf x.d) else .mfoldW (tregOf x.d)⟩
  | 0xDC => some ⟨x.formWL, x.always, x.t == 0, x.m == 0, x.f == 0,
      x.d < 16 && x.a == 0 && x.bS && x.c == 0, .mscale (tregOf x.d) x.ssrc⟩
  | 0xDD => some ⟨x.formW, x.always, if x.fbit 0 then x.t == 0 else x.t == 7 || x.t == 12,
      x.m == 0, x.f ≤ 1,
      (if x.fbit 0 then x.d == 0 else x.d ≤ 253) && x.a < 16 && x.b == 0 &&
        (if x.fbit 0 then x.c ≤ 3 else x.c == 0),
      .mck (tregOf x.a) (if x.fbit 0 then .ck (Fin.ofNat 4 x.c)
        else .col (vregOf x.d) (tyOf x.t))⟩
  | _ => none

/-- The row of an opcode (R62); a reserved opcode has none. -/
def rowOf (x : Fields) : Option Row :=
  if x.opc < 0x20 then rowControl x
  else if x.opc < 0x40 then rowScalar x
  else if x.opc < 0x60 then rowVInt x
  else if x.opc < 0x80 then rowVFloat x
  else if x.opc < 0xA0 then rowBlock x
  else if x.opc < 0xC0 then rowMem x
  else rowMatrix x

/-- An opcode is assigned (R62). -/
def opcAssigned (opc : Nat) : Bool :=
  opc ≤ 0x16 || (0x20 ≤ opc && opc ≤ 0x37) || (0x40 ≤ opc && opc ≤ 0x78) ||
  (0x80 ≤ opc && opc ≤ 0x89) || (0x90 ≤ opc && opc ≤ 0x99) || (0xA0 ≤ opc && opc ≤ 0xAE) ||
  (0xB0 ≤ opc && opc ≤ 0xB2) || (0xC0 ≤ opc && opc ≤ 0xC8) || (0xD0 ≤ opc && opc ≤ 0xDD)

/-- Length in bytes of a form (R50). -/
def Form.bytes : Form → Nat
  | .h => 4
  | .w => 8
  | .l => 12

/-- The checks 3-9 of R60 in their order; the first that fails is answered. -/
def decodeFields (x : Fields) : Decoded :=
  match rowOf x with
  | none => .illegal 2
  | some r =>
    if !r.guard then .illegal 3
    else if !r.form then .illegal 4
    else if x.form == .l && x.b != 255 then .illegal 5
    else if !r.ty then .illegal 6
    else if !r.md then .illegal 7
    else if !r.fn then .illegal 8
    else if !r.ops then .illegal 9
    else .ok r.instr x.form.bytes

/-- The form that LEN names (R50). -/
def formOf (w : Nat) : Option Form :=
  match w % 4 with
  | 0 => some .h
  | 1 => some .w
  | 2 => some .l
  | _ => none

/-- The fields of a word of three times 32 bits (R51, R52). -/
def fieldsOf (form : Form) (w : Nat) : Fields :=
  match form with
  | .h =>
    { form := .h, opc := w / 2 ^ 2 % 256, g := w / 2 ^ 10 % 16, d := w / 2 ^ 14 % 256,
      a := w / 2 ^ 22 % 256, b := 0, c := 0, t := 0, m := 0, f := w / 2 ^ 30 % 4, k := 0 }
  | form =>
    { form := form, opc := w / 2 ^ 2 % 256, g := w / 2 ^ 10 % 16, d := w / 2 ^ 14 % 256,
      a := w / 2 ^ 22 % 256, b := w / 2 ^ 30 % 256, c := w / 2 ^ 38 % 256,
      t := w / 2 ^ 46 % 32, m := w / 2 ^ 51 % 32, f := w / 2 ^ 56 % 256,
      k := match form with | .l => w / 2 ^ 64 % 2 ^ 32 | _ => 0 }

/-- The number that bytes stand for, little-endian (R50). -/
def natOfBytes : List Byte → Nat
  | [] => 0
  | b :: bs => b.toNat + 256 * natOfBytes bs

/-- The n low bytes of a number, little-endian. -/
def bytesOfNat : Nat → Nat → List Byte
  | 0, _ => []
  | n + 1, w => BitVec.ofNat 8 w :: bytesOfNat n (w / 256)

/-- The decoder (R50-R62): total on any bytes.
A first word with LEN = 0b11 or a reserved opcode decodes to the step RESERVED_OPCODE, which needs no
further word (R54). -/
def decode (bs : List Byte) : Decoded :=
  if bs.length < 4 then .short 4
  else
    let w0 := natOfBytes (bs.take 4)
    match formOf w0 with
    | none => .ok (.reservedOpcode (BitVec.ofNat 32 w0)) 4
    | some form =>
      if !opcAssigned (w0 / 4 % 256) then .ok (.reservedOpcode (BitVec.ofNat 32 w0)) 4
      else if bs.length < form.bytes then .short form.bytes
      else decodeFields (fieldsOf form (natOfBytes (bs.take form.bytes)))

/-- The instruction that the decoder reads from a word numbered as the opcode table numbers it: the
table counts bits from the least significant of the first word, as the hardware stores them (R50). -/
def decodeTableWord (nbits w : Nat) : Option Instr :=
  match decode (bytesOfNat 12 (w % 2 ^ nbits)) with
  | .ok i _ => some i
  | _ => none

/-! ## The encoder -/

/-- The field B and the literal K of a V source. -/
def VSrc.form : VSrc → Form
  | .reg _ => .w
  | .lit _ => .l
def VSrc.field : VSrc → Nat
  | .reg v => v.val
  | .lit _ => 255
def VSrc.k : VSrc → Nat
  | .reg _ => 0
  | .lit k => k.toNat

def SSrc.form : SSrc → Form
  | .reg _ => .w
  | .lit _ => .l
def SSrc.field : SSrc → Nat
  | .reg s => s.code
  | .lit _ => 255
def SSrc.k : SSrc → Nat
  | .reg _ => 0
  | .lit k => k.toNat

/-- The fields of an instruction that names only an opcode (form W, guard always). -/
def plainFields (opc : Nat) : Fields :=
  { form := .w, opc := opc, g := 7, d := 0, a := 0, b := 0, c := 0, t := 0, m := 0, f := 0, k := 0 }

/-- Put a V source in field B. -/
def Fields.withV (x : Fields) (b : VSrc) : Fields := { x with form := b.form, b := b.field, k := b.k }
/-- Put an S source in field B. -/
def Fields.withS (x : Fields) (b : SSrc) : Fields := { x with form := b.form, b := b.field, k := b.k }
/-- The short form (R52). -/
def Fields.short (x : Fields) : Fields := { x with form := .h }

/-- The modifier of the Arithmetic layout (R58). -/
def modOf (rnd : Rnd) (sat : Bool) : Nat := rnd.code + 8 * sat.toNat

def VBin.fields (opc : Nat) (o : VBin) : Fields :=
  { plainFields opc with
      g := o.g.code, d := o.d.val, a := o.a.val, t := o.t.code, m := modOf o.rnd o.sat,
      form := o.b.form, b := o.b.field, k := o.b.k }
def VTern.fields (opc : Nat) (o : VTern) : Fields :=
  { plainFields opc with
      g := o.g.code, d := o.d.val, a := o.a.val, c := o.c.val, t := o.t.code,
      m := modOf o.rnd o.sat, form := o.b.form, b := o.b.field, k := o.b.k }
def VUn.fields (opc : Nat) (o : VUn) : Fields :=
  { plainFields opc with
      g := o.g.code, d := o.d.val, a := o.a.val, t := o.t.code, m := modOf o.rnd o.sat }
def VCmpOp.fields (opc : Nat) (o : VCmpOp) : Fields :=
  { plainFields opc with
      g := o.g.code, d := o.d.val, a := o.a.val, t := o.t.code,
      f := o.cond.code + 8 * o.any.toNat, form := o.b.form, b := o.b.field, k := o.b.k }
def VCvt.fields (opc : Nat) (o : VCvt) : Fields :=
  { plainFields opc with
      g := o.g.code, d := o.d.val, a := o.a.val, t := o.t.code, m := modOf o.rnd o.sat,
      f := o.src.code + 32 * o.part.val }
def SBin.fields (opc : Nat) (o : SBin) : Fields :=
  { plainFields opc with
      d := o.d.code, a := o.a.code, t := o.t.code, m := 8 * o.sat.toNat, form := o.b.form,
      b := o.b.field, k := o.b.k }
def SUn.fields (opc : Nat) (o : SUn) : Fields :=
  { plainFields opc with d := o.d.code, a := o.a.code, t := o.t.code }
def QuantOp.fields (opc : Nat) (o : QuantOp) : Fields :=
  { plainFields opc with
      g := o.g.code, d := o.d.val, a := o.a.val, t := o.t.code, m := o.rnd.code,
      f := o.src.code + 32 * o.auto.toNat + 64 * o.policy.code }
def ShflOp.fields (opc : Nat) (o : ShflOp) : Fields :=
  { plainFields opc with
      g := o.g.code, d := o.d.val, a := o.a.val, t := o.t.code, f := o.rel.toNat,
      form := o.b.form, b := o.b.field, k := o.b.k }
def WaveMem.fields (opc : Nat) (o : WaveMem) : Fields :=
  { plainFields opc with
      a := o.a.code, t := o.t.code, m := o.sp.code, form := o.b.form, b := o.b.field, k := o.b.k }
def LaneMem.fields (opc : Nat) (o : LaneMem) : Fields :=
  { plainFields opc with
      g := o.g.code, a := o.a.val, t := o.t.code, m := o.sp.code, form := o.b.form,
      b := o.b.field, k := o.b.k }
def BlockMem.fields (opc : Nat) (o : BlockMem) : Fields :=
  { plainFields opc with
      g := o.g.code, d := o.r.val, a := o.a.code, c := o.c.code, t := o.t.code, m := o.sp.code,
      form := o.b.form, b := o.b.field, k := o.b.k }
def DequeMem.fields (opc : Nat) (o : DequeMem) : Fields :=
  { plainFields opc with
      g := o.g.code, d := o.d.val, a := o.a.val, m := o.sp.code, f := o.p.val, form := o.b.form,
      b := o.b.field, k := o.b.k }
def MmaOp.fields (opc : Nat) (o : MmaOp) : Fields :=
  { plainFields opc with
      d := o.d.val, a := o.a.code, b := o.b.code, t := o.t.code,
      f := o.nk.val + 16 * o.int.toNat }

/-- The fields of every instruction word; the steps that no word names have none. -/
def Instr.fields : Instr → Option Fields
  | .nopH => some (plainFields 0x00).short
  | .nopW => some (plainFields 0x00)
  | .bra g all k => some { plainFields 0x01 with
      form := .l, g := g.code, b := 255, f := all.toNat, k := k.toNat }
  | .brs g join k => some { plainFields 0x02 with
      form := .l, g := g.code, d := join.toNat % 256, a := join.toNat / 256, b := 255,
      k := k.toNat }
  | .joinH => some (plainFields 0x03).short
  | .joinW => some (plainFields 0x03)
  | .brx g all a b => some ({ plainFields 0x04 with g := g.code, a := a.code, f := all.toNat }.withS b)
  | .call d k => some { plainFields 0x05 with form := .l, d := d.val, b := 255, k := k.toNat }
  | .calli d a b => some ({ plainFields 0x06 with d := d.val, a := a.code }.withS b)
  | .ret a => some { plainFields 0x07 with a := a.val }
  | .regang b => some ((plainFields 0x08).withS b)
  | .clause cls len tl ts tc tm => some { plainFields 0x09 with
      a := tl.val, b := ts.val, c := tc.val, d := tm.val, f := len.val + 16 * cls.code }
  | .wait tl ts tc tm => some { plainFields 0x0A with
      a := tl.val, b := ts.val, c := tc.val, d := tm.val }
  | .yieldH => some (plainFields 0x0B).short
  | .yieldW => some (plainFields 0x0B)
  | .bar n b => some ({ plainFields 0x0C with f := n.val }.withS b)
  | .arrive n b => some ({ plainFields 0x0D with f := n.val }.withS b)
  | .spawn d p a b => some ({ plainFields 0x0E with d := d.code, a := a.val, f := p.val }.withS b)
  | .exitH => some (plainFields 0x0F).short
  | .exitW => some (plainFields 0x0F)
  | .acquireH => some (plainFields 0x10).short
  | .acquireW => some (plainFields 0x10)
  | .release tiles spad => some { plainFields 0x11 with f := tiles.toNat + 2 * spad.toNat }
  | .trap code => some { plainFields 0x12 with f := code.val }
  | .tretH => some (plainFields 0x13).short
  | .tretW => some (plainFields 0x13)
  | .mfs (.lane g d r) => some { plainFields 0x14 with g := g.code, d := d.val, f := r.code }
  | .mfs (.wave d r) => some { plainFields 0x14 with d := d.code, f := r.code }
  | .mts (.fflags g b) => some ({ plainFields 0x15 with g := g.code, f := 0x12 }.withV b)
  | .mts (.wave r b) => some ({ plainFields 0x15 with f := r.code }.withS b)
  | .hint .spin => some (plainFields 0x16)
  | .hint (.pace a) => some { plainFields 0x16 with a := a.code, f := 1 }
  | .sadd o => some (o.fields 0x20)
  | .ssub o => some (o.fields 0x21)
  | .smul o => some (o.fields 0x22)
  | .smulh o => some (o.fields 0x23)
  | .sdiv o => some (o.fields 0x24)
  | .srem o => some (o.fields 0x25)
  | .sand o => some (o.fields 0x26)
  | .sor o => some (o.fields 0x27)
  | .sxor o => some (o.fields 0x28)
  | .sshl o => some (o.fields 0x29)
  | .sshr o => some (o.fields 0x2A)
  | .smin o => some (o.fields 0x2B)
  | .smax o => some (o.fields 0x2C)
  | .scmp d a b t cond => some ({ plainFields 0x2D with
      d := d.code, a := a.code, t := t.code, f := cond.code }.withS b)
  | .ssel d a b c => some ({ plainFields 0x2E with d := d.code, a := a.code, c := c.code }.withS b)
  | .smov d b t => some ({ plainFields 0x2F with d := d.code, t := t.code }.withS b)
  | .slea d a b sh => some ({ plainFields 0x30 with d := d.code, a := a.code, f := sh.val }.withS b)
  | .sbfx o => some (o.fields 0x31)
  | .sbfi d a b c t => some ({ plainFields 0x32 with
      d := d.code, a := a.code, c := c.code, t := t.code }.withS b)
  | .spopc o => some (o.fields 0x33)
  | .sclz o => some (o.fields 0x34)
  | .sarg d n => some { plainFields 0x35 with d := d.code, f := n.val }
  | .xsetb d a b => some ({ plainFields 0x36 with d := d.val, a := a.code }.withS b)
  | .xld g d a => some { plainFields 0x37 with g := g.code, d := d.val, a := a.val }
  | .vadd o => some (o.fields 0x40)
  | .vsub o => some (o.fields 0x41)
  | .vmul o => some (o.fields 0x42)
  | .vmulh o => some (o.fields 0x43)
  | .vmad o => some (o.fields 0x44)
  | .vdiv o => some (o.fields 0x45)
  | .vrem o => some (o.fields 0x46)
  | .vand o => some (o.fields 0x47)
  | .vor o => some (o.fields 0x48)
  | .vxor o => some (o.fields 0x49)
  | .vnot o => some (o.fields 0x4A)
  | .vshl o => some (o.fields 0x4B)
  | .vshr o => some (o.fields 0x4C)
  | .vmin o => some (o.fields 0x4D)
  | .vmax o => some (o.fields 0x4E)
  | .vabs o => some (o.fields 0x4F)
  | .vneg o => some (o.fields 0x50)
  | .vcmp o => some (o.fields 0x51)
  | .vsel g d a b c => some ({ plainFields 0x52 with
      g := g.code, d := d.val, a := a.val, c := c.val }.withV b)
  | .vmov g d b t => some ({ plainFields 0x53 with g := g.code, d := d.val, t := t.code }.withV b)
  | .vpopc o => some (o.fields 0x54)
  | .vclz o => some (o.fields 0x55)
  | .vbfx o => some (o.fields 0x56)
  | .vbfi o => some (o.fields 0x57)
  | .vdot4 o => some (o.fields 0x58)
  | .viota g d a t => some { plainFields 0x59 with
      g := g.code, d := d.val, a := a.code, t := t.code }
  | .vrdx g d a => some { plainFields 0x5A with g := g.code, d := d.val, a := a.val }
  | .vwrx g d a => some { plainFields 0x5B with g := g.code, d := d.val, a := a.val }
  | .vcvti o => some (o.fields 0x5C)
  | .vpack g d a b t src sat => some { plainFields 0x5D with
      g := g.code, d := d.val, a := a.val, b := b.val, t := t.code, m := 8 * sat.toNat,
      f := src.code }
  | .vunpk g d a t src sat => some { plainFields 0x5E with
      g := g.code, d := d.val, a := a.val, t := t.code, m := 8 * sat.toNat, f := src.code }
  | .vpermb g d a b c => some { plainFields 0x5F with
      g := g.code, d := d.val, a := a.val, b := b.val, c := c.val }
  | .vfadd o => some (o.fields 0x60)
  | .vfsub o => some (o.fields 0x61)
  | .vfmul o => some (o.fields 0x62)
  | .vfma o => some (o.fields 0x63)
  | .vfdiv o => some (o.fields 0x64)
  | .vfsqrt o => some (o.fields 0x65)
  | .vfmin o => some (o.fields 0x66)
  | .vfmax o => some (o.fields 0x67)
  | .vfcmp o => some (o.fields 0x68)
  | .vfclass o => some (o.fields 0x69)
  | .vfrcp o => some (o.fields 0x6A)
  | .vfrsq o => some (o.fields 0x6B)
  | .vfexp2 o => some (o.fields 0x6C)
  | .vflog2 o => some (o.fields 0x6D)
  | .vfscale o => some (o.fields 0x6E)
  | .vfrnd g d a t rnd exact => some { plainFields 0x6F with
      g := g.code, d := d.val, a := a.val, t := t.code, m := rnd.code, f := exact.toNat }
  | .vfcvt o => some (o.fields 0x70)
  | .vfcvti o => some (o.fields 0x71)
  | .vicvtf o => some (o.fields 0x72)
  | .vfslice g d a b j p => some ({ plainFields 0x73 with
      g := g.code, d := d.val, a := a.val, t := 1, f := j.val + 8 * p.val }.withV b)
  | .vfjoin o => some (o.fields 0x74)
  | .voptm g d a c => some { plainFields 0x75 with
      g := g.code, d := d.val, a := a.val, c := c.val, t := 11 }
  | .vckadd g ck a t neg => some { plainFields 0x76 with
      g := g.code, d := ck.val, a := a.val, t := t.code, f := neg.toNat }
  | .vcktst d a b c tr => some { plainFields 0x77 with
      d := d.code, a := a.val, b := b.val, c := c.code, f := tr.toNat }
  | .vfdot2 g d a b c t rnd sat => some { plainFields 0x78 with
      g := g.code, d := d.val, a := a.val, b := b.val, c := c.val, t := t.code,
      m := modOf rnd sat }
  | .bamax g d a t => some { plainFields 0x80 with
      g := g.code, d := d.val, a := a.val, t := t.code }
  | .bscale g d a t policy byte1 => some { plainFields 0x81 with
      g := g.code, d := d.val, a := a.val, t := t.code, m := policy.code, f := byte1.toNat }
  | .bquant o => some (o.fields 0x82)
  | .bdeq g d a t src rnd sat => some { plainFields 0x83 with
      g := g.code, d := d.val, a := a.val, t := t.code, m := modOf rnd sat, f := src.code }
  | .brescale o => some (o.fields 0x84)
  | .scget g d a => some { plainFields 0x85 with g := g.code, d := d.val, a := a.val }
  | .scset g d b lo hi => some ({ plainFields 0x86 with
      g := g.code, d := d.val, f := lo.toNat + 2 * hi.toNat }.withV b)
  | .aqparm g d a => some { plainFields 0x87 with g := g.code, d := d.val, a := a.val, t := 25 }
  | .aquant g d a b rnd part => some { plainFields 0x88 with
      g := g.code, d := d.val, a := a.val, b := b.val, t := 25, m := rnd.code,
      f := 11 + 32 * part.val }
  | .adeq g d a b rnd sat part => some { plainFields 0x89 with
      g := g.code, d := d.val, a := a.val, b := b.val, t := 11, m := modOf rnd sat,
      f := 25 + 32 * part.val }
  | .xshfl o => some (o.fields 0x90)
  | .xpush o p => some { o.fields 0x91 with c := p.val }
  | .xbfly g d a b stage => some { plainFields 0x92 with
      g := g.code, d := d.val, a := a.val, b := b.val, f := stage.val }
  | .xbcast g d a b t => some ({ plainFields 0x93 with
      g := g.code, d := d.val, a := a.val, t := t.code }.withS b)
  | .xvote g d a fn => some { plainFields 0x94 with
      g := g.code, d := d.code, a := a.val, f := fn.code }
  | .xred g d a t rnd op => some { plainFields 0x95 with
      g := g.code, d := d.code, a := a.val, t := t.code, m := rnd.code, f := op.code }
  | .xscan g d a t rnd op excl => some { plainFields 0x96 with
      g := g.code, d := d.val, a := a.val, t := t.code, m := rnd.code,
      f := op.code + 8 * excl.toNat }
  | .xcompact g d a b c => some { plainFields 0x97 with
      g := g.code, d := d.val, a := a.val, b := b.val, c := c.code }
  | .xsample g d a b t => some ({ plainFields 0x98 with
      g := g.code, d := d.code, a := a.val, t := t.code }.withS b)
  | .xmatch g d a t => some { plainFields 0x99 with
      g := g.code, d := d.val, a := a.val, t := t.code }
  | .ld o => some { o.fields 0xA0 with d := o.r.val }
  | .st o => some { o.fields 0xA1 with c := o.r.val }
  | .lds o => some { o.fields 0xA2 with d := o.r.code }
  | .sts o => some { o.fields 0xA3 with c := o.r.code }
  | .ldb o => some (o.fields 0xA4)
  | .stb o => some (o.fields 0xA5)
  | .atom o => some ({ plainFields 0xA6 with
      g := o.g.code, d := o.d.val, a := o.a.val, c := o.c.val, t := o.t.code, m := o.sp.code,
      f := o.op.code }.withS o.b)
  | .red o => some ({ plainFields 0xA7 with
      g := o.g.code, a := o.a.val, c := o.c.val, t := o.t.code, m := o.sp.code,
      f := o.op.code }.withS o.b)
  | .fence sc => some { plainFields 0xA8 with m := sc.code }
  | .ownGive a b => some ({ plainFields 0xA9 with a := a.code }.withS b)
  | .ownTake a b => some ({ plainFields 0xA9 with a := a.code, f := 1 }.withS b)
  | .ownt d a b => some ({ plainFields 0xAA with d := d.code, a := a.code }.withS b)
  | .qpush o c => some { o.fields 0xAB with c := c.val }
  | .qpop o => some (o.fields 0xAC)
  | .qsteal o => some (o.fields 0xAD)
  | .pref g a b l2 => some ({ plainFields 0xAE with
      g := g.code, a := a.val, f := l2.toNat }.withS b)
  | .push d p a b => some ({ plainFields 0xB0 with d := d.code, a := a.val, f := p.val }.withS b)
  | .engst d b fn => some ({ plainFields 0xB1 with d := d.code, f := fn.val }.withS b)
  | .trayputAppend g d a b c t op p => some ({ plainFields 0xB2 with
      g := g.code, d := d.val, a := a.val, c := c.val, t := t.code,
      f := p.val + 8 * op.code }.withS b)
  | .trayputDrain d p a b => some ({ plainFields 0xB2 with
      d := d.code, a := a.val, f := 128 + p.val }.withS b)
  | .copen d a c mode => some { plainFields 0xC0 with
      d := d.val, a := a.code, c := c.code, f := mode.code }
  | .cnext g d a c p => some { plainFields 0xC1 with
      g := g.code, d := d.val, a := a.val, c := c.code, f := p.val }
  | .csplit g d a b => some { plainFields 0xC2 with
      g := g.code, d := d.val, a := a.val, b := b.val }
  | .cseek d a b c => some { plainFields 0xC3 with
      d := d.val, a := a.code, b := b.code, c := c.code }
  | .csave a b c sp => some ({ plainFields 0xC4 with a := a.code, c := c.val, m := sp.code }.withS b)
  | .cload d a b sp => some ({ plainFields 0xC5 with d := d.val, a := a.code, m := sp.code }.withS b)
  | .cstatH d a w => some { plainFields 0xC6 with form := .h, d := d.code, a := a.val, f := w.val }
  | .cstatW d a w => some { plainFields 0xC6 with d := d.code, a := a.val, f := w.val }
  | .ccloseH d => some { plainFields 0xC7 with form := .h, d := d.val }
  | .ccloseW d => some { plainFields 0xC7 with d := d.val }
  | .cunpk g d c p (.bm b) => some { plainFields 0xC8 with
      g := g.code, d := d.val, b := b.code, c := c.code, f := p.val }
  | .cunpk g d c p .rl => some { plainFields 0xC8 with
      g := g.code, d := d.val, c := c.code, f := p.val + 8 }
  | .cunpk g d c p (.d16 a b) => some { plainFields 0xC8 with
      g := g.code, d := d.val, a := a.val, b := b.code, c := c.code, f := p.val + 16 }
  | .accord d a => some { plainFields 0xD0 with d := d.code, a := a.code }
  | .mma o => some (o.fields 0xD1)
  | .qmma o c => some { o.fields 0xD2 with c := c.code }
  | .mmax o c => some { o.fields 0xD3 with c := c.code }
  | .mzeroH d i64 => some { plainFields 0xD4 with form := .h, d := d.val, f := i64.toNat }
  | .mzeroW d i64 => some { plainFields 0xD4 with d := d.val, f := i64.toNat }
  | .mload d a b t sp => some ({ plainFields 0xD5 with
      d := d.val, a := a.code, t := t.code, m := sp.code }.withS b)
  | .mstore a b c t sp rnd => some ({ plainFields 0xD6 with
      a := a.code, c := c.val, t := t.code, m := sp.code, f := rnd.code }.withS b)
  | .mread g d a b t => some { plainFields 0xD7 with
      g := g.code, d := d.val, a := a.val, b := b.code, t := t.code }
  | .mwrite g d a b t => some { plainFields 0xD8 with
      g := g.code, d := d.val, a := a.val, b := b.code, t := t.code }
  | .mstatH d a clr => some { plainFields 0xD9 with
      form := .h, d := d.code, a := a.val, f := clr.toNat }
  | .mstatW d a clr => some { plainFields 0xD9 with d := d.code, a := a.val, f := clr.toNat }
  | .wbload a b t slot => some { plainFields 0xDA with
      a := a.code, b := b.code, t := t.code, f := slot.val }
  | .mfoldH d => some { plainFields 0xDB with form := .h, d := d.val }
  | .mfoldW d => some { plainFields 0xDB with d := d.val }
  | .mscale d b => some ({ plainFields 0xDC with d := d.val }.withS b)
  | .mck a (.col d t) => some { plainFields 0xDD with d := d.val, a := a.val, t := t.code }
  | .mck a (.ck n) => some { plainFields 0xDD with a := a.val, c := n.val, f := 1 }
  | .hintExpiry .. | .lCountedCompletion .. | .sCountedCompletion .. | .enlargerStep ..
  | .matrixCompletion .. | .commonRegisterWrite .. | .engineHeadAging .. | .copyCmd ..
  | .gatherCmd .. | .importCmd .. | .exportCmd .. | .wbfillCmd .. | .landCmd .. | .trayDrain ..
  | .malformedCommand .. | .hostWalkRequest .. | .hostWalkAnswer .. | .hostWalkTimeout ..
  | .trinvRange .. | .trinvAsid .. | .trinvAll .. | .registerWrite .. | .fabcfgModeNone ..
  | .fabcfgModeMesh .. | .fabcfgModeSwitched .. | .portTrainingDone .. | .shadowRotation ..
  | .weakLane .. | .laneRecalibrated .. | .portDead .. | .advanceNotice .. | .rtadv ..
  | .packetForward .. | .podRequestArrival .. | .podResponseArrival .. | .retryTimerExpiry ..
  | .fabtmoExpiry .. | .dataLinkRetry .. | .d2dLinkDegraded .. | .allreduceCmd .. | .reduceCmd ..
  | .broadcastCmd .. | .collectiveJoin .. | .collectiveJoinTimeout .. | .collectivePayload ..
  | .bar4Read .. | .bar4Write .. | .hostCompletion .. | .hostWriteFailure .. | .submit ..
  | .groupPop .. | .queueAging .. | .acquireAdmission .. | .admissionSpill .. | .opPointStable ..
  | .groupEnd .. | .joinEnqueueRetry .. | .vacreqVacate .. | .vacreqRelease .. | .groupSave ..
  | .vacateTimeout .. | .faultServiceRequest .. | .faultServiceAnswer ..
  | .faultServiceTimeout .. | .coreUncorrectableError .. | .fencereqFence ..
  | .fencereqDiscard .. | .reservedOpcode .. | .fetchFault .. | .loadreq .. | .powerOnReset ..
  | .bringupRetry .. | .powerLimitExceeded .. | .measuredPowerUpdate .. | .trinvDone
  | .completionTimeout | .freeze | .freezeNHigh | .safelightReadout => none

/-- LEN of a form (R50). -/
def Form.len : Form → Nat
  | .h => 0
  | .w => 1
  | .l => 2

/-- The words of the fields as one number, bit 0 the least significant of the first word (R51, R52). -/
def Fields.word (x : Fields) : Nat :=
  let low := x.form.len + 2 ^ 2 * x.opc + 2 ^ 10 * x.g + 2 ^ 14 * x.d + 2 ^ 22 * x.a
  match x.form with
  | .h => low + 2 ^ 30 * x.f
  | _ => low + 2 ^ 30 * x.b + 2 ^ 38 * x.c + 2 ^ 46 * x.t + 2 ^ 51 * x.m + 2 ^ 56 * x.f
      + 2 ^ 64 * x.k

/-- The bytes of an instruction's words (R50); the steps that no word names have none. -/
def encode (i : Instr) : List Byte :=
  match i.fields with
  | some x => bytesOfNat x.form.bytes x.word
  | none => []

/-- The opcode of an instruction (R62); none for the steps that no word names. -/
def Instr.opc (i : Instr) : Option Nat := i.fields.map Fields.opc

/-- The length of an instruction in bytes (R50). -/
def Instr.len (i : Instr) : Nat :=
  match i.fields with
  | some x => x.form.bytes
  | none => 0

end Sys2Proof
end

