-- ==== Sys2Proof/Machine/Sparse.lean ====
section
/-!
DEFINITION. Storage as plain data: a map from numbers to values, held as a list of pairs in one
canonical form (keys strictly rising, no entry that equals the default).
Memory is such a map of bytes.
-/

namespace Sys2Proof.Machine

/-- A map from numbers to values with a default, in canonical form (Sparse.wf). -/
abbrev Sparse (α : Type) := List (Nat × α)

/-- The bytes that memory holds; an unlisted address reads 0 (log entries 2 and 3). -/
abbrev Memory := List Host.Cell

/-- The value at a key. -/
def Sparse.get {α : Type} (dflt : α) : Sparse α → Nat → α
  | [], _ => dflt
  | (j, v) :: m, k => if j = k then v else Sparse.get dflt m k

/-- Put a value at its place among the rising keys. -/
def Sparse.insert {α : Type} : Sparse α → Nat → α → Sparse α
  | [], k, v => [(k, v)]
  | (j, u) :: m, k, v =>
    if j = k then (k, v) :: m
    else if k < j then (k, v) :: (j, u) :: m
    else (j, u) :: Sparse.insert m k v

/-- Put a value at a key; the default removes the entry. -/
def Sparse.set {α : Type} [DecidableEq α] (dflt : α) (m : Sparse α) (k : Nat) (v : α) : Sparse α :=
  if v = dflt then m.filter fun e => e.1 != k else Sparse.insert m k v

/-- The keys lie above a bound and rise strictly, and no entry equals the default. -/
def Sparse.wfAbove {α : Type} [DecidableEq α] (dflt : α) : Option Nat → Sparse α → Bool
  | _, [] => true
  | lo, (j, v) :: m =>
    (match lo with | none => true | some l => l < j) && v != dflt && Sparse.wfAbove dflt (some j) m

/-- The canonical form. -/
def Sparse.wf {α : Type} [DecidableEq α] (dflt : α) (m : Sparse α) : Bool := Sparse.wfAbove dflt none m

/-- The canonical form of memory: addresses strictly rising, no entry equal to what an unlisted
address reads as. -/
def Memory.wf (m : Memory) : Bool := Sparse.wf (0 : BitVec 8) m

/-- One byte of memory. -/
def Memory.read (m : Memory) (a : Nat) : Byte := Sparse.get 0 m a

/-- Write one byte of memory. -/
def Memory.write (m : Memory) (a : Nat) (b : Byte) : Memory := Sparse.set 0 m a b

/-- n bytes of memory from an address. -/
def Memory.readBytes (m : Memory) (a : Nat) : Nat → List Byte
  | 0 => []
  | n + 1 => m.read a :: Memory.readBytes m (a + 1) n

/-- Write bytes of memory from an address. -/
def Memory.writeBytes (m : Memory) (a : Nat) : List Byte → Memory
  | [] => m
  | b :: bs => Memory.writeBytes (m.write a b) (a + 1) bs

/-- Put the same value at n keys from k on. -/
def Sparse.fill {α : Type} [DecidableEq α] (dflt : α) (m : Sparse α) (k : Nat) (v : α) : Nat → Sparse α
  | 0 => m
  | n + 1 => Sparse.fill dflt (Sparse.set dflt m k v) (k + 1) v n

/-- Drop every entry with a key in [lo, hi). -/
def Sparse.erase {α : Type} (m : Sparse α) (lo hi : Nat) : Sparse α :=
  m.filter fun e => e.1 < lo || hi ≤ e.1

end Sys2Proof.Machine
end

