-- ==== Sys2Proof/Machine/Bits.lean ====
section
/-!
DEFINITION. Bit fields of words, bytes of words, and small list functions.
-/

namespace Sys2Proof.Machine

/-- Bits [hi:lo] of a number. -/
def bitsOf (n hi lo : Nat) : Nat := n / 2 ^ lo % 2 ^ (hi + 1 - lo)

/-- Bits [hi:lo] of a word. -/
def field (w : Word) (hi lo : Nat) : Nat := bitsOf w.toNat hi lo

/-- Bit i of a number. -/
def bitOf (n i : Nat) : Bool := n / 2 ^ i % 2 == 1

/-- 1 for true. -/
def b2n (b : Bool) : Nat := b.toNat

/-- A 64-bit word from a number, modulo 2^64. -/
def word (n : Nat) : Word := BitVec.ofNat 64 n

/-- The eight bytes of a word, little-endian. -/
def wordBytes (w : Word) : List Byte := bytesOfNat 8 w.toNat

/-- A word from bytes, little-endian. -/
def wordOfBytes (bs : List Byte) : Word := word (natOfBytes bs)

/-- The words that bytes hold. -/
def wordsOfBytes (bs : List Byte) : Nat → List Word
  | 0 => []
  | n + 1 => wordOfBytes (bs.take 8) :: wordsOfBytes (bs.drop 8) n

/-- Sign extension of K to 64 bits (R71). -/
def sextK (k : BitVec 32) : Word := k.signExtend 64

/-- K as the operand of a type reads it, as the bits of one sub-element (R71). -/
def litBits (t : Ty) (k : BitVec 32) : Nat :=
  match t with
  | .i8 | .n8 => k.toNat % 2 ^ 8
  | .i16 | .n16 | .f16 | .bf16 => k.toNat % 2 ^ 16
  | .i32 | .n32 | .f32 => k.toNat
  | .n64 => k.toNat
  | .x2f32 => k.toNat + 2 ^ 32 * k.toNat
  | .i64 | .none => (sextK k).toNat
  | .f64 =>
    -- an f32 pattern widened exactly; a NaN keeps its sign and its fraction in the top bits
    let n := k.toNat
    let s := n / 2 ^ 31
    let e := n / 2 ^ 23 % 256
    let f := n % 2 ^ 23
    if e == 255 then s * 2 ^ 63 + 2047 * 2 ^ 52 + f * 2 ^ 29
    else if e != 0 then s * 2 ^ 63 + (e + 896) * 2 ^ 52 + f * 2 ^ 29
    else if f == 0 then s * 2 ^ 63
    else
      let j := Nat.log2 f
      s * 2 ^ 63 + (j + 874) * 2 ^ 52 + (f - 2 ^ j) * 2 ^ (52 - j)
  | _ => k.toNat % 2 ^ 8

/-- Sub-element k of width w of a lane register (R214). -/
def subElem (x : Word) (w k : Nat) : Nat := x.toNat / 2 ^ (w * k) % 2 ^ w

/-- Replace sub-element k of width w. -/
def setSub (x : Word) (w k v : Nat) : Word :=
  let old := subElem x w k
  word (x.toNat - old * 2 ^ (w * k) + v % 2 ^ w * 2 ^ (w * k))

/-- The lane register with the listed sub-elements of width w. -/
def packSubs (w : Nat) (vs : List Nat) : Word :=
  word (vs.zipIdx.foldl (fun a (v, k) => a + v % 2 ^ w * 2 ^ (w * k)) 0)

/-- Extension of an element to 64 bits: the sign for i types, zeros otherwise (R134, R364). -/
def extendTy (t : Ty) (n : Nat) : Word :=
  match t with
  | .i8 | .i16 | .i32 | .i64 => word (natOf64 (n % 2 ^ t.width) t.width)
  | _ => word (n % 2 ^ t.width)
where
  natOf64 (n w : Nat) : Nat := if 2 ^ (w - 1) ≤ n then n + 2 ^ 64 - 2 ^ w else n

/-- The lanes of a mask, ascending. -/
def lanesOf (m : BitVec 32) : List Nat := (List.range 32).filter fun l => m.getLsbD l

/-- The mask of some lanes. -/
def maskOf (ls : List Nat) : BitVec 32 := ls.foldl (fun m l => m ||| (1#32 <<< l)) 0

/-- The slices of a slice mask, ascending. -/
def slicesOf (m : BitVec 8) : List Nat := (List.range 8).filter fun j => m.getLsbD j

/-- The slice mask of some slices. -/
def sliceMask (js : List Nat) : BitVec 8 := js.foldl (fun m j => m ||| (1#8 <<< j)) 0

/-- Replace the i-th element by the result of a function. -/
def modifyAt {α : Type} (f : α → α) : Nat → List α → List α
  | _, [] => []
  | 0, x :: xs => f x :: xs
  | i + 1, x :: xs => x :: modifyAt f i xs

/-- Elements without repeats, first occurrences kept. -/
def dedup {α : Type} [DecidableEq α] (xs : List α) : List α :=
  xs.foldl (fun acc x => if acc.contains x then acc else acc ++ [x]) []

/-- The element of a list with the least key; ties to the first. -/
def leastBy {α : Type} (key : α → Nat) : List α → Option α
  | [] => none
  | x :: xs => match leastBy key xs with
    | none => some x
    | some y => if key y < key x then some y else some x

end Sys2Proof.Machine
end

