-- ==== Sys2Proof/Machine/Numfmt.lean ====
section
/-!
DEFINITION. Number formats, scales and rounding (02_number_formats.md): exact reals, Decode, Round,
Encode, stochastic bits, block scales and channel parameters.
-/

namespace Sys2Proof.Machine

/-! ## Exact reals -/

/-- What Decode returns (R43): an exact real `n / d` with its sign (so a signed zero too), an infinity, or
a NaN, quiet or signalling. -/
inductive Val where
  | nan (sig : Bool)
  | inf (neg : Bool)
  | fin (neg : Bool) (n d : Nat)
  deriving DecidableEq, Repr

namespace Val

def zero : Val := .fin false 0 1
def one : Val := .fin false 1 1
def ofNat (n : Nat) : Val := .fin false n 1
def ofInt (i : Int) : Val := .fin (i < 0) i.natAbs 1

def isNan : Val → Bool
  | .nan _ => true
  | _ => false
def isSNan : Val → Bool
  | .nan s => s
  | _ => false
def isInf : Val → Bool
  | .inf _ => true
  | _ => false
def isFin : Val → Bool
  | .fin _ _ _ => true
  | _ => false
def isZero : Val → Bool
  | .fin _ n _ => n == 0
  | _ => false
def sign : Val → Bool
  | .nan _ => false
  | .inf s => s
  | .fin s _ _ => s

def neg : Val → Val
  | .nan s => .nan s
  | .inf s => .inf (!s)
  | .fin s n d => .fin (!s) n d
def abs : Val → Val
  | .nan s => .nan s
  | .inf _ => .inf false
  | .fin _ n d => .fin false n d

/-- x * 2^k. -/
def scale2 (k : Int) : Val → Val
  | .fin s n d => if 0 ≤ k then .fin s (n * 2 ^ k.toNat) d else .fin s n (d * 2 ^ (-k).toNat)
  | x => x

/-- The signed numerator of a finite value over a denominator its own divides. -/
def numOver (s : Bool) (n d m : Nat) : Int := (if s then -1 else 1) * ((n * (m / d) : Nat) : Int)

/-- A common multiple of two denominators; of powers of two the greater. -/
def commonDen (d e : Nat) : Nat := if d % e == 0 then d else if e % d == 0 then e else d * e

/-- Order of magnitude and sign of finite values: -1, 0 or 1 for less, equal, greater. -/
def cmpFin (s : Bool) (n d : Nat) (s' : Bool) (n' d' : Nat) : Int :=
  let a : Int := (if s then -1 else 1) * ((n * d' : Nat) : Int)
  let b : Int := (if s' then -1 else 1) * ((n' * d : Nat) : Int)
  if a < b then -1 else if a = b then 0 else 1

/-- Comparison of two values that are not NaN; both zeros are equal. -/
def cmp : Val → Val → Int
  | .inf s, .inf s' => if s = s' then 0 else if s then -1 else 1
  | .inf s, _ => if s then -1 else 1
  | _, .inf s => if s then 1 else -1
  | .fin s n d, .fin s' n' d' => cmpFin s n d s' n' d'
  | _, _ => 0

def lt (a b : Val) : Bool := cmp a b < 0
def le (a b : Val) : Bool := cmp a b ≤ 0

end Val

/-! ## Flags (R36) -/

/-- The six flags of R36: NV, DZ, OF, UF, NX, ZR from bit 0 up. -/
abbrev Flags := BitVec 6

def Flags.nv : Flags := 1
def Flags.dz : Flags := 2
def Flags.of : Flags := 4
def Flags.uf : Flags := 8
def Flags.nx : Flags := 16
def Flags.zr : Flags := 32

/-! ## Exact operations with the invalid and divide-by-zero cases of IEEE 754 (R230) -/

/-- An exact result and the flags that the operation itself raises. -/
abbrev Exact := Val × Flags

/-- The sum of addends, exact; an exact zero sum takes its sign from R44. -/
def sumVals (rdn : Bool) (xs : List Val) : Exact :=
  if xs.any Val.isNan then (.nan (xs.any Val.isSNan), 0)
  else
    let infs := xs.filter Val.isInf
    match infs with
    | x :: _ => if infs.all (fun y => y.sign == x.sign) then (x, 0) else (.nan false, Flags.nv)
    | [] =>
      let den : Nat := xs.foldl (fun (m : Nat) (x : Val) =>
        match x with | .fin _ _ d => Val.commonDen m d | _ => m) 1
      let num : Int := xs.foldl (fun (a : Int) (x : Val) =>
        match x with | .fin s n d => a + Val.numOver s n d den | _ => a) 0
      if num = 0 then
        let allZero := xs.all Val.isZero
        let neg := xs.any Val.sign
        let pos := xs.any fun x => !x.sign
        (.fin (if allZero && !(neg && pos) then neg else rdn) 0 1, 0)
      else (.fin (num < 0) num.natAbs den, 0)

def addVals (rdn : Bool) (a b : Val) : Exact := sumVals rdn [a, b]

/-- The product, exact; 0 times infinity is invalid. -/
def mulVals (a b : Val) : Exact :=
  if a.isNan || b.isNan then (.nan (a.isSNan || b.isSNan), 0)
  else match a, b with
    | .fin s n d, .fin s' n' d' => (.fin (s != s') (n * n') (d * d'), 0)
    | _, _ =>
      if a.isZero || b.isZero then (.nan false, Flags.nv) else (.inf (a.sign != b.sign), 0)

/-- The quotient, exact; 0/0 and infinity by infinity are invalid, x/0 divides by zero. -/
def divVals (a b : Val) : Exact :=
  if a.isNan || b.isNan then (.nan (a.isSNan || b.isSNan), 0)
  else match a, b with
    | .inf _, .inf _ => (.nan false, Flags.nv)
    | .inf s, _ => (.inf (s != b.sign), 0)
    | _, .inf s => (.fin (a.sign != s) 0 1, 0)
    | .fin s n d, .fin s' n' d' =>
      if n' == 0 then
        if n == 0 then (.nan false, Flags.nv) else (.inf (s != s'), Flags.dz)
      else (.fin (s != s') (n * d') (d * n'), 0)
    | _, _ => (.nan false, 0)

/-- a * b + c with one exact value: 0 times infinity is invalid whatever c is (R230). -/
def fmaVals (rdn : Bool) (a b c : Val) : Exact :=
  let p := mulVals a b
  if a.isNan || b.isNan || c.isNan then
    (.nan (a.isSNan || b.isSNan || c.isSNan), p.2)
  else if p.1.isNan then p
  else sumVals rdn [p.1, c]

/-! ## Square roots, powers and logarithms -/

/-- The greatest r with r * r ≤ n, bit by bit from the bit below `fuel`. -/
def isqrtFrom (n : Nat) : Nat → Nat → Nat
  | 0, r => r
  | k + 1, r => let t := r + 2 ^ k; isqrtFrom n k (if t * t ≤ n then t else r)

/-- Integer square root. -/
def isqrt (n : Nat) : Nat := isqrtFrom n (Nat.log2 n / 2 + 1) 0

/-- Fraction bits that hold a square root apart from every rounding boundary of the formats. -/
def sqrtBits : Nat := 640

/-- √(n/d): exact where it is a multiple of 2^-640, else the middle of the 2^-640 it lies in, which no
rounding boundary of R33 divides. -/
def sqrtFrac (n d : Nat) : Val :=
  let m := n * 4 ^ sqrtBits
  let r := isqrt (m / d)
  if r * r * d == m then .fin false r (2 ^ sqrtBits) else .fin false (2 * r + 1) (2 ^ (sqrtBits + 1))

/-- Fraction bits of the working precision of 2^x and log2 x (log entry 10). -/
def elemBits : Nat := 320

/-- 2^(2^-1), 2^(2^-2), … in units of 2^-320. -/
def rootsFrom : Nat → Nat → List Nat
  | 0, _ => []
  | k + 1, c => let r := isqrt (c * 2 ^ elemBits); r :: rootsFrom k r

/-- The roots of 2 that the fraction bits of an exponent multiply together. -/
def rootsOfTwo : List Nat := rootsFrom 160 (2 * 2 ^ elemBits)

/-- 2^(f/2^|roots|) in units of 2^-320, from the bits of f, most significant first. -/
def powFrac : List Nat → Nat → Nat → Nat → Nat
  | [], _, _, acc => acc
  | c :: cs, n, d, acc =>
    let n2 := 2 * n
    if d ≤ n2 then powFrac cs (n2 - d) d (acc * c / 2 ^ elemBits) else powFrac cs n2 d acc

/-- log2 of m (units of 2^-320, 1 ≤ m < 2): its bits, most significant first, as a number. -/
def logFrac : List Nat → Nat → Nat → Nat
  | [], _, acc => acc
  | c :: cs, m, acc =>
    if c ≤ m then logFrac cs (m * 2 ^ elemBits / c) (2 * acc + 1) else logFrac cs m (2 * acc)

/-- ⌊log2 (n/d)⌋ for n > 0. -/
def floorLog2 (n d : Nat) : Int :=
  let e : Int := (Nat.log2 n : Int) - (Nat.log2 d : Int)
  let below := if 0 ≤ e then n < d * 2 ^ e.toNat else n * 2 ^ (-e).toNat < d
  if below then e - 1 else e

/-- 2^a for a finite a: exact for an integral a, else to 300 bits (log entry 10).
Arguments beyond any format's range are taken at the nearer of ±4096. -/
def exp2Val (s : Bool) (n d : Nat) : Val :=
  if n ≥ 4096 * d then (if s then .fin false 1 (2 ^ 4096) else .fin false (2 ^ 4096) 1)
  else
    let i := n / d
    let f := n % d
    if f == 0 then (if s then .fin false 1 (2 ^ i) else .fin false (2 ^ i) 1)
    else
      -- -x = -(i + 1) + (d - f)/d
      let (fl, neg, k) := if s then (d - f, true, i + 1) else (f, false, i)
      let m := 2 * powFrac rootsOfTwo fl d (2 ^ elemBits) + 1
      if neg then .fin false m (2 ^ (elemBits + 1 + k)) else .fin false (m * 2 ^ k) (2 ^ (elemBits + 1))

/-- log2 of n/d > 0: exact for a power of two, else to 150 bits (log entry 10). -/
def log2Val (n d : Nat) : Val :=
  let e := floorLog2 n d
  let exact := if 0 ≤ e then n == d * 2 ^ e.toNat else n * 2 ^ (-e).toNat == d
  if exact then .ofInt e
  else
    let m := if 0 ≤ e then n * 2 ^ elemBits / (d * 2 ^ e.toNat)
      else n * 2 ^ (elemBits + (-e).toNat) / d
    let bits := 2 * logFrac rootsOfTwo m 0 + 1
    let den : Nat := 2 ^ (rootsOfTwo.length + 1)
    let num : Int := e * (den : Int) + (bits : Int)
    .fin (num < 0) num.natAbs den

/-! ## Formats (R23, R26) -/

/-- Fraction width, bias, sign bit, pattern of the largest finite value, and what the all-ones exponent
holds. -/
structure Fmt where
  m : Nat
  bias : Nat
  signBit : Nat
  maxPat : Nat
  hasInf : Bool
  ieeeNan : Bool      -- signalling NaNs exist
  dnan : Nat
  deriving DecidableEq, Repr

/-- The formats of the floating and narrow types; an MX float type is its element (R43). -/
def fmtOf : Ty → Option Fmt
  | .f64 => some ⟨52, 1023, 63, 0x7FEFFFFFFFFFFFFF, true, true, 0x7FF8000000000000⟩
  | .f32 => some ⟨23, 127, 31, 0x7F7FFFFF, true, true, 0x7FC00000⟩
  | .f16 => some ⟨10, 15, 15, 0x7BFF, true, true, 0x7E00⟩
  | .bf16 => some ⟨7, 127, 15, 0x7F7F, true, true, 0x7FC0⟩
  | .e4m3 => some ⟨3, 7, 7, 0x7E, false, false, 0x7F⟩
  | .mxe4m3 => some ⟨3, 7, 7, 0x7E, false, false, 0x7F⟩
  | .e5m2 => some ⟨2, 15, 7, 0x7B, true, false, 0x7E⟩
  | .mxe5m2 => some ⟨2, 15, 7, 0x7B, true, false, 0x7E⟩
  | .e3m2 => some ⟨2, 3, 5, 0x1F, false, false, 0⟩
  | .mxe3m2 => some ⟨2, 3, 5, 0x1F, false, false, 0⟩
  | .e2m3 => some ⟨3, 1, 5, 0x1F, false, false, 0⟩
  | .mxe2m3 => some ⟨3, 1, 5, 0x1F, false, false, 0⟩
  | .e2m1 => some ⟨1, 1, 3, 0x7, false, false, 0⟩
  | .mxe2m1 => some ⟨1, 1, 3, 0x7, false, false, 0⟩
  | _ => none

/-- Signed integer types (R22). -/
def Ty.signed : Ty → Bool
  | .i8 | .i16 | .i32 | .i64 => true
  | _ => false

/-- The integer that the low w bits of a number stand for, signed or unsigned (R22). -/
def intOf (signed : Bool) (w n : Nat) : Int :=
  let u := n % 2 ^ w
  if signed && 2 ^ (w - 1) ≤ u then (u : Int) - ((2 ^ w : Nat) : Int) else (u : Int)

/-- The low w bits of an integer. -/
def natOf (w : Nat) (i : Int) : Nat := (i % ((2 ^ w : Nat) : Int)).toNat

/-- Decode of a float pattern. -/
def decodeFmt (f : Fmt) (bits : Nat) : Val :=
  let s := bits / 2 ^ f.signBit % 2 == 1
  let mag := bits % 2 ^ f.signBit
  let e := mag / 2 ^ f.m
  let fr := mag % 2 ^ f.m
  let allOnes := 2 ^ (f.signBit - f.m) - 1
  if f.hasInf && e == allOnes then
    if fr == 0 then .inf s else .nan (f.ieeeNan && fr / 2 ^ (f.m - 1) == 0)
  else if !f.hasInf && f.dnan != 0 && mag == f.dnan then .nan false
  else if e == 0 then .fin s fr (2 ^ (f.bias + f.m - 1))
  else if f.bias + f.m ≤ e then .fin s ((2 ^ f.m + fr) * 2 ^ (e - f.bias - f.m)) 1
  else .fin s (2 ^ f.m + fr) (2 ^ (f.bias + f.m - e))

/-- Decode (R43). -/
def decodeVal (t : Ty) (bits : Nat) : Val :=
  match t with
  | .i8 | .n8 | .i16 | .n16 | .i32 | .n32 | .i64 | .n64 => .ofInt (intOf (Ty.signed t) t.width bits)
  | .mxint8 => (Val.ofInt (intOf true 8 bits)).scale2 (-6)
  | .aq8 => .ofNat (bits % 256)
  | .e8m0 => if bits % 256 == 255 then .nan false else Val.one.scale2 ((bits % 256 : Nat) - 127)
  | t => match fmtOf t with
    | some f => decodeFmt f bits
    | none => .ofNat bits

/-! ## Rounding (R33) -/

/-- A rounding mode that .dyn has been replaced in (R32, R37). -/
inductive Mode where
  | rne | rtz | rup | rdn | rna | sr
  deriving DecidableEq, Repr

/-- The mode of a rounding code; code 6 takes %fmode.RM (R37). -/
def Rnd.mode (rm : Nat) : Rnd → Mode
  | .rne => .rne
  | .rtz => .rtz
  | .rup => .rup
  | .rdn => .rdn
  | .rna => .rna
  | .sr => .sr
  | .dyn => match rm with | 0 => .rne | 1 => .rtz | 2 => .rup | _ => .rdn

/-- Whether lo + u is taken: k is lo in units of u, rem/den the discarded fraction, r the random value
of R45. -/
def roundUp (mode : Mode) (neg : Bool) (k rem den r : Nat) : Bool :=
  if rem == 0 then false
  else match mode with
    | .rne => den < 2 * rem || (den == 2 * rem && k % 2 == 1)
    | .rna => den ≤ 2 * rem
    | .rtz => false
    | .rup => !neg
    | .rdn => neg
    | .sr => 65536 ≤ rem * 65536 / den + r

/-- n/d in units of 2^q: the whole units, the rest and its denominator. -/
def unitsOf (n d : Nat) (q : Int) : Nat × Nat × Nat :=
  let (a, b) := if 0 ≤ q then (n, d * 2 ^ q.toNat) else (n * 2 ^ (-q).toNat, d)
  (a / b, a % b, b)

/-- Round to multiples of 2^q: the units chosen and whether the result differs from n/d. -/
def roundUnits (mode : Mode) (neg : Bool) (n d : Nat) (q : Int) (r : Nat) : Nat × Bool :=
  let (k, rem, den) := unitsOf n d q
  (if roundUp mode neg k rem den r then k + 1 else k, rem != 0)

/-- Exponent of the spacing u for a magnitude n/d > 0 in a format (R33). -/
def spacing (f : Fmt) (n d : Nat) : Int :=
  max (floorLog2 n d) (1 - (f.bias : Int)) - (f.m : Int)

/-- Tininess after rounding: |RoundP(x)| lies below the smallest normal (R44). -/
def tiny (f : Fmt) (mode : Mode) (neg : Bool) (n d r : Nat) : Bool :=
  let e := floorLog2 n d
  let emin : Int := 1 - (f.bias : Int)
  if emin ≤ e then false
  else if e < emin - 1 then true
  else (roundUnits mode neg n d (e - (f.m : Int)) r).1 < 2 ^ (f.m + 1)

/-- Overflow in a type with infinities gives ±max for a mode that rounds toward zero there (R35). -/
def towardZero (mode : Mode) (neg : Bool) : Bool :=
  match mode with
  | .rtz => true
  | .rup => neg
  | .rdn => !neg
  | _ => false

def signBits (f : Fmt) (neg : Bool) (mag : Nat) : Nat := (if neg then 2 ^ f.signBit else 0) + mag

/-- The pattern of an infinity. -/
def infPat (f : Fmt) (neg : Bool) : Nat := signBits f neg (f.maxPat + 1)

/-- Finite overflow into a float type (R35). -/
def overflowFmt (f : Fmt) (mode : Mode) (neg sat : Bool) : Nat × Flags :=
  let fl := Flags.of ||| Flags.nx
  if sat then (signBits f neg f.maxPat, fl)
  else if f.hasInf then
    (if towardZero mode neg then signBits f neg f.maxPat else infPat f neg, fl)
  else if f.dnan != 0 then (f.dnan, fl)
  else (signBits f neg f.maxPat, fl)

/-- Encode into a float type (R44). -/
def encodeFmt (f : Fmt) (mode : Mode) (sat : Bool) (r : Nat) : Val → Nat × Flags
  | .nan s =>
    if f.dnan == 0 then (0, Flags.nv) else (f.dnan, if s then Flags.nv else 0)
  | .inf neg =>
    if sat then (signBits f neg f.maxPat, Flags.of)
    else if f.hasInf then (infPat f neg, 0)
    else if f.dnan != 0 then (f.dnan, Flags.of)
    else (signBits f neg f.maxPat, Flags.of)
  | .fin neg n d =>
    if n == 0 then (signBits f neg 0, 0)
    else
      let q := spacing f n d
      let q0 : Int := 1 - (f.bias : Int) - (f.m : Int)
      let (k, inexact) := roundUnits mode neg n d q r
      let mag := if k < 2 ^ f.m then k else (q - q0 + 1).toNat * 2 ^ f.m + (k - 2 ^ f.m)
      if f.maxPat < mag then overflowFmt f mode neg sat
      else
        let fl := if inexact then
            Flags.nx ||| (if tiny f mode neg n d r then Flags.uf else 0) else 0
        (signBits f neg mag, fl)

/-- Lowest and highest integer of a type (R22). -/
def intMin (t : Ty) : Int := if Ty.signed t then -((2 ^ (t.width - 1) : Nat) : Int) else 0
def intMax (t : Ty) : Int :=
  if Ty.signed t then ((2 ^ (t.width - 1) : Nat) : Int) - 1 else ((2 ^ t.width : Nat) : Int) - 1

/-- The nearer bound of an integer type. -/
def intClamp (t : Ty) (i : Int) : Int := if i < intMin t then intMin t else if intMax t < i then intMax t else i

/-- What an integer type holds after an overflow without saturation (R35). -/
def intOverflow (t : Ty) : Nat := if Ty.signed t then 2 ^ (t.width - 1) else 2 ^ t.width - 1

/-- Encode into an integer type (R35, R44). -/
def encodeInt (t : Ty) (mode : Mode) (sat : Bool) (r : Nat) : Val → Nat × Flags
  | .nan _ => (if sat then 0 else intOverflow t, Flags.nv)
  | .inf neg => (if sat then natOf t.width (if neg then intMin t else intMax t) else intOverflow t,
      Flags.nv)
  | .fin neg n d =>
    let (k, inexact) := roundUnits mode neg n d 0 r
    let i : Int := if neg then -(k : Int) else (k : Int)
    if i < intMin t || intMax t < i then
      (if sat then natOf t.width (intClamp t i) else intOverflow t, Flags.nv)
    else (natOf t.width i, if inexact then Flags.nx else 0)

/-- Encode into the codes of mxint8, units of 2^-6 from -127 to 127, or of aq8, 0 to 255 (R29, R31).
A NaN or infinity does not reach it (R35); it would give code 0 and NV. -/
def encodeCode (q : Int) (lo hi : Int) (mode : Mode) (r : Nat) : Val → Nat × Flags
  | .fin neg n d =>
    let (k, inexact) := roundUnits mode neg n d q r
    let i : Int := if neg then -(k : Int) else (k : Int)
    if i < lo then (natOf 8 lo, Flags.of ||| Flags.nx)
    else if hi < i then (natOf 8 hi, Flags.of ||| Flags.nx)
    else (natOf 8 i, if inexact then Flags.nx else 0)
  | _ => (0, Flags.nv)

/-- Conversion to e8m0 (R435). -/
def encodeE8m0 (mode : Mode) (r : Nat) : Val → Nat × Flags
  | .nan _ => (0xFF, Flags.nv)
  | .inf neg => if neg then (0xFF, Flags.nv) else (0xFE, Flags.of)
  | .fin neg n d =>
    if n == 0 then (0, 0)
    else if neg then (0xFF, Flags.nv)
    else
      let e := floorLog2 n d
      if e < -127 then (0, Flags.nx)
      else
        let (k, rem, den) := unitsOf n d e
        let field := (e + 127).toNat
        -- the candidates are 2^e and 2^(e+1); the parity of the lower one's field breaks a tie
        let up := roundUp mode false (field + (k - 1)) rem den r
        let field := if up then field + 1 else field
        if 254 < field then (0xFE, Flags.of ||| Flags.nx)
        else (field, if rem != 0 then Flags.nx else 0)

/-- Encode (R44): the pattern and the flags. r is the random value of R45 for mode SR. -/
def encodeVal (t : Ty) (mode : Mode) (sat : Bool) (r : Nat) (x : Val) : Nat × Flags :=
  match t with
  | .i8 | .n8 | .i16 | .n16 | .i32 | .n32 | .i64 | .n64 => encodeInt t mode sat r x
  | .mxint8 => encodeCode (-6) (-127) 127 mode r x
  | .aq8 => encodeCode 0 0 255 mode r x
  | .e8m0 => encodeE8m0 mode r x
  | t => match fmtOf t with
    | some f => encodeFmt f mode sat r x
    | none => (0, 0)

/-- Encode of an exact result, with the operation's own flags. -/
def encodeExact (t : Ty) (mode : Mode) (sat : Bool) (x : Exact) : Nat × Flags :=
  let (b, f) := encodeVal t mode sat 0 x.1
  (b, f ||| x.2)

/-- The rounding mode is toward -∞, which gives an exact zero sum its sign (R44). -/
def Mode.isRdn (m : Mode) : Bool := m == .rdn

/-- SRBits (R45). -/
def srBits (grain idx : Word) : Nat :=
  let z := grain ^^^ (idx * 0x9E3779B97F4A7C15#64)
  let z := (z ^^^ (z >>> 30)) * 0xBF58476D1CE4E5B9#64
  let z := (z ^^^ (z >>> 27)) * 0x94D049BB133111EB#64
  let z := z ^^^ (z >>> 31)
  (z >>> 48).toNat

/-- Fold (R49). -/
def foldCell (e o : Nat) : Nat × Flags :=
  encodeExact .f32 .rne false (addVals false (decodeVal .f32 e) (decodeVal .f32 o))

/-- The lesser or greater of two values under R139; a flag for a signalling operand (R231). -/
def minMaxVal (t : Ty) (isMax : Bool) (a b : Nat) : Nat × Flags :=
  let x := decodeVal t a
  let y := decodeVal t b
  let fl := if x.isSNan || y.isSNan then Flags.nv else 0
  if x.isNan && y.isNan then (((fmtOf t).map Fmt.dnan).getD 0, fl)
  else if x.isNan then (b, fl)
  else if y.isNan then (a, fl)
  else
    let xLess := x.lt y || (x.cmp y == 0 && x.sign && !y.sign)
    (if xLess != isMax then a else b, fl)

/-! ## Block scaling (R40, R41, R46, R47) -/

/-- emax of R40. -/
def emaxOf : Ty → Int
  | .mxe4m3 => 8
  | .mxe5m2 => 15
  | .mxe3m2 => 4
  | .mxe2m3 => 2
  | .mxe2m1 => 2
  | _ => 0

/-- Max of R40. -/
def maxOf : Ty → Nat × Nat
  | .mxe4m3 => (448, 1)
  | .mxe5m2 => (57344, 1)
  | .mxe3m2 => (28, 1)
  | .mxe2m3 => (15, 2)
  | .mxe2m1 => (6, 1)
  | _ => (127, 64)

/-- BlockAmax (R46): numerator and denominator of the largest magnitude, hasNaN, hasInf. -/
def blockAmax (vs : List Val) : (Nat × Nat) × Bool × Bool :=
  (vs.foldl (fun m v => match v with
      | .fin _ n d => if m.1 * d < n * m.2 then (n, d) else m
      | _ => m) (0, 1),
    vs.any Val.isNan, vs.any Val.isInf)

/-- ChooseScale (R47) for a magnitude n/d > 0. -/
def chooseScale (n d : Nat) (t : Ty) (policy : Policy) : Nat :=
  let x : Int := match policy with
    | .floor => floorLog2 n d - emaxOf t
    | .fit =>
      let (a, b) := maxOf t
      let e := floorLog2 (n * b) (d * a)
      let exact := if 0 ≤ e then n * b == d * a * 2 ^ e.toNat else n * b * 2 ^ (-e).toNat == d * a
      if exact then e else e + 1
  ((if x < -127 then -127 else if 127 < x then 127 else x) + 127).toNat

/-- How a block's scale is found: chosen (R47), or given (R40, R249). -/
inductive ScaleSrc where
  | choose (p : Policy)
  | given (g : Nat)
  deriving DecidableEq, Repr

/-- Quantisation of 32 values (R41): scale, element codes, flags. `rand` gives element i's random value. -/
def quantBlock (t : Ty) (src : ScaleSrc) (mode : Mode) (rand : Nat → Nat) (vs : List Val) :
    Nat × List Nat × Flags :=
  let ((n, d), hasNan, hasInf) := blockAmax vs
  let zeros := vs.map fun _ => 0
  if hasNan then (0xFF, zeros, Flags.nv)
  else if hasInf then (0xFF, zeros, Flags.of)
  else if src = .given 0xFF then (0xFF, zeros, Flags.nv)
  else if n == 0 then (0x00, zeros, 0)
  else
    let scale := match src with
      | .choose p => chooseScale n d t p
      | .given g => g
    let enc := vs.zipIdx.map fun (v, i) =>
      encodeVal t mode true (rand i) (v.scale2 (127 - (scale : Int)))
    (scale, enc.map Prod.fst, enc.foldl (fun f e => f ||| e.2) 0)

/-- One element of a block (R42): the scale times the element, exact. -/
def blockElem (t : Ty) (scale code : Nat) : Val :=
  if scale % 256 == 255 then .nan false
  else (decodeVal t code).scale2 ((scale % 256 : Nat) - 127)

/-! ## AQ8 (R30, R31, R48) -/

/-- A parameter word (R30). -/
def aqWord (scale zp : Nat) (zr : Bool) : Word := BitVec.ofNat 64 (scale + 2 ^ 32 * zp + 2 ^ 40 * zr.toNat)

/-- ChannelScale of a parameter word: SCALE, or SCALE/127 when ZR is 1 (R30). -/
def aqScale (w : Word) : Val :=
  let s := decodeVal .f32 (w.toNat % 2 ^ 32)
  if w.getLsbD 40 then match s with
    | .fin g n d => .fin g n (d * 127)
    | x => x
  else s

/-- The zero point of a parameter word. -/
def aqZp (w : Word) : Nat := w.toNat / 2 ^ 32 % 256

/-- AQParams (R48) for finite min and max; the flag says ZRANGE. SCALE of a constant channel is |c|, which R48 does not
say how to round where |c| is no f32, as a wide source allows. DESIGN CHOICE (log entry 62): |c| and s are rounded to f32
by RNE, and become infinity beyond its range. -/
def aqParams (mn mx : Val) : Word × Bool :=
  if mn.cmp mx == 0 then
    if mn.isZero then (aqWord 0x3F800000 128 false, true)
    else (aqWord (encodeVal .f32 .rne false 0 mn.abs).1 128 true, true)
  else
    let lo := if mn.lt .zero then mn else .zero
    let hi := if Val.zero.lt mx then mx else .zero
    let range := (divVals (addVals false hi lo.neg).1 (.ofNat 255)).1
    let s := (encodeVal .f32 .rne false 0 range).1
    let s := if s == 0 then 1 else s
    let z := match (divVals lo.neg (decodeVal .f32 s)).1 with
      | .fin _ n d => min (roundUnits .rne false n d 0 0).1 255
      | _ => 0
    (aqWord s z false, false)

/-- The parameter word of a channel (R31): NaN and infinity give a NaN scale with NV or OF. -/
def aqChannel (mn mx : Val) : Word × Flags :=
  if mn.isNan || mx.isNan then (aqWord 0x7FC00000 0 false, Flags.nv)
  else if mn.isInf || mx.isInf then (aqWord 0x7FC00000 0 false, Flags.of)
  else
    let (w, z) := aqParams mn mx
    (w, if z then Flags.zr else 0)

/-- The decoded value CS × (q − ZP) of a code (R30, R256); the flag is NV for a NaN or ∞ × 0. -/
def aqDecode (w : Word) (q : Nat) : Exact := mulVals (aqScale w) (.ofInt ((q : Int) - (aqZp w : Int)))

end Sys2Proof.Machine
end

