-- ==== Sys2Proof/Machine/Arith.lean ====
section
/-!
DEFINITION. Integer operations on elements of a type (R221-R224), shared by the scalar and the vector
instructions. Elements are the low bits of naturals.
-/

namespace Sys2Proof.Machine

/-- The value of an element (R22). -/
def iv (t : Ty) (n : Nat) : Int := intOf (Ty.signed t) t.width n

/-- Wrap modulo 2^w, or clamp under SAT (R217). -/
def wrapClamp (t : Ty) (sat : Bool) (x : Int) : Nat := natOf t.width (if sat then intClamp t x else x)

def iAdd (t : Ty) (sat : Bool) (a b : Nat) : Nat := wrapClamp t sat (iv t a + iv t b)
def iSub (t : Ty) (sat : Bool) (a b : Nat) : Nat := wrapClamp t sat (iv t a - iv t b)
def iMul (t : Ty) (sat : Bool) (a b : Nat) : Nat := wrapClamp t sat (iv t a * iv t b)
/-- Bits [2w−1:w] of the exact product. -/
def iMulh (t : Ty) (a b : Nat) : Nat := natOf t.width (iv t a * iv t b / ((2 ^ t.width : Nat) : Int))
def iMad (t : Ty) (sat : Bool) (a b c : Nat) : Nat := wrapClamp t sat (iv t a * iv t b + iv t c)
/-- Division with truncation; by zero all ones (R222). -/
def iDiv (t : Ty) (sat : Bool) (a b : Nat) : Nat :=
  if b % 2 ^ t.width == 0 then 2 ^ t.width - 1 else wrapClamp t sat ((iv t a).tdiv (iv t b))
/-- Remainder with the sign of the dividend; by zero the dividend (R222). -/
def iRem (t : Ty) (a b : Nat) : Nat :=
  if b % 2 ^ t.width == 0 then a % 2 ^ t.width else natOf t.width ((iv t a).tmod (iv t b))
def iAnd (t : Ty) (a b : Nat) : Nat := (a &&& b) % 2 ^ t.width
def iOr (t : Ty) (a b : Nat) : Nat := (a ||| b) % 2 ^ t.width
def iXor (t : Ty) (a b : Nat) : Nat := (a ^^^ b) % 2 ^ t.width
def iNot (t : Ty) (a : Nat) : Nat := 2 ^ t.width - 1 - a % 2 ^ t.width
def iShl (t : Ty) (sat : Bool) (a b : Nat) : Nat :=
  wrapClamp t sat (iv t a * ((2 ^ (b % 2 ^ t.width % t.width) : Nat) : Int))
/-- Right shift: arithmetic for i types, logical for n types. -/
def iShr (t : Ty) (a b : Nat) : Nat :=
  natOf t.width (iv t a / ((2 ^ (b % 2 ^ t.width % t.width) : Nat) : Int))
def iMin (t : Ty) (a b : Nat) : Nat := if iv t b < iv t a then b % 2 ^ t.width else a % 2 ^ t.width
def iMax (t : Ty) (a b : Nat) : Nat := if iv t a < iv t b then b % 2 ^ t.width else a % 2 ^ t.width
def iAbs (t : Ty) (sat : Bool) (a : Nat) : Nat := wrapClamp t sat (iv t a).natAbs
def iNeg (t : Ty) (sat : Bool) (a : Nat) : Nat := wrapClamp t sat (-(iv t a))
def iPopc (t : Ty) (a : Nat) : Nat := ((List.range t.width).filter (bitOf a)).length
def iClz (t : Ty) (a : Nat) : Nat :=
  let a := a % 2 ^ t.width
  if a == 0 then t.width else t.width - 1 - Nat.log2 a

/-- The low position and the length of a bit field inside the element (R223); length 0 when empty. -/
def bitField (t : Ty) (b : Nat) : Nat × Nat :=
  let pos := b % 64
  let len := b / 256 % 64
  if t.width ≤ pos then (0, 0) else (pos, min (pos + len) t.width - pos)

/-- Bit-field extraction (R223). -/
def iBfx (t : Ty) (a b : Nat) : Nat :=
  let (pos, n) := bitField t b
  if n == 0 then 0
  else
    let x := a / 2 ^ pos % 2 ^ n
    natOf t.width (intOf (Ty.signed t) n x)

/-- Bit-field insertion of a into c (R223). -/
def iBfi (t : Ty) (a b c : Nat) : Nat :=
  let c := c % 2 ^ t.width
  let (pos, n) := bitField t b
  c - c / 2 ^ pos % 2 ^ n * 2 ^ pos + a % 2 ^ n * 2 ^ pos

/-- The integer conditions 0-5 (R225); the other two never hold. -/
def iCond (t : Ty) (cond : Cond) (a b : Nat) : Bool :=
  let x := iv t a
  let y := iv t b
  match cond with
  | .eq => x == y
  | .ne => x != y
  | .lt => x < y
  | .le => x ≤ y
  | .gt => y < x
  | .ge => y ≤ x
  | .un => false
  | .or => false

/-- Conversion between integer types: the value kept, wrapped or clamped (R228). -/
def iCvt (t src : Ty) (sat : Bool) (a : Nat) : Nat := wrapClamp t sat (iv src a)

/-- Sum of four byte products and c (R224). -/
def iDot4 (t : Ty) (sat : Bool) (a b c : Nat) : Nat :=
  let bt : Ty := if Ty.signed t then .i8 else .n8
  let p (j : Nat) : Int := iv bt (a / 2 ^ (8 * j)) * iv bt (b / 2 ^ (8 * j))
  wrapClamp t sat (iv t c + p 0 + p 1 + p 2 + p 3)

end Sys2Proof.Machine
end

