-- ==== Sys2Proof/Config.lean ====
section
/-!
DEFINITION. What the spec leaves open and the model does not choose: free values, constants without a
body that no proof can evaluate.
-/

namespace Sys2Proof

/-- Core clock cycles that the n-th step of the machine takes on a core of a die.
The spec gives rates and latencies but fixes no cycle count of a step (R210, log entry 6). -/
opaque Config.cycleStep : (die core n : Nat) → Nat

/-- Whether the primary or alternate action of a bring-up step passes on an attempt (R411).
The outside decides; log entry 20. -/
opaque Config.bringupPasses : (attempt stp : Nat) → Bool

/-- FIXST.SEG after a request that stopped at no segment (R408 states none), for the n-th request; log entry
21. -/
opaque Config.fixSeg : Nat → Nat

/-- What HOSTERR holds after a write to a host address has failed: R335 gives the register no layout; log
entry 21. -/
opaque Config.hostErr : Nat → Word

/-- PMIN that the management processor derives from LIMITW and the measured power (R416 gives no function);
log entry 21. -/
opaque Config.pminOf : (limit watts : Nat) → Nat

/-- A byte of a core's register file, sidecars, tile memory or weight buffer, by its PA, that no resident group holds:
an engine may read it through the window, and the spec states no value; log entry 62. -/
opaque Config.idleByte : Nat → BitVec 8

/-- The AQ8 parameter word of a slot's column whose codes a WBFILL without a conversion all takes from the fill value:
no source channel supplies one (R159, R168); log entry 62. -/
opaque Config.slotWord : Nat → Word

/-- The code of a kind of unit in a header of the safelight read-out, and the length of a unit of a kind by its index (R417
gives neither); log entry 65. -/
opaque Config.readoutKind : (kind : Nat) → Nat
opaque Config.readoutLength : (kind index : Nat) → Nat

/-- The die-to-die link that trains only with its shadow lane held as a data lane, and the data lane whose place that takes,
where bring-up step 5 runs its alternate on an attempt (R411 names neither); log entry 20. -/
opaque Config.bringupLink : (attempt : Nat) → Nat
opaque Config.bringupLane : (attempt : Nat) → Nat

end Sys2Proof
end

