-- ==== Sys2Proof/Machine/State.lean ====
section
/-!
DEFINITION. The state of one package as plain data: waves, groups, cores, engines, memory, device
registers, fabric and host port, and what a step may end in beside a next state.
-/

namespace Sys2Proof.Machine

/-! ## Waves -/

/-- An entry of a slice's divergence stack (R343). -/
structure StackEntry where
  joinPc : Word
  pendPc : Word
  pend   : BitVec 4
  saved  : BitVec 4
  deriving DecidableEq, Repr

/-- One slice of a wave (R337, R391). -/
structure Slice where
  exited : Bool
  amask  : BitVec 4
  stack  : List StackEntry
  tsaved : BitVec 4
  tdepth : Nat
  deriving DecidableEq, Repr

/-- The clause a gang is in (R65, R66): class, body instructions left, and whether each is still held
to the admitted set (R67). -/
structure Clause where
  cls  : ClauseClass
  left : Nat
  deriving DecidableEq, Repr

/-- What a gang waits at (R382). -/
inductive Hold where
  | none
  | counters (l s c m : Nat)   -- WAIT and the header of a clause (R349, R66)
  | room (l s c m : Nat)       -- a counted instruction waits at issue until the counters have room (R127)
  | regang (len : Nat)         -- `len`: bytes of the instruction it waits at
  | barrier (n gen len : Nat)
  | acquire
  | hint
  | fence (flush : Bool)       -- `flush`: the zero-length read of R312 is outstanding
  | latch                      -- the rendezvous latch (R274)
  | expand                     -- an MMAX in progress (R288)
  | release (tiles spad : Bool)
  | walk                       -- a host-assisted walk is pending (R118)
  | service                    -- host fault service (R395)
  | common                     -- a read of a common register the wave has just written (R305)
  | remote                     -- space in the flow to another package (R319)
  | far                        -- the answers to an issued instruction's reads and writes beyond the package (R318, R335)
  | accept                     -- what accepting an issued PUSH or TRAYPUT.drain reads (R151)
  | give                       -- OWN.give and PUSH wait for the wave's earlier accesses (R124, R175)
  | matrix (tile slot : Option Nat)    -- an older MMAX names the same tile or slot (R272)
  deriving DecidableEq, Repr

/-- Metadata of a line less its CRC (R90), and whether it is poisoned (R97). -/
structure Line where
  md : BitVec 112
  poison : Bool
  deriving DecidableEq, Repr

/-- One gang: the slices that share a program counter (R337). -/
structure Gang where
  slices : BitVec 8
  pc     : Word
  hold   : Hold
  clause : Option Clause
  last   : Nat          -- number of its last issue (R382)
  parked : Bool         -- stopped at a boundary while a handler runs (R391)
  deriving DecidableEq, Repr

/-- The pending merge of a wave (R347). -/
structure Merge where
  mask    : BitVec 8
  addr    : Word
  arrived : BitVec 8
  deriving DecidableEq, Repr

/-- A cursor (R191). -/
structure Cursor where
  endd : Nat
  lastb : Nat
  offb : Nat
  posb : Nat
  lasta : Nat
  offa : Nat
  posa : Nat
  desc : Nat
  mode : Nat
  opened : Bool
  done : Bool
  seekerr : Bool
  havea : Bool
  haveb : Bool
  ina : Bool
  inb : Bool
  deriving DecidableEq, Repr

/-- The closed cursor: every field 0 (R197). -/
def Cursor.closed : Cursor :=
  ⟨0, 0, 0, 0, 0, 0, 0, 0, 0, false, false, false, false, false, false, false⟩

/-- The registers of the trap state (R390). -/
structure TrapRegs where
  tvec   : Word
  tm     : Bool
  code   : Nat
  cause  : Nat
  tpc    : Word
  tlanes : BitVec 32
  tinfo  : Word
  deriving DecidableEq, Repr

/-- Where a result of an outstanding access goes. -/
inductive Dst where
  | v (r lane : Nat)
  | s (r : Nat)
  | discard
  deriving DecidableEq, Repr

/-- One element an outstanding load or atomic still collects: the bytes gathered so far, and the requests
whose answers fill bytes `at_` to `at_ + len - 1`. -/
structure Elem where
  dst   : Dst
  t     : Ty
  lane  : Nat
  bytes : List Byte
  waits : List (Nat × Nat × Nat × Nat)   -- request, first byte here, byte within the answer, count
  deriving DecidableEq, Repr

/-- An L-counted instruction whose results are not yet all written (R126-R128). -/
structure LEntry where
  elems : List Elem
  pw    : List (Nat × Nat × Bool)          -- predicate, lane, value
  xw    : List (Nat × Nat × BitVec 16)     -- register, slice, sidecar
  ff    : List (Nat × BitVec 6)            -- lane, flags
  pv    : List Nat                         -- pending bits it set: 8 * register + slice
  ps    : List Nat
  pp    : List Nat
  bad   : List Nat                         -- lanes whose access came back with an error
  src   : Nat                              -- %tinfo source of R388 for `bad`
  pc    : Word
  slices : BitVec 8                        -- of the gang whose deque operation it is (R427)
  deriving DecidableEq, Repr

/-- An S-counted instruction not yet performed (R126). -/
structure SEntry where
  waits : List (Nat × Nat)                 -- requests not yet answered, each with its lane
  bad   : List Nat
  src   : Nat
  pc    : Word
  deriving DecidableEq, Repr

/-- What has become of an access beyond the package: 4 and 5 are the sources of R388 of a bad one, 0 is poison. -/
inductive FarRes where
  | waiting
  | done
  | bad (src : Nat)
  deriving DecidableEq, Repr

/-- An access beyond the package that is not counted on L or S, or that an engine makes: its request, the bytes it
reads or writes by PA, and its answer: for a read the bytes, and the metadata of their line, as their home gave them
(R307). -/
structure FarReq where
  req   : Nat
  pa    : Nat
  len   : Nat
  write : Bool
  res   : FarRes
  data  : List Byte
  line  : Line
  deriving DecidableEq, Repr

/-- One send beyond the package that a command or an instruction has still to make: bytes for the host, a zero-length
read behind them (R306), or a request to another package with the bytes that it concerns and the lanes it is for. -/
inductive FarSend where
  | host (addr : Nat) (bytes : List Byte)
  | probe (addr : Nat)
  | pod (pkg : Nat) (req : PodReq) (pa len : Nat) (lanes : List Nat)
  deriving DecidableEq, Repr

/-- A host fault-service request of a wave (R395). -/
structure Service where
  cause : Nat
  info  : Word
  lanes : BitVec 32
  pc    : Word
  slices : BitVec 8
  slot  : Option Nat
  deriving DecidableEq, Repr

/-- A page translation that a host-assisted walk answered, kept for the access that asked for it. -/
structure Answer where
  va    : Nat
  kind  : Nat
  level : Nat
  leaf  : Word
  late  : Bool       -- the walk timed out: not present at level 0
  deriving DecidableEq, Repr

/-- One wave (R202). -/
structure Wave where
  slot   : Nat                 -- wave slot of the core (R378)
  vbase  : Nat                 -- VBASE (R204)
  v      : Sparse Word         -- 32 * register + lane
  side   : Sparse (BitVec 16)  -- 8 * register + slice
  s      : Sparse Word
  p      : Sparse (BitVec 32)
  x      : Sparse Byte         -- 32 * register + lane
  xbase  : Sparse Nat
  xlimit : Sparse Nat
  q0 : Cursor
  q1 : Cursor
  q2 : Cursor
  q3 : Cursor
  grain  : Word
  grainctr : Word
  fflags : Sparse (BitVec 6)   -- by lane
  fmode  : BitVec 8
  trap   : TrapRegs
  bhalted : BitVec 16          -- %barst.HALTED
  abnd   : Bool                -- %barst.ABND
  ck     : Sparse (BitVec 320)
  slices : List Slice
  gangs  : List Gang
  merge  : Option Merge
  lq     : List LEntry
  sq     : List SEntry
  cq     : List (Nat × Bool)   -- commands that count on C, in issue order, and whether each completed
  mq     : Nat                 -- tile operations outstanding
  pv     : Sparse Bool         -- pending bits: 8 * register + slice
  ps     : Sparse Bool
  pp     : Sparse Bool
  marks  : Sparse Bool         -- words that fail their residue or parity (R213, R400)
  hostWrote : Option Nat       -- last host address written since the last FENCE.sys (R312)
  service : Option Service
  answers : List Answer
  far    : List FarReq         -- beyond the package, for the instruction at which the wave waits
  farM   : List FarReq         -- writes beyond the package that count on M
  tilesM : List (Nat × List Nat)   -- tiles of MSTOREs and MLOADs beyond the package, each with its requests (R272)
  refilled : Bool              -- refilled and not issued since (R354)
  halted : Bool
  deriving DecidableEq, Repr

/-! ## Groups -/

/-- A barrier (R352). -/
structure Barrier where
  fixed   : Option (BitVec 16)
  arrived : BitVec 16
  gen     : Nat
  deriving DecidableEq, Repr

/-- One arrival at the rendezvous latch (R274). -/
structure Arrival where
  wave : Nat
  d : Nat
  a : Word
  b : Word
  deriving DecidableEq, Repr

/-- The open entry of the rendezvous latch (R274). -/
structure Latch where
  opc : Nat
  t : Ty
  f : Nat
  c : Word
  accord : Word
  pc : Word
  len : Nat
  arrivals : List Arrival
  quad : Option Nat        -- order of arrival at the quad latch (R287)
  deriving DecidableEq, Repr

/-- An accepted MMAX: its latch entry, the steps done and the steps in all (R288). -/
structure Expansion where
  latch : Latch
  done  : Nat
  total : Nat
  deriving DecidableEq, Repr

/-- The status word of a tile (R271). -/
structure TileStat where
  kbase : Nat
  uce : Bool
  flags : BitVec 6
  i64 : Bool
  inflight : Nat
  dirty : Bool
  valid : Bool
  kdone : Nat
  deriving DecidableEq, Repr

/-- Why a group is being stopped (R396). -/
inductive StopKind where
  | vacate | yielded | spill | fence
  deriving DecidableEq, Repr

/-- A resident group (R369, R377, R378). -/
structure Group where
  gid    : Nat
  record : List Word           -- w0-w7 of its record
  index  : Nat
  die    : Nat
  core   : Nat                 -- logical core
  phys   : Nat                 -- physical core
  acquired : Bool
  relTiles : Bool
  relSpad  : Bool
  spadBase : Nat               -- first tile of its scratchpad run
  cset   : Nat                 -- common-register set
  tileIds : List Nat           -- physical tiles
  wbIds  : List Nat            -- physical weight-buffer slots
  waves  : List Wave
  cells  : Sparse Word         -- 4096 * tile + 64 * row + column
  tstat  : List TileStat
  wb     : Sparse Byte         -- 65536 * slot + offset
  wbMark : Sparse Bool         -- uncorrectable bytes of a slot (R98)
  accord : Word
  latch  : Option Latch
  quads  : List Latch          -- formed QMMA accords that wait for their partners (R287)
  expansions : List Expansion  -- the MMAX in progress, oldest first
  bars   : List Barrier
  stat   : Sparse (Word × Word)   -- STAT0, STAT1 of the 64 entries
  marks  : Sparse Bool         -- %accord, status entries, saved as uncorrectable
  order  : Option Nat          -- place among the waiters at ACQUIRE (R379)
  stop   : Option StopKind
  opWait : Bool                -- waits for the operating point (R380)
  poolWait : Bool              -- its spill waits for an image slot (R399)
  discard : Bool               -- discarded: no image, no join (R401)
  joined : Bool                -- the join's decrement has been performed
  follow : Option (List Word)  -- the record of the join that still has to be appended (R381)
  cohort : Nat                 -- position in its quad cohort (R377)
  peers  : List Nat            -- gids of its quad cohort, itself among them
  deriving DecidableEq, Repr

/-! ## Engines -/

/-- The part of a drain that has been read and not committed (R184, R185): the HEAD and APPLIED of the region's header
as read, the region's new bytes, and what its records added to the status. -/
structure DrainHeld where
  head    : Nat
  applied : Nat
  out     : List Byte
  badrec  : Nat
  flags   : BitVec 6
  deriving DecidableEq, Repr

/-- Where a drain stands (R184, R187). -/
structure DrainPos where
  next    : Nat
  skipped : Nat
  badrec  : Nat
  flags   : BitVec 6
  poison  : Bool
  held    : Option DrainHeld
  deriving DecidableEq, Repr

/-- A command whose accesses in this package have been made: what it has still to send beyond it, its two status words
and the tiles that it names (R170, R306). -/
structure Finish where
  todo  : List FarSend
  stat0 : Word
  stat1 : Word
  named : List (Nat × Nat × Nat)
  deriving DecidableEq, Repr

/-- A command in a queue of an engine or tray engine (R149, R152). -/
structure Cmd where
  id    : Nat
  words : List Word
  gid   : Nat
  wave  : Nat
  die   : Nat                  -- of the issuing core
  phys  : Nat
  asid  : Nat
  reads : List (Nat × List Byte × Bool)   -- descriptors read at acceptance: VA, bytes, poisoned
  bad   : List (Nat × Nat)     -- the failure of a descriptor read: status error and STAT1
  tiles : List (Nat × Nat × Nat)          -- tiles it names: die, physical core, tile
  sets  : List (Nat × Nat × Nat)          -- common-register sets it writes through windows: die, physical core, set (R125)
  aged  : Option Nat
  started : Bool               -- the unit has taken it (R150)
  hurt  : Bool                 -- an uncorrectable error has struck inside the unit (R173, R185)
  drain : Option DrainPos
  fin   : Option Finish
  deriving DecidableEq, Repr

/-- A page of a collective's destination, with the translation taken at its start (R325). -/
structure HeldPage where
  page  : Nat
  pa    : Nat
  level : Nat
  entry : Word
  place : Option Nat
  deriving DecidableEq, Repr

/-- A collective in progress at one die's engine (R325-R330). -/
structure Coll where
  uid   : Nat
  die   : Nat
  asid  : Nat
  words : List Word
  list  : List Nat
  place : Nat                  -- the package's position in the list
  gate  : Nat × Nat × Nat      -- die, physical core, tile
  dst   : List HeldPage
  own   : List WireBlock       -- the package's part
  level : Nat                  -- levels of the tree it has passed
  sent  : Bool                 -- its part has gone to the next participant
  running : Bool               -- every participant has joined
  run   : Nat                  -- number of the run, as the root has given it
  fin   : Option (List WireBlock × Bool)   -- the final value with NF, where its write still waits for walks
  flags : BitVec 6
  deriving DecidableEq, Repr

/-- A command that a collective engine has taken from an intake deque and that has not joined yet (R325): its address
space, the VA of its block, the block's words and poison once read, and its participant list once read. -/
structure CollTaken where
  asid   : Nat
  va     : Nat
  words  : List Word
  poison : Bool
  gate   : Option (Nat × Nat × Nat)
  list   : List Nat
  deriving DecidableEq, Repr

/-! ## Translation -/

/-- An entry of a walk cache (R109): key above its reach and the next table. -/
structure WalkEntry where
  asid : Nat
  key  : Nat
  pa   : Nat
  deriving DecidableEq, Repr

/-- A leaf held by the leaf cache (R109): level 3, 4 or 5 (merged). -/
structure LeafEntry where
  asid  : Nat
  key   : Nat
  level : Nat
  entries : List Word          -- one leaf, or the sixteen of a C group
  pas   : List Nat             -- their places in memory
  deriving DecidableEq, Repr

/-- The translation structures of one die (R109), most recently used first. -/
structure TransUnit where
  wc1 : List WalkEntry
  wc2 : List WalkEntry
  wc3 : List WalkEntry
  leaves : List LeafEntry
  deriving DecidableEq, Repr

/-- An L1 line of a core (R110, R122). -/
structure L1Line where
  die  : Nat
  phys : Nat
  asid : Nat
  va   : Nat                   -- VA[56:7]
  pa   : Nat                   -- storage line
  r : Bool
  x : Bool
  p : Bool
  w : Bool                     -- W of the translation
  wbit : Bool                  -- the line's write bit
  level : Nat                  -- level of the leaf it was filled through
  owned : Bool
  deriving DecidableEq, Repr

/-- Whose access a host-assisted walk serves: a wave's, an engine's of the die, or a prefetch of a core (R146). -/
inductive Asker where
  | wave (gid w : Nat)
  | unit (n : Nat)               -- 64 * die + unit
  | prefetch (phys : Nat) (l2 : Bool)
  deriving DecidableEq, Repr

/-- A pending host-assisted walk (R118). -/
structure WalkReq where
  die  : Nat
  who  : Asker
  asid : Nat
  va   : Nat
  kind : Nat
  slot : Option Nat
  deriving DecidableEq, Repr

/-! ## Scheduling -/

/-- An entry of a re-entry chain (R376): the image slots of one group or of a quad cohort. -/
abbrev Reentry := List Nat

/-- A scheduling queue (R373, R376). -/
structure Queue where
  base   : Nat
  logcap : Nat
  head   : Nat
  spawned : List Bool          -- per record in the ring: appended by SPAWN
  chain  : List Reentry
  last   : Nat                 -- LAST of QSTAT
  aged   : Option Nat          -- order in which it reached the limit of R377
  stage  : List Word
  deriving DecidableEq, Repr

/-- A vacate in progress (R385): the cores chosen, and the groups that were resident on them then. -/
structure Vacate where
  die    : Nat
  benef  : Nat
  chosen : List Nat
  left   : List Nat
  deriving DecidableEq, Repr

/-- What the fuses and the fencings leave of a die's cores (R437, R401). -/
structure CoreMap where
  good    : BitVec 52
  enabled : BitVec 52
  spare   : BitVec 52
  cmap    : List Nat           -- 48 physical numbers; 0x3F when retired
  fenced  : BitVec 52
  held    : List (Nat × Nat)   -- logical core and the beneficiary it is held for (R385)
  recover : List Nat           -- cores that stopped and wait for FENCEREQ (R401)
  op      : Nat                -- operating point now
  target  : Nat                -- and the one it moves to (R380)
  deriving DecidableEq, Repr

/-! ## Fabric and host port -/

/-- Who waits for the answer to a request of this package. -/
structure Owner where
  gid  : Nat
  wave : Nat
  deriving DecidableEq, Repr

/-- The two flows between this package and another (R320). -/
structure Flow where
  pkg    : Nat
  next   : Nat                              -- next sequence number of its request flow
  unacked : List (Nat × Nat × PodReq)       -- number, request, content
  expect : Nat                              -- next request expected from the other package
  held   : List (Nat × PodResp)             -- responses not yet acknowledged, by the request's number
  rexpect : Nat                             -- next response expected from it
  deriving DecidableEq, Repr

/-- A port (R316, R317). -/
structure Port where
  swaps  : Nat
  shadow : Nat
  weak   : BitVec 5
  state  : Nat
  serving : List Nat           -- data lanes, the longest-serving first
  pkg    : Nat                 -- package and port at the other end, known once the port has trained
  far    : Nat
  deriving DecidableEq, Repr

/-- A non-posted request to the host (R335). -/
inductive HostReq where
  | read (id addr len : Nat) (later : List Nat)     -- `later`: bytes that a later posted write has written
  | atomic (id addr len : Nat) (op : AtomOp) (v cmp : Word) (later : List Nat)
  | flush (gid wave slice addr : Nat)       -- the zero-length read of FENCE.sys (R312)
  | saved (gid addr : Nat)                  -- and of the context saver (R313)
  deriving DecidableEq, Repr

/-- What the package sent to the host. -/
inductive HostMsg where
  | msix (v : Nat)
  | read (id addr len : Nat)
  | write (addr : Nat) (bytes : List Byte)
  | atomic (id addr : Nat) (op : AtomOp) (v cmp : Word)
  | completion (bytes : List Byte) (poison : Bool)
  | unsupported
  deriving DecidableEq, Repr

/-! ## Device registers -/

/-- The fields of the device registers that no other part of the state holds (R87). -/
structure Regs where
  lock     : Bool        -- MEMCFG.LOCK, FABCFG.LOCK
  localGib : Nat
  walkTmo  : Nat
  walkHost : Bool        -- TRCTL.WALK
  rootBase : Nat
  ptBase   : Nat
  ptLimit  : Nat
  trinv    : Word
  trinvErr : Bool
  trinvRun : Option Word  -- the invalidation that runs
  hwRing   : Nat
  mode     : Nat         -- FABCFG
  npkg     : Nat
  pkgId    : Nat
  fabTmo   : Nat
  assist   : Bool
  ver      : Nat
  rtCur    : Sparse Byte   -- default 0xFF
  rtStage  : Sparse Byte   -- default 0xFF
  rtBackup : Sparse Byte   -- default 0xFE
  cqRoot   : Sparse Nat
  cdrop    : Nat
  h4base   : Nat
  hostErr  : Word
  vacReq   : Word
  vacBusy  : Bool
  vacErr   : Bool
  vacDone  : Nat
  schErr   : Word
  fsTmo    : Nat
  vacTmo   : Nat
  vacHost  : Bool
  recHost  : Bool
  fsHost   : Bool
  fsRing   : Nat
  vacMask  : BitVec 48
  fenceReq : Word
  contst0  : Word
  contst1  : Word
  imgBase  : Sparse Nat
  imgCount : Sparse Nat
  loadReq  : Word
  fixSeg   : Nat
  fixRefused : Bool
  fixRun   : Option Word   -- the request that the Fixer runs
  codeBase : Nat
  codeLimit : Nat
  fixErr   : Nat
  attest   : List Byte   -- 32 bytes
  attCnt   : Word
  pmin     : Nat
  limitW   : Nat
  deriving DecidableEq, Repr

/-- Bring-up (R411-R413). -/
structure Boot where
  degr    : BitVec 8
  attempt : Nat
  stop    : Bool
  step    : Nat
  log     : List (List (Nat × Bool))   -- last four attempts: per step, the form run and its result
  skip7   : Bool
  deriving DecidableEq, Repr

/-- What the outside does not answer: packages of the pod and ranges of host memory (log entry 12). -/
structure Outside where
  deadPkgs : List Nat
  badHost  : List (Nat × Nat)
  deriving DecidableEq, Repr

/-- A gang, named by one of its slices. -/
structure GangRef where
  gid   : Nat
  wave  : Nat
  slice : Nat
  deriving DecidableEq, Repr

/-- One turn of the agenda: a gang issues, a unit or the outside makes a step, the outside writes its own memory, or
the hardware meets an error that no correction hides. -/
inductive Turn where
  | issue (g : GangRef)
  | event (i : Instr)
  | outside (cells : List Host.Cell)
  | environment (o : Outside)
  | bar4Size (log : Nat)               -- the Resizable BAR capability sets BAR4 (R333)
  | stackError (off : Nat)             -- a stack reports an uncorrectable error of an HBM line (R84)
  | unitError (die unit : Nat)         -- inside a copy or tray engine (R173, R185)
  | saveError (gid : Nat)              -- a save path fails (R401)
  | residueError (g : GangRef) (lanes : BitVec 32)   -- an ALU's residue prediction fails on a gang's instruction (R212)
  deriving DecidableEq, Repr

/-- A common-register write that is not yet performed (R305). -/
structure CommonWrite where
  die  : Nat
  phys : Nat
  addr : Nat       -- place in the window range
  word : Word
  gid  : Nat
  wave : Nat
  slot : Nat
  cycle : Nat
  deriving DecidableEq, Repr

/-- A kind of unit of the safelight read-out (R417). -/
inductive UnitKind where
  | core | l2 | engine | translation | hbm
  deriving DecidableEq, Repr

/-- What the storage bits of a unit hold (R417): a core's groups with their registers, its L1, its scratchpad and common
registers with what is under way to them; the lines of a die's L2, by their place in the HBM, with bytes and metadata; an
engine's commands and what it holds for them; a translation unit's entries and walks; the HBM's bytes and lines. DESIGN CHOICE
(log entry 37): what the spec places in no unit by name leaves with the engines: a die's scheduler with its core map and its
links to other dies, and, once for the package, the device registers and fuses, the management processor, the ports, the
flows and the host port. -/
inductive UnitBits where
  | core (groups : List Group) (l1 : List L1Line) (cells : List Host.Cell) (lines : Sparse Line)
      (owner ownerBad : Sparse Bool) (commons : List CommonWrite)
  | l2 (lines : List (Nat × List Byte × Line))
  | engine (cmds : Sparse (List Cmd)) (colls : List Coll) (taken : Option CollTaken) (next : Nat)
      (answers : List Answer) (far : List FarReq)
  | scheduler (queues : List Queue) (cores : CoreMap) (vacate : Option Vacate) (links : Sparse Port)
  | shared (regs : Regs) (boot : Boot) (keys : List (List Byte)) (images : List Nat) (ports : List Port)
      (flows : List Flow) (collIn collOut : List (Nat × Nat × CollMsg)) (hostq : List HostReq) (bar4Log power clock : Nat)
  | translation (unit : TransUnit) (walks : List WalkReq)
  | hbm (cells : List Host.Cell) (lines : Sparse Line)
  deriving DecidableEq, Repr

/-- A unit of the safelight read-out: what it is, its die, its number there, the header before it, and its bits (R417). -/
structure ReadUnit where
  kind   : UnitKind
  die    : Nat
  index  : Nat
  header : Word
  bits   : UnitBits
  deriving DecidableEq, Repr

/-- The whole package. -/
structure State where
  mem      : Memory                    -- HBM by storage place, every other region by PA
  hbm      : Sparse Line               -- metadata of HBM and pod lines; never written is poisoned (R90)
  spad     : Sparse Line               -- metadata of scratchpad lines
  owner    : Sparse Bool               -- owner bits, by tile (R123)
  ownerBad : Sparse Bool               -- owner bits refilled as uncorrectable, by tile (R400)
  groups   : List Group
  engq     : Sparse (List Cmd)         -- (33 * die + unit) * 4 + priority; unit 32 is the tray engine
  colls    : List Coll
  collIn   : List (Nat × Nat × CollMsg)     -- joins and parts not yet used: ID, package, content
  collCmd  : Sparse (Option CollTaken) -- per die the command that its collective engine has taken
  collOut  : List (Nat × Nat × CollMsg)     -- messages that wait for a slot of the retry buffers: package, ID, content
  collNext : Sparse Nat                -- per die the ASID that its collective engine looks at next
  commons  : List CommonWrite
  trans    : List TransUnit            -- eight
  l1       : List L1Line
  l2       : List Nat                  -- storage lines that the L2 of their die holds, in the order they entered (R84)
  walks    : List WalkReq
  unitAns  : Sparse (List Answer)      -- answers for the engines' walks: 64 * die + unit
  unitFar  : Sparse (List FarReq)      -- the engines' accesses beyond the package: 64 * die + unit
  queues   : List Queue                -- 8 * die + priority
  cores    : List CoreMap              -- eight
  vacate   : Option Vacate
  images   : List Nat                  -- image slots in use, by PA
  ports    : List Port                 -- eighteen
  flows    : List Flow
  hostq    : List HostReq
  hostOut  : List HostMsg              -- what went to the host, oldest first
  d2d      : Sparse Port               -- die-to-die links: 64 * die + link
  wire     : List (Nat × Packet)       -- what went to the fabric, oldest first, each by its output port
  regs     : Regs
  boot     : Boot
  keys     : List (List Byte)          -- fused key hashes (R407)
  bar4Log  : Nat                       -- log2 of the size of BAR4
  power    : Nat                       -- measured power, W
  frozen   : Bool
  debugOut : List ReadUnit             -- what the safelight read-out has shifted out, first unit first
  outside  : Outside
  agenda   : List Turn
  cur      : Option GangRef
  ticks    : Nat
  issueNo  : Nat
  nextGid  : Nat
  nextReq  : Nat
  deriving DecidableEq, Repr

/-! ## Reset -/

/-- An empty scheduling queue: disabled (R373). -/
def Queue.reset : Queue := ⟨0, 0, 0, [], [], 0, none, List.replicate 8 0⟩

/-- A die whose 52 cores are all good (log entry 5): cores 0-47 enabled, 48-51 spare (R437). -/
def CoreMap.reset : CoreMap :=
  { good := BitVec.allOnes 52, enabled := BitVec.ofNat 52 (2 ^ 48 - 1),
    spare := BitVec.ofNat 52 (2 ^ 52 - 2 ^ 48), cmap := List.range 48, fenced := 0, held := [],
    recover := [], op := 0, target := 0 }

/-- A port after reset (R316). -/
def Port.reset : Port := ⟨0, 4, 0, 0, [0, 1, 2, 3], 0, 0⟩

/-- The device registers after reset. -/
def Regs.reset : Regs :=
  { lock := false, localGib := 0, walkTmo := 100, walkHost := false, rootBase := 0, ptBase := 0,
    ptLimit := 0, trinv := 0, trinvErr := false, trinvRun := none, hwRing := 0, mode := 0,
    npkg := 1, pkgId := 0, fabTmo := 10000, assist := false, ver := 0, rtCur := [], rtStage := [],
    rtBackup := [], cqRoot := [], cdrop := 0, h4base := 0, hostErr := 0,
    vacReq := 0, vacBusy := false, vacErr := false, vacDone := 0, schErr := 0, fsTmo := 1000,
    vacTmo := 100, vacHost := false, recHost := false, fsHost := false, fsRing := 0, vacMask := 0,
    fenceReq := 0, contst0 := 0, contst1 := 0, imgBase := [], imgCount := [], loadReq := 0,
    fixSeg := 0, fixRefused := false, fixRun := none, codeBase := 0, codeLimit := 0, fixErr := 0,
    attest := List.replicate 32 0, attCnt := 0, pmin := 0, limitW := 5400 }

/-- Bring-up after reset: no step has passed, no attempt is logged (log entry 5). -/
def Boot.reset : Boot := ⟨0, 0, false, 0, [], false⟩

/-- The package right after reset, before bring-up has run a step (R411). -/
def State.reset : State :=
  { mem := [], hbm := [], spad := [], owner := [], ownerBad := [], groups := [], engq := [], colls := [], collIn := [], collCmd := [], collOut := [],
    collNext := [],
    commons := [], trans := List.replicate 8 ⟨[], [], [], []⟩, l1 := [], l2 := [], walks := [],
    unitAns := [], unitFar := [],
    queues := List.replicate 64 Queue.reset, cores := List.replicate 8 CoreMap.reset,
    vacate := none, images := [], ports := List.replicate 18 Port.reset,
    flows := [], hostq := [], hostOut := [], d2d := [], wire := [], regs := Regs.reset, boot := Boot.reset,
    keys := List.replicate 4 (List.replicate 32 0), bar4Log := 30, power := 0, frozen := false, debugOut := [],
    outside := ⟨[], []⟩, agenda := [], cur := none, ticks := 0, issueNo := 0, nextGid := 1,
    nextReq := 1 }

/-! ## What a step may end in beside a next state -/

/-- The machine stops with a fault. -/
inductive Fault where
  /-- `exec` of an instruction word in a state in which no gang issues: the spec gives an instruction
  without an issuing gang no effect (R337). Raised by every meaning of an instruction word; safe. -/
  | noIssuingGang
  deriving DecidableEq, Repr

/-- No meaning is given. -/
inductive Refusal where
  /-- An instruction that the model does not give a meaning: raised by the dispatcher; safe. -/
  | notModelled (mnemonic : String)
  deriving DecidableEq, Repr

end Sys2Proof.Machine
end

