-- ==== Sys2Proof/Machine/Memory.lean ====
section
/-!
DEFINITION. Physical memory (04_main_memory.md): the regions, the mapping of HBM offsets to stacks, line
metadata, plain and native writes, poison, CRC and the checks of a native read.
-/

namespace Sys2Proof.Machine

/-! ## Regions (R80) -/

/-- What a physical address names. -/
inductive Region where
  | hbm (off : Nat)
  | window (die phys off : Nat)
  | device (off : Nat)
  | pod (pkg off : Nat)
  | host (addr : Nat)
  | none
  deriving DecidableEq, Repr

/-- Decode a physical address; `none` for region 0x3 and for bits that must be zero (R80, R81). -/
def regionOf (pa : Nat) : Region :=
  let r := pa / 2 ^ 48
  let lo := pa % 2 ^ 48
  if r == 0 then (if lo < 2 ^ 40 then .hbm lo else .none)
  else if r == 1 then
    if lo < 2 ^ 33 then .window (lo / 2 ^ 30) (lo / 2 ^ 24 % 64) (lo % 2 ^ 24) else .none
  else if r == 2 then (if lo < 2 ^ 24 then .device lo else .none)
  else if r == 3 then .none
  else if r < 8 then .pod (pa / 2 ^ 40 % 1024) (pa % 2 ^ 40)
  else if r < 16 then .host (pa % 2 ^ 51)
  else .none

/-- The PA of a byte of a core's window (R80, R85). -/
def windowPa (die phys off : Nat) : Nat := 2 ^ 48 + die * 2 ^ 30 + phys * 2 ^ 24 + off

/-- Window offsets of R85. -/
def winSpad : Nat := 0x100000
def winTiles : Nat := 0x300000
def winSlots : Nat := 0x380000
def winCommon : Nat := 0x400000
def winSide : Nat := 0x410000

/-- The window range an offset lies in. -/
inductive WinRange where
  | vregs | spad | tiles | slots | common | side | reserved
  deriving DecidableEq, Repr

def winRange (off : Nat) : WinRange :=
  if off < winSpad then .vregs
  else if off < winTiles then .spad
  else if off < winSlots then .tiles
  else if off < winCommon then .slots
  else if off < winCommon + 0x4000 then .common
  else if winSide ≤ off && off < winSide + 0x10000 then .side
  else .reserved

/-- A pod address of this package is local HBM at the same offset (R88). -/
def resolvePa (s : State) (pa : Nat) : Nat :=
  match regionOf pa with
  | .pod pkg off => if pkg == s.regs.pkgId then off else pa
  | _ => pa

/-- Stack and byte of a local HBM offset, as one storage place (R83). -/
def hbmPlace (localGib off : Nat) : Nat :=
  let gib := 2 ^ 30
  let pool := 16 * (64 - localGib) * gib
  if off < pool then
    let f := off / 4096
    let stack := (f % 16) ^^^ (f / 16 % 16)
    stack * 2 ^ 36 + (f / 16) * 4096 + off % 4096
  else
    let d := off - pool
    let l := localGib * gib
    (d / l) * 2 ^ 36 + (64 - localGib) * gib + d % l

/-- Where the byte of a (resolved) physical address is stored. -/
def placeOf (s : State) (pa : Nat) : Nat :=
  match regionOf pa with
  | .hbm off => hbmPlace s.regs.localGib off
  | _ => pa

/-- One byte of storage. -/
def readPa (s : State) (pa : Nat) : Byte := s.mem.read (placeOf s (resolvePa s pa))

/-- Consecutive bytes of storage from a physical address. -/
def readRun (s : State) (pa : Nat) (n : Nat) : List Byte :=
  (List.range n).map fun i => readPa s (pa + i)

/-! ## Line metadata (R90) -/

/-- Metadata exists for lines of HBM, pod memory and scratchpad. -/
inductive LineKind where
  | memory | spad | none
  deriving DecidableEq, Repr

def lineKind (pa : Nat) : LineKind :=
  match regionOf pa with
  | .hbm _ => .memory
  | .pod _ _ => .memory
  | .window _ _ off => if winRange off = .spad then .spad else .none
  | _ => .none

/-- A line of HBM or pod memory never written: it fails its CRC check and reads poisoned (R90). Its metadata, which nothing
but its poison shows, are all ones, which no written line holds, so that what has never been written can be told from what
has been poisoned since (R179). -/
def Line.unwritten : Line := ⟨BitVec.allOnes 112, true⟩
/-- A plain line that is not poisoned. -/
def Line.plain : Line := ⟨0, false⟩
/-- A line becomes poisoned; one that nothing had written counts as written. -/
def Line.poisoned (l : Line) : Line := ⟨if l == Line.unwritten then 0 else l.md, true⟩

/-- The line of a physical address. -/
def lineAt (s : State) (pa : Nat) : Line :=
  let pa := resolvePa s pa
  match lineKind pa with
  | .memory => s.hbm.get Line.unwritten (placeOf s pa / 128)
  | .spad => s.spad.get Line.plain (placeOf s pa / 128)
  | .none => Line.plain

/-- Put the metadata and poison of a line. -/
def setLine (s : State) (pa : Nat) (l : Line) : State :=
  let pa := resolvePa s pa
  match lineKind pa with
  | .memory => { s with hbm := s.hbm.set Line.unwritten (placeOf s pa / 128) l }
  | .spad => { s with spad := s.spad.set Line.plain (placeOf s pa / 128) l }
  | .none => s

/-- Some line that bytes of a run lie in is poisoned. -/
def poisonedRun (s : State) (pa n : Nat) : Bool :=
  (lineAt s pa).poison || (List.range n).any fun i => (pa + i) % 128 == 0 && (lineAt s (pa + i)).poison

/-- FMT code of a type (R90); 0 for plain. -/
def fmtCode : Ty → Nat
  | .mxe4m3 => 1
  | .mxe5m2 => 2
  | .mxe3m2 => 3
  | .mxe2m3 => 4
  | .mxe2m1 => 5
  | .mxint8 => 6
  | _ => 0

/-- The type of a FMT code. -/
def fmtTy : Nat → Ty
  | 1 => .mxe4m3
  | 2 => .mxe5m2
  | 3 => .mxe3m2
  | 4 => .mxe2m3
  | 5 => .mxe2m1
  | 6 => .mxint8
  | _ => .none

/-- A six-bit format. -/
def fmtSix (fmt : Nat) : Bool := fmt == 3 || fmt == 4

/-- Bytes per block in memory (R91). -/
def blockBytes (fmt : Nat) : Nat := if fmt == 5 then 16 else if fmtSix fmt then 24 else 32

/-- Position in its triplet of the line in which block b starts (R91). -/
def tripletOf (fmt b : Nat) : Nat :=
  if fmtSix fmt then (if b % 16 < 6 then 0 else if b % 16 < 11 then 1 else 2) else 0

/-- First block of a line, modulo 16: of the line in which block b starts. -/
def lineFirst (fmt b : Nat) : Nat :=
  if fmtSix fmt then (if b % 16 < 6 then 0 else if b % 16 < 11 then 6 else 11)
  else if fmt == 5 then b % 16 / 8 * 8
  else b % 16 / 4 * 4

/-- First block of the line at a triplet position. -/
def tripletFirst (p : Nat) : Nat := if p == 0 then 0 else if p == 1 then 6 else 11

/-- SLOTS of a line at a position (R91). -/
def slotsOf (fmt p : Nat) : Nat :=
  if fmtSix fmt then (if p == 0 then 6 else 5) else if fmt == 5 then 8 else 4

/-- Slot number of block b in its line. -/
def slotOf (fmt b : Nat) : Nat := b % 16 - lineFirst fmt b

/-- Fields of the metadata. -/
def Line.fmt (l : Line) : Nat := bitsOf l.md.toNat 3 0
def Line.slots (l : Line) : Nat := bitsOf l.md.toNat 7 4
def Line.triplet (l : Line) : Nat := bitsOf l.md.toNat 15 8
def Line.scale (l : Line) (i : Nat) : Nat := bitsOf l.md.toNat (23 + 12 * i) (16 + 12 * i)
def Line.tag (l : Line) (i : Nat) : Nat := bitsOf l.md.toNat (27 + 12 * i) (24 + 12 * i)

/-- Metadata of a line whose slots hold one scale, with the tags of its position (R91, R92). -/
def mdFormat (fmt p first scale : Nat) : BitVec 112 :=
  let n := slotsOf fmt p
  BitVec.ofNat 112 ((List.range n).foldl (fun a i =>
    a + (scale + 256 * ((first + i) % 16)) * 2 ^ (16 + 12 * i)) (fmt + 16 * n + 256 * p))

/-- Put a slot. -/
def mdSetSlot (md : BitVec 112) (i scale tag : Nat) : BitVec 112 :=
  let sh := 16 + 12 * i
  let old := bitsOf md.toNat (sh + 11) sh
  BitVec.ofNat 112 (md.toNat - old * 2 ^ sh + (scale % 256 + 256 * (tag % 16)) * 2 ^ sh)

/-- CRC-16, polynomial 0x1021, initial value 0xFFFF (R93). -/
def crcByte (crc : Nat) (b : Byte) : Nat :=
  let rec go : Nat → Nat → Nat
    | 0, c => c
    | k + 1, c => go k (if 2 ^ 15 ≤ c then (2 * c % 2 ^ 16) ^^^ 0x1021 else 2 * c)
  go 8 (crc ^^^ (b.toNat * 256))

/-- The CRC of a line's data and of its metadata bytes 0-13. -/
def crcOf (data : List Byte) (md : BitVec 112) : Nat :=
  (data ++ bytesOfNat 14 md.toNat).foldl crcByte 0xFFFF

/-- The sixteen metadata bytes of a line as they travel (R90, R319). -/
def mdWithCrc (data : List Byte) (l : Line) : BitVec 128 :=
  BitVec.ofNat 128 (l.md.toNat + 2 ^ 112 * crcOf data l.md)

/-! ## Plain writes (R92, R97, R105, R406) -/

/-- The byte lies in the code region, which is local HBM and which only the Fixer writes (R406). -/
def inCode (s : State) (pa : Nat) : Bool := s.regs.codeBase ≤ pa && pa < s.regs.codeLimit && pa < 2 ^ 40

/-- The byte lies in the table region, which is local HBM (R105). -/
def inTables (s : State) (pa : Nat) : Bool := s.regs.ptBase ≤ pa && pa < s.regs.ptLimit && pa < 2 ^ 40

/-- Lines that the L2 of one die holds: 128 MiB of them (R16). -/
def l2Lines : Nat := 2 ^ 20

/-- The die whose L2 may hold a storage line: the one that owns its stack (R84). -/
def l2Die (line : Nat) : Nat := line / 2 ^ 30

/-- A line of local HBM enters the L2 of its die; of 2^20 held there the one that entered first is given up
(DESIGN CHOICE, log entry 70). -/
def enterL2 (l2 : List Nat) (line : Nat) : List Nat :=
  if 2 ^ 33 ≤ line || l2.contains line then l2
  else
    let mine := l2.filter fun o => l2Die o == l2Die line
    (if mine.length < l2Lines then l2 else l2.erase (mine.headD 0)) ++ [line]

/-- The lines of some physical addresses enter the L2s of their dies. -/
def fillL2 (s : State) (pas : List Nat) : State :=
  { s with l2 := (dedup (pas.map fun pa => placeOf s pa / 128)).foldl enterL2 s.l2 }

/-- Write bytes to storage, by physical address, later ones last. -/
def storeBytes (s : State) (ws : List (Nat × Byte)) : State :=
  fillL2 { s with mem := ws.foldl (fun m w => m.write (placeOf s w.1) w.2) s.mem } (ws.map Prod.fst)

/-- Bit 63 is forced to 0 in every aligned word of the table region of which a byte was written (R105). -/
def clearF (s : State) (ws : List (Nat × Byte)) : State :=
  { s with mem := ws.foldl (fun m w =>
      if inTables s w.1 then
        let top := placeOf s (w.1 / 8 * 8 + 7)
        m.write top (m.read top &&& 0x7F#8)
      else m) s.mem }

/-- A full-line write clears the poison; a poisoned line becomes a plain one (R97). -/
def settleLine (ws : List (Nat × Byte)) (s : State) (line : Nat) : State :=
  let mine := ws.filter fun w => w.1 / 128 * 128 == line
  if (List.range 128).all fun i => mine.any fun w => w.1 == line + i then
    let l := lineAt s line
    if l.poison then setLine s line Line.plain else s
  else s

/-- One plain write (R92): the bytes that one instruction, command or host request writes, as pairs of
physical address and byte. `fixer`: the write is the Fixer's copy of a segment, which the code region takes; it writes no
F bit either (R407). -/
def plainWrite (s : State) (fixer : Bool) (ws : List (Nat × Byte)) : State :=
  let ws := ws.map fun w => (resolvePa s w.1, w.2)
  let ws := if fixer then ws else ws.filter fun w => !inCode s w.1
  let s := storeBytes s ws
  let s := clearF s ws
  (dedup (ws.map fun w => w.1 / 128 * 128)).foldl (settleLine ws) s

/-- Bytes at consecutive physical addresses. -/
def atRun (pa : Nat) (bs : List Byte) : List (Nat × Byte) := bs.zipIdx.map fun (b, i) => (pa + i, b)

/-! ## Native writes (R92, R436) -/

/-- Zero the data bytes of a line. -/
def zeroLine (s : State) (line : Nat) : State :=
  storeBytes s ((List.range 128).map fun i => (line + i, (0 : Byte)))

/-- The line before the one a physical address lies in (log entry 34). -/
def prevLine (pa : Nat) : Option Nat := if pa < 128 then none else some (pa / 128 * 128 - 128)

/-- The line at a triplet position 1 or 2 has been reformatted: the block whose tail lay in its first bytes
loses its scale, where the line before holds the same format at the position before (R436) and is not code (R406). -/
def orphanHead (s : State) (fmt p : Nat) (prev : Option Nat) : State :=
  if !fmtSix fmt || p == 0 then s
  else match prev with
    | none => s
    | some pl =>
      let l := lineAt s pl
      if l.fmt == fmt && l.triplet == p - 1 && !l.poison && !inCode s (resolvePa s pl) then
        let i := slotsOf fmt (p - 1) - 1
        setLine s pl { l with md := mdSetSlot l.md i 0xFF (l.tag i) }
      else s

/-- The line in which block b starts takes the block's slot, reformatted or defined where R92 and R436 say
so. -/
def headLine (s : State) (line fmt b scale : Nat) (prev : Option Nat) : State :=
  let l := lineAt s line
  let p := tripletOf fmt b
  let keep := !l.poison && l.fmt == fmt
  let md := if keep then l.md else mdFormat fmt p (lineFirst fmt b) 0xFF
  let s := if l.poison then zeroLine s line else s
  let s := setLine s line ⟨mdSetSlot md (slotOf fmt b) scale (b % 16), false⟩
  if keep then s else orphanHead s fmt p prev

/-- The next line takes the tail of block 5 or 10 of a triplet (R436). -/
def tailLine (s : State) (line fmt p : Nat) : State :=
  let l := lineAt s line
  if !l.poison && l.fmt == fmt && l.triplet == p then s
  else
    let s := if l.poison then zeroLine s line else s
    setLine s line ⟨mdFormat fmt p (tripletFirst p) 0xFF, false⟩

/-- The line of block b takes the metadata of its format and place whole; a poisoned one is defined by the block
itself (R92, R436). -/
def formatLine (s : State) (fmt b pa : Nat) : State :=
  let line := resolvePa s pa / 128 * 128
  if (lineAt s line).poison || inCode s line then s
  else setLine s line ⟨mdFormat fmt (tripletOf fmt b) (lineFirst fmt b) 0xFF, false⟩

/-- Some bytes cover the line that a physical address lies in. -/
def coversLine (all : List Nat) (pa : Nat) : Bool :=
  (List.range 128).all fun i => all.contains (pa / 128 * 128 + i)

/-- A physical address lies beyond the package. -/
def isFarPa (s : State) (pa : Nat) : Bool :=
  match regionOf (resolvePa s pa) with
  | .pod _ _ => true
  | .host _ => true
  | _ => false

/-- The lines of this package that the native writes of one instruction or command fill whole: their metadata is
replaced (R92). Each write is a block number with the physical addresses of its bytes. -/
def formatFull (s : State) (fmt : Nat) (bs : List (Nat × List Nat)) : State :=
  let all := bs.flatMap Prod.snd
  bs.foldl (fun s (b, pas) =>
    if coversLine all (pas.headD 0) && !isFarPa s (pas.headD 0) then formatLine s fmt b (pas.headD 0) else s) s

/-- The bytes of a block that lie in the line after the one it starts in, at a triplet position (R436). -/
def nativeTail (s : State) (fmt p : Nat) (ws : List (Nat × Byte)) : State :=
  let keep := (ws.map fun w => (resolvePa s w.1, w.2)).filter fun w => !inCode s w.1
  match keep with
  | [] => s
  | w :: _ => clearF (storeBytes (tailLine s (w.1 / 128 * 128) fmt p) keep) keep

/-- One native write of block b: its bytes with their physical addresses, in order, and its scale, as one
event (R92, R436). `prev` is the line before the one the block starts in. -/
def nativeWrite (s : State) (fmt b scale : Nat) (ws : List (Nat × Byte)) (prev : Option Nat) : State :=
  let ws := ws.map fun w => (resolvePa s w.1, w.2)
  match ws, ws.getLast? with
  | w :: _, some last =>
    let l0 := w.1 / 128 * 128
    let l1 := last.1 / 128 * 128
    let keep := ws.filter fun w => !inCode s w.1
    let s := if inCode s l0 then s else headLine s l0 fmt b scale prev
    let s := if l1 == l0 || inCode s l1 then s else tailLine s l1 fmt (tripletOf fmt b + 1)
    clearF (storeBytes s keep) keep
  | _, _ => s

/-! ## Native reads (R94) -/

/-- The first check of R94 that fails, coded 0-3, for block b read in a format from its line. -/
def desyncCheck (l : Line) (fmt b : Nat) : Option Nat :=
  if l.fmt != fmt then some 0
  else if l.slots != slotsOf fmt (tripletOf fmt b) then some 1
  else if fmtSix fmt && l.triplet != tripletOf fmt b then some 2
  else if l.tag (slotOf fmt b) != b % 16 then some 3
  else none

/-- Element i of a block's bytes (R27). -/
def blockCode (t : Ty) (bs : List Byte) (i : Nat) : Nat :=
  match t with
  | .mxe2m1 => (bs.getD (i / 2) 0).toNat / 2 ^ (4 * (i % 2)) % 16
  | .mxe3m2 | .mxe2m3 => natOfBytes bs / 2 ^ (6 * i) % 64
  | _ => (bs.getD i 0).toNat

/-- The bytes of a block from its 32 element codes (R27). -/
def blockPack (t : Ty) (codes : List Nat) : List Byte :=
  match t with
  | .mxe2m1 => bytesOfNat 16 (codes.zipIdx.foldl (fun a (c, i) => a + c % 16 * 2 ^ (4 * i)) 0)
  | .mxe3m2 | .mxe2m3 => bytesOfNat 24 (codes.zipIdx.foldl (fun a (c, i) => a + c % 64 * 2 ^ (6 * i)) 0)
  | _ => codes.map fun c => BitVec.ofNat 8 c

/-! ## Poison by engines (R97, R98) -/

/-- A line becomes poisoned. -/
def poisonLine (s : State) (pa : Nat) : State := setLine s pa (lineAt s pa).poisoned

/-- An engine's poisoned source is written to some bytes: their lines become poisoned, but for the code region's,
where the write is discarded (R97, R406). -/
def poisonLines (s : State) (pas : List Nat) : State :=
  (dedup ((pas.filter fun pa => !inCode s (resolvePa s pa)).map fun pa => pa / 128 * 128)).foldl poisonLine s

/-! ## Owner bits (R123) -/

/-- The number of a scratchpad tile of a core in the package. -/
def tileKey (die phys tile : Nat) : Nat := (die * 64 + phys) * 512 + tile

def ownedByEngine (s : State) (die phys tile : Nat) : Bool := s.owner.get false (tileKey die phys tile)

/-- An owner bit that was refilled as uncorrectable and has not been written since (R400). -/
def ownerFails (s : State) (die phys tile : Nat) : Bool := s.ownerBad.get false (tileKey die phys tile)

def setOwner (s : State) (die phys tile : Nat) (b : Bool) : State :=
  { s with owner := s.owner.set false (tileKey die phys tile) b
           ownerBad := s.ownerBad.set false (tileKey die phys tile) false }

/-- Refill an owner bit as uncorrectable. -/
def spoilOwner (s : State) (die phys tile : Nat) : State :=
  { s with ownerBad := s.ownerBad.set false (tileKey die phys tile) true }

/-- The gate tiles of the collectives in progress and of the commands that the collective engines have taken (R330). -/
def collGates (s : State) : List (Nat × Nat × Nat) :=
  s.colls.map Coll.gate ++ s.collCmd.filterMap fun e => e.2.bind CollTaken.gate

/-- The engine-owned scratchpad tile a physical address lies on, by its number in the scratchpad. -/
def enginePage (s : State) (pa : Nat) : Option Nat :=
  match regionOf pa with
  | .window die phys off =>
    if winRange off = .spad && ownedByEngine s die phys ((off - winSpad) / 4096)
    then some ((off - winSpad) / 4096) else none
  | _ => none

end Sys2Proof.Machine
end

