-- ==== Sys2Proof/Machine/Translate.lean ====
section
/-!
DEFINITION. Address translation (05_translation.md): the table walk, the contiguous hint, accessed and
dirty bits, permissions, the walk caches, the leaf cache and the L1's copies, and host-assisted walks.
-/

namespace Sys2Proof.Machine

/-- Kinds of access (R108, coded as in R118). -/
inductive AKind where
  | read | write | rmw | fetch
  deriving DecidableEq, Repr

def AKind.code : AKind → Nat
  | .read => 0
  | .write => 1
  | .rmw => 2
  | .fetch => 3

/-- A translation of one access: its PA, the leaf's level, and the entry it was formed from with its place
in memory (none where the host or an L1 line supplied it). -/
structure Trans where
  pa    : Nat
  level : Nat
  entry : Word
  place : Option Nat
  deriving DecidableEq, Repr

/-- What translating one address ends in. -/
inductive TransRes where
  | ok (t : Trans)
  | fail (cause level : Nat)    -- 7, 8 or 9 of R388
  | poison                      -- a table entry in a poisoned line (R98)
  | pending                     -- a host-assisted walk is needed (R118)
  deriving DecidableEq, Repr

/-! ## Entries (R103) -/

def pteV (e : Word) : Bool := e.getLsbD 0
def pteL (e : Word) : Bool := e.getLsbD 1
def pteR (e : Word) : Bool := e.getLsbD 2
def pteW (e : Word) : Bool := e.getLsbD 3
def pteX (e : Word) : Bool := e.getLsbD 4
def pteP (e : Word) : Bool := e.getLsbD 5
def pteA (e : Word) : Bool := e.getLsbD 6
def pteD (e : Word) : Bool := e.getLsbD 7
def pteC (e : Word) : Bool := e.getLsbD 8
def pteMt (e : Word) : Nat := field e 10 9
def ptePa (e : Word) : Nat := field e 51 12 * 4096
def pteF (e : Word) : Bool := e.getLsbD 63

/-- Shift of a level's index within a VA (R101). -/
def levelShift (level : Nat) : Nat := 57 - 9 * level
/-- Index of a VA at a level (R101). -/
def levelIndex (va level : Nat) : Nat := va / 2 ^ levelShift level % 512

/-- A table lies in the table region of local HBM (R102, R104, R105). -/
def tableOk (s : State) (pa bytes : Nat) : Bool :=
  s.regs.ptBase ≤ pa && pa + bytes ≤ s.regs.ptLimit && pa + bytes ≤ 2 ^ 40

/-- Condition 2 of R104 for a leaf entry at a level. -/
def leafReserved (e : Word) (level : Nat) : Bool :=
  field e 62 52 != 0 || e.getLsbD 11 || level ≤ 2
    || (level == 4 && bitsOf (ptePa e) 20 12 != 0) || (level == 3 && bitsOf (ptePa e) 29 12 != 0)

/-- Condition 2 of R104 for a non-leaf entry at a level. -/
def nonLeafReserved (s : State) (e : Word) (level : Nat) : Bool :=
  field e 62 52 != 0 || e.getLsbD 11 || level == 5 || field e 10 2 != 0 || pteF e
    || !tableOk s (ptePa e) 4096

/-- An 8-byte entry in memory. -/
def entryAt (s : State) (pa : Nat) : Word := wordOfBytes (readRun s pa 8)

/-- Change an entry by the unit's compare-and-swap, which keeps bit 63 (R105, R107). -/
def putEntry (s : State) (pa : Nat) (e : Word) : State :=
  storeBytes s ((atRun pa (wordBytes e)).map fun w => (resolvePa s w.1, w.2))

/-! ## Permission and region checks -/

/-- The leaf bits that a kind of access needs (R108). -/
def permits (kind : AKind) (prog r w x f p : Bool) : Bool :=
  (!prog || p) && match kind with
    | .read => r
    | .write => w
    | .rmw => r && w
    | .fetch => x && f

/-- The check of R81 on a physical address and the MT and P of its leaf. -/
def regionCheck (s : State) (pa mt : Nat) (p : Bool) : Bool :=
  match regionOf pa with
  | .hbm off =>
    if off < 16 * (64 - s.regs.localGib) * 2 ^ 30 then mt == 0 else mt == 1
  | .window die phys _ =>
    mt == 3 && phys < 52 && ((s.cores.getD die CoreMap.reset).enabled.getLsbD phys)
  | .device _ => mt == 3 && !p
  | .pod _ _ => mt == 2
  | .host _ => mt == 2
  | .none => false

/-- R108, then R81, at a leaf (R112). -/
def checkLeaf (s : State) (kind : AKind) (prog : Bool) (t : Trans) (f : Bool) : TransRes :=
  if !permits kind prog (pteR t.entry) (pteW t.entry) (pteX t.entry) f (pteP t.entry) then
    .fail 8 t.level
  else if !regionCheck s t.pa (pteMt t.entry) (pteP t.entry) then .fail 8 7
  else .ok t

/-! ## The structures of R109 -/

/-- Put an entry first and keep at most n. -/
def lruPut {α : Type} (n : Nat) (same : α → Bool) (x : α) (xs : List α) : List α :=
  (x :: xs.filter fun y => !same y).take n

def unitOf (s : State) (die : Nat) : TransUnit := s.trans.getD die ⟨[], [], [], []⟩

def setUnit (s : State) (die : Nat) (u : TransUnit) : State :=
  { s with trans := modifyAt (fun _ => u) die s.trans }

def findWalk (l : List WalkEntry) (asid key : Nat) : Option WalkEntry :=
  l.find? fun e => e.asid == asid && e.key == key

/-- Hold a non-leaf entry of level 1, 2 or 3 (R109). -/
def holdWalk (s : State) (die asid va level pa : Nat) : State :=
  let u := unitOf s die
  let put (n key : Nat) (l : List WalkEntry) : List WalkEntry :=
    lruPut n (fun e => e.asid == asid && e.key == key) ⟨asid, key, pa⟩ l
  match level with
  | 1 => setUnit s die { u with wc1 := put 64 (va / 2 ^ 48) u.wc1 }
  | 2 => setUnit s die { u with wc2 := put 256 (va / 2 ^ 39) u.wc2 }
  | 3 => setUnit s die { u with wc3 := put 1024 (va / 2 ^ 30) u.wc3 }
  | _ => s

/-- Shift of the reach of a leaf-cache entry: 1 GiB, 2 MiB or 64 KiB. -/
def leafShift (level : Nat) : Nat := if level == 3 then 30 else if level == 4 then 21 else 16

def LeafEntry.hits (e : LeafEntry) (asid va : Nat) : Bool :=
  e.asid == asid && e.key == va / 2 ^ leafShift e.level

/-- Hold a leaf of level 3 or 4, or a merged one (R109). -/
def holdLeaf (s : State) (die : Nat) (l : LeafEntry) : State :=
  let u := unitOf s die
  let held := lruPut 2048 (fun e => e.asid == l.asid && e.level == l.level && e.key == l.key) l u.leaves
  setUnit s die { u with leaves := held }

/-- Drop what the leaf cache holds for an address. -/
def dropLeaf (s : State) (die asid va : Nat) : State :=
  let u := unitOf s die
  let kept := u.leaves.filter fun e => !LeafEntry.hits e asid va
  setUnit s die { u with leaves := kept }

/-- The translation a leaf entry gives an address (R104). -/
def leafTrans (va level : Nat) (e : Word) (place : Option Nat) : Trans :=
  ⟨ptePa e + va % 2 ^ levelShift level, level, e, place⟩

/-- The entry of a leaf-cache line that maps an address, and its place; one that the host answered has none. -/
def LeafEntry.pick (l : LeafEntry) (va : Nat) : Word × Option Nat :=
  let i := if l.level == 5 then va / 4096 % 16 else 0
  (l.entries.getD i 0, l.pas[i]?)

/-- The unit of a walk's place: where the walk stands. -/
structure WalkPos where
  level : Nat
  table : Nat
  deriving DecidableEq, Repr

/-- Where a walk starts: below the deepest walk-cache hit (R109). -/
def walkStart (s : State) (die asid va : Nat) : Option WalkPos :=
  let u := unitOf s die
  match findWalk u.wc3 asid (va / 2 ^ 30) with
  | some e => some ⟨4, e.pa⟩
  | none => match findWalk u.wc2 asid (va / 2 ^ 39) with
    | some e => some ⟨3, e.pa⟩
    | none => (findWalk u.wc1 asid (va / 2 ^ 48)).map fun e => ⟨2, e.pa⟩

/-- A walk-cache hit is a use of its entry: it is now the most recently used (R109). -/
def walkUse (s : State) (die asid va : Nat) : State :=
  match walkStart s die asid va with
  | some p => holdWalk s die asid va (p.level - 1) p.table
  | none => s

/-- What a walk without its A update ends in. -/
inductive WalkRes where
  | leaf (t : Trans)
  | fail (cause level : Nat)
  | poison
  deriving DecidableEq, Repr

/-- The root entry of an ASID (R102): the level-1 table. -/
def walkRoot (s : State) (asid : Nat) : Except WalkRes Nat :=
  let pa := s.regs.rootBase + 8 * asid
  if !tableOk s s.regs.rootBase 2048 then .error (.fail 9 0)
  else if (lineAt s pa).poison then .error .poison
  else
    let e := entryAt s pa
    if !pteV e then .error (.fail 7 0)
    else if field e 63 52 != 0 || field e 11 1 != 0 || !tableOk s (ptePa e) 4096 then
      .error (.fail 9 0)
    else .ok (ptePa e)

/-- The walk from a level's table down (R104), the caches filled as entries pass. -/
def walkFrom (die asid va : Nat) : Nat → Nat → Nat → State → State × WalkRes
  | 0, _, _, s => (s, .fail 9 5)
  | fuel + 1, level, table, s =>
    let pa := table + 8 * levelIndex va level
    if (lineAt s pa).poison then (s, .poison)
    else
      let e := entryAt s pa
      if !pteV e then (s, .fail 7 level)
      else if pteL e then
        if leafReserved e level then (s, .fail 9 level) else (s, .leaf (leafTrans va level e (some pa)))
      else if nonLeafReserved s e level then (s, .fail 9 level)
      else walkFrom die asid va fuel (level + 1) (ptePa e) (holdWalk s die asid va level (ptePa e))

/-- A walk from the deepest walk-cache hit, or from the root. Nothing is kept from a walk that a poisoned entry
stopped (R98). -/
def walk (s : State) (die asid va : Nat) : State × WalkRes :=
  let r := match walkStart s die asid va with
    | some p => walkFrom die asid va 6 p.level p.table (walkUse s die asid va)
    | none =>
      match walkRoot s asid with
      | .error r => (s, r)
      | .ok t => walkFrom die asid va 6 1 t s
  match r with
  | (_, .poison) => (s, .poison)
  | r => r

/-- The sixteen entries of a C group merge into one 64 KiB translation (R106). -/
def mergeGroup (s : State) (place va : Nat) : Option (List Word × List Nat) :=
  let base := place / 128 * 128
  let pas := (List.range 16).map fun j => base + 8 * j
  let es := pas.map (entryAt s)
  let e0 := es.getD 0 0
  let same (e : Word) : Bool :=
    pteV e && pteL e && pteC e && !leafReserved e 5 && pteF e == pteF e0 && pteMt e == pteMt e0 &&
      pteP e == pteP e0 && pteX e == pteX e0 && pteW e == pteW e0 && pteR e == pteR e0
  let aligned := ptePa e0 % 65536 == 0
  if va % 65536 / 4096 == place / 8 % 16 && aligned && es.all same &&
      es.zipIdx.all fun (e, j) => ptePa e == ptePa e0 + 4096 * j
  then some (es, pas) else none

/-- Hold what the walk found, as R109 holds leaves. -/
def holdTrans (s : State) (die asid va : Nat) (t : Trans) : State :=
  match t.place with
  | none => s
  | some place =>
    if t.level == 5 then
      if pteC t.entry then match mergeGroup s place va with
        | some (es, pas) => holdLeaf s die ⟨asid, va / 65536, 5, es, pas⟩
        | none => s
      else s
    else holdLeaf s die ⟨asid, va / 2 ^ leafShift t.level, t.level, [t.entry], [place]⟩

/-- Set A by compare-and-swap (R107): none where the entry no longer holds the value the walk read. Nothing is set in the
code region (R406). -/
def setAccessed (s : State) (t : Trans) : Option (State × Trans) :=
  match t.place with
  | none => some (s, t)
  | some place =>
    if entryAt s place != t.entry then none
    else if pteA t.entry || inCode s place then some (s, t)
    else
      let e := t.entry ||| 0x40#64
      some (putEntry s place e, { t with entry := e })

/-- The leaf of an address in the tables, without any effect: for the F bit of an answered leaf (R118). -/
def tableLeaf (s : State) (asid va : Nat) : Option Word :=
  match walkRoot s asid with
  | .error _ => none
  | .ok t =>
    match (walkFrom 8 asid va 6 1 t s).2 with
    | .leaf t => some t.entry
    | _ => none

/-- An answered leaf, its F honoured only where the pattern stands in the tables (R118). -/
def honoured (s : State) (asid va : Nat) (leaf : Word) : Word :=
  if pteF leaf && tableLeaf s asid va != some leaf then leaf &&& ~~~(1#64 <<< 63) else leaf

/-- An answered walk as a translation (R118): checked by R104 at its level; F only where the pattern stands
in the tables. DESIGN CHOICE (log entry 62): an answer that is no leaf, and one at a level without leaves, meets Reserved-Bit. -/
def answered (s : State) (asid va : Nat) (kind : AKind) (prog : Bool) (a : Answer) : TransRes :=
  if a.late then .fail 7 0
  else if a.level == 0 then .fail 7 1
  else if !pteV a.leaf then .fail 7 a.level
  else if 5 < a.level || !pteL a.leaf || leafReserved a.leaf a.level then .fail 9 a.level
  else
    let leaf := honoured s asid va a.leaf
    checkLeaf s kind prog (leafTrans va a.level leaf none) (pteF leaf)

/-- Before a walk restarts at level 1 (R107): nothing held for the address serves it. -/
def dropHeld (s : State) (die asid va : Nat) : State :=
  let s := dropLeaf s die asid va
  let u := unitOf s die
  let keep (shift : Nat) (l : List WalkEntry) : List WalkEntry :=
    l.filter fun e => !(e.asid == asid && e.key == va / 2 ^ shift)
  setUnit s die { u with wc1 := keep 48 u.wc1, wc2 := keep 39 u.wc2, wc3 := keep 30 u.wc3 }

/-- The entry at a place of a leaf-cache line, changed. -/
def LeafEntry.update (l : LeafEntry) (place : Nat) (e : Word) : LeafEntry :=
  { l with entries := l.entries.zipIdx.map fun (x, i) => if l.pas[i]? == some place then e else x }

/-- A held leaf serves an access: its A is set where it was 0, as in a merged group's masks; a translation whose
A or D must be set is not formed from an entry that no longer stands (R106, R107). -/
def useHeld (s : State) (die : Nat) (l : LeafEntry) (kind : AKind) (t : Trans) : Option (State × Trans) :=
  match t.place with
  | none => some (holdLeaf s die l, t)
  | some place =>
    let writes := kind == .write || kind == .rmw
    if pteA t.entry && (pteD t.entry || !writes) then some (holdLeaf s die l, t)
    else (setAccessed s t).map fun (s, t) => (holdLeaf s die (l.update place t.entry), t)

/-- The answer among some to a walk for an address. -/
def answerFor (ans : List Answer) (va : Nat) (kind : AKind) : Option Answer :=
  ans.find? fun a => a.va / 4096 == va / 4096 && a.kind == kind.code

/-- Translate through the unit of a die (R104-R109).
The leaf cache first, then a walk; with TRCTL.WALK = 1 an answer of the host, or `pending`. A walk that has been
asked of the host keeps its mode, whatever TRCTL says when its answer comes (R115). -/
def translateUnit (s : State) (die asid va : Nat) (kind : AKind) (prog : Bool) (ans : List Answer) :
    Nat → State × TransRes
  | 0 => (s, .fail 7 0)
  | fuel + 1 =>
    match (unitOf s die).leaves.find? (fun e => e.hits asid va) with
    | some l =>
      let (e, place) := l.pick va
      let t := leafTrans va l.level e (if s.regs.walkHost then none else place)
      match checkLeaf s kind prog t (pteF e) with
      | .ok t =>
        match useHeld s die l kind t with
        | some (s, t) => (s, .ok t)
        | none => translateUnit (dropHeld s die asid va) die asid va kind prog ans fuel
      | r => (s, r)
    | none =>
      match answerFor ans va kind, s.regs.walkHost with
      | some a, _ =>
        match answered s asid va kind prog a with
        | .ok t =>
          let s := if a.level == 5 then s
            else holdLeaf s die
              ⟨asid, va / 2 ^ leafShift a.level, a.level, [honoured s asid va a.leaf], []⟩
          (s, .ok t)
        | r => (s, r)
      | none, true => (s, .pending)
      | none, false =>
        match walk s die asid va with
        | (s, .fail c l) => (s, .fail c l)
        | (s, .poison) => (s, .poison)
        | (s, .leaf t) =>
          match checkLeaf s kind prog t (pteF t.entry) with
          | .ok t =>
            match setAccessed s t with
            | some (s, t) => (holdTrans s die asid va t, .ok t)
            | none => translateUnit (dropHeld s die asid va) die asid va kind prog ans fuel
          | r => (s, r)

/-- The D update of a write through a translation whose D is 0 (R107), the unit's copies following; none where the
entry no longer holds the value that the walk read. -/
def markDirty (s : State) (die asid va : Nat) (t : Trans) : Option State :=
  match t.place with
  | none => some s
  | some place =>
    let e := t.entry ||| 0xC0#64
    let now := entryAt s place
    if pteD t.entry || now == e then some s
    else if now != t.entry then none
    else if inCode s place then some s
    else
      let u := unitOf s die
      let fix (l : LeafEntry) : LeafEntry := if l.hits asid va then l.update place e else l
      some (setUnit (putEntry s place e) die { u with leaves := u.leaves.map fix })

/-- Set D when a write goes through a translation; where the entry has changed the update is not made, and nothing
held serves the address any more (R107). -/
def setDirty (s : State) (die asid va : Nat) (t : Trans) : State :=
  (markDirty s die asid va t).getD (dropHeld s die asid va)

/-- A translation as it stands when an access is made through it (R107): the entry with the A and D bits that it has got
since; where the entry has changed otherwise, the translation that a new walk from level 1 forms. -/
def refresh (s : State) (die asid va : Nat) (t : Trans) (kind : AKind) (ans : List Answer) : State × Trans :=
  match t.place with
  | none => (s, t)
  | some place =>
    let now := entryAt s place
    if (now ^^^ t.entry) &&& ~~~0xC0#64 == 0 then (s, { t with entry := now })
    else match translateUnit (dropHeld s die asid va) die asid va kind true ans 3 with
      | (s, .ok t) => (s, t)
      | (s, _) => (s, t)

/-! ## The L1 (R110, R122) -/

/-- The L1 line of a core for an address. -/
def findL1 (s : State) (die phys asid va : Nat) : Option L1Line :=
  s.l1.find? fun l => l.die == die && l.phys == phys && l.asid == asid && l.va == va / 128

/-- Lines that the L1 of one core holds: 256 KiB of them (R16). -/
def l1Lines : Nat := 2048

/-- Fill a line of local HBM into a core's L1 through a translation: one line per physical line, at most 2,048 in all,
the least recently filled given up first (log entry 36). A line that the core owns stays owned (R122). Its X stands
for X and F together, so that no hit lets a fetch pass where R54 forbids it. The L2 of the line's die holds the line too
(R84). -/
def fillL1 (s : State) (die phys asid va : Nat) (t : Trans) (written : Bool) : State :=
  match regionOf (resolvePa s t.pa) with
  | .hbm off =>
    let line := off / 128
    let mine (o : L1Line) : Bool := o.die == die && o.phys == phys
    let owned := written ||
      s.l1.any fun o => mine o && o.pa == line && o.asid == asid && o.va == va / 128 && o.owned
    let l : L1Line :=
      { die, phys, asid, va := va / 128, pa := line, r := pteR t.entry, x := pteX t.entry && pteF t.entry,
        p := pteP t.entry, w := pteW t.entry, wbit := pteW t.entry && (pteD t.entry || written),
        level := t.level, owned }
    let others := s.l1.filter fun o => !(mine o && (o.pa == line || (o.asid == asid && o.va == va / 128)))
    let last := ((others.filter mine).drop (l1Lines - 1)).head?
    fillL2 { s with l1 := l :: others.filter fun o => last != some o } [off]
  | _ => s

/-- Translate for a core: the L1 first, then the unit (R110). -/
def translateCore (s : State) (die phys asid va : Nat) (kind : AKind) (ans : List Answer) :
    State × TransRes :=
  if 2 ^ 57 ≤ va then (s, .fail 7 0)
  else
    let miss := translateUnit s die asid va kind true ans 3
    match findL1 s die phys asid va with
    | none => miss
    | some l =>
      let pa := l.pa * 128 + va % 128
      let entry : Word := word (1 + 2 + 4 * l.r.toNat + 8 * l.w.toNat + 16 * l.x.toNat
        + 32 * l.p.toNat + 64 + 128 * l.wbit.toNat + 2 ^ 63 * l.x.toNat)
      let ok := TransRes.ok ⟨pa, l.level, entry, none⟩
      let wr := if l.wbit then some ok else if l.w then none else some (.fail 8 l.level)
      let r : Option TransRes := match kind with
        | .read => some (if l.r && l.p then ok else .fail 8 l.level)
        | .fetch => some (if l.x && l.p then ok else .fail 8 l.level)
        | .write => if l.p then wr else some (.fail 8 l.level)
        | .rmw => if l.r && l.p then wr else some (.fail 8 l.level)
      match r with
      | some r => (s, r)
      | none => miss

/-- Translate for an engine: the unit of its die (R114). -/
def translateEngine (s : State) (die asid va : Nat) (kind : AKind) (ans : List Answer) :
    State × TransRes :=
  if 2 ^ 57 ≤ va then (s, .fail 7 0) else translateUnit s die asid va kind true ans 3

/-! ## Invalidation (R116) -/

/-- The range [lo, hi) of VAs that a TRINV word names, and its ASID (none: every ASID). -/
def trinvScope (v : Word) : Option (Nat × Nat × Option Nat) :=
  let size := field v 63 61
  let asid := field v 60 53
  let va := field v 52 8 * 4096
  let range (k : Nat) : Option (Nat × Nat × Option Nat) :=
    some (va / 2 ^ k * 2 ^ k, va / 2 ^ k * 2 ^ k + 2 ^ k, some asid)
  match size with
  | 0 => range 12
  | 1 => range 16
  | 2 => range 21
  | 3 => range 30
  | 4 => some (0, 2 ^ 57, some asid)
  | 5 => some (0, 2 ^ 57, none)
  | _ => none

/-- The ASID of a group (R370). -/
def Group.asid (g : Group) : Nat := field (g.record.getD 3 0) 63 56

/-- Bytes that an answered leaf maps, as a power of two. -/
def Answer.shift (a : Answer) : Nat := if a.level == 3 || a.level == 4 then levelShift a.level else 12

/-- The answers of host-assisted walks whose leaves no range of an invalidation concerns. -/
def keptAnswers (lo hi : Nat) (l : List Answer) : List Answer :=
  l.filter fun a => !(a.va / 2 ^ a.shift * 2 ^ a.shift < hi && lo < (a.va / 2 ^ a.shift + 1) * 2 ^ a.shift)

/-- Drop the walk-cache, leaf-cache and L1 entries that a range concerns (R116), and what waves and engines hold for
accesses that they have still to make: answers of walks, and the pages of the collectives' destinations (R117). -/
def invalidate (s : State) (lo hi : Nat) (asid : Option Nat) : State :=
  let mine (a : Nat) : Bool := match asid with | some b => a == b | none => true
  let overlaps (a key sh : Nat) : Bool := mine a && key * 2 ^ sh < hi && lo < (key + 1) * 2 ^ sh
  let unit (u : TransUnit) : TransUnit :=
    { wc1 := u.wc1.filter fun e => !overlaps e.asid e.key 48
      wc2 := u.wc2.filter fun e => !overlaps e.asid e.key 39
      wc3 := u.wc3.filter fun e => !overlaps e.asid e.key 30
      leaves := u.leaves.filter fun e => !overlaps e.asid e.key (leafShift e.level) }
  { s with
      trans := s.trans.map unit
      l1 := s.l1.filter fun l => !overlaps l.asid l.va 7
      groups := s.groups.map fun g =>
        if mine g.asid then { g with waves := g.waves.map fun w => { w with answers := keptAnswers lo hi w.answers } } else g
      unitAns := s.unitAns.filterMap fun e =>
        let kept := keptAnswers lo hi e.2
        if kept.isEmpty then none else some (e.1, kept)
      colls := s.colls.map fun c => { c with dst := c.dst.filter fun p => !overlaps c.asid p.page 12 } }

end Sys2Proof.Machine
end

