-- ==== Sys2Proof/Machine/Ops.lean ====
section
/-!
DEFINITION. The operations that instructions and steps share: the issuing gang, the registers and their
allotments, retiring and regrouping, lane causes and their report, taking a trap and returning from one,
halting a wave, barriers and the closing of the rendezvous latch.
-/

namespace Sys2Proof.Machine

/-! ## Groups, waves and allotments (R202, R370) -/

def Group.ophint (g : Group) : Nat := field (g.record.getD 3 0) 55 52
def Group.prio (g : Group) : Nat := field (g.record.getD 3 0) 51 49
def Group.launch (g : Group) : Nat := field (g.record.getD 6 0) 15 0
/-- Waves that the shape word gives the group (R370). -/
def Group.nwaves (g : Group) : Nat := field (g.record.getD 3 0) 43 40 + 1
/-- Vector registers of each wave in force (R202). -/
def Group.vregs (g : Group) : Nat := if g.acquired then field (g.record.getD 3 0) 39 32 else 16
/-- Tile registers in force (R202, R357). -/
def Group.tregs (g : Group) : Nat :=
  if g.acquired && !g.relTiles then field (g.record.getD 3 0) 31 27 else 0
/-- Scratchpad tiles in force (R202, R357). -/
def Group.tiles (g : Group) : Nat :=
  if g.acquired && !g.relSpad then field (g.record.getD 3 0) 26 18 + 1 else 4
/-- Common registers in force (R202). -/
def Group.common (g : Group) : Nat := if g.acquired then field (g.record.getD 3 0) 17 11 else 8
/-- Weight-buffer slots in force (R202, R357). -/
def Group.wbslots (g : Group) : Nat :=
  if g.acquired && !g.relTiles then field (g.record.getD 3 0) 10 7 else 0

def findGroup (s : State) (gid : Nat) : Option Group := s.groups.find? fun g => g.gid == gid

/-- Change a group. -/
def modGroup (s : State) (gid : Nat) (f : Group → Group) : State :=
  { s with groups := s.groups.map fun g => if g.gid == gid then f g else g }

/-- Change a wave of a group. -/
def modWave (s : State) (gid w : Nat) (f : Wave → Wave) : State :=
  modGroup s gid fun g => { g with waves := modifyAt f w g.waves }

def findWave (s : State) (gid w : Nat) : Option Wave :=
  match findGroup s gid with
  | some g => g.waves[w]?
  | none => none

/-- Change the gang of a wave that holds a slice. -/
def Wave.modGang (w : Wave) (slice : Nat) (f : Gang → Gang) : Wave :=
  { w with gangs := w.gangs.map fun g => if g.slices.getLsbD slice then f g else g }

/-- Every slice has retired. -/
def Wave.exited (w : Wave) : Bool := w.slices.all Slice.exited
/-- The wave will issue nothing more. -/
def Wave.gone (w : Wave) : Bool := w.halted || w.exited
/-- The gang's instruction has issued and waits for what it has still to do: accepting a command (R151), or its own accesses
beyond the package. A stop, a trap of another gang and a halt let it complete (R201, R393, R396). -/
def Gang.awaits (g : Gang) : Bool := g.hold == .accept || g.hold == .far
/-- A gang of the wave has an issued instruction that still waits so. -/
def Wave.accepting (w : Wave) : Bool := w.gangs.any Gang.awaits
/-- The wave has ended (R359, R393): nothing to issue, nothing issued that is still to complete, and L, S and M are 0. -/
def Wave.ended (w : Wave) : Bool := w.gone && !w.accepting && w.lq.isEmpty && w.sq.isEmpty && w.mq == 0
/-- A trap handler runs or a host fault service is pending. -/
def Wave.busy (w : Wave) : Bool := w.trap.tm || w.service.isSome

/-! ## The issuing gang -/

/-- The gang whose instruction is performed, with its wave and group. -/
structure Issuer where
  ref  : GangRef
  g    : Group
  w    : Wave
  gang : Gang
  deriving DecidableEq, Repr

/-- The gang that a reference names. -/
def issuerAt (s : State) (r : GangRef) : Option Issuer :=
  match findGroup s r.gid with
  | none => none
  | some g =>
    match g.waves[r.wave]? with
    | none => none
    | some w =>
      match w.gangs.find? fun x => x.slices.getLsbD r.slice with
      | none => none
      | some gang => some ⟨r, g, w, gang⟩

/-- The issuing gang. -/
def issuer (s : State) : Option Issuer :=
  match s.cur with
  | none => none
  | some r => issuerAt s r

def sliceAt (w : Wave) (j : Nat) : Slice := w.slices.getD j ⟨true, 0, [], 0, 0⟩

/-- The lanes of a slice that are active under divergence. -/
def sliceLanes (w : Wave) (j : Nat) : List Nat :=
  let sl := sliceAt w j
  if sl.exited then [] else ((List.range 4).filter fun k => sl.amask.getLsbD k).map fun k => 4 * j + k

/-- The lanes active under divergence in a gang (R337), ascending. -/
def gangLanes (w : Wave) (g : Gang) : List Nat := (slicesOf g.slices).flatMap (sliceLanes w)

/-- The lanes active under divergence in the issuing gang. -/
def Issuer.all (c : Issuer) : List Nat := gangLanes c.w c.gang

/-- Predicate register p: p7 reads all ones (R202). -/
def Wave.readP (w : Wave) (p : Nat) : BitVec 32 := if p == 7 then BitVec.allOnes 32 else w.p.get 0 p

/-- The guard's bit of a lane (R55). -/
def guardBit (w : Wave) (g : Guard) (l : Nat) : Bool := (w.readP g.p.val).getLsbD l != g.inv

/-- The active lanes of an instruction: under divergence and its guard (R55). -/
def Issuer.lanes (c : Issuer) (g : Guard) : List Nat := c.all.filter (guardBit c.w g)

/-- Address of the instruction. -/
def Issuer.pc (c : Issuer) : Word := c.gang.pc

def Issuer.owner (c : Issuer) : Owner := ⟨c.ref.gid, c.ref.wave⟩

/-- Put the issuing wave. -/
def putWave (s : State) (c : Issuer) (w : Wave) : State := modWave s c.ref.gid c.ref.wave fun _ => w

/-- The gang holds every live slice of its wave. -/
def Issuer.whole (c : Issuer) : Bool :=
  (List.range 8).all fun j => (sliceAt c.w j).exited || c.gang.slices.getLsbD j

/-- A wave with every register as at wave start and no gang (R202, R337). -/
def Wave.blank : Wave :=
  { slot := 0, vbase := 0, v := [], side := [], s := [], p := [], x := [], xbase := [], xlimit := []
    q0 := Cursor.closed, q1 := Cursor.closed, q2 := Cursor.closed, q3 := Cursor.closed
    grain := 0, grainctr := 0, fflags := [], fmode := 0, trap := ⟨0, false, 0, 0, 0, 0, 0⟩
    bhalted := 0, abnd := false, ck := [], slices := List.replicate 8 ⟨false, 15, [], 0, 0⟩
    gangs := [], merge := none, lq := [], sq := [], cq := [], mq := 0, pv := [], ps := [], pp := []
    marks := [], hostWrote := none, service := none, answers := [], far := [], farM := []
    tilesM := [], refilled := false, halted := false }

/-! ## Marks of words that fail residue or parity (R211, R213) -/

def mkV (r l : Nat) : Nat := 32 * r + l
/-- Byte k of the sidecar of vr in slice j. -/
def mkSide (r j k : Nat) : Nat := 16384 + 16 * r + 2 * j + k
def mkS (n : Nat) : Nat := 10240 + n
/-- Byte k of predicate n. -/
def mkP (n k : Nat) : Nat := 10304 + 4 * n + k
def mkBase (n : Nat) : Nat := 10336 + n
def mkX (n l : Nat) : Nat := 10344 + 32 * n + l
/-- Word k of cursor n. -/
def mkQ (n k : Nat) : Nat := 10472 + 4 * n + k
/-- Special registers in the order of the image (R400): %grain, %grainctr, %fmode, %tvec, %tcause, %tpc,
%tlanes, %tinfo, %barst. -/
def mkSpec (k : Nat) : Nat := 10488 + k
/-- Word k of %ckn. -/
def mkCk (n k : Nat) : Nat := 10500 + 5 * n + k
def mkFf (l : Nat) : Nat := 10520 + l
/-- PC, masks and stack of a slice. -/
def mkSlice (j : Nat) : Nat := 10552 + j

def Wave.marked (w : Wave) (k : Nat) : Bool := w.marks.get false k
def Wave.unmark (w : Wave) (k : Nat) : Wave := { w with marks := w.marks.set false k false }

/-- Clear several marks. -/
def Wave.unmarkAll (w : Wave) (ks : List Nat) : Wave :=
  { w with marks := ks.foldl (fun m k => m.set false k false) w.marks }

/-- Marks of a group: common registers 0-63, %accord 64, status words 65 + 2 × entry, tile status words from 193, and the
barriers 209-212. -/
def gmCommon (n : Nat) : Nat := n
def gmAccord : Nat := 64
def gmStat (n : Nat) : Nat := 65 + n
def gmTile (m : Nat) : Nat := 193 + m
def gmBar (n : Nat) : Nat := 209 + n

def Group.marked (g : Group) (k : Nat) : Bool := g.marks.get false k
def Group.unmark (g : Group) (k : Nat) : Group := { g with marks := g.marks.set false k false }

/-! ## Registers (R202) -/

/-- vr in a lane; v255 reads zero. -/
def Wave.readV (w : Wave) (r l : Nat) : Word := if r == 255 then 0 else w.v.get 0 (32 * r + l)

/-- Write vr in a lane; v255 discards. -/
def Wave.writeV (w : Wave) (r l : Nat) (x : Word) : Wave :=
  if r == 255 then w
  else { w with v := w.v.set 0 (32 * r + l) x, marks := w.marks.set false (mkV r l) false }

/-- The sidecar of vr in a slice. -/
def Wave.readSide (w : Wave) (r j : Nat) : BitVec 16 := if r == 255 then 0 else w.side.get 0 (8 * r + j)

def Wave.writeSide (w : Wave) (r j : Nat) (x : BitVec 16) : Wave :=
  if r == 255 then w
  else Wave.unmarkAll { w with side := w.side.set 0 (8 * r + j) x } [mkSide r j 0, mkSide r j 1]

/-- Write one byte of a sidecar; the other keeps its value and its parity (R211). -/
def Wave.writeSideByte (w : Wave) (r j k x : Nat) : Wave :=
  if r == 255 then w
  else
    let old := (w.readSide r j).toNat
    let kept := old - old / 2 ^ (8 * k) % 256 * 2 ^ (8 * k)
    Wave.unmarkAll { w with side := w.side.set 0 (8 * r + j) (BitVec.ofNat 16 (kept + x % 256 * 2 ^ (8 * k))) } [mkSide r j k]

/-- A scalar register; 0xFF reads zero (R57). -/
def Wave.readS (w : Wave) : SReg → Word
  | .s n => w.s.get 0 n.val
  | .zero => 0

/-- Write a scalar register; 0xFF discards (R363). -/
def Wave.writeS (w : Wave) (d : SReg) (x : Word) : Wave :=
  match d with
  | .s n => { w with s := w.s.set 0 n.val x, marks := w.marks.set false (mkS n.val) false }
  | .zero => w

/-- Write bits of a predicate in some lanes; p7 discards. The parity of each byte written is made anew (R211). -/
def Wave.writeP (w : Wave) (p : Nat) (ls : List Nat) (bit : Nat → Bool) : Wave :=
  if p == 7 then w
  else
    let m := maskOf ls
    let on := maskOf (ls.filter bit)
    let x := (w.p.get 0 p &&& ~~~m) ||| on
    Wave.unmarkAll { w with p := w.p.set 0 p x } (ls.map fun l => mkP p (l / 8))

/-- xr in a lane. -/
def Wave.readX (w : Wave) (r l : Nat) : Nat := (w.x.get 0 (32 * r + l)).toNat

def Wave.writeX (w : Wave) (r l n : Nat) : Wave :=
  { w with x := w.x.set 0 (32 * r + l) (BitVec.ofNat 8 n), marks := w.marks.set false (mkX r l) false }

/-- A cursor of a wave. -/
def Wave.cursor (w : Wave) (n : Nat) : Cursor :=
  match n with
  | 0 => w.q0
  | 1 => w.q1
  | 2 => w.q2
  | _ => w.q3

def Wave.setCursor (w : Wave) (n : Nat) (q : Cursor) : Wave :=
  let w := w.unmarkAll ((List.range 4).map (mkQ n))
  match n with
  | 0 => { w with q0 := q }
  | 1 => { w with q1 := q }
  | 2 => { w with q2 := q }
  | _ => { w with q3 := q }

/-- Sticky flags of a lane (R36). -/
def Wave.readFf (w : Wave) (l : Nat) : Flags := w.fflags.get 0 l
def Wave.orFf (w : Wave) (l : Nat) (f : Flags) : Wave :=
  { w with fflags := w.fflags.set 0 l (w.readFf l ||| f) }

/-- Write lanes of a vector register. -/
def Wave.writeLanes (w : Wave) (r : Nat) (ls : List Nat) (x : Nat → Word) : Wave :=
  ls.foldl (fun w l => w.writeV r l (x l)) w

/-- OR flags into lanes. -/
def Wave.orFlags (w : Wave) (ls : List Nat) (f : Nat → Flags) : Wave :=
  ls.foldl (fun w l => w.orFf l (f l)) w

/-! ## Outstanding counters (R126, R127) -/

def Wave.cntL (w : Wave) : Nat := w.lq.length
def Wave.cntS (w : Wave) : Nat := w.sq.length
def Wave.cntC (w : Wave) : Nat := w.cq.length
def Wave.cntM (w : Wave) : Nat := w.mq

/-- A threshold of 0xFF waits for nothing (R349). -/
def below (cnt thr : Nat) : Bool := thr == 255 || cnt ≤ thr

/-- Every counter is at or below its threshold. -/
def Wave.countersAt (w : Wave) (l st c m : Nat) : Bool :=
  below w.cntL l && below w.cntS st && below w.cntC c && below w.cntM m

/-- Completions of C retire in issue order (R127). -/
def Wave.retireC (w : Wave) : Wave := { w with cq := w.cq.dropWhile Prod.snd }

/-! ## Retiring an instruction -/

/-- One body instruction of a clause has completed (R67). -/
def clauseTick : Option Clause → Option Clause
  | none => none
  | some c => if c.left ≤ 1 then none else some { c with left := c.left - 1 }

/-- The gang goes on behind an instruction of some length. -/
def Gang.advance (g : Gang) (len : Nat) : Gang :=
  { g with pc := g.pc + word len, hold := .none, clause := clauseTick g.clause }

/-- What was fetched for an instruction that waited has served it: the answers of walks, and of reads beyond the
package. -/
def Wave.served (w : Wave) : Wave := { w with answers := [], far := [] }

/-- The wave, its issuing gang behind the instruction. -/
def Wave.step (w : Wave) (c : Issuer) (len : Nat) : Wave :=
  (w.modGang c.ref.slice fun g => g.advance len).served

/-- Put the issuing wave with its gang behind the instruction. -/
def retire (s : State) (c : Issuer) (len : Nat) (w : Wave) : State := putWave s c (w.step c len)

/-- The issuing gang waits at its instruction. -/
def holdAt (s : State) (c : Issuer) (h : Hold) : State :=
  putWave s c (c.w.modGang c.ref.slice fun g => { g with hold := h })

/-- The gang's slices take their next PCs and regroup by them (R338). -/
def Wave.regroup (w : Wave) (c : Issuer) (next : Nat → Word) : Wave :=
  let w := w.served
  let js := slicesOf c.gang.slices
  match dedup (js.map next) with
  | [p] => w.modGang c.ref.slice fun g => { g with pc := p, hold := .none, clause := none }
  | ps =>
    let parts := ps.map fun p =>
      { c.gang with slices := sliceMask (js.filter fun j => next j == p), pc := p, hold := .none,
                    clause := none }
    { w with gangs := (w.gangs.filter fun g => !g.slices.getLsbD c.ref.slice) ++ parts }

/-! ## Signals and captures (R336, R402) -/

/-- Send the host something. -/
def toHost (s : State) (m : HostMsg) : State := { s with hostOut := s.hostOut ++ [m] }

/-- Signal an MSI-X vector (R336). -/
def signal (s : State) (v : Nat) : State := toHost s (.msix v)

/-- Capture a containment event (R402). -/
def capture (s : State) (kind cause sub die unit slot launch index : Nat) : State :=
  if s.regs.contst0.getLsbD 62 then
    { s with regs := { s.regs with contst0 := s.regs.contst0 ||| (1#64 <<< 63) } }
  else
    let w0 := word (field s.regs.contst0 63 63 * 2 ^ 63 + 2 ^ 62 + kind * 2 ^ 58 + cause * 2 ^ 53 + sub * 2 ^ 50 + die * 2 ^ 47
      + unit * 2 ^ 41 + slot * 2 ^ 36 + launch * 2 ^ 16)
    signal { s with regs := { s.regs with contst0 := w0, contst1 := word index } } 0

/-! ## Barriers (R352-R355) -/

/-- The waves of a group as a mask. -/
def waveMask (ws : List Wave) (p : Wave → Bool) : BitVec 16 :=
  ws.zipIdx.foldl (fun m (w, i) => if p w then m ||| (1#16 <<< i) else m) 0

/-- A wave's %barst after a BAR completion (R355). -/
def Wave.barst (w : Wave) (halted : BitVec 16) : Wave :=
  { w with bhalted := w.bhalted ||| halted
           abnd := w.abnd || (halted &&& ~~~w.bhalted) != 0 }

/-- The BARs that wait on a generation complete. -/
def releaseBar (n : Nat) (halted : BitVec 16) (w : Wave) : Wave :=
  if w.gangs.any fun g => match g.hold with | .barrier m _ _ => m == n | _ => false then
    let gs := w.gangs.map fun g => match g.hold with
      | .barrier m _ len => if m == n then g.advance len else g
      | _ => g
    Wave.barst { w with gangs := gs } halted
  else w

/-- Complete the generation of one barrier where the arrived and the ended waves cover its mask (R352). A wave that had
arrived before its group was saved first issues again, so that a BAR at which it waited only waits (R354, R403). -/
def sweepBar (g : Group) (n : Nat) : Group :=
  match g.bars[n]? with
  | none => g
  | some b =>
    match b.fixed with
    | none => g
    | some m =>
      let done := b.arrived ||| waveMask g.waves fun w => w.halted || w.ended
      let late := b.arrived &&& waveMask g.waves fun w => w.refilled && !w.gone
      if m &&& ~~~done == 0 && late == 0 then
        let halted := waveMask g.waves Wave.halted
        { g with bars := modifyAt (fun b => ⟨none, 0, b.gen + 1⟩) n g.bars
                 waves := g.waves.map (releaseBar n halted) }
      else g

/-- All four barriers. -/
def sweepBars (s : State) (gid : Nat) : State :=
  modGroup s gid fun g => [0, 1, 2, 3].foldl sweepBar g

/-! ## Causes and their report (R388, R389) -/

/-- A condition of the cause table: its number, its bits of %tinfo, and the lanes that meet it. -/
structure Cause where
  rank  : Nat
  info  : Nat
  lanes : List Nat
  deriving DecidableEq, Repr

/-- What an instruction reports. -/
structure Report where
  cause : Nat
  code  : Nat
  lanes : BitVec 32
  info  : Word
  deriving DecidableEq, Repr

/-- A lane's own cause: the highest-ranking condition it meets, the first of them in check order. -/
def ownCause (conds : List Cause) (l : Nat) : Option Cause :=
  leastBy Cause.rank (conds.filter fun k => k.lanes.contains l)

/-- The summary bit or bits of another lane's cause (R389). -/
def summaryBit (reported rank : Nat) : Nat :=
  if rank ≤ reported then 0
  else (if rank - reported ≤ 13 then 2 ^ (rank - reported - 1) else 0)
    ||| (if rank == 18 then 2 ^ 13 else 0)

/-- The cause an instruction reports, over some lanes in ascending order (R389). -/
def report (lanes : List Nat) (conds : List Cause) : Option Report :=
  let own := lanes.filterMap fun l => (ownCause conds l).map fun k => (l, k)
  match leastBy (fun e => e.2.rank) own with
  | none => none
  | some (_, k) =>
    let mine := (own.filter fun e => e.2.rank == k.rank).map Prod.fst
    -- the lanes of an FP Trap are those of its reported condition alone (R39)
    let met := ((conds.find? fun k => k.rank == 16).map Cause.lanes).getD []
    let mine := if k.rank == 16 then mine.filter met.contains else mine
    let sum := if k.rank == 1 then 0 else own.foldl (fun a e => a ||| summaryBit k.rank e.2.rank) 0
    some ⟨k.rank, 0, maskOf mine, word (k.info + sum)⟩

/-! ## Halting a wave (R393) -/

/-- What was fetched for an instruction that is withdrawn goes; what an issued one still needs stays. -/
def Wave.forget (w : Wave) : Wave := if w.accepting then w else { w with answers := [], far := [] }

/-- A group without a wave that waits at ACQUIRE is no waiter any more (R379). -/
def Group.leaveQueue (g : Group) : Group :=
  if g.waves.any fun w => !w.halted && w.gangs.any fun x => x.hold == .acquire then g else { g with order := none }

/-- Halt a wave: it issues nothing more, what it has issued completes, and the halt is captured. -/
def haltWave (s : State) (gid w cause sub : Nat) : State :=
  match findGroup s gid, findWave s gid w with
  | some g, some wv =>
    if wv.halted then s
    else
      let s := modWave s gid w fun wv => Wave.forget { wv with halted := true, merge := none, service := none }
      let s := modGroup s gid Group.leaveQueue
      capture s 1 cause sub g.die g.phys wv.slot g.launch g.index
  | _, _ => s

/-! ## Taking a trap (R391) -/

/-- Bits [56:2] of an address, which %tpc and %tvec hold (R390). -/
def codeAddr (a : Word) : Word := word (field a 56 2 * 4)

/-- Another gang of the wave stops at its next boundary; what it waits at it executes again (R391, R392), but for an
instruction that has issued. -/
def Gang.park (g : Gang) : Gang := { g with parked := true, hold := if g.awaits then g.hold else .none }

/-- The slices of a gang enter the handler (R391). -/
def Slice.enter (sl : Slice) : Slice :=
  { sl with tsaved := sl.amask, tdepth := sl.stack.length, amask := 15 }

/-- The wave in its handler (R391). The parities of %tcause, %tpc, %tlanes and %tinfo are made anew (R211). -/
def Wave.enter (w : Wave) (slices : BitVec 8) (r : Report) (tpc : Word) : Wave :=
  Wave.forget { (w.unmarkAll ((List.range 4).map fun k => mkSpec (4 + k))) with
      trap := { tvec := w.trap.tvec, tm := true, code := r.code, cause := r.cause,
                tpc := codeAddr tpc, tlanes := r.lanes, tinfo := r.info }
      slices := w.slices.zipIdx.map fun (sl, j) => if slices.getLsbD j then sl.enter else sl
      gangs := w.gangs.map fun g =>
        if g.slices == slices then
          { g with pc := codeAddr w.trap.tvec, hold := .none, clause := none, parked := false }
        else g.park
      merge := none }

/-- The wave waits for the host's fault service; its other gangs stop as at a handler entry (R395). DESIGN CHOICE (log entry
62): a clause in whose body the cause was met ends, as R67 has it for a trap. -/
def Wave.serve (w : Wave) (slices : BitVec 8) (r : Report) (pc : Word) : Wave :=
  Wave.forget { w with
      service := some ⟨r.cause, r.info, r.lanes, pc, slices, none⟩
      gangs := w.gangs.map fun g =>
        if g.slices == slices then { g with hold := .service, clause := none, parked := false }
        else g.park
      merge := none }

/-- The gang stops at its instruction, which it will execute again; its clause ends. -/
def Wave.putOff (w : Wave) (slices : BitVec 8) (parked : Bool) : Wave :=
  Wave.forget { w with gangs := w.gangs.map fun g =>
    if g.slices == slices then { g with hold := .none, clause := none, parked := parked } else g }

/-- A gang meets a cause that halts its wave: its instruction has ended. -/
def haltGang (s : State) (c : Issuer) (cause sub : Nat) : State :=
  haltWave (modWave s c.ref.gid c.ref.wave fun w => w.putOff c.gang.slices c.gang.parked) c.ref.gid c.ref.wave cause sub

/-- Entry with the host's part left out: what R391 does with FSHOST = 0. -/
def enterTrap (s : State) (c : Issuer) (r : Report) (tpc : Word) : State :=
  if c.w.trap.tm then haltGang s c r.cause 2
  else if !c.w.trap.tvec.getLsbD 0 then haltGang s c r.cause 1
  else putWave s c (c.w.enter c.gang.slices r tpc)

/-- A gang meets a cause (R391); `tpc` is the address that %tpc takes. %tvec is read only where traps are not masked, so that
a word of it that fails its residue matters only there (R213). A wave that is halted already takes nothing more: what it had
issued has ended. Where the cause is for the host's fault service, a stop
of the group that has already come has the gang stop at its instruction (R396). DESIGN CHOICE (log entry 62): a cause that a
gang meets in a clause body while the service is asked for another gang waits for it: the gang executes its instruction again
when the wave goes on. -/
def trapCore (s : State) (c : Issuer) (r : Report) (tpc : Word) : State :=
  if r.cause == 18 || r.cause == 19 || c.w.halted then haltGang s c r.cause 0
  else if c.w.marked (mkSpec 4) || (!c.w.trap.tm && c.w.marked (mkSpec 3)) then haltGang s c 18 0
  else if c.w.service.isSome then putWave s c (c.w.putOff c.gang.slices true)
  else if !c.w.trap.tm && c.w.trap.tvec.getLsbD 0 && 7 ≤ r.cause && r.cause ≤ 9 && s.regs.fsHost then
    putWave s c (if c.g.stop.isSome then c.w.putOff c.gang.slices c.gang.parked else c.w.serve c.gang.slices r c.pc)
  else enterTrap s c r tpc

/-! ## The rendezvous latch closes (R274) -/

/-- The gang of a wave that is held at the latch; a halted wave takes nothing more. -/
def latchRef (s : State) (gid w : Nat) : Option Issuer :=
  match findWave s gid w with
  | none => none
  | some wv =>
    if wv.halted then none
    else match wv.gangs.find? fun g => g.hold == .latch || g.hold == .expand with
    | none => none
    | some g => issuerAt s ⟨gid, w, (slicesOf g.slices).headD 0⟩

/-- Every wave in a list that is held at the latch takes one cause. -/
def trapHeld (s : State) (gid : Nat) (ws : List Nat) (cause info : Nat) : State :=
  ws.foldl (fun s w =>
    match latchRef s gid w with
    | none => s
    | some c => trapCore s c ⟨cause, 0, maskOf c.all, word info⟩ c.pc) s

/-- Close a group's open entry with one cause on every wave held in it. -/
def closeLatch (s : State) (gid cause info : Nat) : State :=
  match findGroup s gid with
  | none => s
  | some g =>
    match g.latch with
    | none => s
    | some e =>
      let s := modGroup s gid fun g => { g with latch := none }
      trapHeld s gid (e.arrivals.map Arrival.wave) cause info

/-- The waves that an accord value lists (R273). -/
def accordWaves (a : Word) : List Nat :=
  (List.range 6).filterMap fun e =>
    let b := field a (8 * e + 7) (8 * e)
    if bitOf b 7 then some (b % 16) else none

/-- An open entry that lists a wave which has ended or been halted closes with Accord Mismatch, origin 4. -/
def sweepLatch (s : State) (gid : Nat) : State :=
  match findGroup s gid with
  | none => s
  | some g =>
    match g.latch with
    | none => s
    | some e =>
      if (accordWaves e.accord).any fun w => ((g.waves[w]?).map Wave.gone).getD true then
        closeLatch s gid 13 (4 * 2 ^ 56)
      else s

/-- The same of formed accords that wait for their quad (R287). -/
def sweepQuads (s : State) (gid : Nat) : State :=
  match findGroup s gid with
  | none => s
  | some g =>
    let (bad, good) := g.quads.partition fun e =>
      e.arrivals.any fun a => ((g.waves[a.wave]?).map Wave.gone).getD true
    if bad.isEmpty then s
    else bad.foldl (fun s e => trapHeld s gid (e.arrivals.map Arrival.wave) 13 (4 * 2 ^ 56))
      (modGroup s gid fun g => { g with quads := good })

/-- After a wave has ended or been halted: its latch entry, then the barriers. -/
def sweep (s : State) (gid : Nat) : State := sweepBars (sweepQuads (sweepLatch s gid) gid) gid

/-- A gang meets a cause: R391 and what a halt does to its group (R393). -/
def takeTrap (s : State) (c : Issuer) (r : Report) (tpc : Word) : State :=
  sweep (trapCore s c r tpc) c.ref.gid

/-- Halt a wave, and what follows in its group (R393). -/
def haltAndSweep (s : State) (gid w cause sub : Nat) : State := sweep (haltWave s gid w cause sub) gid

/-! ## The shape of a meaning -/

/-- What a step may end in. -/
abbrev Result := Host.Outcome State Fault Refusal

/-- Perform for the issuing gang. -/
def issued (s : State) (f : Issuer → State) : Result :=
  match issuer s with
  | none => .fault .noIssuingGang
  | some c => .next (f c)

/-- Report the conditions, or go on. -/
def check (s : State) (c : Issuer) (lanes : List Nat) (conds : List Cause) (go : State) : State :=
  match report lanes conds with
  | some r => takeTrap s c r c.pc
  | none => go

/-- A condition of the instruction as a whole: every lane active under divergence (R389). -/
def Issuer.wide (c : Issuer) (rank info : Nat) : Cause := ⟨rank, info, c.all⟩

/-- Keep a condition where it holds. -/
def when (b : Bool) (k : Cause) : List Cause := if b then [k] else []

/-- Illegal Encoding under one check of R60 (R61). -/
def illegalTrap (s : State) (c : Issuer) (chk : Nat) : State :=
  takeTrap s c ⟨1, 0, maskOf c.all, word (chk * 2 ^ 56)⟩ c.pc

/-! ## Leaving a handler (R392) -/

/-- A slice takes back what it had at entry. -/
def Slice.leave (sl : Slice) : Slice := { sl with amask := sl.tsaved }

/-- The wave after TRET (R392). Every TSAVED is empty then (log entry 64), so that the image of a wave in a handler
tells by it which slices run the handler (R403). -/
def Wave.leave (w : Wave) (slices : BitVec 8) : Wave :=
  { w with
      trap := { w.trap with tm := false }
      slices := w.slices.zipIdx.map fun (sl, j) =>
        { (if slices.getLsbD j then sl.leave else sl) with tsaved := 0 }
      gangs := w.gangs.map fun g =>
        if g.slices == slices then { g with pc := w.trap.tpc, hold := .none, clause := none }
        else { g with parked := false } }

/-- The gangs of a wave go on after host fault service answered with retry (R395). -/
def Wave.resume (w : Wave) : Wave :=
  { w with service := none
           gangs := w.gangs.map fun g =>
             { g with parked := false, hold := if g.hold == .service then .none else g.hold } }

end Sys2Proof.Machine
end

