-- ==== Sys2Proof/Machine/Operands.lean ====
section
/-!
DEFINITION. Every operand form: V and S sources with literals, sub-elements, multi-register runs, and the
checks that the operand collectors make of what an instruction names (R207, R208): allotment bounds,
pending bits, residues and parity.
-/

namespace Sys2Proof.Machine

/-! ## Lengths (R50) -/

/-- Bytes of a form-W or form-L word with a V source. -/
def vlen : VSrc → Nat
  | .reg _ => 8
  | .lit _ => 12
/-- Bytes of a form-W or form-L word with an S source. -/
def slen : SSrc → Nat
  | .reg _ => 8
  | .lit _ => 12

/-! ## Sources (R71) -/

/-- The 64-bit value of an S source: the register, or K sign-extended. -/
def Wave.srcS (w : Wave) : SSrc → Word
  | .reg r => w.readS r
  | .lit k => sextK k

/-- The operand bits that a scalar instruction of a type reads from an S source (R71, R364). -/
def Wave.srcSTy (w : Wave) (t : Ty) : SSrc → Nat
  | .reg r => (w.readS r).toNat % 2 ^ t.width
  | .lit k => litBits t k % 2 ^ t.width

/-- Sub-element k of a V source in a lane: the register's, or K read for the type (R215). -/
def Wave.subV (w : Wave) (t : Ty) (l k : Nat) : VSrc → Nat
  | .reg r => subElem (w.readV r.val l) t.width k
  | .lit x => litBits t x % 2 ^ t.width

/-- The 64-bit lane value of a V source; a literal stands in every sub-element (R215). -/
def Wave.srcV (w : Wave) (t : Ty) (l : Nat) : VSrc → Word
  | .reg r => w.readV r.val l
  | .lit x => packSubs t.width (List.replicate (64 / t.width) (litBits t x))

/-- Sub-elements of a lane register. -/
def Wave.subsOf (w : Wave) (t : Ty) (r l : Nat) : List Nat :=
  (List.range (64 / t.width)).map (subElem (w.readV r l) t.width)

/-! ## What an instruction names -/

/-- One register that an instruction reads or writes. `f` is the field's code in %tinfo: 0 D, 1 A, 2 B,
3 C (R388). -/
inductive Use where
  | vr (f r : Nat)
  | vw (f r : Nat)
  | sr (r : SReg)
  | sw (r : SReg)
  | pr (p : Nat)
  | pw (p : Nat)
  | side (r : Nat)
  | sideB (r k : Nat)       -- byte k of a sidecar
  | lead (f r : Nat)        -- a register of which lane 4j of each slice is read
  | prAll (p : Nat)         -- a predicate that is read whole
  | xr (n : Nat)
  | base (n : Nat)
  | q (n : Nat)
  | spec (k : Nat)
  | qw (n k : Nat)          -- word k of a cursor
  | ck (n : Nat)
  | ckw (n k : Nat)         -- word k of %ckn
  | ff
  | accord
  deriving DecidableEq, Repr

def useV (f : Nat) : VSrc → List Use
  | .reg v => [.vr f v.val]
  | .lit _ => []
def useS : SSrc → List Use
  | .reg r => [.sr r]
  | .lit _ => []

/-- A run of n registers from r. -/
def runUse (mk : Nat → Use) (r n : Nat) : List Use := (List.range n).map fun i => mk (r + i)

/-- A V register outside the wave's allotment (R207). -/
def boundCond (c : Issuer) (lanes : List Nat) (f r : Nat) : List Cause :=
  when (r != 255 && c.g.vregs ≤ r) ⟨3, f * 2 ^ 56, lanes⟩

/-- The lanes whose slice of vr is pending (R128). -/
def pendV (c : Issuer) (lanes : List Nat) (r : Nat) : List Cause :=
  when (r != 255) ⟨5, r * 2 ^ 56, lanes.filter fun l => c.w.pv.get false (8 * r + l / 4)⟩

/-- A pending scalar register concerns every lane (R389). -/
def pendS (c : Issuer) (lanes : List Nat) : SReg → List Cause
  | .zero => []
  | .s n => when (c.w.ps.get false n.val) ⟨5, n.val * 2 ^ 56 + 2 ^ 54, lanes⟩

def pendP (c : Issuer) (lanes : List Nat) (p : Nat) : List Cause :=
  when (p != 7 && c.w.pp.get false p) ⟨5, p * 2 ^ 56 + 2 * 2 ^ 54, lanes⟩

/-- Uncorrectable Data for marked words that some lanes read: source 1 residue, 2 parity (R213, R388). -/
def markCond (src : Nat) (lanes : List Nat) (marked : Nat → Bool) : List Cause :=
  [⟨18, src * 2 ^ 60, lanes.filter marked⟩]

/-- The lanes that a condition of a per-wave operand concerns: the instruction's, or, where it has none, every lane
active under divergence (R213, R389). -/
def waveLanes (c : Issuer) (lanes : List Nat) : List Nat := if lanes.isEmpty then c.all else lanes

/-- The conditions of one register named (R207, R128, R213). -/
def useCond (c : Issuer) (lanes : List Nat) : Use → List Cause
  | .vr f r => boundCond c lanes f r ++ pendV c lanes r ++
      markCond 1 lanes fun l => r != 255 && c.w.marked (mkV r l)
  | .vw f r => boundCond c lanes f r ++ pendV c lanes r
  | .sr r => pendS c (waveLanes c lanes) r ++ (match r with
      | .s n => markCond 1 (waveLanes c lanes) fun _ => c.w.marked (mkS n.val)
      | .zero => [])
  | .sw r => pendS c (waveLanes c lanes) r
  | .pr p => pendP c (waveLanes c lanes) p ++
      markCond 2 (waveLanes c lanes) fun l => p != 7 && c.w.marked (mkP p (l / 8))
  | .pw p => pendP c (waveLanes c lanes) p
  | .prAll p => pendP c (waveLanes c lanes) p ++
      markCond 2 (waveLanes c lanes) fun _ => p != 7 && (List.range 4).any fun k => c.w.marked (mkP p k)
  | .lead f r => boundCond c lanes f r ++ pendV c lanes r ++
      markCond 1 (lanes.filter fun l => l % 4 == 0) fun l => r != 255 && c.w.marked (mkV r l)
  | .side r => markCond 2 lanes fun l => r != 255 && (c.w.marked (mkSide r (l / 4) 0) || c.w.marked (mkSide r (l / 4) 1))
  | .sideB r k => markCond 2 lanes fun l => r != 255 && c.w.marked (mkSide r (l / 4) k)
  | .xr n => markCond 2 lanes fun l => c.w.marked (mkX n l)
  | .base n => markCond 2 (waveLanes c lanes) fun _ => c.w.marked (mkBase n)
  | .q n => markCond 2 (waveLanes c lanes) fun _ => (List.range 4).any fun k => c.w.marked (mkQ n k)
  | .spec k => markCond 2 (waveLanes c lanes) fun _ => c.w.marked (mkSpec k)
  | .qw n k => markCond 2 (waveLanes c lanes) fun _ => c.w.marked (mkQ n k)
  | .ck n => markCond 2 (waveLanes c lanes) fun _ => (List.range 5).any fun k => c.w.marked (mkCk n k)
  | .ckw n k => markCond 2 (waveLanes c lanes) fun _ => c.w.marked (mkCk n k)
  | .ff => markCond 2 lanes fun l => c.w.marked (mkFf l)
  | .accord => markCond 2 (waveLanes c lanes) fun _ => c.g.marks.get false gmAccord

/-- The conditions of all registers named. -/
def useConds (c : Issuer) (lanes : List Nat) (us : List Use) : List Cause :=
  us.flatMap (useCond c lanes)

/-- The conditions of a guard's predicate, which concern every lane active under divergence (R208). -/
def guardConds (c : Issuer) (g : Guard) : List Cause := useCond c c.all (.pr g.p.val)

/-! ## The two shapes -/

/-- An instruction that acts on the wave as a whole: what it names is checked for every lane active under
divergence, then its further conditions, then its effect on the wave. -/
def waveOp (s : State) (len : Nat) (us : List Use) (more : Issuer → List Cause)
    (eff : Issuer → Wave) : Result :=
  issued s fun c => check s c c.all (useConds c c.all us ++ more c) (retire s c len (eff c))

/-- An instruction that acts per active lane on the wave's registers. -/
def laneOp (s : State) (len : Nat) (g : Guard) (us : List Use) (more : Issuer → List Nat → List Cause)
    (eff : Issuer → List Nat → Wave) : Result :=
  issued s fun c =>
    let ls := c.lanes g
    check s c c.all (guardConds c g ++ useConds c ls us ++ more c ls) (retire s c len (eff c ls))

end Sys2Proof.Machine
end

