-- ==== Sys2Proof/Machine/Flags.lean ====
section
/-!
DEFINITION. Floating-point flags and traps (R36-R39), the random bits of stochastic rounding (R34), and the
shape of the instructions that round.
-/

namespace Sys2Proof.Machine

/-- One result: its bits, the flags it raises, and whether an operand is a signalling NaN. -/
structure FRes where
  bits : Nat
  fl   : Flags
  snan : Bool
  deriving DecidableEq, Repr

/-- What a lane of a rounding instruction produces. -/
structure LaneRes where
  lane : Nat
  x    : Word
  fl   : Flags
  snan : Bool
  deriving DecidableEq, Repr

/-- The rounding mode of a code, .dyn taken from %fmode.RM (R37). -/
def Wave.mode (w : Wave) (r : Rnd) : Mode := Rnd.mode (w.fmode.toNat % 4) r

/-- A lane meets the trap condition of code 0-5: sNaN under SNT, or NV, DZ, OF, UF, NX with its enable set
(R39). -/
def fpMet (w : Wave) (code : Nat) (fl : Flags) (snan : Bool) : Bool :=
  if code == 0 then w.fmode.getLsbD 7 && snan
  else w.fmode.getLsbD (code + 1) && fl.getLsbD (code - 1)

/-- The FP Trap condition of an instruction, on the lanes that meet the reported condition (R39, R388); and on those that meet
another, for the summary of a cause that ranks higher (R389). -/
def fpCond (w : Wave) (rs : List LaneRes) : List Cause :=
  let met (code : Nat) : List LaneRes := rs.filter fun r => fpMet w code r.fl r.snan
  match (List.range 6).find? fun code => !(met code).isEmpty with
  | none => []
  | some code =>
    let others := (List.range 5).foldl (fun a i =>
      if (met (i + 1)).isEmpty then a else a + 2 ^ (56 + i)) 0
    let info := code * 2 ^ 61 + others
    let rest := (rs.filter fun r => !fpMet w code r.fl r.snan && (List.range 6).any fun k => fpMet w k r.fl r.snan)
    [⟨16, info, (met code).map LaneRes.lane⟩, ⟨16, info, rest.map LaneRes.lane⟩]

/-- OR the flags of lanes into %fflags. -/
def Wave.orRes (w : Wave) (rs : List LaneRes) : Wave := rs.foldl (fun w r => w.orFf r.lane r.fl) w

/-- Write the results of lanes into a register. -/
def Wave.writeRes (w : Wave) (d : Nat) (rs : List LaneRes) : Wave :=
  rs.foldl (fun w r => w.writeV d r.lane r.x) w

/-- The random value of R45 for a destination sub-element of a lane (R34). -/
def Wave.rand (w : Wave) (lane sub : Nat) : Nat :=
  srBits w.grain (word (lane * 8 + sub) + 256#64 * w.grainctr)

/-- %grainctr advances when an instruction with rounding code 5 completes (R34). -/
def Wave.tickGrain (w : Wave) (r : Rnd) : Wave :=
  if r = .sr then { w with grainctr := w.grainctr + 1 } else w

/-- What stochastic rounding reads. -/
def srUse (r : Rnd) : List Use := if r = .sr then [.spec 0, .spec 1] else []

/-- A lane's results packed, its flags joined. -/
def packRes (w lane : Nat) (rs : List FRes) : LaneRes :=
  ⟨lane, packSubs w (rs.map FRes.bits), rs.foldl (fun f r => f ||| r.fl) 0, rs.any FRes.snan⟩

/-- An instruction whose lanes raise flags (R216): the checks, the trap condition, then the results are
written and the flags joined. -/
def fpOp (s : State) (len : Nat) (g : Guard) (us : List Use) (more : Issuer → List Nat → List Cause)
    (res : Issuer → Nat → LaneRes) (write : Wave → List LaneRes → Wave) : Result :=
  issued s fun c =>
    let ls := c.lanes g
    let rs := ls.map (res c)
    check s c c.all
      (guardConds c g ++ useConds c ls (.spec 2 :: .ff :: us) ++ more c ls ++ fpCond c.w rs)
      (retire s c len ((write c.w rs).orRes rs))

/-- The common case: one destination register. -/
def fpLane (s : State) (len : Nat) (g : Guard) (d : Nat) (us : List Use)
    (res : Issuer → Nat → LaneRes) : Result :=
  fpOp s len g (.vw 0 d :: us) (fun _ _ => []) res fun w rs => w.writeRes d rs

/-- No further condition. -/
def noMore (_ : Issuer) (_ : List Nat) : List Cause := []

end Sys2Proof.Machine
end

