-- ==== Sys2Proof/Machine/VInt.lean ====
section
/-!
DEFINITION. Vector integer instructions 0x40-0x5F (R221-R229).
-/

namespace Sys2Proof.Machine

/-! ## Shapes -/

/-- A lane register from a function of the sub-element number. -/
def mapSubs (t : Ty) (f : Nat → Nat) : Word := packSubs t.width ((List.range (64 / t.width)).map f)

/-- D ← op(A, B) per sub-element (R216). -/
def vintBin (s : State) (o : VBin) (op : Nat → Nat → Nat) : Result :=
  laneOp s (vlen o.b) o.g (.vw 0 o.d.val :: .vr 1 o.a.val :: useV 2 o.b) noMore fun c ls =>
    c.w.writeLanes o.d.val ls fun l => mapSubs o.t fun k =>
      op (subElem (c.w.readV o.a.val l) o.t.width k) (c.w.subV o.t l k o.b)

/-- D ← op(A) per sub-element. -/
def vintUn (s : State) (o : VUn) (op : Nat → Nat) : Result :=
  laneOp s 8 o.g [.vw 0 o.d.val, .vr 1 o.a.val] noMore fun c ls =>
    c.w.writeLanes o.d.val ls fun l => mapSubs o.t fun k =>
      op (subElem (c.w.readV o.a.val l) o.t.width k)

/-- D ← op(A, B, C) per sub-element. -/
def vintTern (s : State) (o : VTern) (op : Nat → Nat → Nat → Nat) : Result :=
  laneOp s (vlen o.b) o.g (.vw 0 o.d.val :: .vr 1 o.a.val :: .vr 3 o.c.val :: useV 2 o.b) noMore
    fun c ls =>
      c.w.writeLanes o.d.val ls fun l => mapSubs o.t fun k =>
        op (subElem (c.w.readV o.a.val l) o.t.width k) (c.w.subV o.t l k o.b)
          (subElem (c.w.readV o.c.val l) o.t.width k)

/-! ## Arithmetic and logic (R221, R222) -/

def execVadd (o : VBin) (s : State) : Result := vintBin s o (iAdd o.t o.sat)
def execVsub (o : VBin) (s : State) : Result := vintBin s o (iSub o.t o.sat)
def execVmul (o : VBin) (s : State) : Result := vintBin s o (iMul o.t o.sat)
def execVmulh (o : VBin) (s : State) : Result := vintBin s o (iMulh o.t)
def execVmad (o : VTern) (s : State) : Result := vintTern s o (iMad o.t o.sat)
def execVdiv (o : VBin) (s : State) : Result := vintBin s o (iDiv o.t o.sat)
def execVrem (o : VBin) (s : State) : Result := vintBin s o (iRem o.t)
def execVand (o : VBin) (s : State) : Result := vintBin s o (iAnd o.t)
def execVor (o : VBin) (s : State) : Result := vintBin s o (iOr o.t)
def execVxor (o : VBin) (s : State) : Result := vintBin s o (iXor o.t)
def execVnot (o : VUn) (s : State) : Result := vintUn s o (iNot o.t)
def execVshl (o : VBin) (s : State) : Result := vintBin s o (iShl o.t o.sat)
def execVshr (o : VBin) (s : State) : Result := vintBin s o (iShr o.t)
def execVmin (o : VBin) (s : State) : Result := vintBin s o (iMin o.t)
def execVmax (o : VBin) (s : State) : Result := vintBin s o (iMax o.t)
def execVabs (o : VUn) (s : State) : Result := vintUn s o (iAbs o.t o.sat)
def execVneg (o : VUn) (s : State) : Result := vintUn s o (iNeg o.t o.sat)
def execVpopc (o : VUn) (s : State) : Result := vintUn s o (iPopc o.t)
def execVclz (o : VUn) (s : State) : Result := vintUn s o (iClz o.t)
def execVbfx (o : VBin) (s : State) : Result := vintBin s o (iBfx o.t)
def execVbfi (o : VTern) (s : State) : Result := vintTern s o (iBfi o.t)
def execVdot4 (o : VTern) (s : State) : Result := vintTern s o (iDot4 o.t o.sat)

/-- VIOTA (R224). -/
def execViota (g : Guard) (d : VReg) (a : SReg) (t : Ty) (s : State) : Result :=
  laneOp s 8 g [.vw 0 d.val, .sr a] noMore fun c ls =>
    c.w.writeLanes d.val ls fun l => mapSubs t fun k =>
      ((c.w.readS a).toNat + l * (64 / t.width) + k) % 2 ^ t.width

/-! ## Compare, select, move (R225) -/

/-- A compare's predicate bit: the condition in every sub-element, or in any. -/
def cmpBit (any : Bool) (bits : List Bool) : Bool := if any then bits.any id else bits.all id

def execVcmp (o : VCmpOp) (s : State) : Result :=
  laneOp s (vlen o.b) o.g (.pw o.d.val :: .vr 1 o.a.val :: useV 2 o.b) noMore fun c ls =>
    c.w.writeP o.d.val ls fun l => cmpBit o.any ((List.range (64 / o.t.width)).map fun k =>
      iCond o.t o.cond (subElem (c.w.readV o.a.val l) o.t.width k) (c.w.subV o.t l k o.b))

/-- VSEL: K is sign-extended. -/
def execVsel (g : Guard) (d a : VReg) (b : VSrc) (p : PReg) (s : State) : Result :=
  laneOp s (vlen b) g (.vw 0 d.val :: .vr 1 a.val :: .pr p.val :: useV 2 b) noMore fun c ls =>
    c.w.writeLanes d.val ls fun l =>
      if (c.w.readP p.val).getLsbD l then c.w.readV a.val l else c.w.srcV .none l b

def execVmov (g : Guard) (d : VReg) (b : VSrc) (t : Ty) (s : State) : Result :=
  laneOp s (vlen b) g (.vw 0 d.val :: useV 2 b) noMore fun c ls =>
    c.w.writeLanes d.val ls fun l => c.w.srcV t l b

/-! ## Byte permutation (R226) -/

/-- One result byte of VPERMB under control byte e. -/
def permByte (a cc : Word) (e : Nat) : Nat :=
  if bitOf e 7 then 0 else subElem (if bitOf e 3 then cc else a) 8 (e % 8)

def execVpermb (g : Guard) (d a b cc : VReg) (s : State) : Result :=
  laneOp s 8 g [.vw 0 d.val, .vr 1 a.val, .vr 2 b.val, .vr 3 cc.val] noMore fun c ls =>
    c.w.writeLanes d.val ls fun l => packSubs 8 ((List.range 8).map fun j =>
      permByte (c.w.readV a.val l) (c.w.readV cc.val l) (subElem (c.w.readV b.val l) 8 j))

/-! ## Indexed registers (R206, R227) -/

/-- The register that an index register names in a lane. -/
def Wave.indexed (w : Wave) (x l : Nat) : Nat := w.xbase.get 0 x + w.readX x l

/-- The checks of R206 for a lane and then those of the register it names (R227). -/
def indexConds (c : Issuer) (x : Nat) (write : Bool) (ls : List Nat) : List Cause :=
  ls.flatMap fun l =>
    let r := c.w.indexed x l
    if c.w.xlimit.get 0 x ≤ c.w.readX x l then [⟨4, x * 2 ^ 56, [l]⟩]
    else if 254 < r || c.g.vregs ≤ r then [⟨3, 6 * 2 ^ 56, [l]⟩]
    else useCond c [l] (if write then .vw 0 r else .vr 1 r)

def execVrdx (g : Guard) (d : VReg) (a : XReg) (s : State) : Result :=
  laneOp s 8 g [.vw 0 d.val, .xr a.val, .base a.val] (fun c ls => indexConds c a.val false ls)
    fun c ls => c.w.writeLanes d.val ls fun l => c.w.readV (c.w.indexed a.val l) l

def execVwrx (g : Guard) (d : XReg) (a : VReg) (s : State) : Result :=
  laneOp s 8 g [.vr 1 a.val, .xr d.val, .base d.val] (fun c ls => indexConds c d.val true ls)
    fun c ls => ls.foldl (fun w l => w.writeV (c.w.indexed d.val l) l (c.w.readV a.val l)) c.w

/-! ## Width conversions (R228, R229) -/

/-- The source and destination places of a conversion's values: source type, destination type, part. -/
def cvtPlaces (ws wt part : Nat) : List (Nat × Nat) :=
  let r := 64 / max ws wt
  (List.range r).map fun k => if wt ≤ ws then (k, part * r + k) else (part * r + k, k)

/-- Put converted values into a lane register, the other sub-elements kept (R228). -/
def putCvt (old : Word) (wt : Nat) (vs : List (Nat × Nat)) : Word :=
  vs.foldl (fun x (k, v) => setSub x wt k v) old

/-- The registers a conversion names: D is read too where sub-elements are kept. -/
def cvtUses (o : VCvt) : List Use :=
  if o.t.width < o.src.width then [.vw 0 o.d.val, .vr 0 o.d.val, .vr 1 o.a.val]
  else [.vw 0 o.d.val, .vr 1 o.a.val]

def execVcvti (o : VCvt) (s : State) : Result :=
  laneOp s 8 o.g (cvtUses o) noMore fun c ls =>
    c.w.writeLanes o.d.val ls fun l =>
      putCvt (c.w.readV o.d.val l) o.t.width
        ((cvtPlaces o.src.width o.t.width o.part.val).map fun (i, k) =>
          (k, iCvt o.t o.src o.sat (subElem (c.w.readV o.a.val l) o.src.width i)))

/-- VPACK: the halves of D from A and B. -/
def execVpack (g : Guard) (d a b : VReg) (t src : Ty) (sat : Bool) (s : State) : Result :=
  laneOp s 8 g [.vw 0 d.val, .vr 1 a.val, .vr 2 b.val] noMore fun c ls =>
    c.w.writeLanes d.val ls fun l =>
      packSubs t.width ((c.w.subsOf src a.val l ++ c.w.subsOf src b.val l).map (iCvt t src sat))

/-- VUNPK: D from the low sub-elements of A, D + 1 from the high ones. -/
def execVunpk (g : Guard) (d a : VReg) (t src : Ty) (sat : Bool) (s : State) : Result :=
  laneOp s 8 g [.vw 0 d.val, .vw 0 (d.val + 1), .vr 1 a.val] noMore fun c ls =>
    let part (l : Nat) : List Nat := (c.w.subsOf src a.val l).map (iCvt t src sat)
    let n := 64 / t.width
    (c.w.writeLanes d.val ls fun l => packSubs t.width ((part l).take n)).writeLanes (d.val + 1) ls
      fun l => packSubs t.width ((part l).drop n)

end Sys2Proof.Machine
end

