-- ==== Sys2Proof/Machine/VFloat.lean ====
section
/-!
DEFINITION. Vector floating-point instructions 0x60-0x78 (R230-R241): arithmetic, comparisons, functions,
conversions, FP64 by slices, the optimiser step and the exact checksums.
-/

namespace Sys2Proof.Machine

/-! ## Operations on values -/

/-- √x: a negative value is invalid, √−0 is −0. -/
def sqrtVal : Val → Exact
  | .nan s => (.nan s, 0)
  | .inf neg => if neg then (.nan false, Flags.nv) else (.inf false, 0)
  | .fin neg n d =>
    if n == 0 then (.fin neg 0 1, 0)
    else if neg then (.nan false, Flags.nv)
    else (sqrtFrac n d, 0)

/-- x × 2^k for an integer k of any size: beyond ±5,000 every format overflows or is tiny alike. -/
def scaleVal (x : Val) (k : Int) : Val := x.scale2 (max (-5000) (min 5000 k))

/-- 1/√x (R233). -/
def rsqVal : Val → Exact
  | .nan s => (.nan s, 0)
  | .inf neg => if neg then (.nan false, Flags.nv) else (.zero, 0)
  | .fin neg n d =>
    if n == 0 then (.inf neg, Flags.dz)
    else if neg then (.nan false, Flags.nv)
    else (sqrtFrac d n, 0)

/-- 2^x (R233). -/
def pow2Val : Val → Exact
  | .nan s => (.nan s, 0)
  | .inf neg => (if neg then .zero else .inf false, 0)
  | .fin neg n d => (exp2Val neg n d, 0)

/-- log2 x (R233). -/
def logVal : Val → Exact
  | .nan s => (.nan s, 0)
  | .inf neg => if neg then (.nan false, Flags.nv) else (.inf false, 0)
  | .fin neg n d =>
    if n == 0 then (.inf true, Flags.dz)
    else if neg then (.nan false, Flags.nv)
    else (log2Val n d, 0)

/-- The class bit of a pattern (R232). -/
def classBit (t : Ty) (bits : Nat) : Nat :=
  match decodeVal t bits with
  | .nan s => if s then 8 else 9
  | .inf neg => if neg then 0 else 7
  | .fin neg n d =>
    let f := (fmtOf t).getD ⟨0, 0, 0, 0, false, false, 0⟩
    if n == 0 then (if neg then 3 else 4)
    else
      let sub := decide (n * 2 ^ (f.bias - 1) < d)
      match neg, sub with
      | true, false => 1
      | true, true => 2
      | false, true => 5
      | false, false => 6

/-- Round to an integral value (R234). -/
def rndVal (mode : Mode) (exact : Bool) (x : Val) : Exact :=
  match x with
  | .fin neg n d =>
    let (k, inexact) := roundUnits mode neg n d 0 0
    (.fin neg k 1, if exact && inexact then Flags.nx else 0)
  | x => (x, 0)

/-- Encode an exact result with what its operands say about signalling NaNs. -/
def fres (t : Ty) (mode : Mode) (sat : Bool) (x : Exact) (operands : List Val) : FRes :=
  let (b, f) := encodeExact t mode sat x
  ⟨b, f, operands.any Val.isSNan⟩

/-! ## Shapes -/

/-- D ← op(A, B) rounded, per sub-element. -/
def vfBin (s : State) (o : VBin) (op : Bool → Val → Val → Exact) : Result :=
  fpLane s (vlen o.b) o.g o.d.val (.vr 1 o.a.val :: useV 2 o.b) fun c l =>
    let mode := c.w.mode o.rnd
    packRes o.t.width l ((List.range (64 / o.t.width)).map fun k =>
      let a := decodeVal o.t (subElem (c.w.readV o.a.val l) o.t.width k)
      let b := decodeVal o.t (c.w.subV o.t l k o.b)
      fres o.t mode o.sat (op mode.isRdn a b) [a, b])

/-- D ← op(A) rounded, per sub-element. -/
def vfUn (s : State) (o : VUn) (op : Val → Exact) : Result :=
  fpLane s 8 o.g o.d.val [.vr 1 o.a.val] fun c l =>
    packRes o.t.width l ((c.w.subsOf o.t o.a.val l).map fun x =>
      let a := decodeVal o.t x
      fres o.t (c.w.mode o.rnd) o.sat (op a) [a])

/-! ## Arithmetic (R230, R231) -/

def execVfadd (o : VBin) (s : State) : Result := vfBin s o addVals
def execVfsub (o : VBin) (s : State) : Result := vfBin s o fun rdn a b => addVals rdn a b.neg
def execVfmul (o : VBin) (s : State) : Result := vfBin s o fun _ a b => mulVals a b
def execVfdiv (o : VBin) (s : State) : Result := vfBin s o fun _ a b => divVals a b
def execVfsqrt (o : VUn) (s : State) : Result := vfUn s o sqrtVal

def execVfma (o : VTern) (s : State) : Result :=
  fpLane s (vlen o.b) o.g o.d.val (.vr 1 o.a.val :: .vr 3 o.c.val :: useV 2 o.b) fun c l =>
    let mode := c.w.mode o.rnd
    packRes o.t.width l ((List.range (64 / o.t.width)).map fun k =>
      let a := decodeVal o.t (subElem (c.w.readV o.a.val l) o.t.width k)
      let b := decodeVal o.t (c.w.subV o.t l k o.b)
      let d := decodeVal o.t (subElem (c.w.readV o.c.val l) o.t.width k)
      fres o.t mode o.sat (fmaVals mode.isRdn a b d) [a, b, d])

/-- VFMIN and VFMAX (R231). -/
def vfMinMax (s : State) (o : VBin) (isMax : Bool) : Result :=
  fpLane s (vlen o.b) o.g o.d.val (.vr 1 o.a.val :: useV 2 o.b) fun c l =>
    packRes o.t.width l ((List.range (64 / o.t.width)).map fun k =>
      let a := subElem (c.w.readV o.a.val l) o.t.width k
      let b := c.w.subV o.t l k o.b
      let r := minMaxVal o.t isMax a b
      ⟨r.1, r.2, (decodeVal o.t a).isSNan || (decodeVal o.t b).isSNan⟩)

def execVfmin (o : VBin) (s : State) : Result := vfMinMax s o false
def execVfmax (o : VBin) (s : State) : Result := vfMinMax s o true

/-- VFSCALE: the exponent is an integer of the operand's width. -/
def execVfscale (o : VBin) (s : State) : Result :=
  fpLane s (vlen o.b) o.g o.d.val (.vr 1 o.a.val :: useV 2 o.b) fun c l =>
    let mode := c.w.mode o.rnd
    let it := scaleIntTy o.t
    packRes o.t.width l ((List.range (64 / o.t.width)).map fun k =>
      let a := decodeVal o.t (subElem (c.w.readV o.a.val l) o.t.width k)
      fres o.t mode o.sat (scaleVal a (iv it (c.w.subV it l k o.b)), 0) [a])

/-- The sum of two products and an addend, rounded once (VFDOT2). DESIGN CHOICE (log entry 62): beside a NaN operand, where
R230 speaks of VFMA alone, infinite products of opposite sign raise no NV, and a product 0 × ∞ does. -/
def dot2Vals (rdn : Bool) (a b a' b' x : Val) : Exact :=
  let p := mulVals a b
  let q := mulVals a' b'
  let sig := a.isSNan || b.isSNan || a'.isSNan || b'.isSNan || x.isSNan
  if a.isNan || b.isNan || a'.isNan || b'.isNan || x.isNan then (.nan sig, p.2 ||| q.2)
  else
    let r := sumVals rdn [p.1, q.1, x]
    (r.1, r.2 ||| p.2 ||| q.2)

def execVfdot2 (g : Guard) (d a b cc : VReg) (t : Ty) (rnd : Rnd) (sat : Bool) (s : State) : Result :=
  fpLane s 8 g d.val [.vr 1 a.val, .vr 2 b.val, .vr 3 cc.val] fun c l =>
    let mode := c.w.mode rnd
    packRes 32 l ((List.range 2).map fun k =>
      let x (r i : Nat) : Val := decodeVal t (subElem (c.w.readV r l) 16 i)
      let a0 := x a.val (2 * k)
      let b0 := x b.val (2 * k)
      let a1 := x a.val (2 * k + 1)
      let b1 := x b.val (2 * k + 1)
      let y := decodeVal .f32 (subElem (c.w.readV cc.val l) 32 k)
      fres .f32 mode sat (dot2Vals mode.isRdn a0 b0 a1 b1 y) [a0, b0, a1, b1, y])

/-! ## Comparison and classes (R232) -/

/-- A floating-point condition, with invalid where R232 raises it. -/
def fCond (cond : Cond) (a b : Val) : Bool × Flags :=
  let un := a.isNan || b.isNan
  let sig := if a.isSNan || b.isSNan then Flags.nv else 0
  let ord := if un then Flags.nv else 0
  match cond with
  | .eq => (!un && a.cmp b == 0, sig)
  | .ne => (un || a.cmp b != 0, sig)
  | .lt => (!un && a.cmp b < 0, ord)
  | .le => (!un && a.cmp b ≤ 0, ord)
  | .gt => (!un && 0 < a.cmp b, ord)
  | .ge => (!un && 0 ≤ a.cmp b, ord)
  | .un => (un, sig)
  | .or => (!un, sig)

def execVfcmp (o : VCmpOp) (s : State) : Result :=
  fpOp s (vlen o.b) o.g (.pw o.d.val :: .vr 1 o.a.val :: useV 2 o.b) noMore
    (fun c l =>
      let rs := (List.range (64 / o.t.width)).map fun k =>
        let a := decodeVal o.t (subElem (c.w.readV o.a.val l) o.t.width k)
        let b := decodeVal o.t (c.w.subV o.t l k o.b)
        let (x, f) := fCond o.cond a b
        (x, f, a.isSNan || b.isSNan)
      ⟨l, word (cmpBit o.any (rs.map Prod.fst)).toNat, rs.foldl (fun f r => f ||| r.2.1) 0,
        rs.any fun r => r.2.2⟩)
    fun w rs => w.writeP o.d.val (rs.map LaneRes.lane) fun l => rs.any fun r => r.lane == l && r.x != 0

/-- VFCLASS raises no flag and is not subject to SNT. DESIGN CHOICE (log entry 62): R217 has a signalling NaN raise NV also
where the result is a class, and R232 has VFCLASS raise none; the model follows R232, the rule of the instruction. -/
def execVfclass (o : VUn) (s : State) : Result :=
  laneOp s 8 o.g [.vw 0 o.d.val, .vr 1 o.a.val] noMore fun c ls =>
    c.w.writeLanes o.d.val ls fun l => mapSubs o.t fun k =>
      2 ^ classBit o.t (subElem (c.w.readV o.a.val l) o.t.width k)

/-! ## Functions (R233, R234) -/

def execVfrcp (o : VUn) (s : State) : Result := vfUn s o (divVals .one)
def execVfrsq (o : VUn) (s : State) : Result := vfUn s o rsqVal
def execVfexp2 (o : VUn) (s : State) : Result := vfUn s o pow2Val
def execVflog2 (o : VUn) (s : State) : Result := vfUn s o logVal

def execVfrnd (g : Guard) (d a : VReg) (t : Ty) (rnd : Rnd) (exact : Bool) (s : State) : Result :=
  fpLane s 8 g d.val [.vr 1 a.val] fun c l =>
    let mode := c.w.mode rnd
    packRes t.width l ((c.w.subsOf t a.val l).map fun x =>
      let v := decodeVal t x
      fres t mode false (rndVal mode exact v) [v])

/-! ## Conversions (R235) -/

/-- VFCVT, VFCVTI and VICVTF: Encode of Decode, value by value. -/
def vfCvt (s : State) (o : VCvt) : Result :=
  fpOp s 8 o.g (cvtUses o ++ srUse o.rnd) noMore
    (fun c l =>
      let mode := c.w.mode o.rnd
      let rs := (cvtPlaces o.src.width o.t.width o.part.val).map fun (i, k) =>
        let v := decodeVal o.src (subElem (c.w.readV o.a.val l) o.src.width i)
        let (b, f) := encodeVal o.t mode o.sat (c.w.rand l k) v
        (k, b, f, v.isSNan)
      ⟨l, putCvt (c.w.readV o.d.val l) o.t.width (rs.map fun r => (r.1, r.2.1)),
        rs.foldl (fun f r => f ||| r.2.2.1) 0, rs.any fun r => r.2.2.2⟩)
    fun w rs => (w.writeRes o.d.val rs).tickGrain o.rnd

def execVfcvt (o : VCvt) (s : State) : Result := vfCvt s o
def execVfcvti (o : VCvt) (s : State) : Result := vfCvt s o
def execVicvtf (o : VCvt) (s : State) : Result := vfCvt s o

/-! ## FP64 by slices (R236, R237) -/

/-- The digit of slice j of x under exponent e, and its flags (R236). -/
def sliceDigit (x : Val) (e : Int) (j : Nat) : Int × Flags :=
  let sgn (neg : Bool) (n : Nat) : Int := if neg then -(n : Int) else (n : Int)
  match x with
  | .nan _ => (0, Flags.nv)
  | .inf neg => (sgn neg 127, Flags.of)
  | .fin neg n d =>
    match scaleVal (.fin false n d) (-e) with
    | .fin _ yn yd =>
      if yd ≤ yn then (sgn neg 127, Flags.of)
      else (sgn neg (yn * 2 ^ (7 * (j + 1)) / yd % 128), 0)
    | _ => (0, 0)

def execVfslice (g : Guard) (d a : VReg) (b : VSrc) (j p : Fin 8) (s : State) : Result :=
  fpLane s (vlen b) g d.val (.vr 0 d.val :: .vr 1 a.val :: useV 2 b) fun c l =>
    let x := decodeVal .f64 (c.w.readV a.val l).toNat
    let e := (c.w.srcV .i64 l b).toInt
    let (dig, f) := sliceDigit x e j.val
    ⟨l, setSub (c.w.readV d.val l) 8 p.val (natOf 8 dig), f, x.isSNan⟩

def execVfjoin (o : VTern) (s : State) : Result :=
  fpLane s (vlen o.b) o.g o.d.val (.vr 1 o.a.val :: .vr 3 o.c.val :: useV 2 o.b) fun c l =>
    let mode := c.w.mode o.rnd
    let y := decodeVal .f64 (c.w.readV o.c.val l).toNat
    let a := Val.ofInt (c.w.readV o.a.val l).toInt
    let b := (c.w.srcV .i64 l o.b).toInt
    packRes 64 l [fres .f64 mode o.sat (sumVals mode.isRdn [y, scaleVal a b]) [y]]

/-! ## The optimiser step (R238) -/

/-- Rd of R238: rounded to f32 under RNE. -/
def rd32 (x : Exact) : Val × Flags :=
  let (b, f) := encodeExact .f32 .rne false x
  (decodeVal .f32 b, f)

/-- The exact product of several factors, with the flags of each product. -/
def prodVals (xs : List Val) : Exact :=
  match xs with
  | [] => (.one, 0)
  | x :: xs => xs.foldl (fun a y => let p := mulVals a.1 y; (p.1, a.2 ||| p.2)) (x, 0)

/-- The exact sum of terms that carry flags of their own. -/
def sumExact (xs : List Exact) : Exact :=
  let r := sumVals false (xs.map Prod.fst)
  (r.1, xs.foldl (fun f x => f ||| x.2) r.2)

/-- One element of the step: the three results and the flags of every line. -/
def optmStep (b1 b2 eta eps lam w m u g : Val) : Val × Val × Val × Flags :=
  let one (b : Val) : Val := (addVals false .one b.neg).1
  let (m', f1) := rd32 (sumExact [prodVals [b1, m], prodVals [one b1, g]])
  let (u', f2) := rd32 (sumExact [prodVals [b2, u], prodVals [one b2, g, g]])
  let (r, f3) := rd32 (sqrtVal u')
  let (q, f4) := rd32 (addVals false r eps)
  let (d, f5) := rd32 (divVals m' q)
  let inner := sumExact [(d, 0), prodVals [lam, w]]
  let step := mulVals eta inner.1
  let (w', f6) := rd32 (sumExact [(w, 0), (step.1.neg, step.2 ||| inner.2)])
  (w', m', u', f1 ||| f2 ||| f3 ||| f4 ||| f5 ||| f6)

/-- The f32 pattern of a value that Rd produced. -/
def bits32 (x : Val) : Nat := (encodeVal .f32 .rne false 0 x).1

/-- Scalar register number n, for operands that span several. -/
def sregOf (n : Nat) : SReg := if h : n < 64 then .s ⟨n, h⟩ else .zero

def execVoptm (g : Guard) (d a : VReg) (sc : Fin 62) (s : State) : Result :=
  let dn := d.val
  issued s fun c =>
    let ls := c.lanes g
    let hyper (i hi : Nat) : Val :=
      decodeVal .f32 ((c.w.readS (sregOf (sc.val + i))).toNat / 2 ^ (32 * hi) % 2 ^ 32)
    let b1 := hyper 0 0
    let b2 := hyper 0 1
    let eta := hyper 1 0
    let eps := hyper 1 1
    let lam := hyper 2 0
    let rs := ls.map fun l =>
      let el (r k : Nat) : Val := decodeVal .f32 (subElem (c.w.readV r l) 32 k)
      let out := (List.range 2).map fun k =>
        (optmStep b1 b2 eta eps lam (el dn k) (el (dn + 1) k) (el (dn + 2) k) (el a.val k),
          [b1, b2, eta, eps, lam, el dn k, el (dn + 1) k, el (dn + 2) k, el a.val k].any Val.isSNan)
      (l, packSubs 32 (out.map fun x => bits32 x.1.1), packSubs 32 (out.map fun x => bits32 x.1.2.1),
        packSubs 32 (out.map fun x => bits32 x.1.2.2.1),
        out.foldl (fun f x => f ||| x.1.2.2.2) 0, out.any Prod.snd)
    let lr := rs.map fun (l, x, _, _, f, sn) => (⟨l, x, f, sn⟩ : LaneRes)
    let us := [.spec 2, .ff, .vr 1 a.val] ++ runUse (.vr 0) dn 3 ++
      (List.range 3).map fun i => Use.sr (sregOf (sc.val + i))
    check s c c.all (guardConds c g ++ useConds c ls us ++ fpCond c.w lr)
      (retire s c 8 (rs.foldl (fun w (l, x, y, z, f, _) =>
        (((w.writeV dn l x).writeV (dn + 1) l y).writeV (dn + 2) l z).orFf l f) c.w))

/-! ## Exact checksums (R239-R241) -/

/-- The 320-bit integer that an element adds, and its flags (R240). -/
def ckTerm (x : Val) : Int × Flags :=
  match x with
  | .nan _ => (0, Flags.nv)
  | .inf _ => (0, Flags.of)
  | .fin neg n d =>
    if d * 2 ^ 159 ≤ n then (0, Flags.of)
    else
      let z : Int := ((n * 2 ^ 160 / d : Nat) : Int)
      (if neg then -z else z, if n * 2 ^ 160 % d == 0 then 0 else Flags.nx)

def Wave.readCk (w : Wave) (n : Nat) : BitVec 320 := w.ck.get 0 n
def Wave.writeCk (w : Wave) (n : Nat) (x : BitVec 320) : Wave :=
  Wave.unmarkAll { w with ck := w.ck.set 0 n x } ((List.range 5).map (mkCk n))

def execVckadd (g : Guard) (ck : Fin 4) (a : VReg) (t : Ty) (neg : Bool) (s : State) : Result :=
  issued s fun c =>
    let ls := c.lanes g
    let terms := ls.map fun l => (l, (c.w.subsOf t a.val l).map fun x =>
      let v := decodeVal t x
      (ckTerm v, v.isSNan))
    let rs := terms.map fun (l, ts) =>
      (⟨l, 0, ts.foldl (fun f x => f ||| x.1.2) 0, ts.any Prod.snd⟩ : LaneRes)
    let sum : Int := terms.foldl (fun a (_, ts) => ts.foldl (fun a x => a + x.1.1) a) 0
    let q := c.w.readCk ck.val + BitVec.ofInt 320 (if neg then -sum else sum)
    check s c c.all
      (guardConds c g ++ useConds c ls [.spec 2, .ff, .vr 1 a.val, .ck ck.val] ++ fpCond c.w rs)
      (retire s c 8 ((c.w.writeCk ck.val q).orRes rs))

/-- The count of R241: the difference in units of the last place of the greater, saturated. -/
def ckCount (qa qb : BitVec 320) : Nat :=
  let diff := (qa - qb).toInt.natAbs
  let m := max qa.toInt.natAbs qb.toInt.natAbs
  let ulp := if m < 2 ^ 23 then 1 else 2 ^ (Nat.log2 m - 23)
  min ((diff + ulp - 1) / ulp) (2 ^ 64 - 1)

def execVcktst (d : SReg) (a b : Fin 4) (cc : SReg) (trap : Bool) (s : State) : Result :=
  waveOp s 8 [.sw d, .sr cc, .ck a.val, .ck b.val]
    (fun c => when (trap && (c.w.readS cc).toNat < ckCount (c.w.readCk a.val) (c.w.readCk b.val))
      (c.wide 17 (a.val * 2 ^ 62 + b.val * 2 ^ 60)))
    fun c => c.w.writeS d (word (ckCount (c.w.readCk a.val) (c.w.readCk b.val)))

end Sys2Proof.Machine
end

