-- ==== Sys2Proof/Machine/Block.lean ====
section
/-!
DEFINITION. Block-aware instructions 0x80-0x89 (R243-R256): slices as carriers of MX blocks, lanes as
carriers of AQ8 channels.
-/

namespace Sys2Proof.Machine

/-! ## Slices and runs (R27, R243) -/

/-- The lanes of a slice. -/
def lanesAt (j : Nat) : List Nat := [4 * j, 4 * j + 1, 4 * j + 2, 4 * j + 3]

/-- The slices whose four lanes are all active. -/
def fullSlices (ls : List Nat) : List Nat :=
  (List.range 8).filter fun j => (lanesAt j).all ls.contains

/-- Misaligned, origin 1, for the active lanes of a slice that is only partly active (R243). -/
def sliceCond (ls : List Nat) : Cause :=
  ⟨6, 2 ^ 56, ls.filter fun l => !(lanesAt (l / 4)).all ls.contains⟩

/-- Slice byte i of a register. -/
def sliceByte (w : Wave) (r j i : Nat) : Nat := subElem (w.readV r (4 * j + i / 8)) 8 (i % 8)

/-- The lane words that hold 32 slice bytes. -/
def sliceWords (r j : Nat) (bs : List Nat) : List (Nat × Nat × Word) :=
  (List.range 4).map fun q => (r, 4 * j + q, packSubs 8 ((List.range 8).map fun i => bs.getD (8 * q + i) 0))

/-- Value m of a run of values of a type in a slice. -/
def runVal (w : Wave) (t : Ty) (first j m : Nat) : Nat :=
  let v := 256 / t.width
  let e := 64 / t.width
  subElem (w.readV (first + m / v) (4 * j + m % v / e)) t.width (m % e)

/-- The words of a run that holds the listed values in a slice. -/
def runWords (t : Ty) (first j : Nat) (vs : List Nat) : List (Nat × Nat × Word) :=
  let v := 256 / t.width
  let e := 64 / t.width
  (List.range (vs.length / v)).flatMap fun i => (List.range 4).map fun q =>
    (first + i, 4 * j + q, packSubs t.width ((List.range e).map fun x => vs.getD (v * i + e * q + x) 0))

/-- Element i of block k of an MX type in a slice of a register (R27). -/
def regCode (w : Wave) (t : Ty) (r j k i : Nat) : Nat :=
  if t == .mxe2m1 then sliceByte w r j (16 * k + i / 2) / 2 ^ (4 * (i % 2)) % 16
  else if fmtSix (fmtCode t) then sliceByte w r j i % 64
  else sliceByte w r j i

/-- The 32 slice bytes of the blocks of a slice (R27). -/
def regBytes (t : Ty) (blocks : List (List Nat)) : List Nat :=
  if t == .mxe2m1 then
    blocks.flatMap fun cs => (List.range 16).map fun i =>
      cs.getD (2 * i) 0 % 16 + 16 * (cs.getD (2 * i + 1) 0 % 16)
  else (blocks.headD [])

/-- The sidecar scale of block k. -/
def sideScale (x : BitVec 16) (k : Nat) : Nat := x.toNat / 2 ^ (8 * k) % 256

/-- The sidecar that holds the scales of a slice's blocks; byte 1 is 0 for one block. -/
def sideOf (scales : List Nat) : BitVec 16 :=
  BitVec.ofNat 16 (scales.getD 0 0 % 256 + 256 * (scales.getD 1 0 % 256))

/-- The random value of element i of block k in a slice (R244). -/
def blockRand (w : Wave) (t : Ty) (j k i : Nat) : Nat :=
  let b := if t == .mxe2m1 then 16 * k + i / 2 else i
  let idx := word ((4 * j + b / 8) * 8 + b % 8) + 256#64 * w.grainctr
  srBits w.grain (if t == .mxe2m1 && i % 2 == 1 then idx + (1#64 <<< 63) else idx)

/-- What a slice of a block instruction produces: the flags of its lanes, words, and sidecars. -/
structure SliceRes where
  j     : Nat
  lanes : List LaneRes
  words : List (Nat × Nat × Word)
  side  : List (Nat × Nat × Nat)   -- register, byte, value
  deriving DecidableEq, Repr

/-- Write what a slice produced. -/
def putSlice (w : Wave) (r : SliceRes) : Wave :=
  let w := r.words.foldl (fun w (v, l, x) => w.writeV v l x) w
  r.side.foldl (fun w (v, k, x) => w.writeSideByte v r.j k x) w

/-- The shape of an instruction that acts on whole slices (R243, R252). -/
def blockOp (s : State) (len : Nat) (g : Guard) (us : List Use) (rnd : Rnd)
    (res : Issuer → Nat → SliceRes) : Result :=
  issued s fun c =>
    let ls := c.lanes g
    let rs := (fullSlices ls).map (res c)
    let fl := rs.flatMap SliceRes.lanes
    check s c c.all
      (guardConds c g ++ useConds c ls us ++ [sliceCond ls] ++ fpCond c.w fl)
      (retire s c len (((rs.foldl putSlice c.w).orRes fl).tickGrain rnd))

/-- The same flags in all four lanes of a slice. -/
def sliceFlags (j : Nat) (fl : Flags) (snan : Bool) : List LaneRes :=
  (lanesAt j).map fun l => ⟨l, 0, fl, snan⟩

/-! ## Maxima and scales (R247, R248) -/

def execBamax (g : Guard) (d a : VReg) (t : Ty) (s : State) : Result :=
  blockOp s 8 g (.vw 0 d.val :: runUse (.vr 1) a.val (runRegs t 1)) .rne fun c j =>
    let vs := (List.range 32).map fun m => decodeVal t (runVal c.w t a.val j m)
    let ((n, den), hasNan, hasInf) := blockAmax vs
    let x := word ((encodeVal .f32 .rne false 0 (.fin false n den)).1 + hasNan.toNat * 2 ^ 32
      + hasInf.toNat * 2 ^ 33)
    ⟨j, [], (lanesAt j).map fun l => (d.val, l, x), []⟩

/-- The scale that BSCALE chooses from a BAMAX word. -/
def scaleOfWord (x : Word) (t : Ty) (p : Policy) : Nat :=
  if x.getLsbD 32 || x.getLsbD 33 then 0xFF
  else match (decodeVal .f32 (x.toNat % 2 ^ 32)).abs with
    | .fin _ n d => if n == 0 then 0 else chooseScale n d t p
    | _ => 0xFF

def execBscale (g : Guard) (d a : VReg) (t : Ty) (policy : Policy) (byte1 : Bool) (s : State) : Result :=
  blockOp s 8 g [.vw 0 d.val, .lead 1 a.val] .rne fun c j =>
    let sc := scaleOfWord (c.w.readV a.val (4 * j)) t policy
    ⟨j, [], [], if t != .mxe2m1 then [(d.val, 0, sc), (d.val, 1, 0)] else [(d.val, b2n byte1, sc)]⟩

/-! ## Quantising and dequantising (R249-R251) -/

/-- How BQUANT and BRESCALE find the scale of block k. -/
def scaleSrc (o : QuantOp) (side : BitVec 16) (k : Nat) : ScaleSrc :=
  if o.auto then .choose o.policy else .given (sideScale side k)

/-- Quantise the blocks of a slice into D and its sidecar. -/
def quantSlice (c : Issuer) (o : QuantOp) (j : Nat) (blocks : List (List Val)) : SliceRes :=
  let mode := c.w.mode o.rnd
  let old := c.w.readSide o.d.val j
  let qs := blocks.zipIdx.map fun (vs, k) =>
    quantBlock o.t (scaleSrc o old k) mode (blockRand c.w o.t j k) vs
  let fl := qs.foldl (fun f q => f ||| q.2.2) 0
  let snan := blocks.any fun vs => vs.any Val.isSNan
  ⟨j, sliceFlags j fl snan, sliceWords o.d.val j (regBytes o.t (qs.map fun q => q.2.1)),
    (List.range 2).map fun k => (o.d.val, k, (qs.map Prod.fst).getD k 0)⟩

/-- The sidecar bytes that hold the scales of a type's blocks in a register. -/
def scaleUses (t : Ty) (r : Nat) : List Use := (List.range t.blocks).map (Use.sideB r)

/-- What BQUANT and BRESCALE read beside their source. -/
def quantUses (o : QuantOp) : List Use :=
  [.spec 2, .ff, .vw 0 o.d.val] ++ srUse o.rnd ++ (if o.auto then [] else scaleUses o.t o.d.val)

def execBquant (o : QuantOp) (s : State) : Result :=
  blockOp s 8 o.g (quantUses o ++ runUse (.vr 1) o.a.val (runRegs o.src o.t.blocks)) o.rnd fun c j =>
    quantSlice c o j ((List.range o.t.blocks).map fun k =>
      (List.range 32).map fun i => decodeVal o.src (runVal c.w o.src o.a.val j (32 * k + i)))

def execBrescale (o : QuantOp) (s : State) : Result :=
  blockOp s 8 o.g (quantUses o ++ .vr 1 o.a.val :: scaleUses o.src o.a.val) o.rnd fun c j =>
    let side := c.w.readSide o.a.val j
    quantSlice c o j ((List.range o.src.blocks).map fun k =>
      (List.range 32).map fun i => blockElem o.src (sideScale side k) (regCode c.w o.src o.a.val j k i))

def execBdeq (g : Guard) (d a : VReg) (t src : Ty) (rnd : Rnd) (sat : Bool) (s : State) : Result :=
  blockOp s 8 g ([.spec 2, .ff, .vr 1 a.val] ++ scaleUses src a.val ++ runUse (.vw 0) d.val (runRegs t src.blocks)) rnd
    fun c j =>
      let mode := c.w.mode rnd
      let side := c.w.readSide a.val j
      let vs := (List.range (32 * src.blocks)).map fun m =>
        let v := blockElem src (sideScale side (m / 32)) (regCode c.w src a.val j (m / 32) (m % 32))
        (encodeVal t mode sat 0 v, v.isSNan)
      let fl := vs.zipIdx.map fun ((x, sn), m) =>
        (⟨4 * j + m % (256 / t.width) / (64 / t.width), 0, x.2, sn⟩ : LaneRes)
      ⟨j, fl, runWords t d.val j (vs.map fun x => x.1.1), []⟩

/-! ## Sidecar moves (R253) -/

/-- SCGET reads the sidecar of vA alone, not its data words. -/
def execScget (g : Guard) (d a : VReg) (s : State) : Result :=
  laneOp s 8 g [.vw 0 d.val, .vw 1 a.val, .side a.val] noMore fun c ls =>
    c.w.writeLanes d.val ls fun l => (c.w.readSide a.val (l / 4)).setWidth 64

/-- A V source of which lane 4j of each slice is read. -/
def leadV (f : Nat) : VSrc → List Use
  | .reg v => [.lead f v.val]
  | .lit _ => []

def execScset (g : Guard) (d : VReg) (b : VSrc) (lo hi : Bool) (s : State) : Result :=
  blockOp s (vlen b) g (.vw 0 d.val :: leadV 2 b) .rne fun c j =>
    let x := match b with
      | .reg r => field (c.w.readV r.val (4 * j)) 15 0
      | .lit k => k.toNat % 2 ^ 16
    let part (sel : Bool) (k : Nat) : List (Nat × Nat × Nat) := if sel then [(d.val, k, x / 2 ^ (8 * k) % 256)] else []
    ⟨j, [], [], part lo 0 ++ part hi 1⟩

/-! ## Asymmetric codes (R254-R256) -/

def execAqparm (g : Guard) (d a : VReg) (s : State) : Result :=
  fpLane s 8 g d.val [.vr 1 a.val] fun c l =>
    let x := decodeVal .f32 (subElem (c.w.readV a.val l) 32 0)
    let y := decodeVal .f32 (subElem (c.w.readV a.val l) 32 1)
    let (mn, mx) := if !x.isNan && !y.isNan && y.lt x then (y, x) else (x, y)
    let (wd, f) := aqChannel mn mx
    ⟨l, wd, f, x.isSNan || y.isSNan⟩

/-- One code of AQUANT (R255). -/
def aqCode (x : Val) (wd : Word) (mode : Mode) (r : Nat) : Nat × Flags :=
  let cs := aqScale wd
  if x.isNan || cs.isNan then (0, Flags.nv)
  else match (divVals x cs).1 with
    | .nan _ => (0, Flags.nv)
    | .inf neg => (if neg then 0 else 255, Flags.of)
    | y => encodeVal .aq8 mode true r (addVals mode.isRdn y (.ofNat (aqZp wd))).1

def execAquant (g : Guard) (d a b : VReg) (rnd : Rnd) (part : Fin 4) (s : State) : Result :=
  fpOp s 8 g ([.vw 0 d.val, .vr 0 d.val, .vr 1 a.val, .vr 2 b.val] ++ srUse rnd) noMore
    (fun c l =>
      let mode := c.w.mode rnd
      let wd := c.w.readV b.val l
      let rs := (List.range 2).map fun k =>
        let x := decodeVal .f32 (subElem (c.w.readV a.val l) 32 k)
        (aqCode x wd mode (c.w.rand l (2 * part.val + k)), x.isSNan || (aqScale wd).isSNan)
      ⟨l, putCvt (c.w.readV d.val l) 8 (rs.zipIdx.map fun (r, k) => (2 * part.val + k, r.1.1)),
        rs.foldl (fun f r => f ||| r.1.2) 0, rs.any Prod.snd⟩)
    fun w rs => (w.writeRes d.val rs).tickGrain rnd

/-- ADEQ (R256). DESIGN CHOICE (log entry 62): an infinite CS with q ≠ ZP under `.sat` gives what Encode gives, ±max with
OF (R35), and not the infinity of R256's last sentences. -/
def execAdeq (g : Guard) (d a b : VReg) (rnd : Rnd) (sat : Bool) (part : Fin 4) (s : State) : Result :=
  fpLane s 8 g d.val [.vr 1 a.val, .vr 2 b.val] fun c l =>
    let mode := c.w.mode rnd
    let wd := c.w.readV b.val l
    packRes 32 l ((List.range 2).map fun k =>
      fres .f32 mode sat (aqDecode wd (subElem (c.w.readV a.val l) 8 (2 * part.val + k)))
        [aqScale wd])

end Sys2Proof.Machine
end

