-- ==== Sys2Proof/Machine/Access.lean ====
section
/-!
DEFINITION. What every memory instruction does before it performs an access: addresses in the three spaces
(R119), translation of each lane (R111, R112), the storage reached and its owner bits (R86, R121, R123),
poison (R98), and the accesses that are performed within the instruction.
-/

namespace Sys2Proof.Machine

/-- One access of a lane: the lane, the address (a VA, or an offset in `.l` or `.c`) and its bytes. -/
structure Acc where
  lane : Nat
  addr : Nat
  n    : Nat
  deriving DecidableEq, Repr

/-- A part of an access that lies within one 4 KiB page, with its translation. -/
structure Piece where
  va  : Nat
  len : Nat
  tr  : Trans
  deriving DecidableEq, Repr

/-- An address split at page boundaries. -/
def pageParts (va n : Nat) : Nat → List (Nat × Nat)
  | 0 => []
  | fuel + 1 =>
    if n == 0 then []
    else
      let k := min n (4096 - va % 4096)
      (va, k) :: pageParts (va + k) (n - k) fuel

/-- The pages of n bytes. -/
def pagesOf (va n : Nat) : List (Nat × Nat) := pageParts va n (n / 4096 + 2)

/-- %tinfo of a translation cause (R388): LEVEL, access kind and VA[56:12]. -/
def transInfo (level : Nat) (kind : AKind) (va : Nat) : Nat :=
  level * 2 ^ 61 + kind.code * 2 ^ 59 + bitsOf va 56 12 * 2 ^ 14

/-- What resolving one access ends in: its pieces, the conditions it meets, or a walk it waits for. -/
inductive AccRes where
  | ok (ps : List Piece)
  | lacks (ks : List Cause)
  | pending (va : Nat)
  deriving DecidableEq, Repr

/-- Answers of host-assisted walks that the issuing wave holds. -/
def Issuer.answers (c : Issuer) : List Answer := c.w.answers

/-- Translate the pages of one `.g` access in ascending order; the first that fails decides (R112). DESIGN CHOICE (log
entry 62): %tinfo reports the page that failed, where that is the second one too. -/
def translateParts (c : Issuer) (kind : AKind) (lane : Nat) :
    List (Nat × Nat) → List Piece → State → State × AccRes
  | [], acc, s => (s, .ok acc.reverse)
  | (va, k) :: rest, acc, s =>
    match translateCore s c.g.die c.g.phys c.g.asid va kind c.answers with
    | (s, .ok t) => translateParts c kind lane rest (⟨va, k, t⟩ :: acc) s
    | (s, .fail cause level) => (s, .lacks [⟨cause, transInfo level kind va, [lane]⟩])
    | (s, .poison) => (s, .lacks [⟨18, 0, [lane]⟩])
    | (s, .pending) => (s, .pending va)

/-- A translation that is a placement of the core's own storage. -/
def ownTrans (pa : Nat) : Trans := ⟨pa, 0, 0, none⟩

/-- PA of a `.l` offset of a group (R119, R120). -/
def spadPa (g : Group) (off : Nat) : Nat := windowPa g.die g.phys (winSpad + 4096 * g.spadBase + off)
/-- PA of a `.c` offset of a group (R204). -/
def commonPa (g : Group) (off : Nat) : Nat := windowPa g.die g.phys (winCommon + 512 * g.cset + off)

/-- The conditions of the storage that a piece of an n-byte access reaches (R86, R121, R123). -/
def pieceConds (s : State) (kind : AKind) (lane n : Nat) (p : Piece) : List Cause :=
  match regionOf (resolvePa s p.tr.pa) with
  | .window die phys off =>
    match winRange off with
    | .spad =>
      let tile := (off - winSpad) / 4096
      if ownerFails s die phys tile then [⟨18, 2 * 2 ^ 60, [lane]⟩]
      else when (ownedByEngine s die phys tile) ⟨10, tile * 2 ^ 55, [lane]⟩
    | .common => when (n != 8 || p.len != 8 || off % 8 != 0) ⟨6, 0, [lane]⟩
    | _ => [⟨8, transInfo 6 kind p.va, [lane]⟩]
  | .device _ => [⟨8, transInfo 6 kind p.va, [lane]⟩]
  | _ => []

/-- The group that holds a common-register set of a core. -/
def commonGroup (s : State) (die phys cset : Nat) : Option Group :=
  s.groups.find? fun g => g.die == die && g.phys == phys && g.cset == cset

/-- A common register read through a PA carries a failing residue (R211). -/
def commonMarked (s : State) (pa : Nat) : Bool :=
  match regionOf pa with
  | .window die phys off =>
    if winRange off = .common then
      match commonGroup s die phys ((off - winCommon) / 512) with
      | some g => g.marks.get false (gmCommon (off % 512 / 8))
      | none => false
    else false
  | _ => false

/-- The source of Uncorrectable Data that reading a piece of this package's memory meets: a poisoned line
or a failing residue (R98, R213). -/
def readBad (s : State) (p : Piece) : Option Nat :=
  match regionOf (resolvePa s p.tr.pa) with
  | .pod _ _ => none
  | .host _ => none
  | _ =>
    if poisonedRun s p.tr.pa p.len then some 0
    else if commonMarked s p.tr.pa then some 1
    else none

/-- A piece lies beyond the package. -/
def isRemote (s : State) (p : Piece) : Bool :=
  match regionOf (resolvePa s p.tr.pa) with
  | .pod _ _ => true
  | .host _ => true
  | _ => false

/-- Register Bound, origin 4: bytes of a `.l` or `.c` access beyond the allotment (R119, R207). -/
def allotCond (c : Issuer) (sp : Space) (a : Acc) : List Cause :=
  match sp with
  | .l => when (4096 * c.g.tiles < a.addr + a.n) ⟨3, 4 * 2 ^ 56, [a.lane]⟩
  | .c => when (8 * c.g.common < a.addr + a.n) ⟨3, 4 * 2 ^ 56, [a.lane]⟩
  | .g => []

/-- Resolve one access in a space: allotment, alignment of `.c`, translation, then the storage reached. -/
def resolveAcc (s : State) (c : Issuer) (sp : Space) (kind : AKind) (a : Acc) : State × AccRes :=
  let own (pa : Nat) (ks : List Cause) : AccRes :=
    if ks.isEmpty then
      let ps := (pagesOf a.addr a.n).map fun (va, k) => (⟨va, k, ownTrans (pa + (va - a.addr))⟩ : Piece)
      let ks := ps.flatMap (pieceConds s kind a.lane a.n)
      if ks.isEmpty then .ok ps else .lacks ks
    else .lacks ks
  match sp with
  | .l =>
    (s, own (spadPa c.g a.addr) (allotCond c sp a))
  | .c =>
    (s, own (commonPa c.g a.addr)
      (allotCond c sp a ++ when (a.n != 8 || a.addr % 8 != 0) ⟨6, 0, [a.lane]⟩))
  | .g =>
    match translateParts c kind a.lane (pagesOf a.addr a.n) [] s with
    | (s, .ok ps) =>
      let ks := ps.flatMap (pieceConds s kind a.lane a.n)
      (s, if ks.isEmpty then .ok ps else .lacks ks)
    | r => r

/-- Uncorrectable Data of a resolved read. -/
def poisonConds (s : State) (lane : Nat) (ps : List Piece) : List Cause :=
  ps.flatMap fun p => match readBad s p with
    | some src => [⟨18, src * 2 ^ 60, [lane]⟩]
    | none => []

/-- A package that does not exist answers at once with an error (R318): source 4 at issue. -/
def absentConds (s : State) (lane : Nat) (ps : List Piece) : List Cause :=
  ps.flatMap fun p => match regionOf (resolvePa s p.tr.pa) with
    | .pod pkg _ => when (s.regs.mode == 0 || s.regs.npkg ≤ pkg) ⟨18, 4 * 2 ^ 60, [lane]⟩
    | _ => []

/-- The answered read beyond the package that holds the byte of a PA. -/
def farHit (l : List FarReq) (pa : Nat) : Option FarReq :=
  l.find? fun r => !r.write && r.pa ≤ pa && pa < r.pa + r.len

/-- The bytes that an access reads: storage of this package, or what came in the answers from beyond it, as their homes
gave them (R307). -/
def farRun (s : State) (l : List FarReq) (pa n : Nat) : List Byte :=
  match l with
  | [] => readRun s pa n
  | l => (List.range n).map fun i => match farHit l (pa + i) with
    | some r => r.data.getD (pa + i - r.pa) 0
    | none => readPa s (pa + i)

/-- The metadata of the line that a read finds. -/
def farLine (s : State) (l : List FarReq) (pa : Nat) : Line :=
  match farHit l pa with
  | some r => r.line
  | none => lineAt s pa

/-- A read beyond the package that has brought no line: its request ended with the error response (R318). -/
def farEmpty (l : List FarReq) (pa : Nat) : Bool := match farHit l pa with
  | some r => r.data.isEmpty
  | none => false

/-- The source of Uncorrectable Data of an answered access beyond the package that touches a piece. -/
def farBad (l : List FarReq) (p : Piece) : Option Nat :=
  l.findSome? fun r =>
    if r.pa < p.tr.pa + p.len && p.tr.pa < r.pa + r.len then
      (match r.res with
        | .bad src => some src
        | _ => none)
    else none

/-- Uncorrectable Data of a resolved access that is not counted on L or S: what reading this package's memory meets,
a package that does not exist, and the answers that the wave holds from beyond the package (R98, R318, R335). -/
def directConds (s : State) (c : Issuer) (read : Bool) (lane : Nat) (ps : List Piece) : List Cause :=
  (if read then poisonConds s lane ps else []) ++ absentConds s lane ps ++
    ps.flatMap fun p => match farBad c.w.far p with
      | some src => [⟨18, src * 2 ^ 60, [lane]⟩]
      | none => []

/-- The accesses of an instruction, resolved in lane order. -/
structure AccSum where
  s     : State
  oks   : List (Acc × List Piece)
  lacks : List Cause
  pend  : List Nat
  deriving DecidableEq, Repr

/-- Resolve every access of an instruction (R111). -/
def resolveAll (s : State) (c : Issuer) (sp : Space) (kind : AKind) (as : List Acc) : AccSum :=
  as.foldl (fun t a =>
    match resolveAcc t.s c sp kind a with
    | (s, .ok ps) => { t with s := s, oks := t.oks ++ [(a, ps)] }
    | (s, .lacks ks) => { t with s := s, lacks := t.lacks ++ ks }
    | (s, .pending va) => { t with s := s, pend := t.pend ++ [va] }) ⟨s, [], [], []⟩

/-- The lanes that have met no condition so far. -/
def freeLanes (lanes : List Nat) (ks : List Cause) : List Nat :=
  lanes.filter fun l => (ownCause ks l).isNone

/-- Walk requests of an asker for some addresses, one per page and kind; those of another die or address space are others'
(R118). -/
def addWalks (s : State) (die : Nat) (who : Asker) (asid : Nat) (kind : AKind) (vas : List Nat) : State :=
  let new := (dedup (vas.map fun va => va / 4096)).filter fun v =>
    !s.walks.any fun r => r.die == die && r.who == who && r.asid == asid && r.va / 4096 == v && r.kind == kind.code
  let reqs := new.map fun v => (⟨die, who, asid,
    (vas.find? fun va => va / 4096 == v).getD (4096 * v), kind.code, none⟩ : WalkReq)
  { s with walks := s.walks ++ reqs }

/-- A walk of an engine's is pending: its unit waits (R118). A walk keeps the mode in which it was asked for, whatever TRCTL
says since (R115). -/
def unitWalks (s : State) (key : Nat) : Bool := s.walks.any fun r => r.who == .unit key

/-- A walk of a wave's is pending. -/
def waveWalks (s : State) (gid w : Nat) : Bool := s.walks.any fun r => r.who == .wave gid w

/-- Ask for the walks that an access waits for, and hold the gang (R111, R118). -/
def awaitWalks (s : State) (c : Issuer) (kind : AKind) (vas : List Nat) : State :=
  holdAt (addWalks s c.g.die (.wave c.ref.gid c.ref.wave) c.g.asid kind vas) c .walk

/-- What was fetched for the issuing wave has served its access. -/
def dropAnswers (s : State) (c : Issuer) : State := modWave s c.ref.gid c.ref.wave Wave.served

/-- The wave has written a common register that one of the pieces reads, and the write is not yet
performed (R305). -/
def commonWait (s : State) (c : Issuer) (ps : List Piece) : Bool :=
  ps.any fun p => s.commons.any fun k =>
    k.gid == c.ref.gid && k.wave == c.ref.wave && windowPa k.die k.phys k.addr == p.tr.pa

/-- Whose access an instruction makes: each lane its own, each slice one for its lanes, or the wave one
that concerns every lane (R389). -/
inductive Reach where
  | lane | slice | wave
  deriving DecidableEq, Repr

/-- The lanes that a condition met by an access concerns. -/
def widen (c : Issuer) (r : Reach) (ks : List Cause) : List Cause :=
  match r with
  | .lane => ks
  | .slice => ks.map fun k => { k with lanes := c.all.filter fun l => k.lanes.any fun m => m / 4 == l / 4 }
  | .wave => ks.map fun k => { k with lanes := c.all }

/-- A memory instruction behind its register checks `pre`: the accesses of the lanes that pass them are
resolved, and the others' are held against their allotment alone; a walk is awaited; the conditions are
reported; or `go` performs. -/
def accessOp (s : State) (c : Issuer) (reach : Reach) (pre : List Cause) (sp : Space) (kind : AKind)
    (as : List Acc) (more : AccSum → List Cause) (go : AccSum → State) : State :=
  let free := freeLanes c.all pre
  let (good, bad) := as.partition fun a => free.contains a.lane
  let pre := pre ++ widen c reach (bad.flatMap (allotCond c sp))
  let t := resolveAll s c sp kind good
  if !t.pend.isEmpty then awaitWalks t.s c kind t.pend
  else
    let s := dropAnswers t.s c
    match report c.all (pre ++ widen c reach (t.lacks ++ more t)) with
    | some r => takeTrap s c r c.pc
    | none =>
      if kind != .write && commonWait s c (t.oks.flatMap Prod.snd) then holdAt s c .common
      else go { t with s := s }

/-! ## Performing -/

/-- Another core that holds a line gives it up (R122). -/
def recallL1 (s : State) (die phys pa : Nat) : State :=
  match regionOf (resolvePa s pa) with
  | .hbm off => { s with l1 := s.l1.filter fun l =>
      l.pa != off / 128 || (l.die == die && l.phys == phys) }
  | _ => s

/-- Another core that owns a line which is read gives it up (R122). -/
def recallOwned (s : State) (die phys pa : Nat) : State :=
  match regionOf (resolvePa s pa) with
  | .hbm off => { s with l1 := s.l1.filter fun l =>
      l.pa != off / 128 || !l.owned || (l.die == die && l.phys == phys) }
  | _ => s

/-- What performing an access through a piece does to the translation and the L1: D is set by a write
(R107), the lines are filled (R110). -/
def touchPiece (c : Issuer) (write : Bool) (s : State) (p : Piece) : State :=
  let s := if write then setDirty s c.g.die c.g.asid p.va p.tr else s
  (List.range (p.len / 128 + 2)).foldl (fun s i =>
    let va := (p.va / 128 + i) * 128
    if p.va + p.len ≤ va then s
    else
      let va := max va p.va
      let t := { p.tr with pa := p.tr.pa + (va - p.va) }
      let s := if write then recallL1 s c.g.die c.g.phys t.pa else recallOwned s c.g.die c.g.phys t.pa
      fillL1 s c.g.die c.g.phys c.g.asid va t write) s

def touch (s : State) (c : Issuer) (write : Bool) (ps : List Piece) : State :=
  ps.foldl (touchPiece c write) s

/-- The PAs of an access, byte by byte. -/
def pasOf (ps : List Piece) : List Nat := ps.flatMap fun p => (List.range p.len).map fun i => p.tr.pa + i

/-- The bytes that an access reads, with the answers that its wave holds from beyond the package. -/
def readPieces (s : State) (l : List FarReq) (ps : List Piece) : List Byte :=
  ps.flatMap fun p => farRun s l p.tr.pa p.len

/-- The bytes of an access with their PAs. -/
def writesOf (ps : List Piece) (bs : List Byte) : List (Nat × Byte) := (pasOf ps).zip bs

/-- A piece lies in a common-register range. -/
def isCommon (p : Piece) : Bool :=
  match regionOf p.tr.pa with
  | .window _ _ off => decide (winRange off = .common)
  | _ => false

/-- The core cycle of the next turn: four steps stand for the four instructions that a core issues in one cycle (R382; log
entry 59). -/
def cycleOf (s : State) : Nat := s.ticks / 4

/-- The core cycle in which the instruction in hand issues: its turn has advanced the machine's time by one step already. -/
def issueCycle (s : State) : Nat := (s.ticks - 1) / 4

/-- A wave's writes to common registers have been performed (R305). -/
def commonsDone (s : State) (gid wave : Nat) : Bool :=
  !s.commons.any fun k => k.gid == gid && k.wave == wave

/-- Queue a common-register write, performed in the third cycle after its issue (R305). -/
def queueCommon (s : State) (c : Issuer) (pa : Nat) (x : Word) : State :=
  match regionOf pa with
  | .window die phys off =>
    { s with commons := s.commons ++ [⟨die, phys, off, x, c.ref.gid, c.ref.wave, c.w.slot, issueCycle s⟩] }
  | _ => s

/-- The last host address that some pieces write (R312). -/
def hostWritten (s : State) (ps : List Piece) : Option Nat :=
  (ps.filterMap fun p => match regionOf (resolvePa s p.tr.pa) with
    | .host addr => some (addr + p.len - 1)
    | _ => none).getLast?

/-- Remember a write to host memory for FENCE.sys (R312). -/
def noteHost (s : State) (c : Issuer) (ps : List Piece) : State :=
  match hostWritten s ps with
  | some a => modWave s c.ref.gid c.ref.wave fun w => { w with hostWrote := some a }
  | none => s

/-- Retire the issuing gang in a state whose wave record may have changed. -/
def retireNow (s : State) (c : Issuer) (len : Nat) (f : Wave → Wave) : State :=
  modWave s c.ref.gid c.ref.wave fun w => (f w).step c len

end Sys2Proof.Machine
end

