-- ==== Sys2Proof/Machine/Remote.lean ====
section
/-!
DEFINITION. Requests to other packages and to the host (R318-R320, R335): their flows, and what an answer
does to the instruction that waits for it.
-/

namespace Sys2Proof.Machine

/-- Sequence numbers are compared modulo 2^24 (R320). -/
def seqNext (n : Nat) : Nat := (n + 1) % 2 ^ 24

/-- The flows between this package and another; none sent yet. -/
def Flow.fresh (pkg : Nat) : Flow := ⟨pkg, 0, [], 0, [], 0⟩

def flowOf (s : State) (pkg : Nat) : Flow := (s.flows.find? fun f => f.pkg == pkg).getD (Flow.fresh pkg)

/-- Put the flows with a package. -/
def setFlow (s : State) (f : Flow) : State :=
  if s.flows.any fun g => g.pkg == f.pkg then
    { s with flows := s.flows.map fun g => if g.pkg == f.pkg then f else g }
  else { s with flows := s.flows ++ [f] }

/-- The version that packets are stamped with (R321, R324). -/
def stampVer (s : State) : Nat := if s.regs.mode == 1 then s.regs.ver else 0

/-- Put a packet on the fabric by a port. -/
def toWire (s : State) (port : Nat) (p : Packet) : State := { s with wire := s.wire ++ [(port, p)] }

def portOf (s : State) (k : Nat) : Port := s.ports.getD k Port.reset

/-- The ports that are up. -/
def upPorts (s : State) : List Nat := (List.range 18).filter fun k => (portOf s k).state == 2

/-- The port that the current table gives a package (R321); `none` where it is unreachable. -/
def routeOf (s : State) (pkg : Nat) : Option Nat :=
  let e := (s.regs.rtCur.get 0xFF pkg).toNat
  if e < 18 then some e else none

/-- The output port for a package: by the table in mesh mode; in switched mode the flows are spread over the up ports
by destination (R321, R324). -/
def portFor (s : State) (pkg : Nat) : Option Nat :=
  let up := upPorts s
  if s.regs.mode == 2 then (if up.isEmpty then none else up[pkg % up.length]?)
  else if s.regs.mode == 1 then (routeOf s pkg).filter fun k => up.contains k
  else none

/-- An up port reaches a package (R321, R324). -/
def reachable (s : State) (pkg : Nat) : Bool := (portFor s pkg).isSome

/-- Inject a packet for a package; without a route it stays in its sender's buffer (R321). -/
def inject (s : State) (pkg : Nat) (p : Packet) : State :=
  match portFor s pkg with
  | some k => toWire s k p
  | none => s

/-- Requests and responses in the retry buffers (R319). -/
def retryCount (s : State) : Nat :=
  s.flows.foldl (fun n f => n + f.unacked.length + f.held.length) 0

/-- A further remote request finds a slot (R319). -/
def remoteRoom (s : State) (n : Nat) : Bool := retryCount s + n ≤ 8192

/-- A request as a packet (R320): the messages of collectives have their own form. -/
def requestPacket (s : State) (pkg seq : Nat) : PodReq → Packet
  | .collective id m => .collective s.regs.pkgId pkg seq (stampVer s) id m
  | r => .request s.regs.pkgId pkg seq (stampVer s) r

/-- Send a request to another package and keep it until it is acknowledged (R320). -/
def sendPod (s : State) (pkg : Nat) (r : PodReq) : State × Nat :=
  let f := flowOf s pkg
  let id := s.nextReq
  let s := setFlow { s with nextReq := id + 1 }
    { f with next := seqNext f.next, unacked := f.unacked ++ [(f.next, id, r)] }
  (inject s pkg (requestPacket s pkg f.next r), id)

/-- A posted write to host memory (R308): the package's image of it follows, and no earlier request's completion
brings older bytes back. -/
def postHost (s : State) (addr : Nat) (bs : List Byte) : State :=
  let at_ := (List.range bs.length).map (addr + ·)
  let laterOf (a n : Nat) (o : List Nat) : List Nat := o ++ at_.filter fun x => a ≤ x && x < a + n
  let note : HostReq → HostReq
    | .read id a n o => .read id a n (laterOf a n o)
    | .atomic id a n op v cmp o => .atomic id a n op v cmp (laterOf a n o)
    | q => q
  toHost (storeBytes { s with hostq := s.hostq.map note } (atRun (2 ^ 51 + addr) bs)) (.write addr bs)

/-- Send a non-posted request to the host. -/
def sendHost (s : State) (q : Nat → HostReq) (m : Nat → HostMsg) : State × Nat :=
  let id := s.nextReq
  (toHost { s with nextReq := id + 1, hostq := s.hostq ++ [q id] } (m id), id)

/-! ## What an answer does -/

/-- Change every wave's outstanding entries. -/
def modWaves (s : State) (f : Wave → Wave) : State :=
  { s with groups := s.groups.map fun g => { g with waves := g.waves.map f } }

/-- Overwrite n bytes of a list from a place. -/
def patch (bs : List Byte) (at_ : Nat) (new : List Byte) : List Byte :=
  bs.take at_ ++ new ++ bs.drop (at_ + new.length)

/-- Bytes of an answer enter the element that waits for them. -/
def Elem.fill (req : Nat) (bytes : List Byte) (e : Elem) : Elem :=
  let mine := e.waits.filter fun w => w.1 == req
  { e with
      bytes := mine.foldl (fun bs (_, at_, src, n) => patch bs at_ ((bytes.drop src).take n)) e.bytes
      waits := e.waits.filter fun w => w.1 != req }

/-- Bytes that an answer brings, from a PA on, with the metadata of their line. -/
structure FarData where
  pa    : Nat
  bytes : List Byte
  line  : Line
  deriving DecidableEq, Repr

/-- An access beyond the package that is not counted has its answer; a read keeps what its home gave (R307). -/
def FarReq.settle (req : Nat) (r : FarRes) (ds : List FarData) (f : FarReq) : FarReq :=
  if f.req != req then f
  else match ds.find? fun d => d.pa ≤ f.pa && f.pa < d.pa + d.bytes.length with
    | some d => { f with res := r, data := (d.bytes.drop (f.pa - d.pa)).take f.len, line := d.line }
    | none => { f with res := r }

/-- An answer reaches the waves and the engines that made their request for themselves. -/
def answerFar (s : State) (req : Nat) (r : FarRes) (ds : List FarData) : State :=
  let all (l : List FarReq) : List FarReq := l.map (FarReq.settle req r ds)
  let s := modWaves s fun w => { w with far := all w.far, farM := all w.farM }
  { s with unitFar := s.unitFar.map fun e => (e.1, all e.2) }

/-- An answered read or atomic: the bytes, and the flags that a float atomic raises. -/
def answerRead (s : State) (req : Nat) (bytes : List Byte) (fl : Flags) (ds : List FarData) : State :=
  let one (e : LEntry) : LEntry :=
    { e with elems := e.elems.map (Elem.fill req bytes)
             ff := e.ff ++ (e.elems.filter fun x => x.waits.any fun w => w.1 == req).map
               fun x => (x.lane, fl) }
  answerFar (modWaves s fun w => { w with lq := w.lq.map one }) req .done ds

/-- An acknowledged write, or a reduction: its flags join its lane as it is performed (R139). -/
def answerWrite (s : State) (req : Nat) (fl : Flags) : State :=
  let one (w : Wave) (e : SEntry) : Wave :=
    (e.waits.filter fun x => x.1 == req).foldl (fun w x => w.orFf x.2 fl) w
  let drop (e : SEntry) : SEntry := { e with waits := e.waits.filter fun w => w.1 != req }
  answerFar (modWaves s fun w => { w.sq.foldl one w with sq := w.sq.map drop }) req .done []

/-- A request that ended with an error: its lanes meet Uncorrectable Data, with the source of R388. A poisoned answer still
carries its line with the metadata (R98, R319). -/
def answerBad (s : State) (req src : Nat) (ds : List FarData) : State :=
  let oneL (e : LEntry) : LEntry :=
    let hit := e.elems.filter fun x => x.waits.any fun w => w.1 == req
    if hit.isEmpty then e
    else { e with elems := e.elems.map (Elem.fill req []), bad := e.bad ++ hit.map Elem.lane, src := src }
  let oneS (e : SEntry) : SEntry :=
    let hit := e.waits.filter fun w => w.1 == req
    if hit.isEmpty then e
    else { e with waits := e.waits.filter fun w => w.1 != req, bad := e.bad ++ hit.map Prod.snd, src := src }
  answerFar (modWaves s fun w => { w with lq := w.lq.map oneL, sq := w.sq.map oneS }) req (.bad src) ds

/-! ## Splitting an access into requests (R303) -/

/-- Runs of a piece that do not cross a boundary of 2^k bytes: first byte within the piece, bytes. -/
def granules (k pa len : Nat) : Nat → List (Nat × Nat)
  | 0 => []
  | fuel + 1 =>
    if len == 0 then []
    else
      let n := min len (2 ^ k - pa % 2 ^ k)
      (0, n) :: (granules k (pa + n) (len - n) fuel).map fun (o, m) => (o + n, m)

/-- The reads beyond the package that a load makes: the state, the requests made so far by the PA and length of what they
read, the waits of the element in hand, and its next byte. -/
structure ReadAsk where
  s     : State
  asked : List (Nat × Nat × Nat)
  ws    : List (Nat × Nat × Nat × Nat)
  at_   : Nat
  deriving DecidableEq, Repr

/-- One read of n bytes from a PA beyond the package, `o` bytes into its piece, which come `src` bytes into its answer. Lanes
of one load that name the same location share its request, so that each gets the same value (R131). -/
def ReadAsk.need (x : ReadAsk) (pa n o src : Nat) (send : State → State × Nat) : ReadAsk :=
  match x.asked.find? fun k => k.1 == pa && k.2.1 == n with
  | some k => { x with ws := x.ws ++ [(k.2.2, x.at_ + o, src, n)] }
  | none =>
    let (s, id) := send x.s
    { x with s := s, asked := x.asked ++ [(pa, n, id)], ws := x.ws ++ [(id, x.at_ + o, src, n)] }

/-- The reads that a piece of an access needs beyond the package; its bytes come next in the element. -/
def ReadAsk.piece (x : ReadAsk) (p : Piece) : ReadAsk :=
  let x := match regionOf (resolvePa x.s p.tr.pa) with
    | .pod pkg off => (granules 5 off p.len (p.len + 1)).foldl (fun (x : ReadAsk) (o, n) =>
        x.need (p.tr.pa + o) n o ((off + o) % 128) fun s => sendPod s pkg (.lineRead ((off + o) / 128 * 128))) x
    | .host addr => (granules 3 addr p.len (p.len + 1)).foldl (fun (x : ReadAsk) (o, n) =>
        x.need (p.tr.pa + o) n o 0 fun s =>
          sendHost s (fun id => .read id (addr + o) n []) (fun id => .read id (addr + o) n)) x
    | _ => x
  { x with at_ := x.at_ + p.len }

/-- The reads that an access of some pieces needs beyond the package. -/
def requestReads (s : State) (asked : List (Nat × Nat × Nat)) (ps : List Piece) : ReadAsk :=
  ps.foldl ReadAsk.piece ⟨s, asked, [], 0⟩

/-- The bytes that an access finds in this package's memory; 0 where they come from beyond. -/
def localBytes (s : State) (ps : List Piece) : List Byte :=
  ps.flatMap fun p => if isRemote s p then List.replicate p.len 0 else readRun s p.tr.pa p.len

/-- The masked line image of n bytes at an offset within a line. -/
def lineMask (off : Nat) (bs : List Byte) : List (Option Byte) :=
  List.replicate (off % 128) none ++ bs.map some

/-- A run of bytes for another package or the host, of one lane. -/
structure FarWrite where
  lane : Nat
  pa   : Nat
  bytes : List Byte
  deriving DecidableEq, Repr

/-- The parts of a lane's store beyond the package, split at the granules of the memory (R303), in order. -/
def farWrites (s : State) (lane : Nat) (ps : List Piece) (bs : List Byte) : List FarWrite :=
  (ps.foldl (fun (ws, bs) p =>
    let cut (k a : Nat) : List FarWrite := (granules k a p.len (p.len + 1)).map fun (o, n) =>
      ⟨lane, p.tr.pa + o, (bs.drop o).take n⟩
    (ws ++ (match regionOf (resolvePa s p.tr.pa) with
      | .pod _ off => cut 5 off
      | .host addr => cut 3 addr
      | _ => []), bs.drop p.len)) (([] : List FarWrite), bs)).1

/-- The bytes that some writes give a line; later ones last. -/
def lineBytes (ws : List FarWrite) (line : Nat) : List (Option Byte) :=
  let all := ws.flatMap fun w => atRun w.pa w.bytes
  (List.range 128).map fun i => ((all.filter fun x => x.1 == line + i).getLast?).map Prod.snd

/-- The package that is the home of a PA of pod memory. -/
def homeOf (s : State) (pa : Nat) : Option Nat :=
  match regionOf (resolvePa s pa) with
  | .pod pkg _ => some pkg
  | _ => none

/-- The parts of a line follow one another among what goes to its home. -/
def unbroken (s : State) (ws : List FarWrite) (line : Nat) : Bool :=
  let mine (w : FarWrite) : Bool := w.pa / 128 * 128 == line
  let home := ws.filter fun w => homeOf s w.pa == homeOf s line
  ((home.dropWhile fun w => !mine w).take (ws.filter mine).length).all mine

/-- The sends that the stores of one instruction or command beyond the package make, in lane order and by ascending
address (R299, R303). Parts that follow one another and write a line of another package whole go as one request; where
parts of other lines come between, each goes by itself, and the last one ends the full-line write (R97, R319). -/
def planWrites (s : State) (ws : List FarWrite) : List FarSend :=
  let inLine (line : Nat) (w : FarWrite) : Bool := w.pa / 128 * 128 == line
  ws.zipIdx.filterMap fun (w, i) =>
    match regionOf (resolvePa s w.pa) with
    | .host addr => some (.host addr w.bytes)
    | .pod pkg off =>
      let line := w.pa / 128 * 128
      let image := lineBytes ws line
      let whole := image.all Option.isSome
      let last := !(ws.drop (i + 1)).any (inLine line)
      if whole && unbroken s ws line then
        if last then some (.pod pkg (.write (off / 128 * 128) image false true) line 128
            (dedup ((ws.filter (inLine line)).map FarWrite.lane)))
        else none
      else some (.pod pkg (.write (off / 128 * 128) (lineMask off w.bytes) false (whole && last)) w.pa w.bytes.length
        [w.lane])
    | _ => none

/-- Package and offset of a physical address of pod memory. -/
def podPlace (s : State) (pa : Nat) : Option (Nat × Nat) :=
  match regionOf (resolvePa s pa) with
  | .pod pkg off => some (pkg, off)
  | _ => none

/-- The native write of one block (R92, R436): what this package's memory takes, and what goes to other packages. The tail
goes to the line that its own bytes reach. DESIGN CHOICE (log entry 62): where head and tail have different homes, the part
of each is an event there. -/
def nativeStore (s : State) (fmt b scale : Nat) (ws : List (Nat × Byte)) (whole : Bool) (lanes : List Nat) :
    State × List FarSend :=
  let a := (ws.map Prod.fst).headD 0
  let head := ws.take (128 - a % 128)
  let tail := ws.drop (128 - a % 128)
  let t := (tail.map Prod.fst).headD a
  let place := tripletOf fmt b + 1
  let block (x : Nat × Nat) (ws : List (Nat × Byte)) (tail : Nat) : FarSend :=
    .pod x.1 (.nativeWrite x.2 fmt b (BitVec.ofNat 8 scale) (ws.map Prod.snd) tail whole) a ws.length lanes
  let rest (y : Nat × Nat) : FarSend := .pod y.1 (.nativeTail y.2 fmt place (tail.map Prod.snd)) t tail.length lanes
  match podPlace s a, podPlace s t with
  | none, none => (nativeWrite s fmt b scale ws (prevLine a), [])
  | none, some y => (nativeWrite s fmt b scale head (prevLine a), [rest y])
  | some x, none => (nativeTail s fmt place tail, [block x head 0])
  | some x, some y => (s, if x.1 == y.1 then [block x ws y.2] else [block x head 0, rest y])

/-- Make one send: writes to the host are posted (R308), and the rest has an answer to wait for, with its lanes. -/
def sendOne (s : State) (x : FarSend) : State × List (FarReq × List Nat) :=
  match x with
  | .host addr bs => (postHost s addr bs, [])
  | .probe addr =>
    let (s, id) := sendHost s (fun id => .read id addr 0 []) (fun id => .read id addr 0)
    (s, [(⟨id, 2 ^ 51 + addr, 0, true, .waiting, [], Line.plain⟩, [])])
  | .pod pkg r pa n ls =>
    let (s, id) := sendPod s pkg r
    (s, [(⟨id, pa, n, true, .waiting, [], Line.plain⟩, ls)])

/-- Make the sends of an instruction. -/
def sendAll (s : State) (xs : List FarSend) : State × List (FarReq × List Nat) :=
  xs.foldl (fun (s, rs) x => ((sendOne s x).1, rs ++ (sendOne s x).2)) (s, [])

/-- Make sends while the retry buffers have room for the requests to other packages (R319): the requests, and the
sends that are left. -/
def sendSome : List FarSend → State → State × List FarReq × List FarSend
  | [], s => (s, [], [])
  | x :: xs, s =>
    let pod : Bool := match x with
      | .pod _ _ _ _ _ => true
      | _ => false
    if pod && !remoteRoom s 1 then (s, [], x :: xs)
    else
      let (s, rs) := sendOne s x
      let (s, more, left) := sendSome xs s
      (s, rs.map Prod.fst ++ more, left)

/-- The waits of an S-counted instruction: each request for each of its lanes. -/
def waitLanes (rs : List (FarReq × List Nat)) : List (Nat × Nat) :=
  rs.flatMap fun (r, ls) => ls.map fun l => (r.req, l)

/-- The bytes of a store that stay in this package, with their PAs. -/
def localWrites (s : State) (ps : List Piece) (bs : List Byte) : List (Nat × Byte) :=
  ((ps.flatMap fun p => (List.range p.len).map fun i => (p.tr.pa + i, isRemote s p)).zip bs).filterMap
    fun (a, b) => if a.2 then none else some (a.1, b)

/-! ## Accesses beyond the package that are not counted on L or S -/

/-- Further remote requests wait for slots in the retry buffers (R319). -/
def remoteGate (s : State) (c : Issuer) (ps : List Piece) (go : State) : State :=
  let n := (ps.filter (isRemote s)).foldl (fun n p => n + p.len / 32 + 2) 0
  if n == 0 || remoteRoom s n then go else holdAt s c .remote

/-- A store to host memory overtakes no earlier read or atomic of its wave on the same bytes: posted, it would be performed
before them (R302, R308). -/
def hostHazard (s : State) (w : Wave) (ps : List Piece) : Bool :=
  let mine := w.lq.flatMap (fun e => e.elems.flatMap fun x => x.waits.map fun k => k.1) ++
    w.sq.flatMap fun e => e.waits.map Prod.fst
  let meets (a n : Nat) : Bool := ps.any fun p => match regionOf (resolvePa s p.tr.pa) with
    | .host b => b < a + n && a < b + p.len
    | _ => false
  s.hostq.any fun q => match q with
    | .read id a n _ | .atomic id a n _ _ _ _ => mine.contains id && meets a n
    | _ => false

/-- Such a store waits until they have been performed. -/
def hostGate (s : State) (c : Issuer) (ps : List Piece) (go : State) : State :=
  if hostHazard s c.w ps then holdAt s c .give else go

/-- A read beyond the package: its PA and bytes, and the part of the same event that lies in another line (R303). -/
structure FarKey where
  pa   : Nat
  len  : Nat
  more : Option (Nat × Nat)
  deriving DecidableEq, Repr

/-- The granules beyond the package that some pieces lie in (R303). -/
def farGranules (s : State) (ps : List Piece) : List FarKey :=
  ps.flatMap fun p =>
    let cut (k a : Nat) : List FarKey := (granules k a p.len (p.len + 1)).map fun (o, n) => ⟨p.tr.pa + o, n, none⟩
    match regionOf (resolvePa s p.tr.pa) with
    | .pod _ off => cut 5 off
    | .host addr => cut 3 addr
    | _ => []

/-- The reads that an MX block needs beyond the package: one for the whole of it, also where it crosses a line, as far as it
has one home (R92, R303). -/
def blockKeys (s : State) (ps : List Piece) : List FarKey :=
  if ps.any fun p => (homeOf s p.tr.pa).isNone && isRemote s p then farGranules s ps
  else
    let parts := (ps.filter (isRemote s)).flatMap fun p =>
      (granules 7 p.tr.pa p.len (p.len + 1)).map fun (o, n) => (p.tr.pa + o, n)
    match parts with
    | [x, y] =>
      if homeOf s x.1 == homeOf s y.1 then [⟨x.1, x.2, some y⟩] else [⟨x.1, x.2, none⟩, ⟨y.1, y.2, none⟩]
    | xs => xs.map fun x => ⟨x.1, x.2, none⟩

/-- Those that have not been asked for. -/
def missingKeys (have_ : List FarReq) (ks : List FarKey) : List FarKey :=
  (dedup ks).filter fun k => !have_.any fun r => r.pa == k.pa && r.len == k.len && !r.write

/-- The granules of some pieces that have not been asked for. -/
def farMissing (s : State) (have_ : List FarReq) (ps : List Piece) : List FarKey := missingKeys have_ (farGranules s ps)

/-- Ask for some bytes. A package that does not exist answers at once with an error (R318). -/
def askFar (s : State) (ks : List FarKey) : State × List FarReq :=
  ks.foldl (fun (s, rs) k =>
    let parts := (k.pa, k.len) :: k.more.toList
    let reqs (id : Nat) (res : FarRes) : List FarReq :=
      parts.map fun x => ⟨id, x.1, x.2, false, res, [], Line.plain⟩
    match regionOf (resolvePa s k.pa) with
    | .pod pkg off =>
      if s.regs.mode == 0 || s.regs.npkg ≤ pkg then (s, rs ++ reqs 0 (.bad 4))
      else
        let line := off / 128 * 128
        let (s, id) := sendPod s pkg (match k.more with
          | some (pa, _) => .pairRead line (pa % 2 ^ 40 / 128 * 128)
          | none => .lineRead line)
        (s, rs ++ reqs id .waiting)
    | .host addr =>
      let (s, id) := sendHost s (fun id => .read id addr k.len []) (fun id => .read id addr k.len)
      (s, rs ++ reqs id .waiting)
    | _ => (s, rs)) (s, ([] : List FarReq))

/-- Every answer has come. -/
def farDone (l : List FarReq) : Bool := l.all fun r => r.res != .waiting

/-- The issuing gang waits for the answers to some requests of its wave. -/
def holdWith (s : State) (c : Issuer) (rs : List FarReq) (h : Hold) : State :=
  modWave s c.ref.gid c.ref.wave fun w =>
    { w with answers := c.w.answers, far := c.w.far ++ rs }.modGang c.ref.slice fun g => { g with hold := h }

/-- The issuing wave asks for granules and waits for the answers. -/
def awaitFar (s : State) (c : Issuer) (ks : List FarKey) : State :=
  if !remoteRoom s ks.length then holdAt s c .remote
  else
    let (s, rs) := askFar s ks
    holdWith s c rs .far

/-- A read that is performed within its instruction, behind its checks: what lies beyond the package is asked for and
awaited first, by the reads that `keys` gives for each access, and the instruction is then executed again with the answers
(R301, R307, R308). -/
def directOpBy (keys : State → List Piece → List FarKey) (s : State) (c : Issuer) (reach : Reach) (pre : List Cause)
    (sp : Space) (as : List Acc) (more : AccSum → List Cause) (go : AccSum → State) : State :=
  let wants (t : AccSum) : List FarKey := missingKeys c.w.far (t.oks.flatMap fun e => keys t.s e.2)
  accessOp s c reach pre sp .read as (fun t => if (wants t).isEmpty then more t else [])
    fun t => if (wants t).isEmpty then go t else awaitFar t.s c (wants t)

/-- Such a read by granules (R303). -/
def directOp (s : State) (c : Issuer) (reach : Reach) (pre : List Cause) (sp : Space) (as : List Acc)
    (more : AccSum → List Cause) (go : AccSum → State) : State :=
  directOpBy farGranules s c reach pre sp as more go

/-- The stores of an instruction that is not counted on S: performed here, or, once there is room, sent and awaited where
they go beyond the package; the instruction is then executed again with their answers, and sends nothing more. -/
def directStore (s : State) (c : Issuer) (ps : List Piece) (bs : List Byte) (go : State → State) : State :=
  if c.w.far.any FarReq.write then go s
  else remoteGate s c ps (hostGate s c ps
    (let (s', rs) := sendAll s (planWrites s (farWrites s 0 ps bs))
     if rs.isEmpty then go s' else holdWith s' c (rs.map Prod.fst) .far))

end Sys2Proof.Machine
end

