-- ==== Sys2Proof/Machine/Mem.lean ====
section
/-!
DEFINITION. Loads, stores, atomics, ownership, prefetch and FENCE, opcodes 0xA0-0xAA and 0xAE (R119-R146,
R311-R313), and the completions of counted instructions (R127).
-/

namespace Sys2Proof.Machine

/-! ## Counted instructions (R127, R128) -/

/-- The slices that hold some lanes. -/
def slicesWith (ls : List Nat) : List Nat := dedup (ls.map fun l => l / 4)

/-- Pending bits of a vector register in the slices of some lanes; v255 has none. -/
def pendKeys (r : Nat) (ls : List Nat) : List Nat :=
  if r == 255 then [] else (slicesWith ls).map fun j => 8 * r + j

def setKeys (m : Sparse Bool) (ks : List Nat) (b : Bool) : Sparse Bool :=
  ks.foldl (fun m k => m.set false k b) m

/-- Count an L instruction and set its pending bits. -/
def Wave.countL (w : Wave) (e : LEntry) : Wave :=
  { w with lq := w.lq ++ [e], pv := setKeys w.pv e.pv true, ps := setKeys w.ps e.ps true,
           pp := setKeys w.pp e.pp true }

def Wave.countS (w : Wave) (e : SEntry) : Wave := { w with sq := w.sq ++ [e] }

/-- An L entry of some elements with nothing else. -/
def LEntry.plain (es : List Elem) (pv : List Nat) (pc : Word) : LEntry :=
  ⟨es, [], [], [], pv, [], [], [], 0, pc, 0⟩

/-- An instruction counted on L waits at issue while the counter is full (R127). -/
def roomL (s : State) (c : Issuer) (go : State) : State :=
  if c.w.cntL < 255 then go else holdAt s c (.room 254 255 255 255)
def roomS (s : State) (c : Issuer) (go : State) : State :=
  if c.w.cntS < 255 then go else holdAt s c (.room 255 254 255 255)

/-- Write one element's result. -/
def Elem.put (w : Wave) (e : Elem) : Wave :=
  let x := extendTy e.t (natOfBytes e.bytes)
  match e.dst with
  | .v r l => w.writeV r l x
  | .s n => w.writeS (sregOf n) x
  | .discard => w

/-- The results of an L entry enter the registers, and its pending bits clear. -/
def LEntry.retire (e : LEntry) (w : Wave) : Wave :=
  let w := { w with pv := setKeys w.pv e.pv false, ps := setKeys w.ps e.ps false,
                    pp := setKeys w.pp e.pp false }
  if !e.bad.isEmpty then w
  else
    let w := e.elems.foldl Elem.put w
    let w := e.pw.foldl (fun w (p, l, b) => w.writeP p [l] fun _ => b) w
    let w := e.xw.foldl (fun w (r, j, x) => w.writeSide r j x) w
    e.ff.foldl (fun w (l, f) => w.orFf l f) w

/-- L_COUNTED_COMPLETION: the oldest L-counted instruction has all its data (R127). -/
def execLCountedCompletion (gid wave : Nat) (s : State) : Result :=
  match findWave s gid wave with
  | none => .next s
  | some w =>
    match w.lq with
    | [] => .next s
    | e :: rest =>
      if e.elems.any fun x => !x.waits.isEmpty then .next s
      else
        let s := modWave s gid wave fun w => e.retire { w with lq := rest }
        .next (if e.bad.isEmpty then sweep s gid else haltAndSweep s gid wave 18 0)

/-- S_COUNTED_COMPLETION: the oldest S-counted instruction has been performed, writes to common registers too
(R127, R305). -/
def execSCountedCompletion (gid wave : Nat) (s : State) : Result :=
  match findWave s gid wave with
  | none => .next s
  | some w =>
    match w.sq with
    | [] => .next s
    | e :: rest =>
      if !e.waits.isEmpty || !commonsDone s gid wave then .next s
      else
        let s := modWave s gid wave fun w => { w with sq := rest }
        .next (if e.bad.isEmpty then sweep s gid else haltAndSweep s gid wave 18 0)

/-! ## LD, ST, LDS, STS (R134) -/

/-- Address of a lane (R129). -/
def laneAddr (c : Issuer) (a : VReg) (b : SSrc) (l : Nat) : Nat :=
  (c.w.readV a.val l + c.w.srcS b).toNat

/-- Address of the wave (R129). -/
def waveAddr (c : Issuer) (a : SReg) (b : SSrc) : Nat := (c.w.readS a + c.w.srcS b).toNat

/-- The elements that a load collects: local bytes, and requests for the rest, which lanes that name the same location
share (R131). -/
def loadElems (s : State) (t : Ty) (dst : Nat → Dst) (oks : List (Acc × List Piece)) :
    State × List Elem :=
  let (s, _, es) := oks.foldl (fun (s, asked, es) (a, ps) =>
    let x := requestReads s asked ps
    (x.s, x.asked, es ++ [⟨dst a.lane, t, a.lane, localBytes x.s ps, x.ws⟩]))
    (s, ([] : List (Nat × Nat × Nat)), ([] : List Elem))
  (s, es)

/-- What a read beyond this instant's memory meets at issue. -/
def readConds (t : AccSum) : List Cause :=
  t.oks.flatMap fun (a, ps) => poisonConds t.s a.lane ps ++ absentConds t.s a.lane ps

/-- What a write meets at issue. -/
def writeConds (t : AccSum) : List Cause :=
  t.oks.flatMap fun (a, ps) => absentConds t.s a.lane ps

def execLd (o : LaneMem) (s : State) : Result :=
  issued s fun c =>
    let ls := c.lanes o.g
    let pre := guardConds c o.g ++ useConds c ls (.vw 0 o.r.val :: .vr 1 o.a.val :: useS o.b)
    let as := ls.map fun l => (⟨l, laneAddr c o.a o.b l, o.t.width / 8⟩ : Acc)
    roomL s c (accessOp s c .lane pre o.sp .read as readConds fun t =>
      remoteGate t.s c (t.oks.flatMap Prod.snd)
        (let (s, es) := loadElems (touch t.s c false (t.oks.flatMap Prod.snd)) o.t
            (fun l => .v o.r.val l) t.oks
         retireNow s c (slen o.b) fun w =>
           w.countL (LEntry.plain es (pendKeys o.r.val ls) c.pc)))

def execLds (o : WaveMem) (s : State) : Result :=
  issued s fun c =>
    let pre := useConds c c.all (.sw o.r :: .sr o.a :: useS o.b)
    let a : Acc := ⟨c.all.headD 0, waveAddr c o.a o.b, o.t.width / 8⟩
    let (dst, ps) : Dst × List Nat := match o.r with
      | .s n => (.s n.val, [n.val])
      | .zero => (.discard, [])
    roomL s c (accessOp s c .wave pre o.sp .read [a] readConds fun t =>
      remoteGate t.s c (t.oks.flatMap Prod.snd)
        (let (s, es) := loadElems (touch t.s c false (t.oks.flatMap Prod.snd)) o.t (fun _ => dst) t.oks
         retireNow s c (slen o.b) fun w => w.countL { LEntry.plain es [] c.pc with ps := ps }))

/-- A write that leaves no stale mark on a common register. -/
def writeNow (s : State) (pa : Nat) (bs : List Byte) : State :=
  let s := plainWrite s false (atRun pa bs)
  match regionOf pa with
  | .window die phys off =>
    if winRange off = .common then
      match commonGroup s die phys ((off - winCommon) / 512) with
      | some g => modGroup s g.gid fun g => g.unmark (gmCommon (off % 512 / 8))
      | none => s
    else s
  | _ => s

/-- Bytes that one instruction has written in several events: a line that they cover whole is no longer poisoned (R97). -/
def settleWrites (s : State) (ws : List (Nat × Byte)) : State :=
  let ws := (ws.map fun w => (resolvePa s w.1, w.2)).filter fun w => !inCode s w.1
  (dedup (ws.map fun w => w.1 / 128 * 128)).foldl (settleLine ws) s

/-- The writes to common registers of one instruction: queued, but for those that a later lane's other store follows,
which are performed with the instruction, in lane order (R299, R305; log entry 59). -/
def storeCommons (s : State) (c : Issuer) (ws : List (Acc × List Piece × List Byte)) : State :=
  ws.zipIdx.foldl (fun s ((_, ps, bs), i) =>
    match ps with
    | p :: _ =>
      if !isCommon p then s
      else if (ws.drop (i + 1)).any fun w => !w.2.1.any isCommon then writeNow s p.tr.pa bs
      else queueCommon s c p.tr.pa (wordOfBytes bs)
    | [] => s) s

/-- Perform the stores of an instruction: this package's bytes together, common registers queued, the rest
as requests; the state and what S waits for. -/
def storeAll (s : State) (c : Issuer) (ws : List (Acc × List Piece × List Byte)) :
    State × List (Nat × Nat) :=
  let plain := ws.filter fun (_, ps, _) => !ps.any isCommon
  let s := plainWrite s false (plain.flatMap fun (_, ps, bs) => localWrites s ps bs)
  let s := storeCommons s c ws
  let (s, rs) := sendAll s (planWrites s (plain.flatMap fun (a, ps, bs) => farWrites s a.lane ps bs))
  (s, waitLanes rs)

/-- A store behind its checks: performed, and counted on S. -/
def storeOp (s : State) (c : Issuer) (len : Nat) (ws : List (Acc × List Piece × List Byte)) : State :=
  let ps := ws.flatMap fun (_, ps, _) => ps
  remoteGate s c ps (hostGate s c ps
    (let s := touch s c true ps
     let (s, waits) := storeAll s c ws
     let s := noteHost s c ps
     retireNow s c len fun w => w.countS ⟨waits, [], 4, c.pc⟩))

def execSt (o : LaneMem) (s : State) : Result :=
  issued s fun c =>
    let ls := c.lanes o.g
    let n := o.t.width / 8
    let pre := guardConds c o.g ++ useConds c ls (.vr 3 o.r.val :: .vr 1 o.a.val :: useS o.b)
    let as := ls.map fun l => (⟨l, laneAddr c o.a o.b l, n⟩ : Acc)
    roomS s c (accessOp s c .lane pre o.sp .write as writeConds fun t =>
      storeOp t.s c (slen o.b) (t.oks.map fun (a, ps) =>
        (a, ps, bytesOfNat n (c.w.readV o.r.val a.lane).toNat)))

def execSts (o : WaveMem) (s : State) : Result :=
  issued s fun c =>
    let n := o.t.width / 8
    let pre := useConds c c.all (.sr o.r :: .sr o.a :: useS o.b)
    let a : Acc := ⟨c.all.headD 0, waveAddr c o.a o.b, n⟩
    roomS s c (accessOp s c .wave pre o.sp .write [a] writeConds fun t =>
      storeOp t.s c (slen o.b) (t.oks.map fun (a, ps) => (a, ps, bytesOfNat n (c.w.readS o.r).toNat)))

/-- COMMON_REGISTER_WRITE: the oldest queued write to a core's common registers is performed, once the third cycle after its
issue has come; of two of one cycle the lower wave slot goes first (R131, R305). -/
def execCommonRegisterWrite (die core : Nat) (s : State) : Result :=
  match leastBy (fun k => 64 * k.cycle + k.slot) (s.commons.filter fun k =>
      k.die == die && k.phys == core && k.cycle + 3 ≤ cycleOf s) with
  | none => .next s
  | some k =>
    let pa := windowPa k.die k.phys k.addr
    let s := { s with commons := s.commons.erase k }
    let s := plainWrite s false (atRun pa (wordBytes k.word))
    .next (match commonGroup s k.die k.phys ((k.addr - winCommon) / 512) with
      | none => s
      | some g => modGroup s g.gid fun g => g.unmark (gmCommon (k.addr % 512 / 8)))

/-! ## LDB and STB (R135-R137) -/

/-- Bytes that one part of a slice's block access moves: a block, or 32 plain bytes. -/
def partBytes (t : Ty) : Nat := if t == .none then 32 else blockBytes (fmtCode t)

/-- Accesses of LDB and STB: slice j moves its parts in ascending order, each with its block number i. -/
def blockAccs (t : Ty) (addr : Nat) (js : List Nat) : List (Acc × Nat) :=
  js.flatMap fun j => (List.range t.blocks).map fun k =>
    (⟨4 * j, addr + partBytes t * (t.blocks * j + k), partBytes t⟩, t.blocks * j + k)

/-- The alignment rule of R135. -/
def blockAligned (t : Ty) (addr b0 : Nat) : Bool :=
  if t == .none then addr % 32 == 0 else addr % 128 == partBytes t * b0 % 128

/-- A piece lies in host memory. -/
def isHost (s : State) (p : Piece) : Bool :=
  match regionOf (resolvePa s p.tr.pa) with
  | .host _ => true
  | _ => false

/-- Scale Desync of a block read from the line that the read finds (R94), or of any native access to host memory
(R89). Where the error response came in place of a line, there is nothing to check (R88). -/
def desyncConds (s : State) (far : List FarReq) (t : Ty) (read : Bool) (lane b : Nat) (ps : List Piece) : List Cause :=
  match t, ps with
  | .none, _ => []
  | _, [] => []
  | t, p :: _ =>
    if ps.any (isHost s) then [⟨11, 3 * 2 ^ 60, [lane]⟩]
    else if read && !farEmpty far p.tr.pa then match desyncCheck (farLine s far p.tr.pa) (fmtCode t) b with
      | some chk => [⟨11, chk * 2 ^ 60, [lane]⟩]
      | none => []
    else []

/-- The conditions of LDB and STB before any access. -/
def blockPre (c : Issuer) (o : BlockMem) (ls : List Nat) (us : List Use) : List Cause :=
  guardConds c o.g ++ useConds c ls ([.sr o.a, .sr o.c] ++ us ++ useS o.b) ++ [sliceCond ls] ++
    when (!blockAligned o.t (waveAddr c o.a o.b) (c.w.readS o.c).toNat) ⟨6, 2 ^ 56, ls⟩

/-- The parts that a slice has read: bytes and scales, in order. -/
structure SlicePart where
  j     : Nat
  bytes : List Byte
  scale : Nat
  deriving DecidableEq, Repr

/-- Elements and sidecars of LDB (R136). -/
def ldbEntry (o : BlockMem) (ls : List Nat) (pc : Word) (parts : List SlicePart) : LEntry :=
  let per := (fullSlices ls).map fun j => (j, parts.filter fun p => p.j == j)
  let bytesOf (ps : List SlicePart) : List Nat :=
    if o.t == .none then (ps.flatMap SlicePart.bytes).map BitVec.toNat
    else regBytes o.t (ps.map fun p => (List.range 32).map (blockCode o.t p.bytes))
  let es := per.flatMap fun (j, ps) => (sliceWords o.r.val j (bytesOf ps)).map fun (r, l, x) =>
    (⟨.v r l, .n64, l, wordBytes x, []⟩ : Elem)
  let xw := if o.t == .none then [] else
    per.map fun (j, ps) => (o.r.val, j, sideOf (ps.map SlicePart.scale))
  { LEntry.plain es (pendKeys o.r.val ls) pc with xw := xw }

/-- The reads beyond the package of one part of LDB: a block in one event, plain bytes by granules (R303). -/
def ldbKeys (t : Ty) (s : State) (ps : List Piece) : List FarKey :=
  if t == .none then farGranules s ps else blockKeys s ps

def execLdb (o : BlockMem) (s : State) : Result :=
  issued s fun c =>
    let ls := c.lanes o.g
    let b0 := (c.w.readS o.c).toNat
    let accs := blockAccs o.t (waveAddr c o.a o.b) (fullSlices ls)
    let blk (a : Acc) : Nat := b0 + ((accs.find? fun x => x.1 == a).map Prod.snd).getD 0
    roomL s c (directOpBy (ldbKeys o.t) s c .slice (blockPre c o ls [.vw 0 o.r.val]) o.sp (accs.map Prod.fst)
      (fun t => t.oks.flatMap fun (a, ps) =>
        desyncConds t.s c.w.far o.t true a.lane (blk a) ps ++ directConds t.s c true a.lane ps)
      fun t =>
        let parts := t.oks.map fun (a, ps) =>
          let first := (pasOf ps).headD 0
          (⟨a.lane / 4, readPieces t.s c.w.far ps,
            (farLine t.s c.w.far first).scale (slotOf (fmtCode o.t) (blk a))⟩ : SlicePart)
        retireNow (touch t.s c false (t.oks.flatMap Prod.snd)) c (slen o.b) fun w =>
          w.countL (ldbEntry o ls c.pc parts))

/-- The bytes of block k of a slice's register, as memory holds them (R137). -/
def storeBlockBytes (w : Wave) (t : Ty) (r j k : Nat) : List Byte :=
  blockPack t ((List.range 32).map (regCode w t r j k))

/-- One native write of STB, here or at its home; `whole`: the instruction fills the line that the block starts in,
and this is its first block there (R92). -/
def stbNative (c : Issuer) (o : BlockMem) (st : State × List (Nat × Nat)) (lane b k : Nat)
    (ps : List Piece) (whole : Bool) : State × List (Nat × Nat) :=
  let j := lane / 4
  let bs := storeBlockBytes c.w o.t o.r.val j k
  let (s, out) := nativeStore st.1 (fmtCode o.t) b (sideScale (c.w.readSide o.r.val j) k) ((pasOf ps).zip bs) whole [lane]
  let (s, rs) := sendAll s out
  (s, st.2 ++ waitLanes rs)

/-- The native writes of an instruction that open a line which the instruction fills whole, by the first physical
address of their block. -/
def openers (pas : List (List Nat)) : List Nat :=
  let all := pas.flatten
  let firsts := pas.map fun x => x.headD 0
  (dedup (firsts.map fun p => p / 128)).filterMap fun line =>
    (firsts.find? fun p => p / 128 == line).filter fun p => coversLine all p

def execStb (o : BlockMem) (s : State) : Result :=
  issued s fun c =>
    let ls := c.lanes o.g
    let b0 := (c.w.readS o.c).toNat
    let us := .vr 0 o.r.val :: (if o.t == .none then [] else scaleUses o.t o.r.val)
    let accs := blockAccs o.t (waveAddr c o.a o.b) (fullSlices ls)
    let num (a : Acc) : Nat := ((accs.find? fun x => x.1 == a).map Prod.snd).getD 0
    roomS s c (accessOp s c .slice (blockPre c o ls us) o.sp .write (accs.map Prod.fst)
      (fun t => writeConds t ++ t.oks.flatMap fun (a, ps) =>
        desyncConds t.s c.w.far o.t false a.lane (b0 + num a) ps)
      fun t =>
        if o.t == .none then
          storeOp t.s c (slen o.b) (t.oks.map fun (a, ps) =>
            (a, ps, (List.range 32).map fun i =>
              BitVec.ofNat 8 (sliceByte c.w o.r.val (a.lane / 4) i)))
        else
          let ps := t.oks.flatMap Prod.snd
          remoteGate t.s c ps
            (let s := formatFull (touch t.s c true ps) (fmtCode o.t)
               (t.oks.map fun (a, ps) => (b0 + num a, pasOf ps))
             let opening := openers (t.oks.map fun x => pasOf x.2)
             let (s, ws) := t.oks.foldl (fun st (a, ps) =>
                stbNative c o st a.lane (b0 + num a) (num a % o.t.blocks) ps
                  (opening.contains ((pasOf ps).headD 0))) (s, [])
             retireNow s c (slen o.b) fun w => w.countS ⟨ws, [], 4, c.pc⟩))

/-! ## Atomics (R138-R140) -/

/-- The value that an atomic leaves, and the flags of a float operation (R138, R139). -/
def atomNew (t : Ty) (op : AtomOp) (old v cmp : Nat) : Nat × Flags :=
  let float := t == .f32 || t == .f64
  match op with
  | .add =>
    if float then encodeExact t .rne false (addVals false (decodeVal t old) (decodeVal t v))
    else (iAdd t false old v, 0)
  | .min => if float then minMaxVal t false old v else (iMin t old v, 0)
  | .max => if float then minMaxVal t true old v else (iMax t old v, 0)
  | .and => (iAnd t old v, 0)
  | .or => (iOr t old v, 0)
  | .xor => (iXor t old v, 0)
  | .xchg => (v, 0)
  | .cas => (if old == cmp then v else old, 0)

/-- Operations that host memory accepts (R140). -/
def hostAtomOk (op : AtomOp) (t : Ty) (red : Bool) : Bool :=
  match op with
  | .add => t.within 5 8
  | .xchg => !red
  | .cas => !red
  | _ => false

/-- The storage refuses the operation (R140). -/
def atomRefused (s : State) (op : AtomOp) (t : Ty) (red : Bool) (lane : Nat) (p : Piece) : List Cause :=
  match regionOf (resolvePa s p.tr.pa) with
  | .host _ => when (!hostAtomOk op t red) ⟨8, transInfo 6 .rmw p.va, [lane]⟩
  | _ => []

/-- The conditions of the resolved accesses of an atomic. -/
def atomConds (op : AtomOp) (t : Ty) (red : Bool) (x : AccSum) : List Cause :=
  readConds x ++ x.oks.flatMap fun (a, ps) => ps.flatMap (atomRefused x.s op t red a.lane)

/-- DESIGN CHOICE (log entry 60): an operation on a common register is performed at its issue.
One lane's operation: the old bytes (zeros where they come later), what it waits for, its flags. -/
def atomOne (s : State) (op : AtomOp) (t : Ty) (v cmp : Nat) (p : Piece) :
    State × List Byte × List (Nat × Nat × Nat × Nat) × Flags :=
  let n := t.width / 8
  let zeros : List Byte := List.replicate n 0
  match regionOf (resolvePa s p.tr.pa) with
  | .pod pkg off =>
    let (s, id) := sendPod s pkg (.atomic off op t (word v) (word cmp))
    (s, zeros, [(id, 0, 0, n)], 0)
  | .host addr =>
    let (s, id) := sendHost s (fun id => .atomic id addr n op (word v) (word cmp) [])
      (fun id => .atomic id addr op (word v) (word cmp))
    (s, zeros, [(id, 0, 0, n)], 0)
  | _ =>
    let old := readRun s p.tr.pa n
    let (x, fl) := atomNew t op (natOfBytes old) v cmp
    (writeNow s p.tr.pa (bytesOfNat n x), old, [], fl)

/-- The alignment of an atomic (R130). -/
def naturalConds (as : List Acc) (n : Nat) : List Cause :=
  as.flatMap fun a => when (a.addr % n != 0) ⟨6, 0, [a.lane]⟩

/-- An atomic of a float type joins its flags into %fflags (R139). -/
def atomFf (t : Ty) : List Use := if t == .f32 || t == .f64 then [.ff] else []

/-- ATOM and RED in lane order, behind their checks (R131). -/
def atomAll (s : State) (c : Issuer) (op : AtomOp) (t : Ty) (v cmp : Nat → Nat)
    (oks : List (Acc × List Piece)) :
    State × List (Nat × List Byte × List (Nat × Nat × Nat × Nat) × Flags) :=
  oks.foldl (fun (s, rs) (a, ps) =>
    match ps with
    | [] => (s, rs)
    | p :: _ =>
      let (s, old, ws, fl) := atomOne s op t (v a.lane) (cmp a.lane) p
      (s, rs ++ [(a.lane, old, ws, fl)])) (touch s c true (oks.flatMap Prod.snd), [])

def execAtom (o : AtomMem) (s : State) : Result :=
  issued s fun c =>
    let ls := c.lanes o.g
    let n := o.t.width / 8
    let cas := if o.op = .cas then [Use.vr 3 (o.c.val + 1)] else []
    let as := ls.map fun l => (⟨l, laneAddr c o.a o.b l, n⟩ : Acc)
    let pre := guardConds c o.g ++
      useConds c ls ([.vw 0 o.d.val, .vr 1 o.a.val, .vr 3 o.c.val] ++ cas ++ atomFf o.t ++ useS o.b) ++
      naturalConds as n
    let el (r l : Nat) : Nat := (c.w.readV r l).toNat % 2 ^ o.t.width
    roomL s c (accessOp s c .lane pre o.sp .rmw as (atomConds o.op o.t false) fun t =>
      remoteGate t.s c (t.oks.flatMap Prod.snd)
        (let (s, rs) := atomAll t.s c o.op o.t (el o.c.val) (el (o.c.val + 1)) t.oks
         let es := rs.map fun (l, old, ws, _) => (⟨.v o.d.val l, o.t, l, old, ws⟩ : Elem)
         let ff := rs.map fun (l, _, _, fl) => (l, fl)
         let s := noteHost s c (t.oks.flatMap Prod.snd)
         retireNow s c (slen o.b) fun w =>
           w.countL { LEntry.plain es (pendKeys o.d.val ls) c.pc with ff := ff }))

def execRed (o : RedMem) (s : State) : Result :=
  issued s fun c =>
    let ls := c.lanes o.g
    let n := o.t.width / 8
    let as := ls.map fun l => (⟨l, laneAddr c o.a o.b l, n⟩ : Acc)
    let pre := guardConds c o.g ++ useConds c ls ([.vr 1 o.a.val, .vr 3 o.c.val] ++ atomFf o.t ++ useS o.b) ++
      naturalConds as n
    let el (l : Nat) : Nat := (c.w.readV o.c.val l).toNat % 2 ^ o.t.width
    roomS s c (accessOp s c .lane pre o.sp .rmw as (atomConds o.op o.t true) fun t =>
      remoteGate t.s c (t.oks.flatMap Prod.snd)
        (let (s, rs) := atomAll t.s c o.op o.t el (fun _ => 0) t.oks
         let ws := rs.flatMap fun (l, _, ws, _) => ws.map fun w => (w.1, l)
         let ff := rs.map fun (l, _, _, fl) => (l, fl)
         let s := noteHost s c (t.oks.flatMap Prod.snd)
         retireNow s c (slen o.b) fun w =>
           (ff.foldl (fun w (l, f) => w.orFf l f) w).countS ⟨ws, [], 4, c.pc⟩))

/-! ## Ownership (R144, R145) -/

/-- A tile is named by a queued or running engine command or collective (R125, R144). -/
def namedTile (s : State) (die phys tile : Nat) : Bool :=
  (s.engq.any fun e => e.2.any fun k => k.tiles.contains (die, phys, tile)) ||
    (collGates s).contains (die, phys, tile)

/-- Set or clear owner bits of a group's tiles. -/
def setOwners (s : State) (g : Group) (first n : Nat) (b : Bool) : State :=
  (List.range n).foldl (fun s i => setOwner s g.die g.phys (g.spadBase + first + i) b) s

/-- Register Bound, origin 5: a range of tiles beyond the allotment. -/
def rangeCond (c : Issuer) (first n : Nat) : List Cause :=
  when (n != 0 && c.g.tiles < first + n) (c.wide 3 (5 * 2 ^ 56))

/-- Every access that the wave has issued has been performed (R124). -/
def accessesDone (s : State) (gid wave : Nat) (w : Wave) : Bool :=
  (w.lq.all fun e => e.elems.all fun x => x.waits.isEmpty) && (w.sq.all fun e => e.waits.isEmpty) &&
    commonsDone s gid wave

def execOwnGive (a : SReg) (b : SSrc) (s : State) : Result :=
  issued s fun c =>
    let first := (c.w.readS a).toNat
    let n := (c.w.srcS b).toNat
    let us := useConds c c.all (.sr a :: useS b)
    check s c c.all (us ++ rangeCond c first n)
      (if accessesDone s c.ref.gid c.ref.wave c.w then
        retireNow (setOwners s c.g first n true) c (slen b) id
      else holdAt s c .give)

def execOwnTake (a : SReg) (b : SSrc) (s : State) : Result :=
  issued s fun c =>
    let first := (c.w.readS a).toNat
    let n := (c.w.srcS b).toNat
    let range := if c.g.tiles < first + n then [] else List.range n
    let named := range.find? fun i => namedTile s c.g.die c.g.phys (c.g.spadBase + first + i)
    let own := match named with
      | some i => [c.wide 10 ((c.g.spadBase + first + i) * 2 ^ 55)]
      | none => []
    check s c c.all (useConds c c.all (.sr a :: useS b) ++ rangeCond c first n ++ own)
      (retireNow (setOwners s c.g first n false) c (slen b) id)

def execOwnt (d a : SReg) (b : SSrc) (s : State) : Result :=
  waveOp s (slen b) (.sw d :: .sr a :: useS b)
    (fun c =>
      let first := (c.w.readS a).toNat
      let n := min (c.w.srcS b).toNat 64
      rangeCond c first n ++ when ((List.range n).any fun i =>
        ownerFails s c.g.die c.g.phys (c.g.spadBase + first + i)) (c.wide 18 (2 * 2 ^ 60)))
    fun c =>
      let first := (c.w.readS a).toNat
      let n := min (c.w.srcS b).toNat 64
      c.w.writeS d (word ((List.range n).foldl (fun x i =>
        if ownedByEngine s c.g.die c.g.phys (c.g.spadBase + first + i) then x + 2 ^ i else x) 0))

/-! ## Prefetch (R146) -/

/-- Bring a line into the L1 of a core, or into the L2 alone; nothing where the translation fails or the line is not local.
Whether the translation waits for a walk of the host. -/
def prefetchLine (die phys asid : Nat) (ans : List Answer) (l2 : Bool) (s : State) (va : Nat) : State × Bool :=
  match translateCore s die phys asid va .read ans with
  | (s, .ok t) => (if l2 then fillL2 s [resolvePa s t.pa] else fillL1 s die phys asid va t false, false)
  | (s, .pending) => (s, true)
  | (s, _) => (s, false)

/-- Bring one lane's line in; a walk of the host is asked for and not awaited (R118). DESIGN CHOICE (log entry 62): its
answer fills what the instruction would have filled. -/
def prefetchOne (c : Issuer) (l2 : Bool) (s : State) (va : Nat) : State :=
  match prefetchLine c.g.die c.g.phys c.g.asid c.answers l2 s va with
  | (s, true) => addWalks s c.g.die (.prefetch c.g.phys l2) c.g.asid .read [va]
  | (s, false) => s

def execPref (g : Guard) (a : VReg) (b : SSrc) (l2 : Bool) (s : State) : Result :=
  issued s fun c =>
    let ls := c.lanes g
    check s c c.all (guardConds c g ++ useConds c ls (.vr 1 a.val :: useS b))
      (retireNow (ls.foldl (fun s l => prefetchOne c l2 s (laneAddr c a b l)) s) c (slen b) id)

/-! ## FENCE (R311, R312) -/

/-- The zero-length read of FENCE.sys. -/
def flushHost (s : State) (c : Issuer) (addr : Nat) : State :=
  let s := { s with hostq := s.hostq ++ [.flush c.ref.gid c.ref.wave c.ref.slice addr],
                    nextReq := s.nextReq + 1 }
  holdAt (toHost s (.read (s.nextReq - 1) addr 0)) c (.fence true)

def execFence (sc : Scope) (s : State) : Result :=
  issued s fun c =>
    let far := sc == .pod || sc == .sys
    if !far then retire s c 8 c.w
    else if c.w.cntL != 0 || c.w.cntS != 0 then holdAt s c (.fence false)
    else match sc, c.w.hostWrote with
      | .sys, some a => if c.gang.hold == .fence true then s else flushHost s c a
      | _, _ => retire s c 8 c.w

end Sys2Proof.Machine
end

