-- ==== Sys2Proof/Machine/Engine.lean ====
section
/-!
DEFINITION. Engine commands: queues and the choice of a head (R149, R150), descriptors and what makes one
invalid or a command malformed (R152-R158), the places a command reads and writes, acceptance by PUSH
(R151), ENGST (R174) and completion (R170-R172).
-/

namespace Sys2Proof.Machine

/-! ## Queues (R149, R182) -/

/-- Number of a tray engine among the units of a die; 0-31 are the copy engines. -/
def trayUnit : Nat := 32

def unitKey (die unit prio : Nat) : Nat := (33 * die + unit) * 4 + prio

def unitQueue (s : State) (die unit prio : Nat) : List Cmd := s.engq.get [] (unitKey die unit prio)

def setUnitQueue (s : State) (die unit prio : Nat) (q : List Cmd) : State :=
  { s with engq := s.engq.set [] (unitKey die unit prio) q }

/-- The command that a unit works on or takes next, with its priority: the one that it has started (R150); else a head
that has aged, the earliest such; else the head of the highest non-empty priority (R149). -/
def nextCmd (s : State) (die unit : Nat) : Option (Nat × Cmd) :=
  let heads := (List.range 4).filterMap fun p => ((unitQueue s die unit p).head?).map fun k => (p, k)
  match heads.find? fun h => h.2.started with
  | some h => some h
  | none => match leastBy (fun h => h.2.aged.getD 0) (heads.filter fun h => h.2.aged.isSome) with
    | some h => some h
    | none => heads.head?

/-- Change a command in its queue. -/
def modCmd (s : State) (die unit prio id : Nat) (f : Cmd → Cmd) : State :=
  setUnitQueue s die unit prio ((unitQueue s die unit prio).map fun k => if k.id == id then f k else k)

/-- An uncorrectable error strikes inside a unit (R173, R185): the command that it works on, or the next that it takes,
meets it before its accesses have been made. -/
def hurtUnit (s : State) (die unit : Nat) : State :=
  match nextCmd s die unit with
  | none => s
  | some (prio, k) => if k.fin.isSome then s else modCmd s die unit prio k.id fun k => { k with hurt := true }

/-- Commands accepted from a core and not completed: its tracker entries (R151). -/
def trackerCount (s : State) (die phys : Nat) : Nat :=
  s.engq.foldl (fun n e => n + (e.2.filter fun k => k.die == die && k.phys == phys).length) 0

/-- A group has commands that have not completed (R177). -/
def groupBusy (s : State) (gid : Nat) : Bool := s.engq.any fun e => e.2.any fun k => k.gid == gid

/-- Word i of a command. -/
def Cmd.w (k : Cmd) (i : Nat) : Word := k.words.getD i 0
/-- The address of a descriptor: its low bits are no part of it (R153). -/
def Cmd.descVa (k : Cmd) (i : Nat) : Nat := (k.w i).toNat / 128 * 128

def Cmd.op (k : Cmd) : Nat := field (k.w 0) 7 0
def Cmd.flip (k : Cmd) : Bool := (k.w 0).getLsbD 12
def Cmd.cntc (k : Cmd) : Bool := (k.w 0).getLsbD 13
def Cmd.tag (k : Cmd) : Nat := field (k.w 0) 63 48

/-- ENGINE_HEAD_AGING: a head has waited 65,536 engine clocks (R149). -/
def execEngineHeadAging (die unit prio : Nat) (s : State) : Result :=
  match unitQueue s die unit prio with
  | [] => .next s
  | k :: rest =>
    if k.aged.isSome then .next s
    else .next (setUnitQueue { s with nextReq := s.nextReq + 1 } die unit prio
      ({ k with aged := some s.nextReq } :: rest))

/-! ## Completion (R170-R172) -/

/-- What a command's status reports. -/
structure Status where
  err    : Nat
  stat1  : Nat
  poison : Bool
  desync : Bool
  edge   : Bool
  flags  : Flags
  deriving DecidableEq, Repr

/-- A status with an error and nothing else. -/
def Status.error (err stat1 : Nat) (poison : Bool) : Status := ⟨err, stat1, poison, false, false, 0⟩

/-- STAT0 (R172). -/
def Status.stat0 (st : Status) (tag : Nat) : Word :=
  word (tag * 2 ^ 48 + st.err * 2 ^ 40 + 2 ^ 39 + b2n st.poison * 2 ^ 35 + b2n st.desync * 2 ^ 34
    + b2n st.edge * 2 ^ 33 + st.flags.toNat)

/-- Put an entry of a group's status table. -/
def putStatus (s : State) (gid n : Nat) (st0 st1 : Word) : State :=
  modGroup s gid fun g => { g with
    stat := g.stat.set (0, 0) n (st0, st1)
    marks := (g.marks.set false (gmStat (2 * n)) false).set false (gmStat (2 * n + 1)) false }

/-- Completion, one event: the two status words, the owner bits of the named tiles under FLIP, the C counter;
the command leaves its queue (R170). -/
def completeWords (s : State) (die unit prio : Nat) (k : Cmd) (named : List (Nat × Nat × Nat))
    (st0 st1 : Word) : State :=
  let s := putStatus s k.gid (k.tag % 64) st0 st1
  let s := if k.flip then named.foldl (fun s (d, p, t) => setOwner s d p t false) s else s
  let s := if k.cntc then modWave s k.gid k.wave fun w =>
      Wave.retireC { w with cq := w.cq.map fun e => if e.1 == k.id then (e.1, true) else e }
    else s
  let s := { s with unitAns := s.unitAns.set [] (64 * die + unit) [], unitFar := s.unitFar.set [] (64 * die + unit) [] }
  setUnitQueue s die unit prio ((unitQueue s die unit prio).filter fun x => x.id != k.id)

/-- Completion with a status. -/
def completeCmd (s : State) (die unit prio : Nat) (k : Cmd) (named : List (Nat × Nat × Nat))
    (st : Status) : State :=
  completeWords s die unit prio k named (st.stat0 k.tag) (word st.stat1)

/-- The accesses that a command makes in this package have been made: it completes, or goes on with what it has to send
beyond the package (R306). -/
def finishCmd (s : State) (die unit prio : Nat) (k : Cmd) (named : List (Nat × Nat × Nat)) (st : Status)
    (out : List FarSend) : State :=
  if out.isEmpty then completeCmd s die unit prio k named st
  else modCmd s die unit prio k.id fun k => { k with fin := some ⟨out, st.stat0 k.tag, word st.stat1, named⟩ }

/-- A command sends what it has still to send, and completes when every answer has come: with ERR 0x0A where a package
has not answered (R173, R306). -/
def finishStep (s : State) (die unit prio : Nat) (k : Cmd) (f : Finish) : State :=
  let key := 64 * die + unit
  let mine := s.unitFar.get [] key
  if !f.todo.isEmpty then
    let (s, rs, left) := sendSome f.todo s
    modCmd { s with unitFar := s.unitFar.set [] key (mine ++ rs) } die unit prio k.id
      fun k => { k with fin := some { f with todo := left } }
  else if !farDone mine then s
  else if field f.stat0 47 40 == 0 && mine.any (fun r => r.res == .bad 4) then
    completeWords s die unit prio k f.named (f.stat0 ||| word (0x0A * 2 ^ 40)) f.stat1
  else completeWords s die unit prio k f.named f.stat0 f.stat1

/-! ## Tensor descriptors (R155-R157) -/

/-- A tensor descriptor. -/
structure Desc where
  base    : Nat
  t       : Nat
  rank    : Nat
  l       : Bool
  swz     : Nat
  fill    : Nat
  dims    : List Nat
  strides : List Nat       -- modulo 2^64; the first is 0
  boxes   : List Nat
  smooth  : Nat
  ctable  : Nat
  cmask   : Nat
  aq      : Nat
  res     : Bool
  deriving DecidableEq, Repr

/-- The descriptor that 128 bytes hold (R155). -/
def Desc.ofBytes (bs : List Byte) : Desc :=
  let n := natOfBytes bs
  { base := bitsOf n 63 0, t := bitsOf n 68 64, rank := bitsOf n 71 69, l := bitOf n 72
    swz := bitsOf n 87 80, fill := bitsOf n 127 96
    dims := (List.range 6).map fun k => bitsOf n (159 + 32 * k) (128 + 32 * k)
    strides := 0 :: (List.range 5).map fun k => bitsOf n (383 + 64 * k) (320 + 64 * k)
    boxes := (List.range 6).map fun k => bitsOf n (655 + 16 * k) (640 + 16 * k)
    smooth := bitsOf n 831 768, ctable := bitsOf n 895 832, cmask := bitsOf n 959 896
    aq := bitsOf n 1023 960
    res := bitsOf n 79 73 != 0 || bitsOf n 95 88 != 0 || bitsOf n 767 736 != 0 }

/-- A code of T 19-24. -/
def mxCode (t : Nat) : Bool := 19 ≤ t && t ≤ 24
/-- Element bytes of a non-MX type (R155). -/
def elemBytes (t : Nat) : Nat := if t == 0 then 1 else (tyOf t).width / 8
/-- Bytes of a block in memory of a type code (R91). -/
def tyBlockBytes (t : Nat) : Nat := blockBytes (fmtCode (tyOf t))

/-- A legal swizzle code for a base (R157). -/
def swizzleOk (z base : Nat) : Bool :=
  z % 8 ≤ 3 && z < 64 && base % 2 ^ (7 + z / 8 + z % 8) == 0

/-- The swizzled byte offset (R157). -/
def swizzle (z o : Nat) : Nat := o ^^^ (o / 2 ^ (7 + z / 8 % 8) % 2 ^ (z % 8) * 16)

def Desc.dim (d : Desc) (k : Nat) : Nat := d.dims.getD k 0
def Desc.box (d : Desc) (k : Nat) : Nat := d.boxes.getD k 0
def Desc.stride (d : Desc) (k : Nat) : Nat := d.strides.getD k 0

/-- The strides of a dense MX tensor: signed, and compared with the exact products (R155, R156). -/
def Desc.dense (d : Desc) : Bool :=
  (List.range 5).all fun i =>
    let k := i + 1
    !(k < d.rank) ||
      intOf true 64 (d.stride k) == (if k == 1 then ((d.dim 0 * tyBlockBytes d.t / 32 : Nat) : Int)
        else intOf true 64 (d.stride (k - 1)) * (d.dim (k - 1) : Nat))

/-- An invalid descriptor (R156); `slot`: the destination descriptor of a WBFILL. DESIGN CHOICE (log entry 62): AQPARM,
CTABLE and SMOOTHV are used as they stand, whatever their alignment (R155 gives a breach no consequence). -/
def Desc.invalid (d : Desc) (slot : Bool) : Bool :=
  let beyond := (List.range 6).any fun k =>
    d.rank ≤ k && (d.dim k != 0 || d.box k != 0 || d.stride k != 0)
  let empty := (List.range 6).any fun k => k < d.rank && (d.dim k == 0 || d.box k == 0)
  let e := elemBytes d.t
  d.rank == 0 || d.rank == 7 || 26 ≤ d.t || d.res || beyond || empty ||
    (if mxCode d.t then d.base % 128 != 0 || d.dim 0 % 32 != 0 || !d.dense
     else d.base % e != 0 || d.strides.any fun x => x % e != 0) ||
    (d.swz != 0 && (!d.l || mxCode d.t || !swizzleOk d.swz d.base)) ||
    (if slot then d.aq != 0 else (d.t == 25) != (d.aq != 0))

/-- The linear index of coordinates within dimensions, dimension 0 innermost. -/
def linear : List Nat → List Nat → Nat
  | c :: cs, d :: ds => c + d * linear cs ds
  | _, _ => 0

/-- Address of an element of a non-MX tensor (R155, R157). DESIGN CHOICE (log entry 62): the sum is taken modulo 2^64, also
of an offset in `.l`, before its bound is checked. -/
def Desc.elemAddr (d : Desc) (z : Nat) (cs : List Nat) : Nat :=
  let o := (cs.headD 0 * elemBytes d.t + ((cs.zip d.strides).foldl (fun a (c, x) => a + c * x) 0)) % 2 ^ 64
  (d.base + swizzle z o) % 2 ^ 64

/-- Address of block b of an MX tensor. -/
def Desc.blockAddr (d : Desc) (b : Nat) : Nat := (d.base + b * tyBlockBytes d.t) % 2 ^ 64

/-- Every coordinate of a box, dimension 0 fastest. -/
def boxCoords : List Nat → List (List Nat)
  | [] => [[]]
  | b :: bs => (boxCoords bs).flatMap fun r => (List.range b).map fun i => i :: r

/-! ## Copy commands (R152-R154) -/

/-- A copy command with its two descriptors. -/
structure Copy where
  k  : Cmd
  sd : Desc
  dd : Desc
  deriving DecidableEq, Repr

def Copy.op (c : Copy) : Nat := c.k.op
def Copy.rm (c : Copy) : Nat := field (c.k.w 0) 34 32
def Copy.policy (c : Copy) : Nat := field (c.k.w 0) 37 35
def Copy.mul (c : Copy) : Bool := (c.k.w 0).getLsbD 38
def Copy.swzCode (c : Copy) : Nat := field (c.k.w 0) 47 40
def Copy.srcT (c : Copy) : Nat := field (c.k.w 0) 31 24
def Copy.dstT (c : Copy) : Nat := field (c.k.w 0) 23 16
def Copy.sat (c : Copy) : Bool := (c.k.w 0).getLsbD 15
def Copy.edgeFill (c : Copy) : Bool := (c.k.w 0).getLsbD 14
def Copy.compand (c : Copy) : Bool := (c.k.w 0).getLsbD 11
def Copy.smooth (c : Copy) : Bool := (c.k.w 0).getLsbD 10
def Copy.stoch (c : Copy) : Bool := (c.k.w 0).getLsbD 9
def Copy.transp (c : Copy) : Bool := (c.k.w 0).getLsbD 8
/-- Origin k, signed (R153). -/
def Copy.origin (c : Copy) (k : Nat) : Int :=
  intOf true 32 (field (c.k.w (3 + k / 2)) (31 + 32 * (k % 2)) (32 * (k % 2)))
def Copy.scaleBits (c : Copy) : Nat := field (c.k.w 7) 63 32
def Copy.selector (c : Copy) : Nat := field (c.k.w 7) 31 0
def Copy.land (c : Copy) : Bool := c.op == 6
def Copy.wbfill (c : Copy) : Bool := c.op == 5
def Copy.gather (c : Copy) : Bool := c.op == 2
def Copy.imp (c : Copy) : Bool := c.op == 3
def Copy.exp (c : Copy) : Bool := c.op == 4
/-- The destination is named by a gate tile (R167, R168). -/
def Copy.gated (c : Copy) : Bool := c.land || c.wbfill
/-- The swizzle of the destination (R152). -/
def Copy.dstSwz (c : Copy) : Nat := if c.swzCode == 0 then c.dd.swz else c.swzCode

/-- The largest finite magnitude as a fraction (R32, R40); the largest aq8 code is 255 (R44). -/
def maxMag (t : Nat) : Option (Nat × Nat) :=
  let ty := tyOf t
  if ty == .aq8 then some (255, 1)
  else if mxCode t then some ((maxOf ty).1 * 2 ^ 127, (maxOf ty).2)
  else if ty == .e8m0 then some (2 ^ 127, 1)
  else match fmtOf ty with
    | some f => match decodeFmt f f.maxPat with
      | .fin _ n d => some (n, d)
      | _ => none
    | none => some ((intMax ty).toNat, 1)

/-- A copy's conversion is narrowing (R32). -/
def copyNarrowing (dst src : Nat) : Bool :=
  if src == 0 || dst == 0 then false
  else if mxCode dst then true
  else
    let narrow := dst == 9 || dst == 10 || dst == 11 || (13 ≤ dst && dst ≤ 18) || dst == 25
    -- an aq8 source has an unbounded largest finite magnitude
    let larger := src == 25 || match maxMag src, maxMag dst with
      | some (n, d), some (n', d') => n' * d < n * d'
      | _, _ => false
    narrow && ((tyOf dst).sigBits < (tyOf src).sigBits || larger)

/-- S is a positive, finite, normal f32, a power of two for an MX destination (R154). -/
def tileScaleOk (bits : Nat) (mx : Bool) : Bool :=
  let e := bits / 2 ^ 23 % 256
  bits < 2 ^ 31 && 0 < e && e < 255 && (!mx || bits % 2 ^ 23 == 0)

/-- Product of the extents of a box. -/
def Desc.boxSize (d : Desc) : Nat := ((List.range d.rank).map d.box).foldl (· * ·) 1

/-- The box fits the dimensions. -/
def Desc.boxFits (d : Desc) : Bool := (List.range d.rank).all fun k => d.box k ≤ d.dim k

/-- Bytes of a LAND stream (R167): whole slices of registers hold a block each, or two FP4 blocks. -/
def Copy.streamBytes (c : Copy) : Nat :=
  if mxCode c.dd.t then c.dd.boxSize / 32 * (if c.dd.t == 23 then 16 else 32)
  else c.dd.boxSize * elemBytes c.dd.t

/-- Bytes of one k-block of a slot's type (R277). -/
def slotBlockBytes (t : Nat) : Nat :=
  if mxCode t then tyBlockBytes t else if t == 25 then 32 else 64

/-- Where the scales or parameter words of a slot lie, and where they end (R277). -/
def slotD1 (t n kb : Nat) : Nat := 64 + n * kb * slotBlockBytes t
def slotD2 (t n kb : Nat) : Nat :=
  slotD1 t n kb + (if mxCode t then n * kb else if t == 25 then 8 * n else 0)
/-- Bytes of a slot's storage form (R277). -/
def slotBytes (t n kb : Nat) (compand : Bool) : Nat :=
  slotD2 t n kb + (if compand then 136 + (n + 7) / 8 else 0)

/-- Items 1-6 of R154. -/
def Copy.badWords (c : Copy) : Bool :=
  let w := c.k.w
  let mxd := mxCode c.dd.t
  let selector := match c.op with
    | 1 => c.selector != 0
    | 2 => field (w 7) 1 0 != 0
    | 5 => 8 ≤ c.selector
    | 6 => bitsOf c.selector 31 20 != 0 || bitsOf c.selector 15 14 != 0 || 2 ≤ bitsOf c.selector 13 12
    | _ => false
  let scaled := c.op == 1 || c.gated
  let origins := (List.range 6).any fun k =>
    c.sd.rank ≤ k && !((c.imp || c.exp) && 4 ≤ k) && c.origin k != 0
  (w 0).getLsbD 39 || (c.mul && c.policy != 3) || field (w 1) 6 0 != 0 || field (w 2) 6 0 != 0 ||
    ((c.imp || c.exp) && field (w 5) 31 0 != 0) || selector || origins ||
    (scaled && c.policy != 3 && c.scaleBits != 0) ||
    26 ≤ c.srcT || 26 ≤ c.dstT || c.srcT != c.sd.t || c.dstT != c.dd.t ||
    (c.srcT == 0) != (c.dstT == 0) ||
    6 ≤ c.rm || (c.rm == 4 && c.srcT == c.dstT) || (c.rm == 5 && !copyNarrowing c.dstT c.srcT) ||
    c.stoch != (c.rm == 5) ||
    4 ≤ c.policy || ((c.policy == 1 || c.policy == 2) && !mxd) ||
    (c.policy == 2 && (!mxCode c.sd.t || c.transp || c.origin 0 % 32 != 0)) ||
    (c.policy == 3 && (c.gather || c.imp || c.exp || !tileScaleOk c.scaleBits mxd)) ||
    (c.transp && (c.gather || c.imp || c.exp || c.sd.rank < 2 || c.dd.rank < 2)) ||
    (c.compand && !c.wbfill) || ((c.smooth || c.compand) && c.srcT == 0) ||
    (c.swzCode != 0 && (!c.dd.l || mxd || !swizzleOk c.swzCode c.dd.base))

/-- Item 7 of R154: the geometry and what each command limits (R158, R164-R168). DESIGN CHOICE (log entry 62): an MX
destination whose BOX0 is no multiple of 32 breaks the geometry (R160 gives no error code), and so do a slot of any type
whose DIM0 is no multiple of 32 (R277 has KB = DIM0 / 32 and gives no error code), an IMPORT from `.l` and an EXPORT to `.l`
(R164 names the limit, and its kind of memory would give 0x04). -/
def Copy.badGeometry (c : Copy) : Bool :=
  let sd := c.sd
  let dd := c.dd
  let tbox (k : Nat) : Nat :=
    if c.transp && k == 0 then dd.box 1 else if c.transp && k == 1 then dd.box 0 else dd.box k
  let same := sd.rank != dd.rank || (List.range 6).any fun k => sd.box k != tbox k
  let mxBox := mxCode dd.t && dd.box 0 % 32 != 0
  let gate := dd.base % 4096 != 0
  match c.op with
  | 1 => same || !dd.boxFits || mxBox
  | 2 => sd.rank != dd.rank || sd.rank < 2 || 64 < dd.box 1 || c.origin 1 != 0 || !dd.boxFits || mxBox ||
      (List.range 6).any fun k => k != 1 && sd.box k != dd.box k
  | 3 => sd.rank != 1 || sd.l || !mxCode sd.t || sd.t != dd.t || sd.dim 0 != sd.box 0 || !dd.boxFits ||
      mxBox || dd.boxSize != sd.dim 0 || c.rm != 0 || c.smooth || c.policy != 0
  | 4 => dd.rank != 1 || dd.l || !mxCode sd.t || sd.t != dd.t || dd.dim 0 != dd.box 0 || !sd.boxFits ||
      sd.box 0 % 32 != 0 || sd.boxSize != dd.dim 0 || c.rm != 0 || c.smooth || c.policy != 0
  | 5 => same || !dd.boxFits || mxBox || gate || sd.t == 0 || dd.t < 19 || dd.rank != 2 ||
      dd.dim 0 % 32 != 0 || 65536 < slotBytes dd.t (dd.dim 1) (dd.dim 0 / 32) c.compand
  | 6 => same || !dd.boxFits || mxBox || gate || sd.t == 0 || c.streamBytes % 32 != 0 ||
      (bitsOf c.selector 13 12 == 1 && (!(dd.t == 11 || dd.t == 7) || 64 < dd.box 0 || 64 < dd.box 1 ||
        (List.range 6).any fun k => 2 ≤ k && 1 < dd.box k))
  | _ => true

/-- A malformed command (R154). -/
def Copy.malformed (c : Copy) : Bool := c.badWords || c.badGeometry

/-! ## What a command reads and writes (R158) -/

/-- A run of bytes: in the pushing group's scratchpad, or at a VA. -/
structure Span where
  l    : Bool
  addr : Nat
  n    : Nat
  deriving DecidableEq, Repr

/-- One destination element: its coordinates, its linear index, and the source element (`none`: the fill
value). -/
structure Item where
  d    : List Nat
  lin  : Nat
  src  : Option (List Nat)
  edge : Bool
  deriving DecidableEq, Repr

/-- Clamp a coordinate to 0 .. n - 1. -/
def clampTo (x : Int) (n : Nat) : Nat := if x < 0 then 0 else min x.toNat (n - 1)

/-- The items of a command, in row-major order; `idx` holds a GATHER's indices. -/
def Copy.items (c : Copy) (idx : List Nat) : List Item :=
  (boxCoords (c.dd.boxes.take c.dd.rank)).map fun d =>
    let d' := match d, c.transp with
      | x :: y :: r, true => y :: x :: r
      | _, _ => d
    let s : List Int := d'.zipIdx.map fun (x, k) =>
      if c.gather && k == 1 then ((idx.getD x 0 : Nat) : Int) else c.origin k + x
    let out := s.zipIdx.any fun (x, k) => x < 0 || (c.sd.dim k : Int) ≤ x
    let row := c.gather && c.sd.dim 1 ≤ (s.getD 1 0).toNat
    let at_ := s.zipIdx.map fun (x, k) => clampTo x (c.sd.dim k)
    ⟨d, linear d c.dd.dims, if row || (out && c.edgeFill) then none else some at_, out⟩

/-- The linear block number of a source element. -/
def Copy.srcBlock (c : Copy) (cs : List Nat) : Nat := linear cs c.sd.dims / 32

/-- Blocks of a box in row-major order, by their numbers in the tensor. -/
def Desc.boxBlocks (d : Desc) : List Nat :=
  ((boxCoords (d.boxes.take d.rank)).filter fun cs => cs.headD 0 % 32 == 0).map fun cs =>
    linear cs d.dims / 32

/-- The source bytes of the items. -/
def Copy.srcSpans (c : Copy) (items : List Item) : List Span :=
  let es := items.filterMap Item.src
  if mxCode c.sd.t then
    (dedup (es.map c.srcBlock)).map fun b => ⟨c.sd.l, c.sd.blockAddr b, tyBlockBytes c.sd.t⟩
  else es.map fun cs => ⟨c.sd.l, c.sd.elemAddr c.sd.swz cs, elemBytes c.sd.t⟩

/-- The destination bytes of the items; the gate tile of LAND and WBFILL. -/
def Copy.dstSpans (c : Copy) (items : List Item) : List Span :=
  if c.gated then []
  else if mxCode c.dd.t then
    (items.filter fun i => i.lin % 32 == 0).map fun i =>
      ⟨c.dd.l, c.dd.blockAddr (i.lin / 32), tyBlockBytes c.dd.t⟩
  else items.map fun i => ⟨c.dd.l, c.dd.elemAddr c.dstSwz i.d, elemBytes c.dd.t⟩

/-- IMPORT and EXPORT: the scale array (R166). -/
def Copy.scaleSpan (c : Copy) (n : Nat) : Span := ⟨false, (c.k.w 7).toNat, n⟩

/-- Everything a command reads and writes. -/
structure Places where
  structs : List Span       -- index list, smoothing vector, companding table and mask
  params  : List Span       -- AQ8 parameter words read
  srcs    : List Span
  dsts    : List Span
  paramsW : List Span       -- AQ8 parameter words written
  deriving DecidableEq, Repr

/-- The index list (R165). -/
def Copy.indexSpan (c : Copy) : List Span := if c.gather then [⟨false, (c.k.w 7).toNat, 4 * c.dd.box 1⟩] else []

/-- The structures that steer a command (R98); the vectors of the destination descriptor (log entry 22). -/
def Copy.structSpans (c : Copy) : List Span :=
  c.indexSpan ++ (if c.smooth then [⟨false, c.dd.smooth, 4 * c.dd.dim 0⟩] else []) ++
    (if c.compand then [⟨false, c.dd.ctable, 136⟩, ⟨false, c.dd.cmask, (c.dd.dim 1 + 7) / 8⟩] else [])

/-- The channel of an element (R161). -/
def channelOf (cs dims : List Nat) : Nat := linear cs dims / dims.headD 1

/-- A conversion in which every element's bits are copied (R159). -/
def Copy.bitCopy (c : Copy) : Bool :=
  c.srcT == c.dstT && !mxCode c.dstT && !c.smooth && !c.compand && (c.policy != 3 || c.dstT == 0)

/-- The places of a command. -/
def Copy.places (c : Copy) (items : List Item) : Places :=
  if c.imp then
    let n := c.sd.dim 0 / 32
    ⟨[], [], (List.range n).map (fun i => ⟨false, c.sd.blockAddr i, tyBlockBytes c.sd.t⟩) ++ [c.scaleSpan n],
      c.dd.boxBlocks.map fun b => ⟨c.dd.l, c.dd.blockAddr b, tyBlockBytes c.dd.t⟩, []⟩
  else if c.exp then
    let n := c.dd.dim 0 / 32
    ⟨[], [], c.sd.boxBlocks.map fun b => ⟨c.sd.l, c.sd.blockAddr b, tyBlockBytes c.sd.t⟩,
      (List.range n).map (fun i => ⟨false, c.dd.blockAddr i, tyBlockBytes c.dd.t⟩) ++ [c.scaleSpan n], []⟩
  else
    let word8 (base : Nat) (n : Nat) : Span := ⟨false, (base + 8 * n) % 2 ^ 64, 8⟩
    let sch := if c.sd.t == 25 && (c.wbfill || !c.bitCopy) then
        dedup ((items.filterMap Item.src).map fun cs => channelOf cs c.sd.dims) else []
    let dch := if c.dd.t == 25 && !c.wbfill then
        dedup (items.map fun i => channelOf i.d c.dd.dims) else []
    ⟨c.structSpans, sch.map (word8 c.sd.aq), c.srcSpans items, c.dstSpans items,
      if c.bitCopy then [] else dch.map (word8 c.dd.aq)⟩

/-! ## Translation by a unit (R114) -/

/-- The unit that runs a command: its die, its number, the address space, the pushing group, the answers that it holds
of host-assisted walks, and its accesses beyond the package. -/
structure Runner where
  die  : Nat
  unit : Nat
  asid : Nat
  g    : Group
  ans  : List Answer
  far  : List FarReq
  deriving DecidableEq, Repr

/-- A unit's number among all (R118). -/
def Runner.key (r : Runner) : Nat := 64 * r.die + r.unit

/-- A unit with what it holds. -/
def unitRunner (s : State) (die unit asid : Nat) (g : Group) : Runner :=
  ⟨die, unit, asid, g, s.unitAns.get [] (64 * die + unit), s.unitFar.get [] (64 * die + unit)⟩

/-- A unit that acts as PUSH and TRAYPUT.drain accept a command: with the answers that the pushing wave holds. -/
def pushRunner (c : Issuer) (die unit : Nat) : Runner := ⟨die, unit, c.g.asid, c.g, c.answers, c.w.far⟩

/-- Translate for a unit. -/
def Runner.translate (r : Runner) (s : State) (va : Nat) (kind : AKind) : State × TransRes :=
  translateEngine s r.die r.asid va kind r.ans

/-- Translate without any effect. -/
def Runner.peek (r : Runner) (s : State) (va : Nat) (kind : AKind) : Option Trans :=
  match (r.translate s va kind).2 with
  | .ok t => some t
  | _ => none

/-- The pages of some spans by page number, each with the first byte used in it, plus one. -/
def spanPages (spans : List Span) : Sparse Nat :=
  spans.foldl (fun m sp =>
    if sp.l then m
    else (pagesOf sp.addr sp.n).foldl (fun m (va, _) =>
      let old := m.get 0 (va / 4096)
      if old == 0 || va % 4096 + 1 < old then m.set 0 (va / 4096) (va % 4096 + 1) else m) m) []

/-- What kind of memory a command may use in a place (R164). -/
inductive Kind where
  | any | local_ | host | hbm
  deriving DecidableEq, Repr

/-- Status of a translation failure (R172, R173). -/
def transStatus (cause level va : Nat) : Status :=
  .error (cause - 4) (level * 2 ^ 57 + va % 2 ^ 57) false

/-- The storage reached refuses a command (R86, R164, R318): a status where it does. An engine reads every range of a
window, and writes its scratchpad and common registers (R86). -/
def kindRefused (s : State) (k : Kind) (read : Bool) (va pa : Nat) : Option Status :=
  let no := some (transStatus 8 6 va)
  match regionOf (resolvePa s pa) with
  | .hbm _ => if k == .host then no else none
  | .window _ _ off =>
    if k == .host || k == .hbm then no
    else match winRange off with
      | .spad => none
      | .reserved => no
      | .common => if read || k == .any then none else no
      | _ => if read then none else no
  | .pod pkg _ =>
    if k == .host || k == .hbm then no
    else if s.regs.mode == 0 || s.regs.npkg ≤ pkg then some (.error 0x0A 0 false) else none
  | .host _ => if k == .local_ || k == .hbm then no else none
  | _ => no

/-- Pages with their translations. -/
abbrev PageTable := Sparse (Option Trans)

/-- The translations of a command, for its reads and for its writes. -/
structure Tables where
  rd : PageTable
  wr : PageTable
  deriving DecidableEq, Repr

/-- A page that a command uses: how, its number, and the first byte used in it, plus one. -/
structure PageUse where
  kind  : AKind
  page  : Nat
  first : Nat
  deriving DecidableEq, Repr

/-- Put a page among others in ascending order, behind those of its number. -/
def insertPage (u : PageUse) : List PageUse → List PageUse
  | [] => [u]
  | x :: xs => if u.page < x.page then u :: x :: xs else x :: insertPage u xs

/-- The pages of the spans that a group of pages reads or writes, in one ascending order (R438). -/
def pageUses (kind : AKind) (sps wsps : List Span) : List PageUse :=
  ((spanPages wsps).map fun (p, f) => PageUse.mk .write p f).foldl (fun l u => insertPage u l)
    ((spanPages sps).map fun (p, f) => ⟨kind, p, f⟩)

/-- Translate pages in their order; the first failure decides (R438). DESIGN CHOICE (log entry 62): POISON is set where
a table walk has met a poisoned line. -/
def Runner.translateUses (r : Runner) (mem : Kind) :
    List PageUse → Tables → State → State × Except Status Tables
  | [], tb, s => (s, .ok tb)
  | u :: rest, tb, s =>
    let va := 4096 * u.page + (u.first - 1)
    match r.translate s va u.kind with
    | (s, .ok t) =>
      match kindRefused s mem (u.kind == .read) va t.pa with
      | some st => (s, .error st)
      | none =>
        let t := { t with pa := t.pa - va % 4096 }
        let tb : Tables := if u.kind == .write then { tb with wr := tb.wr.set none u.page (some t) }
          else { tb with rd := tb.rd.set none u.page (some t) }
        r.translateUses mem rest tb s
    | (s, .fail cause level) => (s, .error (transStatus cause level va))
    | (s, .poison) => (s, .error (.error 0x0B 0 true))
    | (s, .pending) => (s, .error (transStatus 7 0 va))

/-- Translate the pages of some spans of one kind in ascending order. -/
def Runner.translatePages (r : Runner) (s : State) (kind : AKind) (mem : Kind) (spans : List Span) :
    State × Except Status PageTable :=
  match r.translateUses mem ((spanPages spans).map fun (p, f) => ⟨kind, p, f⟩) ⟨[], []⟩ s with
  | (s, .ok tb) => (s, .ok (if kind == .write then tb.wr else tb.rd))
  | (s, .error e) => (s, .error e)

/-- The walks that some spans still wait for (R118). -/
def Runner.pending (r : Runner) (s : State) (kind : AKind) (spans : List Span) : List Nat :=
  (spanPages spans).filterMap fun (page, first) =>
    let va := 4096 * page + (first - 1)
    match (r.translate s va kind).2 with
    | .pending => some va
    | _ => none

/-- The PA of a byte of a span. -/
def Runner.pa (r : Runner) (tbl : PageTable) (l : Bool) (addr : Nat) : Nat :=
  if l then spadPa r.g addr
  else match tbl.get none (addr / 4096) with
    | some t => t.pa + addr % 4096
    | none => 0

/-- The PAs of a span. -/
def Runner.pas (r : Runner) (tbl : PageTable) (sp : Span) : List Nat :=
  (List.range sp.n).map fun i => r.pa tbl sp.l (sp.addr + i)

/-- What a byte of a core's storage is, through the window (R204), and whether its word fails its residue or is marked
as uncorrectable (R211, R213). Storage that no resident group holds is free (log entry 62). -/
def windowByte (s : State) (die phys off : Nat) : Byte × Bool :=
  let idle : Byte × Bool := (Config.idleByte (windowPa die phys off), false)
  let here := s.groups.filter fun g => g.die == die && g.phys == phys
  let reg (idx : Nat) (f : Wave → Nat → Byte × Bool) : Byte × Bool :=
    ((here.findSome? fun g => (g.waves.find? fun w => w.vbase ≤ idx && idx < w.vbase + g.vregs).map
      fun w => f w (idx - w.vbase)).getD idle)
  let byteAt (n k : Nat) : Byte := BitVec.ofNat 8 (n / 2 ^ (8 * k))
  match winRange off with
  | .vregs => reg (off / 256) fun w n =>
      let l := off % 256 / 8
      (byteAt (w.readV n l).toNat (off % 8), w.marked (mkV n l))
  | .side => reg ((off - winSide) / 16) fun w n =>
      let j := off % 16 / 2
      (byteAt (w.readSide n j).toNat (off % 2), w.marked (mkSide n j (off % 2)))
  | .tiles =>
    let o := off - winTiles
    (here.findSome? fun g => (g.tileIds.findIdx? fun h => h == o / 32768).map fun m =>
      (byteAt (g.cells.get 0 (4096 * m + o % 32768 / 8)).toNat (o % 8),
        ((g.tstat[m]?).map TileStat.uce).getD false)).getD idle
  | .slots =>
    let o := off - winSlots
    (here.findSome? fun g => (g.wbIds.findIdx? fun h => h == o / 65536).map fun m =>
      (g.wb.get 0 (65536 * m + o % 65536), g.wbMark.get false (65536 * m + o % 65536))).getD idle
  | .common => (readPa s (windowPa die phys off), commonMarked s (windowPa die phys off))
  | _ => (readPa s (windowPa die phys off), false)

/-- The bytes that an engine reads from a PA, with the answers that it holds from beyond the package, and whether a word among
them fails (R213, R307). -/
def engineRead (s : State) (far : List FarReq) (pa n : Nat) : List Byte × Bool :=
  match regionOf (resolvePa s pa) with
  | .window die phys off =>
    let bs := (List.range n).map fun i => windowByte s die phys (off + i)
    (bs.map Prod.fst, bs.any Prod.snd)
  | _ => (farRun s far pa n, false)

/-- The parts of a span that lie in one page. -/
def Runner.parts (r : Runner) (tbl : PageTable) (sp : Span) : List Piece :=
  (if sp.l then [(sp.addr, sp.n)] else pagesOf sp.addr sp.n).map fun (a, n) => ⟨a, n, ownTrans (r.pa tbl sp.l a)⟩

/-- A part reads as poisoned: a poisoned line here, or an answer from beyond the package that carries poison or that the
host has failed (R98, R335). -/
def Runner.badPart (r : Runner) (s : State) (p : Piece) : Bool :=
  if isRemote s p then farBad r.far p == some 0 || farBad r.far p == some 5 else poisonedRun s p.tr.pa p.len

/-- Read a span: its bytes, and whether any of them is poisoned. -/
def Runner.fetch (r : Runner) (s : State) (tbl : PageTable) (sp : Span) : List Byte × Bool :=
  let ps := r.parts tbl sp
  (ps.flatMap fun p => (engineRead s r.far p.tr.pa p.len).1, ps.any (r.badPart s))

/-- A span holds a word of a core's storage that fails its residue or parity (R213). -/
def Runner.fails (r : Runner) (s : State) (tbl : PageTable) (sp : Span) : Bool :=
  (r.parts tbl sp).any fun p => (engineRead s r.far p.tr.pa p.len).2

/-- A span lies in a package that has not answered (R323). -/
def Runner.dead (r : Runner) (s : State) (tbl : PageTable) (sp : Span) : Bool :=
  (r.parts tbl sp).any fun p => isRemote s p && farBad r.far p == some 4

/-- What some spans read beyond the package and the unit has not yet asked for (R307, R308); `blocks`: each span is an MX
block, which is read in one event (R303). -/
def Runner.wants (r : Runner) (s : State) (tbl : PageTable) (blocks : Bool) (sps : List Span) : List FarKey :=
  missingKeys r.far (sps.flatMap fun sp => (if blocks then blockKeys else farGranules) s (r.parts tbl sp))

/-- A unit asks for granules beyond the package, as far as the retry buffers have room (R319). -/
def askUnit (s : State) (key : Nat) (ks : List FarKey) : State :=
  let (s, rs) := askFar s (ks.take (8192 - retryCount s))
  { s with unitFar := s.unitFar.set [] key (s.unitFar.get [] key ++ rs) }

/-- Another party has written some bytes: the cores' copies of their lines go (R122). -/
def recallAll (s : State) (pas : List Nat) : State :=
  let lines := dedup (pas.filterMap fun pa => match regionOf (resolvePa s pa) with
    | .hbm off => some (off / 128)
    | _ => none)
  { s with l1 := s.l1.filter fun l => !lines.contains l.pa }

/-- Set D for the pages of some spans (R107). -/
def Runner.dirty (r : Runner) (tbl : PageTable) (spans : List Span) (s : State) : State :=
  (spanPages spans).foldl (fun s (page, _) => match tbl.get none page with
    | some t => setDirty s r.die r.asid (4096 * page) t
    | none => s) s

/-! ## Named tiles (R170) -/

/-- The scratchpad tile of a PA. -/
def tileOfPa (s : State) (pa : Nat) : Option (Nat × Nat × Nat) :=
  match regionOf (resolvePa s pa) with
  | .window die phys off =>
    if winRange off = .spad then some (die, phys, (off - winSpad) / 4096) else none
  | _ => none

/-- What an engine meets at a scratchpad tile that it is to read or write: nothing while the tile's bit is 1 (R123). -/
def tileRefused (s : State) (pa : Nat) : Option Status :=
  match tileOfPa s pa with
  | none => none
  | some (die, phys, tile) =>
    if ownerFails s die phys tile then some (.error 0x0B 0 false)
    else if ownedByEngine s die phys tile then none
    else some (.error 0x06 0 false)

/-- Tiles of some spans: of `.l` spans within the allotment, and of window scratchpad pages that
translate. -/
def Runner.tiles (r : Runner) (s : State) (kind : AKind) (spans : List Span) : List (Nat × Nat × Nat) :=
  let own := (spans.filter Span.l).flatMap fun sp =>
    (List.range ((sp.addr + sp.n - 1) / 4096 + 1 - sp.addr / 4096)).filterMap fun i =>
      let t := sp.addr / 4096 + i
      if sp.n != 0 && t < r.g.tiles then some (r.g.die, r.g.phys, r.g.spadBase + t) else none
  let win := (spanPages spans).filterMap fun (page, _) =>
    (r.peek s (4096 * page) kind).bind fun t => tileOfPa s t.pa
  dedup (own ++ win)

/-- The index list as it stands, where it can be read. -/
def Runner.peekIndex (r : Runner) (s : State) (c : Copy) : List Nat :=
  (List.range (c.dd.box 1)).map fun i =>
    let a := (c.k.w 7).toNat + 4 * i
    match r.peek s a .read with
    | some t => natOfBytes (engineRead s r.far t.pa 4).1
    | none => 2 ^ 32

/-- The gate tile as a span of LAND and WBFILL. -/
def Copy.gateSpan (c : Copy) : List Span := if c.gated then [⟨c.dd.l, c.dd.base, 4096⟩] else []

/-- The tiles that a command names; a command that ends with an error before it can name them names none
(R170). -/
def Runner.named (r : Runner) (s : State) (c : Copy) : List (Nat × Nat × Nat) :=
  if c.sd.invalid false || c.dd.invalid c.wbfill || c.malformed then []
  else
    let p := c.places (c.items (if c.gather then r.peekIndex s c else []))
    let descs : List Span := [⟨false, c.k.descVa 1, 128⟩, ⟨false, c.k.descVa 2, 128⟩]
    dedup (r.tiles s .read (descs ++ p.structs ++ p.params ++ p.srcs) ++
      r.tiles s .write (p.dsts ++ p.paramsW ++ c.gateSpan))

/-- The common-register sets that writes of some spans reach through windows (R125). -/
def Runner.setsOf (r : Runner) (s : State) (spans : List Span) : List (Nat × Nat × Nat) :=
  (spanPages spans).flatMap fun (page, _) =>
    match (r.peek s (4096 * page) .write).map fun t => regionOf (resolvePa s t.pa) with
    | some (.window die phys off) =>
      if winRange off = .common then
        ((List.range 8).filter fun i => spans.any fun sp =>
            !sp.l && sp.addr < 4096 * page + 512 * (i + 1) && 4096 * page + 512 * i < sp.addr + sp.n).map
          fun i => (die, phys, (off - winCommon) / 512 + i)
      else []
    | _ => []

/-- Those that a command writes. -/
def Runner.sets (r : Runner) (s : State) (c : Copy) : List (Nat × Nat × Nat) :=
  if c.sd.invalid false || c.dd.invalid c.wbfill || c.malformed then []
  else
    let p := c.places (c.items (if c.gather then r.peekIndex s c else []))
    r.setsOf s (p.dsts ++ p.paramsW)

/-- Translate the pages of some spans of one kind, for the A bits that this sets (R107). -/
def Runner.form (r : Runner) (kind : AKind) (spans : List Span) (s : State) : State :=
  (spanPages spans).foldl (fun s (page, first) => (r.translate s (4096 * page + (first - 1)) kind).1) s

/-- The translations by which the tiles that a command names are known, formed (R107, R170). -/
def Runner.formPlaces (r : Runner) (c : Copy) (s : State) : State :=
  if c.sd.invalid false || c.dd.invalid c.wbfill || c.malformed then s
  else
    let p := c.places (c.items (if c.gather then r.peekIndex s c else []))
    r.form .write (p.dsts ++ p.paramsW ++ c.gateSpan) (r.form .read (p.structs ++ p.params ++ p.srcs) s)

/-! ## Acceptance (R151, R155) -/

/-- What accepting a command still waits for. -/
inductive Needs where
  | walks (kind : AKind) (vas : List Nat)
  | far (ks : List FarKey)
  deriving DecidableEq, Repr

/-- What reading a descriptor at acceptance ends in. -/
inductive DescRead where
  | ok (bs : List Byte)
  | bad (st : Status)
  | needs (n : Needs)
  deriving DecidableEq, Repr

/-- Read the n bytes of a descriptor through the unit of a die, with what the pushing wave holds. -/
def readDesc (s : State) (r : Runner) (va n : Nat) : State × DescRead :=
  match r.translate s va .read with
  | (s, .pending) => (s, .needs (.walks .read [va]))
  | (s, .fail cause level) => (s, .bad (transStatus cause level va))
  | (s, .poison) => (s, .bad (.error 0x0B 0 true))
  | (s, .ok t) =>
    match kindRefused s .any true va t.pa with
    | some st => (s, .bad st)
    | none =>
      let p : Piece := ⟨va, n, t⟩
      match farMissing s r.far [p] with
      | k :: ks => (s, .needs (.far (k :: ks)))
      | [] =>
        if isRemote s p && farBad r.far p == some 4 then (s, .bad (.error 0x0A 0 false))
        else if r.badPart s p then (s, .bad (.error 0x0B 0 true))
        else
          let (bs, marked) := engineRead s r.far t.pa n
          (s, if marked then .bad (.error 0x0B 0 false) else .ok bs)

/-- The result code of sending a command to a queue (R151). DESIGN CHOICE (log entry 62): a command that the unit has taken and
not completed still counts among the 64 of its queue (R149). -/
def sendCode (s : State) (c : Issuer) (q limit die unit prio : Nat) : Nat :=
  if limit ≤ q then 3
  else if 64 ≤ (unitQueue s die unit prio).length then 1
  else if 256 ≤ trackerCount s c.g.die c.g.phys then 2
  else 0

/-- The registers of PUSH and TRAYPUT.drain: eight command words, the queue, the result, the predicate. -/
def sendUses (d : SReg) (p : PReg) (a : Fin 57) (b : SSrc) : List Use :=
  [.sw d, .pw p.val] ++ runUse (fun n => .sr (sregOf n)) a.val 8 ++ useS b

/-- The eight command words. -/
def cmdWords (w : Wave) (a : Fin 57) : List Word := (List.range 8).map fun i => w.s.get 0 (a.val + i)

/-- The sent indication and the result code. -/
def Wave.sent (w : Wave) (d : SReg) (p : PReg) (code : Nat) : Wave :=
  (w.writeS d (word code)).writeP p.val (List.range 32) fun _ => code == 0

/-- An accepted command counts on C and enters its queue. -/
def enqueueCmd (s : State) (c : Issuer) (d : SReg) (p : PReg) (len die unit prio : Nat) (k : Cmd) : State :=
  let s := setUnitQueue { s with nextReq := s.nextReq + 1 } die unit prio (unitQueue s die unit prio ++ [k])
  retireNow s c len fun w =>
    let w := w.sent d p 0
    if k.cntc then { w with cq := w.cq ++ [(k.id, false)] } else w

/-- The new command of an issuer. -/
def newCmd (s : State) (c : Issuer) (ws : List Word) : Cmd :=
  { id := s.nextReq, words := ws, gid := c.ref.gid, wave := c.ref.wave, die := c.g.die,
    phys := c.g.phys, asid := c.g.asid, reads := [], bad := [], tiles := [], sets := [], aged := none, started := false,
    hurt := false, drain := none, fin := none }

/-- The command waits at issue while C is full (R127, R151). -/
def waitsForC (c : Issuer) (k : Cmd) : Bool := k.cntc && 255 ≤ c.w.cntC

/-- The walks that the tiles of a command still wait for: with TRCTL.WALK = 1 the tracker cannot record them before
(R118, R151). -/
def Runner.tileWalks (r : Runner) (s : State) (c : Copy) : Option Needs :=
  if !s.regs.walkHost || c.sd.invalid false || c.dd.invalid c.wbfill || c.malformed then none
  else
    let p := c.places (c.items (if c.gather then r.peekIndex s c else []))
    match r.pending s .read (p.structs ++ p.params ++ p.srcs), r.pending s .write (p.dsts ++ p.paramsW ++ c.gateSpan) with
    | [], [] => none
    | [], vas => some (.walks .write vas)
    | vas, _ => some (.walks .read vas)

/-- The descriptors of an accepted copy command, read once, or failed at the first that cannot be read (R438, step 1);
and its tiles for the tracker (R151). -/
def acceptCopy (s : State) (c : Issuer) (die unit : Nat) (k : Cmd) : State × (Cmd ⊕ Needs) :=
  let r := pushRunner c die unit
  let failed (st : Status) : Cmd ⊕ Needs :=
    .inl { k with bad := [(st.err + 256 * b2n st.poison, st.stat1)] }
  match readDesc s r (k.descVa 1) 128 with
  | (s, .needs n) => (s, .inr n)
  | (s, .bad st) => (s, failed st)
  | (s, .ok sb) =>
    match readDesc s r (k.descVa 2) 128 with
    | (s, .needs n) => (s, .inr n)
    | (s, .bad st) => (s, failed st)
    | (s, .ok db) =>
      let cp : Copy := ⟨k, Desc.ofBytes sb, Desc.ofBytes db⟩
      match r.tileWalks s cp with
      | some n => (s, .inr n)
      | none =>
        (r.formPlaces cp s, .inl { k with reads := [(k.descVa 1, sb, false), (k.descVa 2, db, false)]
                                          tiles := r.named s cp, sets := r.sets s cp })

/-- The wave waits for what accepting its command needs. The instruction has issued: a stop of its group waits for it
(R151). -/
def awaitNeeds (s : State) (c : Issuer) (die : Nat) : Needs → State
  | .walks kind vas => holdAt (addWalks s die (.wave c.ref.gid c.ref.wave) c.g.asid kind vas) c .accept
  | .far ks =>
    let (s, rs) := askFar s (ks.take (8192 - retryCount s))
    holdWith s c rs .accept

def execPush (d : SReg) (p : PReg) (a : Fin 57) (b : SSrc) (s : State) : Result :=
  issued s fun c =>
    let q := (c.w.srcS b).toNat
    let die := q / 128 % 8
    let unit := q / 4 % 32
    let code := sendCode s c q 1024 die unit (q % 4)
    let k := newCmd s c (cmdWords c.w a)
    check s c c.all (useConds c c.all (sendUses d p a b))
      (if code != 0 then retire s c (slen b) (c.w.sent d p code)
       else if waitsForC c k then holdAt s c (.room 255 255 254 255)
       else if !accessesDone s c.ref.gid c.ref.wave c.w then holdAt s c .give   -- R175
       else match acceptCopy s c die unit k with
        | (s, .inr n) => awaitNeeds s c die n
        | (s, .inl k) => enqueueCmd (dropAnswers s c) c d p (slen b) die unit (q % 4) k)

/-! ## ENGST (R174) -/

def execEngst (d : SReg) (b : SSrc) (fn : Fin 3) (s : State) : Result :=
  issued s fun c =>
    let tag := field (c.w.srcS b) 15 0
    let n := tag % 64
    let e := c.g.stat.get (0, 0) n
    let mine := e.1.getLsbD 39 && field e.1 63 48 == tag
    let hit (k : Nat) : Bool := c.g.marks.get false (gmStat (2 * n + k))
    let bad := hit 0 || (mine && fn.val == 1 && hit 1)
    check s c c.all (useConds c c.all (.sw d :: useS b) ++ when bad (c.wide 18 (2 * 2 ^ 60)))
      (let x := if mine then (if fn.val == 1 then e.2 else e.1) else 0
       let s := if mine && fn.val == 2 then putStatus s c.ref.gid n 0 0 else s
       retireNow s c (slen b) fun w => w.writeS d x)

end Sys2Proof.Machine
end

