-- ==== Sys2Proof/Machine/Copy.lean ====
section
/-!
DEFINITION. The six copy commands: the order of the error checks (R438), the pre-write pass (R158), the
element pipeline (R159-R163), the writes of COPY, GATHER, IMPORT, EXPORT, WBFILL and LAND (R164-R169).
-/

namespace Sys2Proof.Machine

/-! ## Before the first write (R438) -/

/-- The group whose gate tile a command names, where its translation is known (R167). -/
def gateGroup (s : State) (r : Runner) (c : Copy) : Option Group :=
  if c.dd.l then some r.g
  else match (r.peek s c.dd.base .write).bind fun t => tileOfPa s t.pa with
    | none => none
    | some (die, phys, tile) => s.groups.find? fun g =>
        g.die == die && g.phys == phys && g.spadBase ≤ tile && tile < g.spadBase + g.tiles

/-- The gate translates to scratchpad, so that a group must hold it. -/
def gateKnown (s : State) (r : Runner) (c : Copy) : Bool :=
  c.dd.l || ((r.peek s c.dd.base .write).bind fun t => tileOfPa s t.pa).isSome

/-- LAND's selector (R167). -/
def Copy.landTile (c : Copy) : Bool := bitsOf c.selector 13 12 == 1
def Copy.landWave (c : Copy) : Nat := bitsOf c.selector 11 8
def Copy.landFirst (c : Copy) : Nat := bitsOf c.selector 7 0
def Copy.landReg (c : Copy) : Nat := bitsOf c.selector 19 16
/-- WBFILL's slot (R168). -/
def Copy.slot (c : Copy) : Nat := c.selector % 8

/-- What the gate's group lacks (R167, R168). -/
def Copy.boundBroken (c : Copy) (g : Group) : Bool :=
  if c.wbfill then g.wbslots ≤ c.slot
  else if c.landTile then g.waves.length ≤ c.landWave || g.tregs ≤ c.landReg
  else
    let last := c.landFirst + (c.streamBytes - 1) / 256
    g.waves.length ≤ c.landWave || 255 ≤ last || g.vregs ≤ last

/-- A byte of the pushing group's scratchpad that lies outside its allotment (R438, step 5). -/
def outsideSpad (r : Runner) (c : Copy) (p : Places) : Bool :=
  (p.srcs ++ p.dsts ++ c.gateSpan).any fun sp => sp.l && 4096 * r.g.tiles < sp.addr + sp.n

/-- A gate tile, register, tile register or slot outside its allotment or bound (R438, step 5). -/
def outsideBound (s : State) (r : Runner) (c : Copy) : Bool :=
  c.gated && gateKnown s r c && match gateGroup s r c with
    | none => true
    | some g => c.boundBroken g

/-- The kinds of memory that the sources and the destinations of a command may lie in (R164). -/
def Copy.srcKind (c : Copy) : Kind := if c.imp then .host else if c.exp then .local_ else .any
def Copy.dstKind (c : Copy) : Kind :=
  if c.exp then .host else if c.imp || mxCode c.dd.t then .local_ else .any

/-- The index list, read in the pre-write pass. -/
def Runner.index (r : Runner) (s : State) (tbl : PageTable) (c : Copy) : List Nat :=
  (List.range (if c.gather then c.dd.box 1 else 0)).map fun i =>
    natOfBytes (r.fetch s tbl ⟨false, (c.k.w 7).toNat + 4 * i, 4⟩).1

/-- The gate of a command that is named by a VA. -/
def gateError (s : State) (r : Runner) (c : Copy) (tbl : PageTable) : Option Status :=
  if !c.gated || c.dd.l then none
  else match tileOfPa s (r.pa tbl false c.dd.base) with
    | none => some (transStatus 8 6 c.dd.base)
    | some _ => if (gateGroup s r c).isNone then some (.error 0x08 0 false) else none

/-- What stops a command before its first write: a status, walks to wait for, or reads beyond the package. -/
inductive Stop where
  | status (st : Status)
  | walks (ks : List (AKind × Nat))
  | far (ks : List FarKey)
  deriving DecidableEq, Repr

/-- What reading some spans ends in, if not in their bytes: reads to wait for, a package that has not answered, a word
that fails its residue, or, for a structure that steers the command, poison (R98, R173, R213). -/
def Runner.readStop (r : Runner) (s : State) (tbl : PageTable) (steers blocks : Bool) (sps : List Span) : Option Stop :=
  match r.wants s tbl blocks sps with
  | k :: ks => some (.far (k :: ks))
  | [] =>
    if sps.any (r.dead s tbl) then some (.status (.error 0x0A 0 false))
    else if sps.any (r.fails s tbl) then some (.status (.error 0x0B 0 false))
    else if steers && sps.any fun sp => (r.fetch s tbl sp).2 then some (.status (.error 0x0B 0 true))
    else none

/-- The index list beyond the package that the unit has not yet read: it decides which other pages are used. -/
def Runner.indexWants (r : Runner) (s : State) (c : Copy) : List FarKey :=
  farMissing s r.far (c.indexSpan.flatMap fun sp => (pagesOf sp.addr sp.n).filterMap fun (a, n) =>
    (r.peek s a .read).map fun t => ⟨a, n, t⟩)

/-- The pre-write pass (R158; R438, step 7): the structures and parameter vectors, the sources, the
destinations; then the places of the command as its index list gives them. -/
def Runner.prepass (r : Runner) (s : State) (c : Copy) :
    State × Except Stop (Tables × List Item) :=
  let fail (s : State) (e : Status) : State × Except Stop (Tables × List Item) := (s, .error (.status e))
  match r.indexWants s c with
  | k :: ks => (s, .error (.far (k :: ks)))
  | [] =>
    let p0 := c.places (c.items (if c.gather then r.peekIndex s c else []))
    match r.translateUses .any (pageUses .read (p0.structs ++ p0.params) p0.paramsW) ⟨[], []⟩ s with
    | (s, .error e) => fail s e
    | (s, .ok tb) =>
      match r.readStop s tb.rd true false p0.structs with
      | some e => (s, .error e)
      | none =>
        let items := c.items (r.index s tb.rd c)
        let p := c.places items
        match r.translateUses c.srcKind (pageUses .read p.srcs []) tb s with
        | (s, .error e) => fail s e
        | (s, .ok tb) =>
          match r.translateUses c.dstKind (pageUses .read [] (p.dsts ++ c.gateSpan)) tb s with
          | (s, .error e) => fail s e
          | (s, .ok tb) =>
            match gateError s r c tb.wr with
            | some e => fail s e
            | none => (s, .ok (tb, items))

/-- One f32 entry of a vector. -/
def Runner.f32At (r : Runner) (s : State) (rd : PageTable) (addr : Nat) : Nat :=
  natOfBytes (r.fetch s rd ⟨false, addr, 4⟩).1

/-- A smoothing vector with an entry that is zero, infinite or NaN (R162). -/
def badSmooth (s : State) (r : Runner) (rd : PageTable) (c : Copy) : Bool :=
  c.smooth && (List.range (c.dd.dim 0)).any fun i =>
    let v := decodeVal .f32 (r.f32At s rd (c.dd.smooth + 4 * i))
    !v.isFin || v.isZero

/-- The companding pairs (R163). -/
def Runner.pairs (r : Runner) (s : State) (rd : PageTable) (c : Copy) : List (Nat × Nat) :=
  (List.range 17).map fun k =>
    (r.f32At s rd (c.dd.ctable + 8 * k), r.f32At s rd (c.dd.ctable + 8 * k + 4))

/-- A valid companding table (R163). -/
def pairsOk (ps : List (Nat × Nat)) : Bool :=
  let v (x : Nat) : Val := decodeVal .f32 x
  ps.headD (1, 1) == (0, 0) && ps.all (fun p => (v p.1).isFin && (v p.2).isFin) &&
    (ps.zip (ps.drop 1)).all fun (a, b) => (v a.1).lt (v b.1) && (v a.2).lt (v b.2)

/-! ## The pipeline (R159-R163) -/

/-- A rounding code of a command. -/
def cmdMode (rm : Nat) : Mode :=
  match rm with
  | 1 => .rtz
  | 2 => .rup
  | 3 => .rdn
  | 4 => .rna
  | 5 => .sr
  | _ => .rne

/-- A source block as read: codes, scale, whether a check of R94 failed, whether it is poisoned. -/
structure SrcBlock where
  codes  : List Nat
  scale  : Nat
  bad    : Bool
  poison : Bool
  deriving DecidableEq, Repr

/-- Read block b of an MX tensor with the checks of R94. -/
def Runner.block (r : Runner) (s : State) (tbl : PageTable) (d : Desc) (b : Nat) : SrcBlock :=
  let t := tyOf d.t
  let sp : Span := ⟨d.l, d.blockAddr b, tyBlockBytes d.t⟩
  let (bs, poison) := r.fetch s tbl sp
  let line := farLine s r.far (r.pa tbl d.l sp.addr)
  { codes := (List.range 32).map (blockCode t bs), scale := line.scale (slotOf (fmtCode t) b)
    bad := !farEmpty r.far (r.pa tbl d.l sp.addr) && (desyncCheck line (fmtCode t) b).isSome, poison }

/-- What a command reads from: its tables, blocks and pairs. -/
structure Source where
  r      : Runner
  c      : Copy
  tb     : Tables
  blocks : Sparse (Option SrcBlock)
  pairs  : List (Nat × Nat)
  deriving DecidableEq, Repr

/-- One source element: its bits, its value and the flags that its channel parameters raise (R159), its marks, and its
place in an MX block. -/
structure Elt where
  raw    : Nat
  val    : Val
  flags  : Flags
  poison : Bool
  bad    : Bool
  fill   : Bool
  blk    : Option (Nat × Nat)
  deriving DecidableEq, Repr

/-- The bits of an element that its type uses (R27). -/
def elemMask (t n : Nat) : Nat :=
  match tyOf t with
  | .e3m2 | .e2m3 => n % 64
  | .e2m1 => n % 16
  | _ => n

/-- The source element of an item (R159, R42, R30). -/
def Source.elt (x : Source) (s : State) (i : Item) : Elt :=
  let c := x.c
  match i.src with
  | none => ⟨c.sd.fill % 256, decodeVal .f32 c.sd.fill, 0, false, false, true, none⟩
  | some cs =>
    if mxCode c.sd.t then
      let b := c.srcBlock cs
      let q := cs.headD 0 % 32
      match x.blocks.get none b with
      | none => ⟨0, .zero, 0, false, false, false, none⟩
      | some k =>
        let code := k.codes.getD q 0
        ⟨code, if k.bad then .nan false else blockElem (tyOf c.sd.t) k.scale code, 0, k.poison, k.bad, false,
          some (b, q)⟩
    else
      let (bs, poison) := x.r.fetch s x.tb.rd ⟨c.sd.l, c.sd.elemAddr c.sd.swz cs, elemBytes c.sd.t⟩
      let raw := elemMask c.sd.t (natOfBytes bs)
      if c.sd.t == 25 && !c.bitCopy then
        let (ws, bad) := x.r.fetch s x.tb.rd ⟨false, (c.sd.aq + 8 * channelOf cs c.sd.dims) % 2 ^ 64, 8⟩
        let (v, f) := aqDecode (wordOfBytes ws) raw
        ⟨raw, v, f, poison || bad, false, false, none⟩
      else ⟨raw, decodeVal (tyOf c.sd.t) raw, 0, poison, false, false, none⟩

/-- Piecewise-linear map of a magnitude through a table of pairs, rounded to f32 (R163, R279). -/
def tableMap (ps : List (Nat × Nat)) (x : Val) : Val × Flags :=
  if x.isNan then (x, 0)
  else
    let v (n : Nat) : Val := decodeVal .f32 n
    let a := x.abs
    let last := ps.getLast?.getD (0, 0)
    let y : Val :=
      if (v last.1).le a then v last.2
      else match (ps.zip (ps.drop 1)).find? fun (p, q) => (v p.1).le a && a.lt (v q.1) with
        | none => .zero
        | some (p, q) =>
          let num := (mulVals (addVals false a (v p.1).neg).1 (addVals false (v q.2) (v p.2).neg).1).1
          (addVals false (v p.2) (divVals num (addVals false (v q.1) (v p.1).neg).1).1).1
    let (b, f) := encodeVal .f32 .rne false 0 (if x.sign then y.neg else y)
    (v b, f)

/-- Bit n of the companding mask. -/
def Source.masked (x : Source) (s : State) (n : Nat) : Bool :=
  bitOf (natOfBytes (x.r.fetch s x.tb.rd ⟨false, x.c.dd.cmask + n / 8, 1⟩).1) (n % 8)

/-- The value X of an item, and the flags of its channel parameters, smoothing, companding and scaling (R159). -/
def Source.value (x : Source) (s : State) (i : Item) (e : Elt) : Val × Flags :=
  let c := x.c
  let (v, f) : Val × Flags :=
    if c.smooth then
      let sv := decodeVal .f32 (x.r.f32At s x.tb.rd (c.dd.smooth + 4 * i.d.headD 0))
      let q := if c.wbfill then mulVals e.val sv else divVals e.val sv
      let (b, f) := encodeExact .f32 .rne false q
      (decodeVal .f32 b, e.flags ||| f)
    else (e.val, e.flags)
  let (v, f) : Val × Flags :=
    if c.compand && x.masked s (channelOf i.d c.dd.dims) then
      let (y, g) := tableMap x.pairs v
      (y, f ||| g)
    else (v, f)
  if c.policy == 3 && !mxCode c.dd.t then
    let sc := decodeVal .f32 c.scaleBits
    let y := if c.mul then mulVals v sc else divVals v sc
    (y.1, f ||| y.2)
  else (v, f)

/-- The random bits of an item (R34, R45). -/
def Copy.rand (c : Copy) (lin : Nat) : Nat := if c.stoch then srBits (c.k.w 6) (word lin) else 0

/-- One produced element of a destination that is not MX: its item, its bits, poison. -/
structure OutElem where
  item   : Item
  bits   : Nat
  poison : Bool
  deriving DecidableEq, Repr

/-- One produced block: its number, scale, codes, poison. -/
structure OutBlock where
  b      : Nat
  scale  : Nat
  codes  : List Nat
  poison : Bool
  deriving DecidableEq, Repr

/-- What the pipeline produces: elements or blocks, AQ8 parameter words by channel with their poison, flags, POISON and
DESYNC. -/
structure Out where
  elems  : List OutElem
  blocks : List OutBlock
  params : List (Nat × Word × Bool)
  flags  : Flags
  poison : Bool
  desync : Bool
  deriving DecidableEq, Repr

/-- Elements of a type that is neither MX nor AQ8, or that is copied bit by bit; of such a copy only a fill value
passes through Encode (R159). -/
def Source.plainOut (x : Source) (s : State) (es : List (Item × Elt)) : List (OutElem × Flags) :=
  let c := x.c
  es.map fun (i, e) =>
    if c.bitCopy && (!e.fill || c.dstT == 0) then (⟨i, e.raw, e.poison⟩, 0)
    else
      let (v, f) := x.value s i e
      let (b, g) := encodeVal (tyOf c.dd.t) (cmdMode c.rm) c.sat (c.rand i.lin) v
      (⟨i, b, e.poison⟩, f ||| g)

/-- The parameter words of a WBFILL whose aq8 codes are copied: those of the source channels that supply the codes, for
each column of the slot (R168; log entry 62). -/
def Source.copiedParams (x : Source) (s : State) (es : List (Item × Elt)) : List (Nat × Word × Bool) :=
  let c := x.c
  (dedup (es.map fun e => channelOf e.1.d c.dd.dims)).map fun ch =>
    match es.findSome? fun e => if channelOf e.1.d c.dd.dims == ch then e.1.src else none with
    | none => (ch, Config.slotWord ch, false)
    | some cs =>
      let (ws, bad) := x.r.fetch s x.tb.rd ⟨false, (c.sd.aq + 8 * channelOf cs c.sd.dims) % 2 ^ 64, 8⟩
      (ch, wordOfBytes ws, bad)

/-- One AQ8 channel (R31, R161): its parameter word and codes. -/
def Source.channelOut (x : Source) (s : State) (ch : Nat) (es : List (Item × Elt)) :
    (Nat × Word × Bool) × List OutElem × Flags :=
  let c := x.c
  let vs := es.map fun (i, e) => (i, e, x.value s i e)
  let vals := vs.map fun (_, _, v) => v.1
  let least (better : Val → Val → Bool) : Val :=
    vals.foldl (fun m v => if better v m then v else m) (vals.headD .zero)
  let (wd, fl) : Word × Flags :=
    if vals.any Val.isNan then aqChannel (.nan false) (.nan false)
    else if vals.any Val.isInf then aqChannel (.inf false) (.inf false)
    else aqChannel (least Val.lt) (least fun a b => b.lt a)
  let dead := vals.any fun v => !v.isFin
  let rs := vs.map fun (i, e, v) =>
    let (b, g) : Nat × Flags :=
      if dead then (0, 0)
      else encodeVal .aq8 (cmdMode c.rm) true (c.rand i.lin)
        (addVals false (divVals v.1 (aqScale wd)).1 (.ofNat (aqZp wd))).1
    ((⟨i, b, e.poison⟩ : OutElem), v.2 ||| g)
  ((ch, wd, es.any fun e => e.2.poison), rs.map Prod.fst, rs.foldl (fun f r => f ||| r.2) fl)

/-- One MX block (R160, R95): 32 consecutive items. -/
def Source.blockOut (x : Source) (s : State) (es : List (Item × Elt)) : OutBlock × Flags :=
  let c := x.c
  let b := ((es.head?).map fun e => e.1.lin / 32).getD 0
  let poison := es.any fun e => e.2.poison
  let from_ := (es.head?).bind fun e => e.2.blk
  let given := (from_.bind fun (k, _) => x.blocks.get none k).map SrcBlock.scale
  if es.any fun e => e.2.bad then (⟨b, 0xFF, List.replicate 32 0, poison⟩, 0)
  else match c.policy == 2, given with
    | true, some g =>
      if c.srcT == c.dstT && !c.smooth then (⟨b, g, es.map fun e => e.2.raw, poison⟩, 0)
      else quant b poison (.given g) es
    | true, none => quant b poison (.choose .fit) es
    | false, _ => quant b poison
        (if c.policy == 1 then .choose .fit
         else if c.policy == 3 then .given (c.scaleBits / 2 ^ 23 % 256) else .choose .floor) es
where
  quant (b : Nat) (poison : Bool) (src : ScaleSrc) (es : List (Item × Elt)) : OutBlock × Flags :=
    let vs := es.map fun (i, e) => x.value s i e
    let (scale, codes, f) := quantBlock (tyOf x.c.dd.t) src (cmdMode x.c.rm)
      (fun q => x.c.rand (((es.map Prod.fst)[q]?.map Item.lin).getD 0)) (vs.map Prod.fst)
    (⟨b, scale, codes, poison⟩, vs.foldl (fun f v => f ||| v.2) f)

/-- Consecutive runs of 32. -/
def runs32 {α : Type} : Nat → List α → List (List α)
  | 0, _ => []
  | n + 1, xs => if xs.isEmpty then [] else xs.take 32 :: runs32 n (xs.drop 32)

/-- The whole pipeline. -/
def Source.out (x : Source) (s : State) (items : List Item) : Out :=
  let c := x.c
  let es := items.map fun i => (i, x.elt s i)
  let poison := es.any fun e => e.2.poison
  let desync := es.any fun e => e.2.bad
  if mxCode c.dd.t then
    let rs := (runs32 es.length es).map (x.blockOut s)
    ⟨[], rs.map Prod.fst, [], rs.foldl (fun f r => f ||| r.2) 0, poison, desync⟩
  else if c.dd.t == 25 && !c.bitCopy then
    let chs := dedup (items.map fun i => channelOf i.d c.dd.dims)
    let rs := chs.map fun ch =>
      x.channelOut s ch (es.filter fun e => channelOf e.1.d c.dd.dims == ch)
    ⟨rs.flatMap fun r => r.2.1, [], rs.map Prod.fst, rs.foldl (fun f r => f ||| r.2.2) 0, poison, desync⟩
  else
    let rs := x.plainOut s es
    ⟨rs.map Prod.fst, [], if c.wbfill && c.dd.t == 25 then x.copiedParams s es else [],
      rs.foldl (fun f r => f ||| r.2) 0, poison, desync⟩

/-- An uncorrectable error inside the engine: everything that the command fills is marked (R173). -/
def Out.hurt (o : Out) : Out :=
  { o with elems := o.elems.map fun e => { e with poison := true }
           blocks := o.blocks.map fun b => { b with poison := true }
           params := o.params.map fun p => (p.1, p.2.1, true) }

/-! ## The writes -/

/-- Poison for the lines of other packages that some bytes lie in (R97, R98). -/
def poisonSends (s : State) (pas : List Nat) : List FarSend :=
  (dedup (pas.map fun pa => pa / 128 * 128)).filterMap fun line =>
    match regionOf (resolvePa s line) with
    | .pod pkg off => some (.pod pkg (.write off [] true false) line 128 [])
    | _ => none

/-- Bytes at consecutive physical addresses, as runs. -/
def runsOf : List (Nat × Byte) → List (Nat × List Byte)
  | [] => []
  | (a, b) :: rest =>
    match runsOf rest with
    | (a', bs) :: more => if a' == a + 1 then (a, b :: bs) :: more else (a, [b]) :: (a', bs) :: more
    | [] => [(a, [b])]

/-- Behind the posted writes of a command goes a zero-length read, so that they have been performed when it is answered
(R306, R308). -/
def withProbe (xs : List FarSend) : List FarSend :=
  match (xs.filterMap fun x => match x with
      | .host addr bs => some (addr + bs.length - 1)
      | _ => none).getLast? with
  | some a => xs ++ [.probe a]
  | none => xs

/-- Write MX blocks natively, each as one event; the lines that poisoned blocks fill become poisoned behind all of them
(R92, R98). What goes to other packages is left to send. -/
def writeBlocks (r : Runner) (tbl : PageTable) (d : Desc) (s : State) (bs : List OutBlock) :
    State × List FarSend :=
  let t := tyOf d.t
  let at_ := bs.map fun k => (k, r.pas tbl ⟨d.l, d.blockAddr k.b, tyBlockBytes d.t⟩)
  let pas := at_.map Prod.snd
  let bad := at_.flatMap fun x => if x.1.poison then x.2 else []
  let s := recallAll s (pas.flatten.filter fun pa => !isFarPa s pa)
  let s := formatFull s (fmtCode t) (at_.map fun x => (x.1.b, x.2))
  let opening := openers pas
  let (s, out) := at_.foldl (fun (s, out) (k, pas) =>
    let (s, more) := nativeStore s (fmtCode t) k.b k.scale (pas.zip (blockPack t k.codes)) (opening.contains (pas.headD 0)) []
    (s, out ++ more)) (s, ([] : List FarSend))
  (poisonLines s (bad.filter fun pa => !isFarPa s pa), out ++ poisonSends s bad)

/-- Write plain bytes as one command (R92, R97); what goes beyond the package is left to send. -/
def writePlain (s : State) (ws : List (Nat × Byte)) (poisoned : List Nat) : State × List FarSend :=
  let (far, here) := ws.partition fun w => isFarPa s w.1
  let s := plainWrite (recallAll s (here.map Prod.fst)) false here
  let s := unmarkCommons s (here.map Prod.fst)
  let cuts := (runsOf far).flatMap fun (a, bs) => farWrites s 0 [⟨a, bs.length, ownTrans a⟩] bs
  (poisonLines s (poisoned.filter fun pa => !isFarPa s pa), withProbe (planWrites s cuts ++ poisonSends s poisoned))
where
  /-- An engine's write leaves no stale mark on a common register (R213). -/
  unmarkCommons (s : State) (pas : List Nat) : State :=
    pas.foldl (fun s pa => match regionOf pa with
      | .window die phys off =>
        if winRange off = .common then
          match commonGroup s die phys ((off - winCommon) / 512) with
          | some g => modGroup s g.gid fun g => g.unmark (gmCommon (off % 512 / 8))
          | none => s
        else s
      | _ => s) s

/-- AQ8 parameter words in memory, and the bytes of those that poisoned data made (R98, R161). -/
def paramWrites (x : Source) (o : Out) : List (Nat × Byte) × List Nat :=
  let at_ (ch : Nat) : List Nat := x.r.pas x.tb.wr ⟨false, (x.c.dd.aq + 8 * ch) % 2 ^ 64, 8⟩
  (o.params.flatMap fun (ch, w, _) => (at_ ch).zip (wordBytes w),
    o.params.flatMap fun (ch, _, p) => if p then at_ ch else [])

/-- COPY and GATHER write their destination. -/
def writeTensor (x : Source) (s : State) (o : Out) : State × List FarSend :=
  let c := x.c
  let r := x.r
  let wr := x.tb.wr
  if mxCode c.dd.t then writeBlocks r wr c.dd s o.blocks
  else
    let n := elemBytes c.dd.t
    let pas (e : OutElem) : List Nat := r.pas wr ⟨c.dd.l, c.dd.elemAddr c.dstSwz e.item.d, n⟩
    let ws := o.elems.flatMap fun e => (pas e).zip (bytesOfNat n e.bits)
    let (aq, bad) := paramWrites x o
    writePlain s (ws ++ aq) ((o.elems.flatMap fun e => if e.poison then pas e else []) ++ bad)

/-- The stream of a LAND (R167): its bytes in the order of the registers, with poison, and the scales of
its blocks. -/
def Copy.stream (c : Copy) (o : Out) : List (Nat × Bool) :=
  if mxCode c.dd.t then
    let t := tyOf c.dd.t
    o.blocks.flatMap fun k =>
      let bs := regBytes t [k.codes]
      bs.map fun b => (b, k.poison)
  else o.elems.flatMap fun e => (bytesOfNat (elemBytes c.dd.t) e.bits).map fun b => (b.toNat, e.poison)

/-- LAND into vector registers (R167): words, and the sidecars of the slices filled. -/
def landVectors (c : Copy) (o : Out) (w : Wave) : Wave :=
  let st := c.stream o
  let words := (List.range (st.length / 8)).map fun k => (k, (st.drop (8 * k)).take 8)
  let w := words.foldl (fun w (k, bs) =>
    let reg := c.landFirst + k / 32
    let lane := k % 32
    let w := w.writeV reg lane (packSubs 8 (bs.map Prod.fst))
    if bs.any Prod.snd then { w with marks := w.marks.set false (mkV reg lane) true } else w) w
  if !mxCode c.dd.t then w
  else
    let per := if c.dd.t == 23 then 2 else 1
    (List.range (st.length / 32)).foldl (fun w j =>
      let scales := (List.range per).map fun q => ((o.blocks[per * j + q]?).map OutBlock.scale).getD 0
      w.writeSide (c.landFirst + j / 8) (j % 8) (sideOf scales)) w

/-- LAND into a tile register (R167); the flag of a signalling element. DESIGN CHOICE (log entry 62): the register's KBASE,
which R167 does not name, becomes 0. -/
def landTileReg (c : Copy) (o : Out) (g : Group) : Group × Flags :=
  let m := c.landReg
  let f32 := c.dd.t == 11
  let base := 4096 * m
  let blank := g.cells.erase base (base + 4096)
  let r := o.elems.foldl (fun (x : Sparse Word × Flags) e =>
    let key := base + 64 * e.item.d.getD 1 0 + e.item.d.headD 0
    if f32 && (decodeVal .f32 e.bits).isSNan then (x.1.set 0 key (word 0x7FC00000), x.2 ||| Flags.nv)
    else (x.1.set 0 key (word e.bits), x.2)) (blank, 0)
  let st : TileStat :=
    { kbase := 0, uce := o.elems.any OutElem.poison, flags := 0, i64 := !f32, inflight := 0, dirty := true,
      valid := true, kdone := 0 }
  ({ g with cells := r.1, tstat := modifyAt (fun _ => st) m g.tstat, marks := g.marks.set false (gmTile m) false }, r.2)

/-- The bytes that a WBFILL puts into the slot (R168, R277): offset, byte, poison. -/
def Copy.slotImage (c : Copy) (o : Out) (pairs : List (Nat × Nat)) (mask : List Byte) :
    List (Nat × Byte × Bool) :=
  let t := c.dd.t
  let n := c.dd.dim 1
  let kb := c.dd.dim 0 / 32
  let put (at_ : Nat) (bs : List Byte) (bad : Bool) : List (Nat × Byte × Bool) :=
    bs.zipIdx.map fun (b, i) => (at_ + i, b, bad)
  let head := kb % 65536 * 2 ^ 32 + n % 65536 * 2 ^ 16 + b2n c.compand * 2 ^ 8 + t
  let header := put 0 (bytesOfNat 8 head ++ List.replicate 56 0) false
  let data :=
    if mxCode t then o.blocks.flatMap fun k =>
      put (64 + k.b * tyBlockBytes t) (blockPack (tyOf t) k.codes) k.poison ++
        put (slotD1 t n kb + k.b) [BitVec.ofNat 8 k.scale] k.poison
    else
      (o.elems.flatMap fun e => put (64 + e.item.lin) [BitVec.ofNat 8 e.bits] e.poison) ++
        o.params.flatMap fun (ch, w, bad) => put (slotD1 t n kb + 8 * ch) (wordBytes w) bad
  let table := if c.compand then
      put (slotD2 t n kb) (pairs.flatMap (fun p => bytesOfNat 4 p.1 ++ bytesOfNat 4 p.2) ++ mask) false
    else []
  header ++ data ++ table

/-- WBFILL writes the slot; a poisoned element marks its whole k-block (R98). -/
def fillSlot (slot : Nat) (image : List (Nat × Byte × Bool)) (g : Group) : Group :=
  image.foldl (fun g (off, b, bad) =>
    { g with wb := g.wb.set 0 (65536 * slot + off) b
             wbMark := g.wbMark.set false (65536 * slot + off) bad }) g

/-! ## A command from start to completion -/

/-- A status of a command behind its writes: an error inside the engine gives 0x0B (R173), and OOB stands beside it
(R172). -/
def Out.status (o : Out) (hurt edge : Bool) (oob : Nat) (more : Flags) : Status :=
  ⟨if hurt then 0x0B else 0, oob, o.poison, o.desync, edge, o.flags ||| more⟩

/-- Rows of a GATHER that took the fill value (R165). -/
def Copy.oob (c : Copy) (idx : List Nat) : Nat :=
  idx.zipIdx.foldl (fun n (x, i) => if c.sd.dim 1 ≤ x then n + 2 ^ i else n) 0

/-- What a command has done: the state, its status, and what it has still to send beyond the package. -/
structure Ran where
  s   : State
  st  : Status
  out : List FarSend
  deriving DecidableEq, Repr

/-- COPY, GATHER, WBFILL and LAND behind their checks: every source is read before the first write
(log entry 23). -/
def runTensor (s : State) (r : Runner) (c : Copy) (tb : Tables) (items : List Item) : Ran :=
  let bs := if mxCode c.sd.t then dedup ((items.filterMap Item.src).map c.srcBlock) else []
  let x : Source :=
    { r, c, tb, blocks := bs.foldl (fun m b => m.set none b (some (r.block s tb.rd c.sd b))) []
      pairs := if c.compand then r.pairs s tb.rd c else [] }
  let hurt := c.k.hurt
  let o := x.out s items
  let fill := if hurt then o.hurt else o
  let edge := items.any Item.edge
  let p := c.places items
  if c.land then
    match gateGroup s r c with
    | none => ⟨s, .error 0x08 0 false, []⟩
    | some g =>
      let (aq, bad) := paramWrites x fill
      let (s, out) := writePlain (r.dirty tb.wr p.paramsW s) aq bad
      if c.landTile then
        ⟨modGroup s g.gid fun g => (landTileReg c fill g).1, o.status hurt edge 0 (landTileReg c o g).2, out⟩
      else ⟨modWave s g.gid c.landWave (landVectors c fill), o.status hurt edge 0 0, out⟩
  else if c.wbfill then
    match gateGroup s r c with
    | none => ⟨s, .error 0x08 0 false, []⟩
    | some g =>
      let mask := (r.fetch s tb.rd ⟨false, c.dd.cmask, (c.dd.dim 1 + 7) / 8⟩).1
      ⟨modGroup s g.gid (fillSlot c.slot (c.slotImage fill x.pairs mask)), o.status hurt edge 0 0, []⟩
  else
    let s := r.dirty tb.wr (p.dsts ++ p.paramsW) s
    let oob := if c.gather then c.oob (r.index s tb.rd c) else 0
    let (s, out) := writeTensor x s fill
    ⟨s, o.status hurt edge oob 0, out⟩

/-- IMPORT (R166): data and scale arrays of the host become native blocks. -/
def runImport (s : State) (r : Runner) (c : Copy) (tb : Tables) : Ran :=
  let t := tyOf c.sd.t
  let rows := c.dd.boxBlocks.zipIdx.map fun (b, i) =>
    let (bs, p) := r.fetch s tb.rd ⟨false, c.sd.blockAddr i, tyBlockBytes c.sd.t⟩
    let (sc, q) := r.fetch s tb.rd ⟨false, (c.k.w 7).toNat + i, 1⟩
    (⟨b, natOfBytes sc, (List.range 32).map (blockCode t bs), p || q⟩ : OutBlock)
  let p := c.places []
  let fill := if c.k.hurt then rows.map fun k => { k with poison := true } else rows
  let (s, out) := writeBlocks r tb.wr c.dd (r.dirty tb.wr p.dsts s) fill
  ⟨s, ⟨if c.k.hurt then 0x0B else 0, 0, rows.any OutBlock.poison, false, false, 0⟩, out⟩

/-- EXPORT (R166): native blocks become data and scale arrays of the host. -/
def runExport (s : State) (r : Runner) (c : Copy) (tb : Tables) : Ran :=
  let t := tyOf c.sd.t
  let rows := c.sd.boxBlocks.map fun b => r.block s tb.rd c.sd b
  let ws := rows.zipIdx.flatMap fun (k, i) =>
    let codes := if k.bad then List.replicate 32 0 else k.codes
    (r.pas tb.wr ⟨false, c.dd.blockAddr i, tyBlockBytes c.dd.t⟩).zip (blockPack t codes) ++
      (r.pas tb.wr ⟨false, (c.k.w 7).toNat + i, 1⟩).zip
        [BitVec.ofNat 8 (if k.bad then 0xFF else k.scale)]
  let (s, out) := writePlain (r.dirty tb.wr (c.places []).dsts s) ws []
  ⟨s, ⟨if c.k.hurt then 0x0B else 0, 0, rows.any SrcBlock.poison, rows.any SrcBlock.bad, false, 0⟩, out⟩

/-- Walks that a command still waits for before its pre-write pass, over everything it reads and writes. -/
def Runner.missing (r : Runner) (s : State) (c : Copy) : List (AKind × Nat) :=
  let first := r.pending s .read c.indexSpan
  let p := c.places (c.items (if c.gather then r.peekIndex s c else []))
  let rd := if first.isEmpty then r.pending s .read (p.structs ++ p.params ++ p.srcs) else first
  (rd.map fun va => (.read, va)) ++
    (r.pending s .write (p.dsts ++ p.paramsW ++ c.gateSpan)).map fun va => (.write, va)

/-- Steps 2-6 of R438: a status or walks, where the command does not reach its pre-write pass. -/
def copyChecks (s : State) (r : Runner) (c : Copy) : Option Stop :=
  let fail (e : Nat) : Option Stop := some (.status (.error e 0 false))
  if c.sd.invalid false || c.dd.invalid c.wbfill then fail 0x02
  else if c.malformed then fail 0x01
  else if (c.imp && c.sd.dim 0 / 32 != field (c.k.w 5) 63 32) ||
      (c.exp && c.dd.dim 0 / 32 != field (c.k.w 5) 63 32) then fail 0x07
  else
    let p := c.places (c.items (if c.gather then r.peekIndex s c else []))
    let own := (p.srcs ++ p.dsts ++ c.gateSpan).filter Span.l
    let taken (ts : List (Nat × Nat × Nat)) : Bool := ts.any fun (d, p, t) => !ownedByEngine s d p t
    let bad (ts : List (Nat × Nat × Nat)) : Bool := ts.any fun (d, p, t) => ownerFails s d p t
    if outsideSpad r c p then fail 0x08
    else match r.pending s .write c.gateSpan with
      | va :: _ => some (.walks [(.write, va)])
      | [] =>
        if outsideBound s r c then fail 0x08
        else if bad (r.tiles s .read own) then fail 0x0B
        else if taken (r.tiles s .read own) then fail 0x06
        else match r.missing s c with
          | k :: ks => some (.walks (k :: ks))
          | [] => if bad (r.named s c) then fail 0x0B else if taken (r.named s c) then fail 0x06 else none

/-- The checks of R438 in order, then the command's own effect. -/
def runCopy (s : State) (r : Runner) (c : Copy) : State × Except Stop Ran :=
  match copyChecks s r c with
  | some e => (s, .error e)
  | none =>
    match r.prepass s c with
    | (s, .error e) => (s, .error e)
    | (s, .ok (tb, items)) =>
      let p := c.places items
      if badSmooth s r tb.rd c || (c.compand && !pairsOk (r.pairs s tb.rd c)) then
        (s, .error (.status (.error 0x09 0 false)))
      else match r.readStop s tb.rd false (mxCode c.sd.t) (p.params ++ p.srcs) with
        | some e => (s, .error e)
        | none =>
          (s, .ok (if c.imp then runImport s r c tb
            else if c.exp then runExport s r c tb
            else runTensor s r c tb items))

/-- The tiles of a command that has started: as they are now, or, while walks are pending, as they were recorded at its
acceptance (R151, R170). -/
def Runner.tilesNow (r : Runner) (s : State) (c : Copy) : List (Nat × Nat × Nat) :=
  if (r.tileWalks s c).isNone then r.named s c else c.k.tiles

/-- The same of the common-register sets that it writes (R125). -/
def Runner.setsNow (r : Runner) (s : State) (c : Copy) : List (Nat × Nat × Nat) :=
  if (r.tileWalks s c).isNone then r.sets s c else c.k.sets

/-- A unit takes its next command if it carries an operation code: it waits for its walks (R118) and for what it reads beyond
the package, or runs. -/
def copyStep (s : State) (die unit code : Nat) : Result :=
  if unitWalks s (64 * die + unit) then .next s
  else match nextCmd s die unit with
  | none => .next s
  | some (prio, k) =>
    if k.op != code then .next s
    else match k.fin, k.bad, k.reads with
      | some f, _, _ => .next (finishStep s die unit prio k f)
      | none, (e, st1) :: _, _ =>
        .next (completeCmd s die unit prio k [] (.error (e % 256) st1 (256 ≤ e)))
      | none, [], (_, sb, _) :: (_, db, _) :: _ =>
        match findGroup s k.gid with
        | none => .next (setUnitQueue s die unit prio ((unitQueue s die unit prio).filter fun x => x.id != k.id))
        | some g =>
          let c : Copy := ⟨k, Desc.ofBytes sb, Desc.ofBytes db⟩
          let r := unitRunner s die unit k.asid g
          let named := r.tilesNow s c
          let sets := r.setsNow s c
          let s := modCmd (r.formPlaces c s) die unit prio k.id
            fun k => { k with started := true, tiles := named, sets := sets }
          match runCopy s r c with
          | (_, .ok x) => .next (finishCmd x.s die unit prio k named x.st x.out)
          | (s, .error (.status st)) => .next (completeCmd s die unit prio k named st)
          | (s, .error (.walks ks)) => .next (ks.foldl (fun s (kind, va) =>
              addWalks s die (.unit (64 * die + unit)) k.asid kind [va]) s)
          | (s, .error (.far ks)) => .next (askUnit s (64 * die + unit) ks)
      | none, [], _ => .next s

def execCopyCmd (die eng : Nat) (s : State) : Result := copyStep s die (eng % 32) 1
def execGatherCmd (die eng : Nat) (s : State) : Result := copyStep s die (eng % 32) 2
def execImportCmd (die eng : Nat) (s : State) : Result := copyStep s die (eng % 32) 3
def execExportCmd (die eng : Nat) (s : State) : Result := copyStep s die (eng % 32) 4
def execWbfillCmd (die eng : Nat) (s : State) : Result := copyStep s die (eng % 32) 5
def execLandCmd (die eng : Nat) (s : State) : Result := copyStep s die (eng % 32) 6

end Sys2Proof.Machine
end

