-- ==== Sys2Proof/Machine/Deque.lean ====
section
/-!
DEFINITION. Work deques: QPUSH, QPOP, QSTEAL (R141-R143).
-/

namespace Sys2Proof.Machine

/-- The three operations. -/
inductive DequeOp where
  | push | pop | steal
  deriving DecidableEq, Repr

/-- A descriptor (R141). -/
structure Deque where
  buf    : Nat
  logcap : Nat
  top    : Nat
  bot    : Nat
  res    : Bool          -- a reserved bit is set
  deriving DecidableEq, Repr

/-- The descriptor that 64 bytes hold. -/
def Deque.ofBytes (bs : List Byte) : Deque :=
  let n := natOfBytes bs
  { buf := bitsOf n 63 0, logcap := bitsOf n 68 64, top := bitsOf n 191 128, bot := bitsOf n 255 192
    res := bitsOf n 127 69 != 0 || bitsOf n 511 256 != 0 }

def Deque.cap (d : Deque) : Nat := 2 ^ d.logcap
/-- Items held, BOT − TOP modulo 2^64. -/
def Deque.count (d : Deque) : Nat := (d.bot + 2 ^ 64 - d.top) % 2 ^ 64
/-- The descriptor is invalid (R142). -/
def Deque.invalid (d : Deque) : Bool := d.res || 20 < d.logcap || d.buf % 8 != 0 || d.cap < d.count
/-- Address or offset of item n. -/
def Deque.item (d : Deque) (n : Nat) : Nat := d.buf + 8 * (n % d.cap)

/-- Some scratchpad tile that n bytes from a PA of a window lie on is engine-owned. -/
def engineTiles (s : State) (pa n : Nat) : Bool :=
  match regionOf pa with
  | .window die phys off =>
    let t0 := (off - winSpad) / 4096
    let t1 := (off - winSpad + n - 1) / 4096
    (List.range (t1 + 1 - t0)).any fun i => ownedByEngine s die phys (t0 + i)
  | _ => false

/-- Bytes of the leaf page of a level. -/
def pageBytes (level : Nat) : Nat := 2 ^ (if level == 3 then 30 else if level == 4 then 21 else 12)

/-- The leaf page of an item array is one that the operation may use (R142): in local HBM, or wholly in the scratchpad
of a window and on no engine-owned tile. -/
def arrayPage (s : State) (t : Trans) : Bool :=
  let n := pageBytes t.level
  let pa := resolvePa s t.pa / n * n
  match regionOf (resolvePa s t.pa) with
  | .hbm _ => true
  | .window _ _ off =>
    let first := off / n * n
    winSpad ≤ first && first + n ≤ winTiles && !engineTiles s pa n
  | _ => false

/-- The array of a deque lies within the leaf page that maps its first byte (R142). -/
def inOnePage (d : Deque) (t : Trans) : Bool :=
  d.buf / pageBytes t.level == (d.buf + 8 * d.cap - 1) / pageBytes t.level

/-- The PA of the item array where it is accessible (R142); `none` where it is not. -/
inductive ArrayRes where
  | at_ (p : Piece)
  | refused
  | pending (va : Nat)
  deriving DecidableEq, Repr

/-- Where the item array lies: in `.l` within the allotment, in `.g` on one leaf page of local HBM or of
program-owned scratchpad. -/
def arrayOf (s : State) (c : Issuer) (sp : Space) (d : Deque) : State × ArrayRes :=
  let n := 8 * d.cap
  match sp with
  | .g =>
    match translateCore s c.g.die c.g.phys c.g.asid d.buf .rmw c.answers with
    | (s, .pending) => (s, .pending d.buf)
    | (s, .ok t) => (s, if inOnePage d t && arrayPage s t then .at_ ⟨d.buf, n, t⟩ else .refused)
    | (s, _) => (s, .refused)
  | _ =>
    let pa := spadPa c.g d.buf
    (s, if d.buf + n ≤ 4096 * c.g.tiles && !engineTiles s pa n then .at_ ⟨d.buf, n, ownTrans pa⟩
      else .refused)

/-- What the lanes' operations have produced so far; `a` is the state with the A bits that their translations have set, and
nothing else (R107). -/
structure DequeAcc where
  s    : State
  a    : State
  res  : List (Nat × Word × Bool)
  bad  : List Nat
  pend : List Nat
  ws   : List (Nat × Byte)     -- the items written
  deriving DecidableEq, Repr

/-- Write one counter of a descriptor, 8 bytes at an offset. -/
def putCounter (s : State) (pa off : Nat) (n : Nat) : State :=
  plainWrite s false (atRun (pa + off) (bytesOfNat 8 n))

/-- The translation of a descriptor's piece as it stands when its lane acts: an earlier lane may have changed its entry
(R107). -/
def renewPiece (c : Issuer) (sp : Space) (s : State) (p : Piece) : State × Piece :=
  if sp != .g then (s, p)
  else
    let x := refresh s c.g.die c.g.asid p.va p.tr .rmw c.answers
    (x.1, { p with tr := x.2 })

/-- One lane's operation on the descriptor at a piece, as one event (R142). DESIGN CHOICE (log entry 61): QPUSH too
reads its descriptor, so a poisoned one raises Uncorrectable Data. D is set where the lane writes: on the descriptor's page
where a counter changes, and on the item's for QPUSH (R107). -/
def dequeOne (c : Issuer) (sp : Space) (op : DequeOp) (v : Nat → Word) (t : DequeAcc)
    (lane : Nat) (p : Piece) : DequeAcc :=
  let (s, p) := renewPiece c sp t.s p
  let t := { t with s := s, a := (renewPiece c sp t.a p).1 }
  let pa := p.tr.pa
  let d := Deque.ofBytes (readRun t.s pa 64)
  let give (s : State) (x : Word) (b : Bool) : DequeAcc := { t with s := s, res := t.res ++ [(lane, x, b)] }
  if d.invalid then give t.s 1 false
  else
    let t := { t with a := (arrayOf t.a c sp d).1 }
    match arrayOf t.s c sp d with
    | (s, .pending va) => { t with s := s, pend := t.pend ++ [va] }
    | (s, .refused) => give s 2 false
    | (s, .at_ q) =>
      let itemPa (n : Nat) : Nat := q.tr.pa + (d.item n - d.buf)
      let itemAt (n : Nat) : Piece := ⟨d.item n, 8, { q.tr with pa := itemPa n }⟩
      let taken (n : Nat) : State := touch (touch s c true [p]) c false [itemAt n]
      let read (n : Nat) : Word := wordOfBytes (readRun s (itemPa n) 8)
      let poisoned (n : Nat) : Bool := poisonedRun s (itemPa n) 8
      match op with
      | .push =>
        if d.count < d.cap then
          let s := writeNow (touch s c true [p, itemAt d.bot]) (itemPa d.bot) (wordBytes (v lane))
          { give (putCounter s pa 24 ((d.bot + 1) % 2 ^ 64)) (word (d.count + 1)) true with
              ws := t.ws ++ atRun (itemPa d.bot) (wordBytes (v lane)) }
        else give s 0 false
      | .pop =>
        if d.count == 0 then give s 0 false
        else
          let n := (d.bot + 2 ^ 64 - 1) % 2 ^ 64
          if poisoned n then { t with s := s, bad := t.bad ++ [lane] }
          else give (putCounter (taken n) pa 24 n) (read n) true
      | .steal =>
        if d.count == 0 then give s 0 false
        else if poisoned d.top then { t with s := s, bad := t.bad ++ [lane] }
        else give (putCounter (taken d.top) pa 16 ((d.top + 1) % 2 ^ 64)) (read d.top) true

/-- A descriptor in pod or host memory is refused (R141). -/
def descRefused (s : State) (lane : Nat) (p : Piece) : List Cause :=
  when (isRemote s p) ⟨8, transInfo 6 .rmw p.va, [lane]⟩

/-- QPUSH, QPOP and QSTEAL. -/
def dequeOp (s : State) (o : DequeMem) (op : DequeOp) (item : Option VReg) : Result :=
  issued s fun c =>
    let ls := c.lanes o.g
    let as := ls.map fun l => (⟨l, laneAddr c o.a o.b l, 64⟩ : Acc)
    let src := match item with
      | some v => [Use.vr 3 v.val]
      | none => []
    let v (l : Nat) : Word := match item with
      | some v => c.w.readV v.val l
      | none => 0
    let pre := guardConds c o.g ++
      useConds c ls ([.vw 0 o.d.val, .vr 1 o.a.val, .pw o.p.val] ++ src ++ useS o.b) ++
      as.flatMap fun a => when (a.addr % 64 != 0) ⟨6, 3 * 2 ^ 56, [a.lane]⟩
    roomL s c (accessOp s c .lane pre o.sp .rmw as
      (fun t => t.oks.flatMap fun (a, ps) =>
        ps.flatMap (descRefused t.s a.lane) ++ poisonConds t.s a.lane ps)
      fun t =>
        let r := t.oks.foldl (fun (r : DequeAcc) (a, ps) => match ps with
          | p :: _ => dequeOne c o.sp op v r a.lane p
          | [] => r) ⟨t.s, t.s, [], [], [], []⟩
        if !r.pend.isEmpty then awaitWalks r.a c .rmw r.pend
        else check r.a c c.all [⟨18, 0, r.bad⟩]
          (let es := r.res.map fun (l, x, _) => (⟨.v o.d.val l, .n64, l, wordBytes x, []⟩ : Elem)
           let pp := if o.p.val == 7 then [] else [o.p.val]
           retireNow (settleWrites r.s r.ws) c (slen o.b) fun w =>
             let e := LEntry.plain es (pendKeys o.d.val ls) c.pc
             w.countL { e with pw := r.res.map fun (l, _, b) => (o.p.val, l, b), pp := pp, slices := c.gang.slices }))

def execQpush (o : DequeMem) (v : VReg) (s : State) : Result := dequeOp s o .push (some v)
def execQpop (o : DequeMem) (s : State) : Result := dequeOp s o .pop none
def execQsteal (o : DequeMem) (s : State) : Result := dequeOp s o .steal none

end Sys2Proof.Machine
end

