-- ==== Sys2Proof/Machine/Loupe.lean ====
section
/-!
DEFINITION. The coordinate engine (R189-R201): pair descriptors, streams, cursors, and the instructions
0xC0-0xC8.
-/

namespace Sys2Proof.Machine

/-! ## Pair descriptors and streams (R189, R190) -/

/-- One stream of a pair descriptor. -/
structure Stream where
  enc    : Nat
  len    : Nat
  base   : Nat
  origin : Nat
  l      : Bool
  deriving DecidableEq, Repr

/-- A pair descriptor. -/
structure Pair where
  a   : Stream
  b   : Stream
  res : Bool
  deriving DecidableEq, Repr

/-- The descriptor that 64 bytes hold. -/
def Pair.ofBytes (bs : List Byte) : Pair :=
  let n := natOfBytes bs
  let side (at_ e : Nat) : Stream :=
    ⟨bitsOf n (e + 1) e, bitsOf n (at_ + 95) (at_ + 64), bitsOf n (at_ + 63) at_,
      bitsOf n (at_ + 127) (at_ + 96), bitOf n (e + 3)⟩
  ⟨side 0 256, side 128 260, bitsOf n 511 264 != 0 || bitOf n 258 || bitOf n 262⟩

/-- Bytes of a unit (R190). -/
def Stream.unitBytes (x : Stream) : Nat := if x.enc == 0 then 4 else if x.enc == 1 then 2 else 8
/-- The limit of LEN (R190). -/
def Stream.limit (x : Stream) : Nat := if x.enc == 2 then 2 ^ 26 - 1 else 2 ^ 31 - 1
def Stream.valid (x : Stream) : Bool := x.len ≤ x.limit && x.base % x.unitBytes == 0

/-- What the reads of one execution have met. -/
structure Rd where
  s     : State
  lacks : List Cause
  pend  : List Nat
  far   : List FarKey
  deriving DecidableEq, Repr

/-- No read yet. -/
def Rd.start (s : State) : Rd := ⟨s, [], [], []⟩

def Rd.stopped (x : Rd) : Bool := !x.lacks.isEmpty || !x.pend.isEmpty || !x.far.isEmpty

/-- One read of a wave, n bytes at an address or offset: performed at once, or asked for beyond the package. -/
def Rd.read (c : Issuer) (x : Rd) (sp : Space) (addr n : Nat) : Rd × Nat :=
  if x.stopped then (x, 0)
  else match resolveAcc x.s c sp .read ⟨0, addr, n⟩ with
    | (s, .pending va) => ({ x with s := s, pend := [va] }, 0)
    | (s, .lacks ks) => ({ x with s := s, lacks := ks }, 0)
    | (s, .ok ps) =>
      let ks := directConds s c true 0 ps
      match farMissing s c.w.far ps with
      | [] =>
        if ks.isEmpty then ({ x with s := touch s c false ps }, natOfBytes (readPieces s c.w.far ps))
        else ({ x with s := s, lacks := ks }, 0)
      | far => ({ x with s := s, far }, 0)

/-- Unit k of a stream. DESIGN CHOICE (log entry 62): a `.l` stream whose extent passes the allotment meets Register Bound when
a unit beyond it is read, not when its cursor is opened. -/
def Rd.unit (c : Issuer) (x : Rd) (st : Stream) (k : Nat) : Rd × Nat :=
  let addr := if st.l then st.base + st.unitBytes * k else (st.base + st.unitBytes * k) % 2 ^ 64
  x.read c (if st.l then .l else .g) addr st.unitBytes

/-- The pair descriptor of a cursor, or of an offset. -/
def Rd.pair (c : Issuer) (x : Rd) (off : Nat) : Rd × Pair :=
  if x.stopped then (x, Pair.ofBytes [])
  else match resolveAcc x.s c .l .read ⟨0, off, 64⟩ with
    | (s, .ok ps) =>
      let ks := poisonConds s 0 ps
      if ks.isEmpty then ({ x with s := s }, Pair.ofBytes (readPieces s [] ps))
      else ({ x with s := s, lacks := ks }, Pair.ofBytes [])
    | (s, .lacks ks) => ({ x with s := s, lacks := ks }, Pair.ofBytes [])
    | (s, .pending va) => ({ x with s := s, pend := [va] }, Pair.ofBytes [])

/-- The pair descriptor of a cursor where one is read. -/
def pairWhere (c : Issuer) (s : State) (b : Bool) (off : Nat) : Rd × Pair :=
  if b then (Rd.start s).pair c off else (Rd.start s, Pair.ofBytes [])

/-- After the reads of an execution: await its walks or what lies beyond the package, report its conditions for some
lanes, or go on. -/
def Rd.settle (c : Issuer) (ls : List Nat) (x : Rd) (s0 : State) (go : State → State) : State :=
  if !x.pend.isEmpty then awaitWalks s0 c .read x.pend
  else if !x.far.isEmpty then awaitFar x.s c x.far
  else check (dropAnswers x.s c) c c.all (x.lacks.map fun k => { k with lanes := ls })
    (go (dropAnswers x.s c))

/-! ## Cursors (R191) -/

/-- One side of a cursor. -/
structure Side where
  pos  : Nat
  off  : Nat
  last : Nat
  held : Bool
  run  : Bool
  deriving DecidableEq, Repr

def Cursor.sideA (q : Cursor) : Side := ⟨q.posa, q.offa, q.lasta, q.havea, q.ina⟩
def Cursor.sideB (q : Cursor) : Side := ⟨q.posb, q.offb, q.lastb, q.haveb, q.inb⟩
def Cursor.putA (q : Cursor) (x : Side) : Cursor :=
  { q with posa := x.pos, offa := x.off, lasta := x.last, havea := x.held, ina := x.run }
def Cursor.putB (q : Cursor) (x : Side) : Cursor :=
  { q with posb := x.pos, offb := x.off, lastb := x.last, haveb := x.held, inb := x.run }

/-- The 256 bits of a cursor (R191). -/
def Cursor.bits (q : Cursor) : Nat :=
  b2n q.inb * 2 ^ 8 + b2n q.ina * 2 ^ 9 + b2n q.haveb * 2 ^ 10 + b2n q.havea * 2 ^ 11
    + b2n q.seekerr * 2 ^ 12 + b2n q.done * 2 ^ 13 + b2n q.opened * 2 ^ 14 + q.mode % 4 * 2 ^ 15
    + q.desc % 2 ^ 15 * 2 ^ 17 + q.posa % 2 ^ 32 * 2 ^ 32 + q.offa % 2 ^ 32 * 2 ^ 64
    + q.lasta % 2 ^ 32 * 2 ^ 96 + q.posb % 2 ^ 32 * 2 ^ 128 + q.offb % 2 ^ 32 * 2 ^ 160
    + q.lastb % 2 ^ 32 * 2 ^ 192 + q.endd % 2 ^ 32 * 2 ^ 224

/-- The cursor of 256 bits; MODE = 3 loads as the closed cursor (R198). -/
def Cursor.ofBits (n : Nat) : Cursor :=
  if bitsOf n 16 15 == 3 then Cursor.closed
  else
    { endd := bitsOf n 255 224, lastb := bitsOf n 223 192, offb := bitsOf n 191 160
      posb := bitsOf n 159 128, lasta := bitsOf n 127 96, offa := bitsOf n 95 64
      posa := bitsOf n 63 32, desc := bitsOf n 31 17, mode := bitsOf n 16 15, opened := bitOf n 14
      done := bitOf n 13, seekerr := bitOf n 12, havea := bitOf n 11, haveb := bitOf n 10
      ina := bitOf n 9, inb := bitOf n 8 }

/-! ## Head and Consume (R192) -/

/-- What Head finds: the coordinate with the place behind it, or why there is none. -/
inductive HeadRes where
  | exhausted
  | unsorted
  | limit (off : Nat)
  | at_ (coord next : Nat)
  deriving DecidableEq, Repr

/-- Search a bitmap from a bit on, at most `fuel` blocks: what Head finds and the blocks examined. -/
def bitmapHead (c : Issuer) (st : Stream) : Nat → Nat → Rd → Rd × HeadRes × Nat
  | fuel, off, x =>
    match fuel with
    | 0 => (x, if st.len ≤ off / 64 then .exhausted else .limit off, 0)
    | fuel + 1 =>
      if st.len ≤ off / 64 then (x, .exhausted, 0)
      else
        let (x, bits) := x.unit c st (off / 64)
        if x.stopped then (x, .exhausted, 1)
        else match (List.range 64).find? fun b => off % 64 ≤ b && bitOf bits b with
          | some b =>
            let bit := off / 64 * 64 + b
            if 2 ^ 32 ≤ st.origin + bit then (x, .exhausted, 1)
            else (x, .at_ (st.origin + bit) (bit + 1), 1)
          | none =>
            let (x, r, n) := bitmapHead c st fuel ((off / 64 + 1) * 64) x
            (x, r, n + 1)

/-- A coordinate that does not rise is out of order. -/
def inOrder (d : Side) (r : HeadRes) : HeadRes :=
  match r with
  | .at_ coord _ => if d.held && coord ≤ d.last then .unsorted else r
  | r => r

/-- Head (R192): the budget bounds the bitmap blocks examined; the last component counts them. -/
def headOf (c : Issuer) (st : Stream) (d : Side) (budget : Nat) (x : Rd) : Rd × HeadRes × Nat :=
  if 2 ^ 31 - 1 ≤ d.pos then (x, .exhausted, 0)
  else if st.enc != 2 && st.len ≤ d.off then (x, .exhausted, 0)
  else match st.enc with
    | 0 =>
      let (x, k) := x.unit c st d.off
      (x, inOrder d (.at_ k (d.off + 1)), 0)
    | 1 =>
      let (x, w) := x.unit c st d.off
      if w == 0xFFFF then
        if st.len ≤ d.off + 2 then (x, .unsorted, 0)
        else
          let (x, lo) := x.unit c st (d.off + 1)
          let (x, hi) := x.unit c st (d.off + 2)
          (x, inOrder d (.at_ (lo + 2 ^ 16 * hi) (d.off + 3)), 0)
      else
        let k := (if d.held then d.last else st.origin) + w
        (x, if 2 ^ 32 ≤ k then .unsorted else inOrder d (.at_ k (d.off + 1)), 0)
    | 2 =>
      let (x, r, n) := bitmapHead c st budget d.off x
      (x, inOrder d r, n)
    | _ =>
      let (x, u) := x.unit c st d.off
      let start := u % 2 ^ 32
      let len := u / 2 ^ 32
      if d.run && d.last + 1 < start + len then (x, .at_ (d.last + 1) d.off, 0)
      else
        let k := if d.run then d.off + 1 else d.off
        if st.len ≤ k then (x, .exhausted, 0)
        else
          let (x, u) := if d.run then x.unit c st k else (x, u)
          let start := u % 2 ^ 32
          let len := u / 2 ^ 32
          if len == 0 || 2 ^ 32 < start + len then (x, .unsorted, 0)
          else (x, inOrder d (.at_ start k), 0)

/-- A value as an n32 (R191, R193). -/
def n32 (n : Nat) : Nat := n % 2 ^ 32

/-- Consume (R192). -/
def Side.consume (d : Side) (st : Stream) (coord next : Nat) : Side :=
  ⟨n32 (d.pos + 1), n32 next, n32 coord, true, d.run || st.enc == 3⟩

/-! ## CNEXT (R193, R194) -/

/-- What an execution of CNEXT has done so far. -/
structure Walk where
  x     : Rd
  q     : Cursor
  pairs : List (Nat × Nat × Nat)
  steps : Nat
  bad   : Option Bool      -- an unsorted stream before any pair: true for side B
  deriving DecidableEq, Repr

/-- SENT of R193. -/
def sentinel : Nat := 2 ^ 32 - 1

/-- The end diagonal has been reached (R191). -/
def Cursor.ended (q : Cursor) : Bool :=
  if q.mode == 2 then q.endd ≤ q.posa else q.endd ≤ q.posa + q.posb

/-- One turn of the loop: the walk, and whether the loop goes on. DESIGN CHOICE (log entry 62): a block of a bitmap that a
later head looks at again counts again among the steps (R193). -/
def walkTurn (c : Issuer) (p : Pair) (w : Walk) : Walk × Bool :=
  let q := w.q
  let stop (w : Walk) : Walk × Bool := (w, false)
  let done (w : Walk) : Walk × Bool := ({ w with q := { w.q with done := true } }, false)
  if q.ended then done w
  else
    let (x, ha, na) := headOf c p.a q.sideA (4096 - w.steps) w.x
    let w := { w with x := x, steps := w.steps + na }
    if x.stopped then stop w
    else match ha with
    | .limit off => stop { w with q := { w.q with offa := n32 off } }
    | _ =>
      let (x, hb, nb) := if q.mode == 2 then (x, HeadRes.exhausted, 0)
        else headOf c p.b q.sideB (4096 - w.steps) x
      let w := { w with x := x, steps := w.steps + nb }
      let takeA (k n : Nat) (w : Walk) : Walk :=
        { w with q := w.q.putA (w.q.sideA.consume p.a k n), steps := w.steps + 1 }
      let takeB (k n : Nat) (w : Walk) : Walk :=
        { w with q := w.q.putB (w.q.sideB.consume p.b k n), steps := w.steps + 1 }
      let give (a b k : Nat) (w : Walk) : Walk := { w with pairs := w.pairs ++ [(a, b, n32 k)] }
      if x.stopped then stop w
      else match ha, hb with
      | _, .limit off => stop { w with q := { w.q with offb := n32 off } }
      | .exhausted, .exhausted => done w
      | .unsorted, .exhausted =>
        if q.mode == 0 then done w
        else stop { w with bad := if w.pairs.isEmpty then some false else none }
      | .exhausted, .unsorted =>
        if q.mode == 0 then done w
        else stop { w with bad := if w.pairs.isEmpty then some true else none }
      | .unsorted, _ => stop { w with bad := if w.pairs.isEmpty then some false else none }
      | _, .unsorted => stop { w with bad := if w.pairs.isEmpty then some true else none }
      | .at_ k n, .exhausted =>
        if q.mode == 0 then done w else (takeA k n (give q.posa sentinel k w), true)
      | .exhausted, .at_ k n =>
        if q.mode == 0 then done w else (takeB k n (give sentinel q.posb k w), true)
      | .at_ k n, .at_ k' n' =>
        if k == k' then (takeB k' n' (takeA k n (give q.posa q.posb k w)), true)
        else if k < k' then
          (takeA k n (if q.mode == 0 then w else give q.posa sentinel k w), true)
        else (takeB k' n' (if q.mode == 0 then w else give sentinel q.posb k' w), true)
      | .limit _, _ => stop w

/-- The loop of CNEXT for a number of lanes. -/
def walkLoop (c : Issuer) (p : Pair) (lanes : Nat) : Nat → Walk → Walk
  | 0, w => w
  | fuel + 1, w =>
    if lanes ≤ w.pairs.length || w.q.done || 4096 ≤ w.steps then w
    else match walkTurn c p w with
      | (w, true) => walkLoop c p lanes fuel w
      | (w, false) => w

/-- The lanes that received a value, among some. -/
def firstLanes (ls : List Nat) (n : Nat) : List Nat := ls.take n

def execCnext (g : Guard) (d : VReg) (a : QReg) (cc : SReg) (p : PReg) (s : State) : Result :=
  issued s fun c =>
    let ls := c.lanes g
    let q := c.w.cursor a.val
    let pre := guardConds c g ++
      useConds c ls (runUse (.vw 0) d.val 3 ++ [.q a.val, .sw cc, .pw p.val])
    check s c c.all pre
      (if !q.opened then
        retire s c 8 ((c.w.writeS cc (word (2 ^ 62))).writeP p.val ls fun _ => false)
      else
        let (x, pr) := pairWhere c s (!ls.isEmpty && !q.done) (64 * q.desc)
        let w := walkLoop c pr ls.length 4097 ⟨x, q, [], 0, none⟩
        w.x.settle c ls s fun s =>
          match w.bad with
          | some side =>
            let s := modWave s c.ref.gid c.ref.wave fun v => v.setCursor a.val w.q
            let info := a.val * 2 ^ 62 + b2n side * 2 ^ 61
            takeTrap s { c with w := c.w.setCursor a.val w.q } ⟨12, 0, maskOf ls, word info⟩ c.pc
          | none =>
            let n := w.pairs.length
            let rows := (firstLanes ls n).zip w.pairs
            retireNow s c 8 fun v =>
              let v := rows.foldl (fun v (l, x, y, k) =>
                ((v.writeV d.val l (word x)).writeV (d.val + 1) l (word y)).writeV (d.val + 2) l
                  (word k)) v
              let v := v.setCursor a.val w.q
              let v := v.writeP p.val ls fun l => (firstLanes ls n).contains l
              v.writeS cc (word (n + b2n w.q.done * 2 ^ 63)))

/-! ## CSPLIT and CSEEK (R195, R196) -/

/-- The streams that a mode uses are lists. -/
def listsOnly (q : Cursor) (p : Pair) : Bool := p.a.enc == 0 && (q.mode == 2 || p.b.enc == 0)

/-- The binary search of CSPLIT. -/
def splitSearch (c : Issuer) (p : Pair) (d : Nat) : Nat → Nat → Nat → Rd → Rd × Nat
  | 0, lo, _, x => (x, lo)
  | fuel + 1, lo, hi, x =>
    if hi ≤ lo then (x, lo)
    else
      let mid := (lo + hi) / 2
      let (x, u) := x.unit c p.a mid
      let (x, v) := x.unit c p.b (d - mid - 1)
      if u ≤ v then splitSearch c p d fuel (mid + 1) hi x else splitSearch c p d fuel lo mid x

/-- The split point of one diagonal. -/
def splitPoint (c : Issuer) (q : Cursor) (p : Pair) (d : Nat) (x : Rd) : Rd × Nat × Nat :=
  if q.mode == 2 then (x, min d p.a.len, 0)
  else
    let d := min d (p.a.len + p.b.len)
    let (x, i) := splitSearch c p d 33 (d - p.b.len) (min d p.a.len) x
    let j := d - i
    if 0 < i && j < p.b.len then
      let (x, u) := x.unit c p.a (i - 1)
      let (x, v) := x.unit c p.b j
      (x, i, if u == v then j + 1 else j)
    else (x, i, j)

/-- The split points of some lanes; a cursor that is closed or whose streams are no lists gives sentinels. -/
def splitLanes (c : Issuer) (a : VReg) (q : Cursor) (p : Pair) (ls : List Nat) (x : Rd) :
    Rd × List (Nat × Nat × Nat) :=
  ls.foldl (fun (x, rs) l =>
    if !q.opened || !listsOnly q p then (x, rs ++ [(l, sentinel, sentinel)])
    else
      let (x, i, j) := splitPoint c q p (field (c.w.readV a.val l) 31 0) x
      (x, rs ++ [(l, i, j)])) (x, [])

def execCsplit (g : Guard) (d a : VReg) (b : QReg) (s : State) : Result :=
  issued s fun c =>
    let ls := c.lanes g
    let q := c.w.cursor b.val
    check s c c.all (guardConds c g ++ useConds c ls (runUse (.vw 0) d.val 2 ++ [.vr 1 a.val, .q b.val]))
      (let (x, p) := pairWhere c s (!ls.isEmpty && q.opened) (64 * q.desc)
       let r := splitLanes c a q p ls x
       r.1.settle c ls s fun s => retireNow s c 8 fun v => r.2.foldl (fun v (l, i, j) =>
         (v.writeV d.val l (word i)).writeV (d.val + 1) l (word j)) v)

/-- One side set to a point (R196): the coordinate before it counts as consumed. -/
def Side.seek (d : Side) (n last : Nat) : Side :=
  ⟨n, n, if n == 0 then d.last else last, n != 0, false⟩

/-- CSEEK is refused: a closed cursor, streams that are no lists, or a point beyond them (R196). -/
def seekRefused (q : Cursor) (p : Pair) (i j : Nat) : Bool :=
  !q.opened || !listsOnly q p || p.a.len < i || (q.mode != 2 && p.b.len < j)

/-- The cursor set to a point, ending at a diagonal. -/
def seekCursor (c : Issuer) (q : Cursor) (p : Pair) (i j e : Nat) (x : Rd) : Rd × Cursor :=
  if seekRefused q p i j then (x, { q with done := true, seekerr := true })
  else
    let both := q.mode != 2
    let (x, la) := if i == 0 then (x, 0) else x.unit c p.a (i - 1)
    let (x, lb) := if !both || j == 0 then (x, 0) else x.unit c p.b (j - 1)
    let q := q.putA (q.sideA.seek i la)
    let q := if both then q.putB (q.sideB.seek j lb) else q
    (x, { q with endd := e, done := false, seekerr := false })

def execCseek (d : QReg) (a b cc : SReg) (s : State) : Result :=
  issued s fun c =>
    let q := c.w.cursor d.val
    check s c c.all (useConds c c.all [.q d.val, .sr a, .sr b, .sr cc])
      (let (x, p) := pairWhere c s q.opened (64 * q.desc)
       let (x, q') := seekCursor c q p (c.w.readS a).toNat (c.w.readS b).toNat
         (field (c.w.readS cc) 31 0) x
       x.settle c c.all s fun s => retireNow s c 8 fun v => v.setCursor d.val q')

/-! ## COPEN, CCLOSE, CSTAT, CSAVE, CLOAD (R197, R198) -/

/-- MODE of a cursor. -/
def modeCode : CurMode → Nat
  | .isect => 0
  | .merge => 1
  | .expand => 2

/-- Misaligned, origin 3: a descriptor or cursor address. -/
def cursorAlign (c : Issuer) (addr n : Nat) : List Cause := when (addr % n != 0) (c.wide 6 (3 * 2 ^ 56))

def execCopen (d : QReg) (a cc : SReg) (mode : CurMode) (s : State) : Result :=
  issued s fun c =>
    let off := (c.w.readS a).toNat
    check s c c.all (useConds c c.all [.sr a, .sw cc] ++ cursorAlign c off 64 ++
        (allotCond c .l ⟨0, off, 64⟩).map fun k => { k with lanes := c.all })
      (let (x, p) := (Rd.start s).pair c off
       let bad := p.res || !p.a.valid || !p.b.valid
       let q : Cursor := if bad then Cursor.closed
         else { Cursor.closed with mode := modeCode mode, desc := off / 64, endd := sentinel, opened := true }
       x.settle c c.all s fun s => retireNow s c 8 fun v =>
         (v.setCursor d.val q).writeS cc (word (b2n bad)))

def ccloseOp (d : QReg) (len : Nat) (s : State) : Result :=
  waveOp s len [] (fun _ => []) fun c => c.w.setCursor d.val Cursor.closed

def execCcloseH (d : QReg) (s : State) : Result := ccloseOp d 4 s
def execCcloseW (d : QReg) (s : State) : Result := ccloseOp d 8 s

def cstatOp (d : SReg) (a : QReg) (k : Fin 4) (len : Nat) (s : State) : Result :=
  waveOp s len [.sw d, .qw a.val k.val] (fun _ => []) fun c =>
    c.w.writeS d (word (bitsOf (c.w.cursor a.val).bits (64 * k.val + 63) (64 * k.val)))

def execCstatH (d : SReg) (a : QReg) (k : Fin 4) (s : State) : Result := cstatOp d a k 4 s
def execCstatW (d : SReg) (a : QReg) (k : Fin 4) (s : State) : Result := cstatOp d a k 8 s

def execCsave (a : SReg) (b : SSrc) (cc : QReg) (sp : Space) (s : State) : Result :=
  issued s fun c =>
    let addr := waveAddr c a b
    let pre := useConds c c.all (.q cc.val :: .sr a :: useS b) ++ cursorAlign c addr 32
    accessOp s c .wave pre sp .write [⟨c.all.headD 0, addr, 32⟩]
      (fun t => t.oks.flatMap fun (k, ps) => directConds t.s c false k.lane ps) fun t =>
        let ps := t.oks.flatMap Prod.snd
        let bs := bytesOfNat 32 (c.w.cursor cc.val).bits
        directStore t.s c ps bs fun s =>
          let s := plainWrite (touch s c true ps) false (localWrites s ps bs)
          retireNow (noteHost s c ps) c (slen b) id

def execCload (d : QReg) (a : SReg) (b : SSrc) (sp : Space) (s : State) : Result :=
  issued s fun c =>
    let addr := waveAddr c a b
    let pre := useConds c c.all (.sr a :: useS b) ++ cursorAlign c addr 32
    directOp s c .wave pre sp [⟨c.all.headD 0, addr, 32⟩]
      (fun t => t.oks.flatMap fun (k, ps) => directConds t.s c true k.lane ps) fun t =>
        let ps := t.oks.flatMap Prod.snd
        let q := Cursor.ofBits (natOfBytes (readPieces t.s c.w.far ps))
        retireNow (touch t.s c false ps) c (slen b) fun v => v.setCursor d.val q

/-! ## CUNPK (R199) -/

/-- The values that CUNPK delivers, and sC after it. -/
def unpack (w : Wave) (o : UnpkOp) (sc : SReg) (ls : List Nat) : List Nat × Word :=
  match o with
  | .bm b =>
    let m := w.readS sc
    let bits := ((List.range 64).filter fun i => m.getLsbD i).take ls.length
    (bits.map fun i => ((w.readS b).toNat + i) % 2 ^ 32, bits.foldl (fun m i => m &&& ~~~(1#64 <<< i)) m)
  | .rl =>
    let start := field (w.readS sc) 31 0
    let len := field (w.readS sc) 63 32
    let n := min ls.length len
    ((List.range n).map fun k => (start + k) % 2 ^ 32,
      word ((start + n) % 2 ^ 32 + 2 ^ 32 * (len - n)))
  | .d16 a b =>
    let base := field (w.readS b) 31 0
    let (vs, last) := ls.foldl (fun (vs, t) l =>
      let t := (t + field (w.readV a.val l) 15 0) % 2 ^ 32
      (vs ++ [t], t)) ([], base)
    (vs, word last)

/-- What CUNPK reads. -/
def unpackUses : UnpkOp → List Use
  | .bm b => [.sr b]
  | .rl => []
  | .d16 a b => [.vr 1 a.val, .sr b]

def execCunpk (g : Guard) (d : VReg) (cc : SReg) (p : PReg) (o : UnpkOp) (s : State) : Result :=
  laneOp s 8 g ([.vw 0 d.val, .sr cc, .sw cc, .pw p.val] ++ unpackUses o) (fun _ _ => []) fun c ls =>
    let (vs, x) := unpack c.w o cc ls
    let rows := ls.zip vs
    let w := rows.foldl (fun w (l, v) => w.writeV d.val l (word v)) c.w
    (w.writeP p.val ls fun l => (rows.map Prod.fst).contains l).writeS cc x

end Sys2Proof.Machine
end

