-- ==== Sys2Proof/Machine/Control.lean ====
section
/-!
DEFINITION. Control instructions (R337-R362): branches, divergence, calls, merging gangs, waits, barriers,
hints, clauses, traps and the special registers. YIELD, SPAWN, EXIT, ACQUIRE and RELEASE are in Sched.lean.
-/

namespace Sys2Proof.Machine

/-! ## Branches (R342, R343, R344) -/

/-- An address that is not a multiple of 4 (R54). -/
def offGrid (a : Word) : Bool := a.toNat % 4 != 0

/-- Misaligned, origin 2: a control-transfer target (R388). -/
def targetCond (bad : Bool) (lanes : List Nat) : List Cause := when bad ⟨6, 2 * 2 ^ 56, lanes⟩

/-- Slice j takes a branch: some active lane has guard bit 1, or under `.all` every one (R342). -/
def takes (c : Issuer) (g : Guard) (all : Bool) (j : Nat) : Bool :=
  let bits := (sliceLanes c.w j).map (guardBit c.w g)
  if all then bits.all id else bits.any id

/-- BRA and BRX: slices that take the branch go to the target, the others on (R342). -/
def branch (s : State) (c : Issuer) (g : Guard) (all : Bool) (len : Nat) (us : List Use)
    (target : Word) : State :=
  let lanes := ((slicesOf c.gang.slices).filter (takes c g all)).flatMap (sliceLanes c.w)
  check s c c.all (guardConds c g ++ useConds c c.all us ++ targetCond (offGrid target) lanes)
    (putWave s c (c.w.regroup c fun j => if takes c g all j then target else c.pc + word len))

def execBra (g : Guard) (all : Bool) (k : BitVec 32) (s : State) : Result :=
  issued s fun c => branch s c g all 12 [] (c.pc + sextK k)

def execBrx (g : Guard) (all : Bool) (a : SReg) (b : SSrc) (s : State) : Result :=
  issued s fun c => branch s c g all (slen b) (.sr a :: useS b) (c.w.readS a + c.w.srcS b)

/-- The active lanes of a slice as its four-bit mask. -/
def nibble (ls : List Nat) : BitVec 4 := ls.foldl (fun m l => m ||| (1#4 <<< (l % 4))) 0

/-- The lanes of slice j that BRS sends to the target, and the others (R343). -/
def splitSlice (c : Issuer) (g : Guard) (j : Nat) : List Nat × List Nat :=
  (sliceLanes c.w j).partition (guardBit c.w g)

/-- BRS on one slice. -/
def brsSlice (c : Issuer) (g : Guard) (joinPc nextPc : Word) (j : Nat) (sl : Slice) : Slice :=
  let (t, n) := splitSlice c g j
  if t.isEmpty || n.isEmpty then sl
  else { sl with stack := ⟨joinPc, nextPc, nibble n, sl.amask⟩ :: sl.stack, amask := nibble t }

def execBrs (g : Guard) (join : BitVec 16) (k : BitVec 32) (s : State) : Result :=
  issued s fun c =>
    let js := slicesOf c.gang.slices
    let target := c.pc + sextK k
    let joinPc := c.pc + join.signExtend 64
    let both (j : Nat) : Bool := !(splitSlice c g j).1.isEmpty && !(splitSlice c g j).2.isEmpty
    let full (j : Nat) : Bool := 8 ≤ (sliceAt c.w j).stack.length
    let lanesIf (p : Nat → Bool) : List Nat := (js.filter p).flatMap (sliceLanes c.w)
    let conds :=
      targetCond (offGrid target) (lanesIf fun j => !(splitSlice c g j).1.isEmpty) ++
      targetCond (offGrid joinPc) (lanesIf fun j => both j && !full j) ++
      [⟨15, 0, lanesIf fun j => both j && full j⟩]
    let put (sl : Slice) (j : Nat) : Slice :=
      if c.gang.slices.getLsbD j then brsSlice c g joinPc (c.pc + 12) j sl else sl
    let w := { c.w with slices := c.w.slices.zipIdx.map fun (sl, j) => put sl j }
    check s c c.all (guardConds c g ++ conds)
      (putWave s c (w.regroup c fun j =>
        if (splitSlice c g j).1.isEmpty then c.pc + 12 else target))

/-- JOIN on a slice's stack: the new mask and stack, and where the slice goes if not on (R344). -/
def joinStack (pc : Word) : List StackEntry → BitVec 4 → BitVec 4 × List StackEntry × Option Word
  | [], m => (m, [], none)
  | e :: es, m =>
    if e.joinPc != pc then (m, e :: es, none)
    else if e.pend != 0 then (e.pend, { e with pend := 0 } :: es, some e.pendPc)
    else joinStack pc es e.saved

def joinOp (s : State) (len : Nat) : Result :=
  issued s fun c =>
    let res (j : Nat) := joinStack c.pc (sliceAt c.w j).stack (sliceAt c.w j).amask
    let put (sl : Slice) (j : Nat) : Slice :=
      if c.gang.slices.getLsbD j then { sl with amask := (res j).1, stack := (res j).2.1 } else sl
    let w := { c.w with slices := c.w.slices.zipIdx.map fun (sl, j) => put sl j }
    putWave s c (w.regroup c fun j => (res j).2.2.getD (c.pc + word len))

def execJoinH (s : State) : Result := joinOp s 4
def execJoinW (s : State) : Result := joinOp s 8

/-! ## Calls (R346) -/

/-- CALL and CALLI: link in every active lane, the whole gang to the target. -/
def callOp (s : State) (c : Issuer) (d : VReg) (len : Nat) (us : List Use) (target : Word) : State :=
  check s c c.all
    (useConds c c.all (.vw 0 d.val :: us) ++ targetCond (offGrid target) c.all)
    (putWave s c ((c.w.writeLanes d.val c.all fun _ => c.pc + word len).regroup c fun _ => target))

def execCall (d : VReg) (k : BitVec 32) (s : State) : Result :=
  issued s fun c => callOp s c d 12 [] (c.pc + sextK k)

def execCalli (d : VReg) (a : SReg) (b : SSrc) (s : State) : Result :=
  issued s fun c => callOp s c d (slen b) (.sr a :: useS b) (c.w.readS a + c.w.srcS b)

/-- The lowest active lane of each slice of the gang, of which alone RET reads the link (R346). -/
def Issuer.leads (c : Issuer) : List Nat := (slicesOf c.gang.slices).filterMap fun j => (sliceLanes c.w j).head?

/-- RET: each slice goes to the link of its lowest active lane. -/
def execRet (a : VReg) (s : State) : Result :=
  issued s fun c =>
    let target (j : Nat) : Word := c.w.readV a.val ((sliceLanes c.w j).headD (4 * j))
    let bad := (slicesOf c.gang.slices).filter fun j => offGrid (target j)
    check s c c.all
      (useConds c c.all [.vw 1 a.val] ++ useConds c c.leads [.vr 1 a.val] ++ targetCond true (bad.flatMap (sliceLanes c.w)))
      (putWave s c (c.w.regroup c target))

/-! ## Merging gangs (R347) -/

/-- The slices that a mask names; 0 names all eight. -/
def namedSlices (m : Nat) : BitVec 8 := if m % 256 == 0 then 255 else BitVec.ofNat 8 m

/-- The slices of a wave that have exited. -/
def exitedSlices (w : Wave) : BitVec 8 := sliceMask ((List.range 8).filter fun j => (sliceAt w j).exited)

/-- Where the arrived and the exited slices cover the mask, the arrived slices form one gang. -/
def Wave.sweepMerge (w : Wave) : Wave :=
  match w.merge with
  | none => w
  | some m =>
    if m.mask &&& ~~~(m.arrived ||| exitedSlices w) == 0 && m.arrived != 0 then
      let (here, rest) := w.gangs.partition fun g => g.slices &&& m.arrived != 0
      let len := here.foldl (fun a g => match g.hold with | .regang len => len | _ => a) 8
      let last := here.foldl (fun a g => max a g.last) 0
      { w with merge := none, gangs := rest ++ [⟨m.arrived, m.addr + word len, .none, none, last, false⟩] }
    else w

def execRegang (b : SSrc) (s : State) : Result :=
  issued s fun c =>
    let m := namedSlices (field (c.w.srcS b) 7 0)
    let outside := c.gang.slices &&& ~~~m != 0
    let differs := match c.w.merge with
      | none => false
      | some p => p.mask != m || p.addr != c.pc
    let arrived := ((c.w.merge.map Merge.arrived).getD 0) ||| c.gang.slices
    let w := c.w.modGang c.ref.slice fun g => { g with hold := .regang (slen b) }
    check s c c.all
      (useConds c c.all (useS b) ++ when (outside || differs) (c.wide 14 0))
      (putWave s c (Wave.sweepMerge { w with merge := some ⟨m, c.pc, arrived⟩ }))

/-! ## Waiting and hints (R349, R351, R65, R66) -/

def nopOp (s : State) (len : Nat) : Result := waveOp s len [] (fun _ => []) fun c => c.w

def execNopH (s : State) : Result := nopOp s 4
def execNopW (s : State) : Result := nopOp s 8

def execWait (l st k m : Imm8) (s : State) : Result :=
  issued s fun c =>
    if c.w.countersAt l.val st.val k.val m.val then retire s c 8 c.w
    else holdAt s c (.counters l.val st.val k.val m.val)

/-- The header of a clause (R66). -/
def execClause (cls : ClauseClass) (len : Fin 16) (l st k m : Imm8) (s : State) : Result :=
  issued s fun c =>
    if c.w.countersAt l.val st.val k.val m.val then
      putWave s c (c.w.modGang c.ref.slice fun g =>
        { g.advance 8 with clause := some ⟨cls, len.val + 1⟩ })
    else holdAt s c (.counters l.val st.val k.val m.val)

/-- HINT: the gang leaves the issue choice until the hint expires; a pace of 0 ends at once. -/
def execHint (o : HintOp) (s : State) : Result :=
  issued s fun c =>
    match o with
    | .spin => holdAt s c .hint
    | .pace a =>
      check s c c.all (useConds c c.all [.sr a])
        (if c.w.readS a == 0 then retire s c 8 c.w else holdAt s c .hint)

/-- HINT_EXPIRY: the cycles of the hint have passed. -/
def execHintExpiry (gid wave slice : Nat) (s : State) : Result :=
  match issuerAt s ⟨gid, wave, slice⟩ with
  | some c => .next (if c.gang.hold == .hint then retire s c 8 c.w else s)
  | none => .next s

/-! ## Barriers (R352) -/

/-- The waves that a mask names; 0 names every wave of the group. -/
def namedWaves (n m : Nat) : BitVec 16 :=
  if m % 65536 == 0 then BitVec.ofNat 16 (2 ^ n - 1) else BitVec.ofNat 16 m

/-- BAR and ARRIVE: Sync Mask, or the wave joins the arrived set and goes on or waits. -/
def barrierOp (s : State) (n : Fin 4) (b : SSrc) (wait : Bool) : Result :=
  issued s fun c =>
    let count := c.g.waves.length
    let m := namedWaves count (field (c.w.srcS b) 15 0)
    let bar := c.g.bars.getD n.val ⟨none, 0, 0⟩
    let bad := !c.whole || m &&& ~~~(BitVec.ofNat 16 (2 ^ count - 1)) != 0
      || bar.fixed.getD m != m || !m.getLsbD c.ref.wave
    let info := (if wait then 1 else 2) * 2 ^ 62 + n.val * 2 ^ 60
    let arrive (b : Barrier) : Barrier := ⟨some m, b.arrived ||| (1#16 <<< c.ref.wave), b.gen⟩
    let joined := modGroup s c.ref.gid fun g => { g with bars := modifyAt arrive n.val g.bars }
    let w := if wait then
        c.w.modGang c.ref.slice fun g => { g with hold := .barrier n.val bar.gen (slen b) }
      else c.w.step c (slen b)
    check s c c.all (useConds c c.all (useS b) ++ when bad (c.wide 14 info) ++
        when (c.g.marked (gmBar n.val)) (c.wide 18 (2 * 2 ^ 60)))
      (sweepBars (putWave joined c w) c.ref.gid)

def execBar (n : Fin 4) (b : SSrc) (s : State) : Result := barrierOp s n b true
def execArrive (n : Fin 4) (b : SSrc) (s : State) : Result := barrierOp s n b false

/-! ## Traps (R360, R391, R392) -/

def execTrap (code : Imm8) (s : State) : Result :=
  issued s fun c => takeTrap s c ⟨20, code.val, maskOf c.all, 0⟩ (c.pc + 8)

def tretOp (s : State) : Result :=
  issued s fun c =>
    let deep := (slicesOf c.gang.slices).any fun j =>
      (sliceAt c.w j).tdepth < (sliceAt c.w j).stack.length
    check s c c.all
      (when (!c.w.trap.tm && !c.w.marked (mkSpec 4)) (c.wide 2 0) ++ when deep (c.wide 15 (2 * 2 ^ 56)) ++
        useConds c c.all [.spec 4, .spec 5])
      (putWave s c (c.w.leave c.gang.slices))

def execTretH (s : State) : Result := tretOp s
def execTretW (s : State) : Result := tretOp s

/-! ## Special registers (R63, R361, R362) -/

/-- %memcap (R99). -/
def memcap : Nat := 6 + 6 * 2 ^ 4 + 5 * 2 ^ 8 + 5 * 2 ^ 12 + 3 * 2 ^ 16 + 3 * 2 ^ 20

/-- %clock of a core: the cycles of the steps taken (log entry 6). -/
def clockOf (s : State) (die phys : Nat) : Word :=
  (List.range s.ticks).foldl (fun a n => a + word (Config.cycleStep die phys n)) 0

/-- Accumulator word w of %ckn. -/
def ckWord (w : Wave) (n : Fin 4) (i : Fin 5) : Word :=
  BitVec.ofNat 64 ((w.ck.get 0 n.val).toNat / 2 ^ (64 * i.val))

/-- The value MFS reads (R361). -/
def readSpec (s : State) (c : Issuer) : SpecReg → Word
  | .waveid => word c.ref.wave
  | .groupid => word (c.g.launch * 2 ^ 32 + c.g.index)
  | .coreid => word c.g.core
  | .quadid => word (c.g.core / 4)
  | .dieid => word c.g.die
  | .pkgid => word s.regs.pkgId
  | .clock => clockOf s c.g.die c.g.phys
  | .grain => c.w.grain
  | .grainctr => c.w.grainctr
  | .fmode => c.w.fmode.setWidth 64
  | .tvec => c.w.trap.tvec
  | .tcause => word (c.w.trap.tm.toNat * 2 ^ 63 + c.w.trap.code * 2 ^ 32 + c.w.trap.cause)
  | .tpc => c.w.trap.tpc
  | .tlanes => c.w.trap.tlanes.setWidth 64
  | .tinfo => c.w.trap.tinfo
  | .amask => (maskOf c.all).setWidth 64
  | .accord => c.g.accord
  | .cnt => word (c.w.cntL + 2 ^ 8 * c.w.cntS + 2 ^ 16 * c.w.cntC + 2 ^ 24 * c.w.cntM)
  | .barst => word (c.w.bhalted.toNat * 2 ^ 16 + c.w.abnd.toNat)
  | .memcap => word memcap
  | .ck n i => ckWord c.w n i

/-- The stored word that a special register's read or write concerns, for its parity (R211). -/
def specUse : SpecReg → List Use
  | .grain => [.spec 0]
  | .grainctr => [.spec 1]
  | .fmode => [.spec 2]
  | .tvec => [.spec 3]
  | .tcause => [.spec 4]
  | .tpc => [.spec 5]
  | .tlanes => [.spec 6]
  | .tinfo => [.spec 7]
  | .barst => [.spec 8]
  | .accord => [.accord]
  | .ck n i => [.ckw n.val i.val]
  | _ => []

/-- The value of a per-lane register (R210, R36). -/
def readLaneSpec (w : Wave) (l : Nat) : LaneSpec → Word
  | .laneid => word l
  | .sliceid => word (l / 4)
  | .fflags => (w.readFf l).setWidth 64

def execMfs (o : MfsOp) (s : State) : Result :=
  match o with
  | .lane g d r =>
    laneOp s 8 g (.vw 0 d.val :: (if r = .fflags then [.ff] else [])) (fun _ _ => []) fun c ls =>
      c.w.writeLanes d.val ls fun l => readLaneSpec c.w l r
  | .wave d r =>
    waveOp s 8 (.sw d :: specUse r) (fun _ => []) fun c => c.w.writeS d (readSpec s c r)

/-- The word of a wave that MTS replaces, its parity made anew. -/
def unmarkSpec (r : SpecReg) (w : Wave) : Wave :=
  (specUse r).foldl (fun w u => match u with
    | .spec k => w.unmark (mkSpec k)
    | .ckw n k => w.unmark (mkCk n k)
    | _ => w) w

/-- MTS to a register held per wave (R362, R64); %accord is the group's. -/
def writeSpec (w : Wave) (r : SpecReg) (x : Word) : Wave :=
  match r with
  | .grain => { w with grain := x }
  | .grainctr => { w with grainctr := x }
  | .fmode => { w with fmode := x.setWidth 8 }
  | .tvec => { w with trap := { w.trap with tvec := codeAddr x ||| (x &&& 1) } }
  | .tcause => { w with trap := { w.trap with code := field x 39 32, cause := field x 4 0 } }
  | .tpc => { w with trap := { w.trap with tpc := codeAddr x } }
  | .tlanes => { w with trap := { w.trap with tlanes := x.setWidth 32 } }
  | .tinfo => { w with trap := { w.trap with tinfo := x } }
  | .barst => { w with bhalted := BitVec.ofNat 16 (field x 31 16), abnd := x.getLsbD 0 }
  | .ck n i =>
    let old := (w.ck.get 0 n.val).toNat
    let at_ := 2 ^ (64 * i.val)
    { w with ck := w.ck.set 0 n.val (BitVec.ofNat 320 (old - old / at_ % 2 ^ 64 * at_ + x.toNat * at_)) }
  | _ => w

/-- The registers that MTS writes only while traps are masked (R362). -/
def SpecReg.masked : SpecReg → Bool
  | .tcause => true
  | .tpc => true
  | .tlanes => true
  | .tinfo => true
  | _ => false

/-- %accord with its mark cleared. -/
def writeAccord (s : State) (gid : Nat) (x : Word) : State :=
  modGroup s gid fun g => { g with accord := x, marks := g.marks.set false gmAccord false }

def execMts (o : MtsOp) (s : State) : Result :=
  match o with
  | .fflags g b =>
    laneOp s (vlen b) g (useV 2 b) (fun _ _ => []) fun c ls =>
      ls.foldl (fun w l =>
        let x := c.w.srcV .none l b
        { w with fflags := w.fflags.set 0 l (x.setWidth 6), marks := w.marks.set false (mkFf l) false })
        c.w
  | .wave r b =>
    issued s fun c =>
      let x := c.w.srcS b
      let conds := useConds c c.all (useS b ++ if SpecReg.masked r then [.spec 4] else []) ++
        when (SpecReg.masked r && !c.w.trap.tm && !c.w.marked (mkSpec 4)) (c.wide 2 0)
      let s' := if r = .accord then writeAccord s c.ref.gid x else s
      check s c c.all conds (retire s' c (slen b) (unmarkSpec r (writeSpec c.w r x)))

end Sys2Proof.Machine
end

