-- ==== Sys2Proof/Machine/Matrix.lean ====
section
/-!
DEFINITION. The matrix engine (R271-R298): tile registers, weight-buffer slots, accords and the rendezvous
latch, MMA, QMMA and MMAX with its steps, and the other tile instructions.
-/

namespace Sys2Proof.Machine

/-! ## Tile registers (R271, R272) -/

def TileStat.reset : TileStat := ⟨0, false, 0, false, 0, false, false, 0⟩

def tileStat (g : Group) (m : Nat) : TileStat := g.tstat.getD m TileStat.reset

/-- The status word (R271). -/
def TileStat.status (t : TileStat) : Word :=
  word (t.kbase % 65536 * 2 ^ 48 + b2n t.uce * 2 ^ 26 + t.flags.toNat % 32 * 2 ^ 21
    + b2n t.i64 * 2 ^ 20 + t.inflight % 2 * 2 ^ 19 + b2n t.dirty * 2 ^ 18 + b2n t.valid * 2 ^ 17
    + t.kdone % 65536)

/-- The fields of a status word. -/
def TileStat.ofWord (w : Word) : TileStat :=
  { kbase := field w 63 48, uce := w.getLsbD 26, flags := BitVec.ofNat 6 (field w 25 21)
    i64 := w.getLsbD 20, inflight := field w 19 19, dirty := w.getLsbD 18, valid := w.getLsbD 17
    kdone := field w 15 0 }

/-- Change a status word; it is sound from then on. -/
def modTile (g : Group) (m : Nat) (f : TileStat → TileStat) : Group :=
  { g with tstat := modifyAt f m g.tstat, marks := g.marks.set false (gmTile m) false }

/-- FLAGS collects (R271). -/
def TileStat.orFlags (t : TileStat) (f : Flags) : TileStat := { t with flags := t.flags ||| f }

/-- The 4,096 cells of a tile, row by row. -/
def tileCells (g : Group) (m : Nat) : List Word :=
  let mine := g.cells.filter fun e => 4096 * m ≤ e.1 && e.1 < 4096 * m + 4096
  (List.range 4096).map fun i => Sparse.get 0 mine (4096 * m + i)

/-- Replace the cells of a tile. -/
def putCells (g : Group) (m : Nat) (xs : List Word) : Group :=
  let lo := 4096 * m
  let new := xs.zipIdx.filterMap fun (x, i) => if x = 0 then none else some (lo + i, x)
  { g with cells := (g.cells.filter fun e => e.1 < lo) ++ new ++
      g.cells.filter fun e => lo + 4096 ≤ e.1 }

def cellAt (g : Group) (m i j : Nat) : Word := g.cells.get 0 (4096 * m + 64 * i + j)
def putCell (g : Group) (m i j : Nat) (x : Word) : Group :=
  { g with cells := g.cells.set 0 (4096 * m + 64 * i + j) x }

/-- The halves of an F32 cell. -/
def cellE (x : Word) : Nat := x.toNat % 2 ^ 32
def cellO (x : Word) : Nat := x.toNat / 2 ^ 32
def pairCell (e o : Nat) : Word := word (e % 2 ^ 32 + o % 2 ^ 32 * 2 ^ 32)

/-- Register Bound of a tile register (R207), and Uncorrectable Data of a tile whose cells are read (R271). -/
def tileBound (c : Issuer) (m : Nat) : List Cause := when (c.g.tregs ≤ m) (c.wide 3 (7 * 2 ^ 56))
/-- A status word that was refilled as uncorrectable and is read (R400). -/
def tileMark (c : Issuer) (m : Nat) : List Cause := when (c.g.marked (gmTile m)) (c.wide 18 (2 * 2 ^ 60))
def tileUce (c : Issuer) (m : Nat) : List Cause :=
  tileMark c m ++ when (tileStat c.g m).uce (c.wide 18 (3 * 2 ^ 60))

/-- %tinfo of an Operand Format condition (R388). -/
def opFormat (n : Nat) : Nat := 2 ^ 62 + n * 2 ^ 56

/-- The tile is not VALID or not in the mode needed (R283). -/
def tileMode (c : Issuer) (m : Nat) (i64 : Bool) : List Cause :=
  let t := tileStat c.g m
  when (!t.valid || t.i64 != i64) (c.wide 11 (opFormat 6))

/-! ## Weight-buffer slots (R277, R278) -/

/-- A slot header. -/
structure SlotHeader where
  t  : Nat
  n  : Nat
  kb : Nat
  compand : Bool
  ok : Bool
  deriving DecidableEq, Repr

def slotByte (g : Group) (slot off : Nat) : Byte := g.wb.get 0 (65536 * slot + off)
def slotRun (g : Group) (slot off n : Nat) : List Byte := (List.range n).map fun i => slotByte g slot (off + i)
/-- Some byte of a run of a slot is marked uncorrectable (R98). -/
def slotMarked (g : Group) (slot off n : Nat) : Bool :=
  g.wbMark.any fun e => 65536 * slot + off ≤ e.1 && e.1 < 65536 * slot + off + n && e.2

/-- The header of a slot, and whether it is valid (R277). -/
def slotHeader (g : Group) (slot : Nat) : SlotHeader :=
  let h := natOfBytes (slotRun g slot 0 64)
  let t := bitsOf h 4 0
  let n := bitsOf h 31 16
  let kb := bitsOf h 47 32
  let compand := bitOf h 8
  let okT := t == 9 || t == 10 || (19 ≤ t && t ≤ 25)
  { t := t, n := n, kb := kb, compand := compand
    ok := bitsOf h 7 5 == 0 && bitsOf h 15 9 == 0 && bitsOf h 511 48 == 0 && okT &&
      n % 64 == 0 && 64 ≤ n && n ≤ 384 && 1 ≤ kb && slotBytes t n kb compand ≤ 65536 }

/-- The B descriptor (R278). -/
def bSlot (b : Word) : Nat := field b 2 0
def bFirst (b : Word) : Nat := field b 23 8
def bReserved (b : Word) : Bool := field b 63 24 != 0 || field b 7 3 != 0

/-- Where k-block `i` counted from k-block 0 of a slot lies in the chain of slots (R288): the slots walked
through and the k-block in the last of them. The chain stops at a slot beyond the group's or at one that is
empty. -/
def slotChain (g : Group) : Nat → Nat → Nat → List Nat × Nat
  | 0, slot, i => ([slot], i)
  | fuel + 1, slot, i =>
    if g.wbslots ≤ slot then ([slot], i)
    else
      let kb := (slotHeader g slot).kb
      if i < kb || kb == 0 then ([slot], i)
      else
        let (ss, j) := slotChain g fuel (slot + 1) (i - kb)
        (slot :: ss, j)

/-! ## The A operand (R276) -/

def aFirst (a : Word) : Nat := field a 51 36
def aPitch (a : Word) : Nat := field a 35 24
def aOff (a : Word) : Nat := field a 23 0

/-- Bytes of a k-block of A. -/
def aBlockBytes (t : Ty) : Nat :=
  if t == .aq8 then 32 else if t == .f16 || t == .bf16 then 64 else blockBytes (fmtCode t)

/-- Block number of k-block q of row i in the tensor at OFF. -/
def aBlockNo (a : Word) (t : Ty) (i q : Nat) : Nat := i * (128 * aPitch a / aBlockBytes t) + q

/-- `.l` offset of k-block q of row i. DESIGN CHOICE (log entry 62): an OFF that is no multiple of 128, for which R276 names
no cause, is used as it stands. -/
def aBlockAt (a : Word) (t : Ty) (i q : Nat) : Nat :=
  if (fmtCode t) != 0 then aOff a + aBlockNo a t i q * aBlockBytes t
  else aOff a + 128 * aPitch a * i + aBlockBytes t * q

/-- One k-block of 32 elements as fetched. -/
structure KBlock where
  codes : List Nat
  scale : Nat
  param : Word
  deriving DecidableEq, Repr

/-- The elements of a block's bytes (R27). -/
def kCodes (t : Ty) (bs : List Byte) : List Nat :=
  (List.range 32).map fun i =>
    if t == .f16 || t == .bf16 then natOfBytes ((bs.drop (2 * i)).take 2) else blockCode t bs i

/-- K-block q of row i of A. -/
def fetchA (s : State) (g : Group) (a : Word) (t : Ty) (i q : Nat) : KBlock :=
  let pa := spadPa g (aBlockAt a t i q)
  { codes := kCodes t (readRun s pa (aBlockBytes t))
    scale := (lineAt s pa).scale (slotOf (fmtCode t) (aBlockNo a t i q))
    param := if t == .aq8 then wordOfBytes (readRun s (spadPa g (aOff a - 1024 + 8 * i)) 8) else 0 }

/-- K-block q of column n of a slot. -/
def fetchB (g : Group) (slot : Nat) (h : SlotHeader) (n q : Nat) : KBlock :=
  let size := slotBlockBytes h.t
  { codes := kCodes (tyOf h.t) (slotRun g slot (64 + (n * h.kb + q) * size) size)
    scale := if mxCode h.t then (slotByte g slot (slotD1 h.t h.n h.kb + n * h.kb + q)).toNat else 0
    param := if h.t == 25 then wordOfBytes (slotRun g slot (slotD1 h.t h.n h.kb + 8 * n) 8) else 0 }

/-- The real values of a k-block (R279). -/
def KBlock.vals (t : Ty) (k : KBlock) : List Val :=
  if t == .aq8 then k.codes.map fun q => (aqDecode k.param q).1
  else if t == .f16 || t == .bf16 then k.codes.map (decodeVal t)
  else k.codes.map (blockElem t k.scale)

/-- The integers of a k-block in integer mode and its shift (R279, R282). -/
def KBlock.ints (t : Ty) (k : KBlock) : List Int × Int :=
  if t == .aq8 then (k.codes.map fun (q : Nat) => (q : Int) - (aqZp k.param : Int), 0)
  else (k.codes.map (intOf true 8), (k.scale : Int) - 127)

/-- The companding pairs of a slot as the inverse table reads them: output first (R279). -/
def slotPairs (g : Group) (slot : Nat) (h : SlotHeader) : List (Nat × Nat) :=
  (List.range 17).map fun k =>
    let at_ := slotD2 h.t h.n h.kb + 8 * k
    (natOfBytes (slotRun g slot (at_ + 4) 4), natOfBytes (slotRun g slot at_ 4))

/-- Bit n of the channel mask of a slot. -/
def slotMasked (g : Group) (slot : Nat) (h : SlotHeader) (n : Nat) : Bool :=
  h.compand && (slotByte g slot (slotD2 h.t h.n h.kb + 136 + n / 8)).getLsbD (n % 8)

/-- The values of a B k-block behind the inverse table, with its flags (R279). -/
def bVals (g : Group) (slot : Nat) (h : SlotHeader) (n q : Nat) : List Val × Flags :=
  let vs := (fetchB g slot h n q).vals (tyOf h.t)
  if slotMasked g slot h n then
    let ys := vs.map (tableMap (slotPairs g slot h))
    (ys.map Prod.fst, ys.foldl (fun f y => f ||| y.2) 0)
  else (vs, 0)

/-! ## Accumulation (R281, R282) -/

/-- The sum of a k-block's products, and NV (R281). -/
def dotVals (xs ys : List Val) : Val × Flags :=
  let ps := (List.zipWith mulVals xs ys).map Prod.fst
  if ps.any Val.isNan then (.nan false, Flags.nv)
  else
    let (v, f) := sumVals false ps
    if f != 0 then (.nan false, Flags.nv) else (v, 0)

/-- One k-block into an F32 cell. -/
def addPair (even : Bool) (x : Word) (v : Val) : Word × Flags :=
  let old := if even then cellE x else cellO x
  let (b, f) := encodeExact .f32 .rne false (addVals false (decodeVal .f32 old) v)
  (if even then pairCell b (cellO x) else pairCell (cellE x) b, f)

/-- One k-block into an I64 cell. -/
def addInt (x : Word) (sum : Int) (sh : Nat) : Word × Flags :=
  let exact := x.toInt + sum * (2 ^ sh : Nat)
  (word (natOf 64 exact), if exact < -(2 ^ 63 : Nat) || (2 ^ 63 : Nat) ≤ exact then Flags.of else 0)

/-- One k-block into a tile at a place of the grid (R281, R282). -/
def stepTile (s : State) (t : Ty) (int : Bool) (a : Word) (slot : Nat) (h : SlotHeader) (qa qb row col m : Nat)
    (g : Group) : Group :=
  let st := tileStat g m
  let (xs, fl) : List (Word × Flags) × Flags :=
    if int then
      let as := (List.range 64).map fun i => (fetchA s g a t (64 * row + i) qa).ints t
      let bs := (List.range 64).map fun j => (fetchB g slot h (64 * col + j) qb).ints (tyOf h.t)
      (((as.flatMap fun x => bs.map fun y =>
        ((List.zipWith (· * ·) x.1 y.1).foldl (· + ·) (0 : Int), (x.2 + y.2).toNat)).zip
          (tileCells g m)).map fun (p, x) => addInt x p.1 p.2, 0)
    else
      let as := (List.range 64).map fun i => (fetchA s g a t (64 * row + i) qa).vals t
      let bs := (List.range 64).map fun j => bVals g slot h (64 * col + j) qb
      (((as.flatMap fun x => bs.map fun y => dotVals x y.1).zip (tileCells g m)).map fun (p, x) =>
        let r := addPair (st.kdone % 2 == 0) x p.1
        (r.1, r.2 ||| p.2), bs.foldl (fun f y => f ||| y.2) 0)
  let g := putCells g m (xs.map Prod.fst)
  modTile g m fun st => { (st.orFlags (xs.foldl (fun f x => f ||| x.2) fl)) with
    dirty := true, kdone := (st.kdone + 1) % 65536 }

/-! ## Accords (R273, R275) -/

/-- A valid entry of an accord. -/
structure AccordEntry where
  wave : Nat
  row  : Nat
  col  : Nat
  deriving DecidableEq, Repr

def accordEntries (a : Word) : List AccordEntry :=
  (List.range 6).filterMap fun e =>
    let b := field a (8 * e + 7) (8 * e)
    if bitOf b 7 then some ⟨b % 16, bitsOf b 4 4, bitsOf b 6 5⟩ else none

/-- %accord is valid (R273). -/
def accordValid (a : Word) (nwaves : Nat) : Bool :=
  let es := accordEntries a
  field a 63 48 == 0 && 2 ≤ es.length && es.all (fun e => e.col ≤ 2 && e.wave < nwaves) &&
    (dedup (es.map AccordEntry.wave)).length == es.length &&
    (dedup (es.map fun e => (e.row, e.col))).length == es.length

/-- Grid place of a wave. -/
def accordPlace (a : Word) (wave : Nat) : Nat × Nat :=
  match (accordEntries a).find? fun e => e.wave == wave with
  | some e => (e.row, e.col)
  | none => (0, 0)

/-- Extent in rows and columns. -/
def accordRows (a : Word) : Nat := 1 + (accordEntries a).foldl (fun m e => max m e.row) 0
def accordCols (a : Word) : Nat := 1 + (accordEntries a).foldl (fun m e => max m e.col) 0

def execAccord (d a : SReg) (s : State) : Result :=
  issued s fun c =>
    let x := c.w.readS a
    let ok := accordValid x c.g.waves.length
    check s c c.all (useConds c c.all [.sw d, .sr a])
      (let s := if ok then modGroup s c.ref.gid fun g =>
          { g with accord := x, marks := g.marks.set false gmAccord false } else s
       retireNow s c 8 fun w => w.writeS d (if ok then 0 else 1))

/-! ## The checks of an accepted instruction (R283, R286) -/

def latchInt (e : Latch) : Bool := bitOf e.f 4
def latchNk (e : Latch) : Nat := e.f % 16 + 1
def Latch.a (e : Latch) : Word := (e.arrivals.head?.map Arrival.a).getD 0
def Latch.b (e : Latch) : Word := (e.arrivals.head?.map Arrival.b).getD 0

/-- The pair of types and companding that a mode takes (R280). -/
def pairOk (int : Bool) (a b : Nat) (compand : Bool) : Bool :=
  if int then (a == 24 || a == 25) && (b == 24 || b == 25) && !compand
  else if 19 ≤ a && a ≤ 25 then 19 ≤ b && b ≤ 25
  else a == b

/-- K-blocks that a set of checks covers: those of A, and the place of each in the slots. -/
structure StepSpan where
  ka   : List Nat
  kb   : List (Nat × Nat)      -- slot and k-block
  slots : List Nat             -- every slot reached, in order
  deriving DecidableEq, Repr

/-- The k-blocks of MMA and QMMA. -/
def mmaSpan (e : Latch) : StepSpan :=
  let qs := List.range (latchNk e)
  ⟨qs.map (aFirst e.a + ·), qs.map fun q => (bSlot e.b, bFirst e.b + q), [bSlot e.b]⟩

/-- The k-block of step q of an MMAX (R288). -/
def mmaxSpan (g : Group) (e : Latch) (q : Nat) : StepSpan :=
  let (ss, j) := slotChain g 8 (bSlot e.b) (bFirst e.b + q)
  ⟨[aFirst e.a + q], [(ss.getLast?.getD 0, j)], ss⟩

/-- Rows of A that an accord uses. -/
def accordARows (a : Word) : List Nat :=
  (List.range (accordRows a)).flatMap fun r =>
    if (accordEntries a).any fun e => e.row == r then (List.range 64).map (64 * r + ·) else []

/-- Spans of A in `.l`: offset, bytes and, for an MX type, the block number. -/
def aSpans (e : Latch) (ka : List Nat) : List (Nat × Nat × Option Nat) :=
  let a := e.a
  (ka.flatMap fun q => (accordARows e.accord).map fun i =>
    (aBlockAt a e.t i q, aBlockBytes e.t, if fmtCode e.t != 0 then some (aBlockNo a e.t i q) else none)) ++
  (if e.t == .aq8 then (accordARows e.accord).map fun i => (aOff a - 1024 + 8 * i, 8, none) else [])

/-- Operand Format conditions of an accord instruction, ascending (R283, R388). `nk`: the k-blocks of the
whole instruction. What a header that is not valid says is not compared with anything, and a step of MMAX
beyond the group's last slot is condition 7, the slot chain of R388, and not its B range, condition 2 (log entry 40). -/
def formatConds (s : State) (g : Group) (e : Latch) (nk : Nat) (x : StepSpan) (mmax badCount : Bool) : List Nat :=
  let slot := bSlot e.b
  let h := slotHeader g slot
  let size := aBlockBytes e.t
  let pitch := 128 * aPitch e.a
  let int := latchInt e
  let tc : Nat := Ty.code e.t
  let row (b : Bool) (n : Nat) : List Nat := if b then [n] else []
  let badPitch := pitch == 0 || pitch < (aFirst e.a + nk) * size ||
    (fmtSix (fmtCode e.t) && aPitch e.a % 3 != 0)
  let shifts : Bool := int && h.ok && !badPitch && (x.kb.zip x.ka).any fun ((sl, qb), qa) =>
    let hb := slotHeader g sl
    hb.ok && qb < hb.kb && (accordEntries e.accord).any fun en =>
      (List.range 64).any fun i => (List.range 64).any fun j =>
        let sh := ((fetchA s g e.a e.t (64 * en.row + i) qa).ints e.t).2 +
          ((fetchB g sl hb (64 * en.col + j) qb).ints (tyOf hb.t)).2
        decide (sh < 0) || decide (15 < sh)
  row (h.ok && !pairOk int tc h.t h.compand) 0 ++
  row (!h.ok) 1 ++
  row (h.ok && ((!mmax && h.kb < bFirst e.b + nk) || h.n < 64 * accordCols e.accord)) 2 ++
  row badPitch 3 ++
  row (field e.a 63 52 != 0 || bReserved e.b) 4 ++
  row shifts 5 ++
  row (e.arrivals.any fun r => !(tileStat g r.d).valid || (tileStat g r.d).i64 != int) 6 ++
  row (badCount || (mmax && h.ok && (x.slots.drop 1).any fun n =>
      let k := slotHeader g n
      g.wbslots ≤ n || !k.ok || k.t != h.t || k.n != h.n || k.compand != h.compand)) 7

/-- The conditions of R286 as rank and %tinfo, each list in its own order. -/
def accordConds (s : State) (g : Group) (e : Latch) (nk : Nat) (x : StepSpan) (mmax badCount : Bool) :
    List (Nat × Nat) :=
  let slot := bSlot e.b
  let bound := g.wbslots ≤ slot
  let spans := aSpans e x.ka
  let short := e.t == .aq8 && aOff e.a < 1024
  let beyond := short || spans.any fun (o, n, _) => 4096 * g.tiles < o + n
  let fmt := if bound then [] else formatConds s g e nk x mmax badCount
  let sane := !bound && !beyond && fmt.isEmpty
  let tilesOf (o n : Nat) : List Nat := [(o / 4096), ((o + n - 1) / 4096)]
  let owned := if beyond then [] else
    (dedup (spans.flatMap fun (o, n, _) => tilesOf o n)).filter fun k =>
      ownedByEngine s g.die g.phys (g.spadBase + k)
  let desync := if beyond then none else spans.findSome? fun (o, _, b) => match b with
    | some b => desyncCheck (lineAt s (spadPa g o)) (fmtCode e.t) b
    | none => none
  let poison := !beyond && spans.any fun (o, n, _) => poisonedRun s (spadPa g o) n
  let h := slotHeader g slot
  let marked := !bound && (x.slots.any fun n => slotMarked g n 0 64) || (sane &&
    (x.kb.any fun (sl, q) =>
      let hb := slotHeader g sl
      (accordEntries e.accord).any fun en => (List.range 64).any fun j =>
        let n := 64 * en.col + j
        let size := slotBlockBytes h.t
        slotMarked g sl (64 + (n * hb.kb + q) * size) size ||
          (mxCode h.t && slotMarked g sl (slotD1 h.t h.n hb.kb + n * hb.kb + q) 1) ||
          (h.t == 25 && slotMarked g sl (slotD1 h.t h.n hb.kb + 8 * n) 8) ||
          (h.compand && (slotMarked g sl (slotD2 h.t h.n hb.kb) 136 ||
            slotMarked g sl (slotD2 h.t h.n hb.kb + 136 + n / 8) 1))))
  (if bound || beyond then [(3, 7 * 2 ^ 56)] else []) ++
    owned.map (fun k => (10, (g.spadBase + k) * 2 ^ 55)) ++
    fmt.map (fun n => (11, opFormat n)) ++
    (match desync with | some k => [(11, k * 2 ^ 60)] | none => []) ++
    (if poison || marked then [(18, 0)] else []) ++
    (if (e.arrivals.any fun r => g.marked (gmTile r.d)) || (!beyond && spans.any fun (o, n, _) =>
        (tilesOf o n).any fun k => ownerFails s g.die g.phys (g.spadBase + k)) then [(18, 2 * 2 ^ 60)] else []) ++
    (if e.arrivals.any fun r => (tileStat g r.d).uce then [(18, 3 * 2 ^ 60)] else [])

/-! ## Acceptance (R274, R286-R288) -/

/-- The k-blocks of a span into every tile of an accord. -/
def performSpan (s : State) (e : Latch) (x : StepSpan) (g : Group) : Group :=
  (x.ka.zip x.kb).foldl (fun g (qa, sl, qb) =>
    e.arrivals.foldl (fun g r =>
      let (row, col) := accordPlace e.accord r.wave
      stepTile s e.t (latchInt e) e.a sl (slotHeader g sl) qa qb row col r.d g) g) g

/-- A wave leaves its accord instruction. -/
def leaveLatch (len : Nat) (w : Wave) : Wave :=
  { w with gangs := w.gangs.map fun g =>
      if g.hold == .latch || g.hold == .expand then g.advance len else g }

/-- Change the waves of an accord. -/
def modAccord (s : State) (gid : Nat) (e : Latch) (f : Wave → Wave) : State :=
  e.arrivals.foldl (fun s r => modWave s gid r.wave f) s

/-- One cause on every wave of an accord, and what halts bring (R286). -/
def faultAccord (s : State) (gid : Nat) (e : Latch) (k : Nat × Nat) : State :=
  sweep (trapHeld s gid (e.arrivals.map Arrival.wave) k.1 k.2) gid

/-- Every wave of an accord counts the instruction on M and goes on. -/
def passAccord (s : State) (gid : Nat) (e : Latch) : State :=
  modAccord s gid e fun w => leaveLatch e.len { w with mq := w.mq + 1 }

/-- MMA, accepted (R286). -/
def acceptMma (s : State) (g : Group) (e : Latch) : State :=
  let x := mmaSpan e
  match leastBy Prod.fst (accordConds s g e (latchNk e) x false false) with
  | some k => faultAccord s g.gid e k
  | none => passAccord (modGroup s g.gid (performSpan s e x)) g.gid e

/-- k-blocks of an MMAX: sC[15:0]. -/
def mmaxCount (e : Latch) : Nat := field e.c 15 0

/-- Steps that a tile has had (R288). -/
def mmaxDone (t : TileStat) : Nat :=
  if t.inflight == 0 then 0 else (t.kdone + 65536 - t.kbase) % 65536

/-- Two accords are the same one: no wave is in two (R274). -/
def sameAccord (e : Latch) (p : Expansion) : Bool := p.latch.arrivals.map Arrival.wave == e.arrivals.map Arrival.wave

/-- The end of an MMAX: INFLIGHT goes to 0 and the waves go on. -/
def finishMmax (s : State) (gid : Nat) (e : Latch) : State :=
  let s := modGroup s gid fun g => e.arrivals.foldl (fun g r =>
    modTile g r.d fun t => { t with inflight := 0 })
      { g with expansions := g.expansions.filter fun p => !sameAccord e p }
  modAccord s gid e (leaveLatch e.len)

/-- MMAX, accepted (R288). Of what is wrong with the instruction before any step, the highest-ranking cause is taken
(R283, R298). -/
def acceptMmax (s : State) (g : Group) (e : Latch) : State :=
  let dones := e.arrivals.map fun r => mmaxDone (tileStat g r.d)
  let q0 := dones.headD 0
  let badCount := field e.c 63 16 != 0 || mmaxCount e == 0
  let apart := dones.any (· != q0)
  let ks := accordConds s g e (mmaxCount e) ⟨[], [], [bSlot e.b]⟩ true badCount ++
    (if apart then [(13, 6 * 2 ^ 56)] else [])
  match badCount || apart, leastBy Prod.fst ks with
  | true, some k => faultAccord s g.gid e k
  | _, _ =>
    let s := modGroup s g.gid fun g => e.arrivals.foldl (fun g r =>
      modTile g r.d fun t =>
        if t.inflight == 0 then { t with kbase := t.kdone, inflight := 1 } else t) g
    let s := modAccord s g.gid e fun w =>
      { w with mq := w.mq + 1
               gangs := w.gangs.map fun g => if g.hold == .latch then { g with hold := .expand } else g }
    if mmaxCount e ≤ q0 then finishMmax s g.gid e
    else modGroup s g.gid fun g => { g with expansions := g.expansions ++ [⟨e, q0, mmaxCount e⟩] }

/-! ## The quad latch (R287) -/

/-- The join key. -/
def quadKey (e : Latch) : Nat := field e.c 15 0

/-- The oldest formed accord of a logical core with a key. -/
def oldestQuad (s : State) (die core key : Nat) : Option (Nat × Latch) :=
  let es := (s.groups.filter fun g => g.die == die && g.core == core).flatMap fun g =>
    (g.quads.filter fun e => quadKey e == key).map fun e => (g.gid, e)
  leastBy (fun e => e.2.quad.getD 0) es

/-- What the join compares: T, F, the grid, the header's T and N, and the fields of A and B that fix the row extent and
nk: KB0 and PITCHL of A, KB of B (R276, R278). -/
def quadFields (s : State) (gid : Nat) (e : Latch) : List Nat :=
  let h := match findGroup s gid with
    | some g => slotHeader g (bSlot e.b)
    | none => ⟨0, 0, 0, false, false⟩
  let grid := (accordEntries e.accord).foldl (fun n x => n ||| 2 ^ (3 * x.row + x.col)) 0
  [Ty.code e.t, e.f, grid, h.t, h.n, aFirst e.a, aPitch e.a, bFirst e.b]

/-- Take a formed accord out of its group's list. -/
def dropQuad (s : State) (gid : Nat) (e : Latch) : State :=
  modGroup s gid fun g => { g with quads := g.quads.filter (· != e) }

/-- The slots that an MMAX in progress names. -/
def expansionSlots (g : Group) (p : Expansion) : List Nat :=
  (slotChain g 8 (bSlot p.latch.b) (bFirst p.latch.b + p.total - 1)).1

/-- A wave's stores of a tile beyond the package have not all been answered. -/
def Wave.storing (w : Wave) (tile : Nat) : Bool :=
  w.tilesM.any fun k => k.1 == tile && k.2.any fun r => w.farM.any fun f => f.req == r && f.res == .waiting

/-- The wave waits with an MLOAD of the tile for what it has asked of memory beyond the package. -/
def Wave.loading (w : Wave) (tile : Nat) : Bool :=
  w.tilesM.any fun k => k.1 == tile && k.2.any fun r => w.far.any fun f => f.req == r

/-- An accepted instruction that is incomplete names a tile or a slot (R272): an MMAX in progress, an MSTORE whose writes
beyond the package are not all answered, or an MLOAD that waits for its reads there. -/
def matrixBusy (g : Group) (tile slot : Option Nat) : Bool :=
  (g.expansions.any fun p =>
    (match tile with
      | some m => p.latch.arrivals.any fun r => r.d == m
      | none => false) ||
    (match slot with
      | some n => (expansionSlots g p).contains n
      | none => false)) ||
  (match tile with
    | some m => g.waves.any fun w => w.storing m || w.loading m
    | none => false)

/-- A formed accord waits for an older instruction that names one of its tiles or its slot. -/
def quadBusy (s : State) (gid : Nat) (e : Latch) : Bool :=
  match findGroup s gid with
  | some g => e.arrivals.any fun r => matrixBusy g (some r.d) (some (bSlot e.b))
  | none => false

/-- Join four formed accords of a quad where all are there (R287) and no older instruction names their tiles or slots. A
QMMA is accepted with the join, and so performed after what was accepted before it (R272; DEDUCED, log entry 69). -/
def joinQuad (s : State) (die core key : Nat) : State :=
  let four := (List.range 4).filterMap fun i => oldestQuad s die (core / 4 * 4 + i) key
  if four.length < 4 || four.any fun (gid, e) => quadBusy s gid e then s
  else
    let s1 := four.foldl (fun s (gid, e) => dropQuad s gid e) s
    let fault (k : Nat × Nat) : State := four.foldl (fun s (gid, e) => faultAccord s gid e k) s1
    let fs := four.map fun (gid, e) => quadFields s gid e
    if fs.any (· != fs.headD []) then fault (13, 5 * 2 ^ 56)
    else
      let ks := four.flatMap fun (gid, e) => match findGroup s gid with
        | some g => accordConds s g e (latchNk e) (mmaSpan e) false false
        | none => []
      match leastBy Prod.fst ks with
      | some k => fault k
      | none => four.foldl (fun s (gid, e) =>
          passAccord (modGroup s gid (performSpan s e (mmaSpan e))) gid e) s1

/-- What the formed accords of a group waited for may be over. -/
def retryQuads (s : State) (gid : Nat) : State :=
  match findGroup s gid with
  | some g => g.quads.foldl (fun s e => joinQuad s g.die g.core (quadKey e)) s
  | none => s

/-- QMMA: the core's accord is formed and waits for its partners. -/
def acceptQmma (s : State) (g : Group) (e : Latch) : State :=
  let e := { e with quad := some s.nextReq }
  let s := modGroup { s with nextReq := s.nextReq + 1 } g.gid fun g => { g with quads := g.quads ++ [e] }
  joinQuad s g.die g.core (quadKey e)

/-- ENLARGER_STEP: one k-block of the group's oldest MMAX in progress (R272, R288). -/
def execEnlargerStep (gid : Nat) (s : State) : Result :=
  match findGroup s gid with
  | none => .next s
  | some g =>
    match g.expansions with
    | [] => .next s
    | p :: rest =>
      let e := p.latch
      let x := mmaxSpan g e p.done
      match leastBy Prod.fst (accordConds s g e p.total x true false) with
      | some k =>
        let s := modGroup s gid fun g => { g with expansions := rest }
        .next (retryQuads (faultAccord (modAccord s gid e fun w => { w with mq := w.mq - 1 }) gid e k) gid)
      | none =>
        let s := modGroup s gid fun g =>
          { performSpan s e x g with expansions := { p with done := p.done + 1 } :: rest }
        .next (if p.total ≤ p.done + 1 then retryQuads (finishMmax s gid e) gid else s)

/-! ## Arrival at the latch (R274) -/

/-- The instruction is accepted once every listed wave has arrived. -/
def acceptLatch (s : State) (gid : Nat) : State :=
  match findGroup s gid with
  | none => s
  | some g =>
    match g.latch with
    | none => s
    | some e =>
      if (accordWaves e.accord).all fun w => e.arrivals.any fun r => r.wave == w then
        let s := modGroup s gid fun g => { g with latch := none }
        if e.opc == 0xD1 then acceptMma s g e
        else if e.opc == 0xD2 then acceptQmma s g e
        else acceptMmax s g e
      else s

/-- The issuing wave arrives with an instruction. -/
def arrive (s : State) (c : Issuer) (e : Latch) (r : Arrival) : State :=
  let mine (origin : Nat) : State := takeTrap s c ⟨13, 0, maskOf c.all, word (origin * 2 ^ 56)⟩ c.pc
  let listed := accordWaves c.g.accord
  if !accordValid c.g.accord c.g.waves.length || !listed.contains c.ref.wave || c.gang.slices != 255 then
    mine 1
  else
    let held := holdAt s c .latch
    match c.g.latch with
    | none =>
      if listed.any fun w => ((c.g.waves[w]?).map Wave.gone).getD true then mine 4
      else acceptLatch (modGroup held c.ref.gid fun g =>
        { g with latch := some { e with arrivals := [r] } }) c.ref.gid
    | some o =>
      let joined : Latch := { o with arrivals := o.arrivals ++ [r] }
      let put := modGroup held c.ref.gid fun g => { g with latch := some joined }
      let same := o.opc == e.opc && o.t == e.t && o.f == e.f && o.c == e.c && o.accord == e.accord &&
        o.a == r.a && o.b == r.b
      if !same then sweep (closeLatch put c.ref.gid 13 (2 * 2 ^ 56)) c.ref.gid
      else if o.arrivals.any fun x => x.d == r.d then
        sweep (closeLatch put c.ref.gid 13 (3 * 2 ^ 56)) c.ref.gid
      else acceptLatch put c.ref.gid

/-- An instruction that names a tile or slot waits for an older one that does (R272). -/
def matrixGate (s : State) (c : Issuer) (tile slot : Option Nat) (go : State) : State :=
  if matrixBusy c.g tile slot then holdAt s c (.matrix tile slot) else go

/-- An instruction counted on M waits at issue while the counter is full (R127). -/
def roomM (s : State) (c : Issuer) (go : State) : State :=
  if c.w.cntM < 255 then go else holdAt s c (.room 255 255 255 254)

/-- A gang that a stop of its group leaves in a clause body, and that comes to wait in the matrix engine, stops at its
instruction (R396): its arrival is withdrawn, or its MMAX stops between steps (R274, R288). DESIGN CHOICE (log entry 62): its
clause body ends there. -/
def withdrawLate (s : State) (c : Issuer) : State :=
  match findGroup s c.ref.gid, issuerAt s c.ref with
  | some g, some d =>
    if g.stop.isNone || d.w.trap.tm || !(d.gang.hold == .latch || d.gang.hold == .expand) then s
    else
      let mine (e : Latch) : Bool := e.arrivals.any fun r => r.wave == c.ref.wave
      let runs := g.expansions.filter fun p => mine p.latch
      let free (w : Wave) : Wave := { w with gangs := w.gangs.map fun x =>
        if x.hold == .latch || x.hold == .expand then { x with hold := .none } else x }
      let s := runs.foldl (fun s p => modAccord s c.ref.gid p.latch fun w => free { w with mq := w.mq - 1 }) s
      let s := (g.quads.filter mine).foldl (fun s e => modAccord s c.ref.gid e free) s
      let s := modGroup s c.ref.gid fun g => { g with
        latch := (g.latch.map fun e => { e with arrivals := e.arrivals.filter fun r => r.wave != c.ref.wave }).filter
          fun e => !e.arrivals.isEmpty
        quads := g.quads.filter fun e => !mine e
        expansions := g.expansions.filter fun p => !mine p.latch }
      modWave s c.ref.gid c.ref.wave fun w => w.modGang c.ref.slice fun x => { x with hold := .none, clause := none }
  | _, _ => s

/-- MMA, QMMA and MMAX in the wave's collectors (R207, R274). -/
def accordOp (s : State) (opc : Nat) (o : MmaOp) (cc : SReg) : Result :=
  issued s fun c =>
    let e : Latch :=
      { opc := opc, t := o.t, f := (if opc == 0xD3 then 0 else o.nk.val) + (if o.int then 16 else 0)
        c := c.w.readS cc, accord := c.g.accord, pc := c.pc, len := 8, arrivals := [], quad := none }
    let us := useConds c c.all [.sr o.a, .sr o.b, .sr cc, .accord]
    check s c c.all (us ++ tileBound c o.d.val)
      (matrixGate s c (some o.d.val) (some (bSlot (c.w.readS o.b)))
        (roomM s c (withdrawLate (arrive s c e ⟨c.ref.wave, o.d.val, c.w.readS o.a, c.w.readS o.b⟩) c)))

def execMma (o : MmaOp) (s : State) : Result := accordOp s 0xD1 o .zero
def execQmma (o : MmaOp) (cc : SReg) (s : State) : Result := accordOp s 0xD2 o cc
def execMmax (o : MmaOp) (cc : SReg) (s : State) : Result := accordOp s 0xD3 o cc

/-- M-counted instructions of a wave that are MMAX in progress. -/
def expanding (g : Group) (wave : Nat) : Nat :=
  (g.expansions.filter fun p => p.latch.arrivals.any fun r => r.wave == wave).length

/-- MATRIX_COMPLETION: an M-counted instruction of a wave has made its last access and its last cell write;
an MMAX in progress has not (R272), nor has an MSTORE whose writes beyond the package are not all answered. One that came
back with an error halts the wave (R318, R393). -/
def execMatrixCompletion (gid wave : Nat) (s : State) : Result :=
  match findGroup s gid, findWave s gid wave with
  | some g, some w =>
    if w.mq ≤ expanding g wave || !farDone w.farM then .next s
    else
      let s := retryQuads (modWave s gid wave fun w =>
        { w with mq := w.mq - 1, farM := [], tilesM := w.tilesM.filter fun k => w.loading k.1 }) gid
      .next (if w.farM.all fun r => r.res == .done then sweep s gid else haltAndSweep s gid wave 18 0)
  | _, _ => .next s

/-! ## MZERO, MFOLD, MSTAT, MSCALE (R289, R293) -/

/-- A tile instruction without memory: uses, conditions, and its effect on group and wave. -/
def tileOp (s : State) (len m : Nat) (us : List Use) (more : Issuer → List Cause)
    (eff : Issuer → Group → Group) (reg : Issuer → Wave → Wave) : Result :=
  issued s fun c =>
    check s c c.all (useConds c c.all us ++ tileBound c m ++ more c)
      (matrixGate s c (some m) none (retireNow (modGroup s c.ref.gid (eff c)) c len (reg c)))

def noCause (_ : Issuer) : List Cause := []
def sameWave (_ : Issuer) (w : Wave) : Wave := w

/-- Every cell zero, the status fresh (R289). -/
def zeroTile (m : Nat) (i64 : Bool) (g : Group) : Group :=
  modTile { g with cells := g.cells.erase (4096 * m) (4096 * m + 4096) } m fun _ =>
    { TileStat.reset with i64 := i64, dirty := true, valid := true }

def execMzeroH (d : TReg) (i64 : Bool) (s : State) : Result :=
  tileOp s 4 d.val [] noCause (fun _ => zeroTile d.val i64) sameWave
def execMzeroW (d : TReg) (i64 : Bool) (s : State) : Result :=
  tileOp s 8 d.val [] noCause (fun _ => zeroTile d.val i64) sameWave

/-- Map every cell of a tile, its flags joined into FLAGS, DIRTY set. -/
def mapTile (m : Nat) (f : Word → Word × Flags) (g : Group) : Group :=
  let xs := (tileCells g m).map f
  modTile (putCells g m (xs.map Prod.fst)) m fun t =>
    { (t.orFlags (xs.foldl (fun a x => a ||| x.2) 0)) with dirty := true }

/-- Fold of a cell (R49). -/
def foldOf (x : Word) : Nat × Flags := foldCell (cellE x) (cellO x)

def mfoldOp (d : TReg) (len : Nat) (s : State) : Result :=
  tileOp s len d.val [] (fun c => tileMode c d.val false ++ tileUce c d.val)
    (fun _ => mapTile d.val fun x => let r := foldOf x; (pairCell r.1 0, r.2)) sameWave

def execMfoldH (d : TReg) (s : State) : Result := mfoldOp d 4 s
def execMfoldW (d : TReg) (s : State) : Result := mfoldOp d 8 s

def mstatOp (d : SReg) (a : TReg) (clr : Bool) (len : Nat) (s : State) : Result :=
  tileOp s len a.val [.sw d] (fun c => tileMark c a.val)
    (fun _ g => if clr then modTile g a.val fun t => { t with flags := 0 } else g)
    (fun c w => w.writeS d (tileStat c.g a.val).status)

def execMstatH (d : SReg) (a : TReg) (clr : Bool) (s : State) : Result := mstatOp d a clr 4 s
def execMstatW (d : SReg) (a : TReg) (clr : Bool) (s : State) : Result := mstatOp d a clr 8 s

/-- A cell times 2^n (R293). -/
def scaleCell (i64 : Bool) (n : Int) (x : Word) : Word × Flags :=
  if i64 then
    if 0 ≤ n then
      let exact := x.toInt * (2 ^ n.toNat : Nat)
      (word (natOf 64 exact), if exact < -(2 ^ 63 : Nat) || (2 ^ 63 : Nat) ≤ exact then Flags.of else 0)
    else
      let d : Int := (2 ^ (-n).toNat : Nat)
      (word (natOf 64 (x.toInt.fdiv d)), if x.toInt.fmod d == 0 then 0 else Flags.nx)
  else
    let one (b : Nat) : Nat × Flags := encodeVal .f32 .rne false 0 ((decodeVal .f32 b).scale2 n)
    let e := one (cellE x)
    let o := one (cellO x)
    (pairCell e.1 o.1, e.2 ||| o.2)

def execMscale (d : TReg) (b : SSrc) (s : State) : Result :=
  let n (c : Issuer) : Int := (c.w.srcS b).toInt
  tileOp s (slen b) d.val (useS b)
    (fun c => when (!(tileStat c.g d.val).valid) (c.wide 11 (opFormat 6)) ++
      when (n c < -64 || 64 < n c) (c.wide 11 (opFormat 8)) ++ tileUce c d.val)
    (fun c => mapTile d.val (scaleCell (tileStat c.g d.val).i64 (n c))) sameWave

/-! ## MREAD and MWRITE (R292) -/

/-- Registers of a lane that hold its part of a row. -/
def rowRegs (t : Ty) : Nat := if t == .n64 || t == .i64 then 2 else 1
def rowWide (t : Ty) : Bool := rowRegs t == 2

/-- Conditions of a row's number and tile, for the active lanes (R55, R389); a residue that fails where there is none is the
wave's (R213). -/
def rowConds (c : Issuer) (ls : List Nat) (b : SReg) (ks : List Cause) : List Cause :=
  ((useConds c ls [.sr b]).filter fun k => k.rank == 18 || !ls.isEmpty) ++ ks.map fun k => { k with lanes := ls }

def execMread (g : Guard) (d : VReg) (a : TReg) (b : SReg) (t : Ty) (s : State) : Result :=
  issued s fun c =>
    let ls := c.lanes g
    let i := field (c.w.readS b) 5 0
    let m := a.val
    let us := guardConds c g ++ useConds c ls (runUse (.vw 0) d.val (rowRegs t))
    let fl := if rowWide t then 0 else ls.foldl (fun f l =>
      f ||| (foldOf (cellAt c.g m i (2 * l))).2 ||| (foldOf (cellAt c.g m i (2 * l + 1))).2) (0 : Flags)
    check s c c.all (us ++ rowConds c ls b (tileBound c m ++ tileMode c m (rowWide t) ++ tileUce c m))
      (matrixGate s c (some m) none
        (retireNow (modGroup s c.ref.gid fun g => modTile g m fun t => t.orFlags fl) c 8 fun w =>
          if rowWide t then
            (w.writeLanes d.val ls fun l => cellAt c.g m i l).writeLanes (d.val + 1) ls
              fun l => cellAt c.g m i (32 + l)
          else w.writeLanes d.val ls fun l =>
            pairCell (foldOf (cellAt c.g m i (2 * l))).1 (foldOf (cellAt c.g m i (2 * l + 1))).1))

/-- An f32 pattern as MWRITE puts it into E: a signalling NaN becomes the default NaN. -/
def quietF32 (b : Nat) : Nat × Flags :=
  if (decodeVal .f32 b).isSNan then (0x7FC00000, Flags.nv) else (b, 0)

def execMwrite (g : Guard) (d : TReg) (a : VReg) (b : SReg) (t : Ty) (s : State) : Result :=
  issued s fun c =>
    let ls := c.lanes g
    let i := field (c.w.readS b) 5 0
    let m := d.val
    let st := tileStat c.g m
    let us := guardConds c g ++ useConds c ls (runUse (.vr 1) a.val (rowRegs t))
    let sub (l k : Nat) : Nat := subElem (c.w.readV a.val l) 32 k
    let fl := if rowWide t then 0 else ls.foldl (fun f l =>
      f ||| (quietF32 (sub l 0)).2 ||| (quietF32 (sub l 1)).2) (0 : Flags)
    let fresh (g : Group) : Group :=
      if st.valid then g
      else modTile { g with cells := g.cells.erase (4096 * m) (4096 * m + 4096) } m fun x =>
        { x with i64 := rowWide t, valid := true, kdone := 0 }
    let put (g : Group) : Group := ls.foldl (fun g l =>
      if rowWide t then
        putCell (putCell g m i l (c.w.readV a.val l)) m i (32 + l) (c.w.readV (a.val + 1) l)
      else
        putCell (putCell g m i (2 * l) (pairCell (quietF32 (sub l 0)).1 0)) m i (2 * l + 1)
          (pairCell (quietF32 (sub l 1)).1 0)) g
    check s c c.all (us ++ rowConds c ls b (tileBound c m ++ tileMark c m ++
        when (st.valid && st.i64 != rowWide t) (c.wide 11 (opFormat 6))))
      (matrixGate s c (some m) none
        (retireNow (modGroup s c.ref.gid fun g => modTile (put (fresh g)) m fun x =>
          { (x.orFlags fl) with dirty := true }) c 8 id))

/-! ## MLOAD and MSTORE (R290, R291) -/

/-- The pitch: sB or K, or the default where it is 0. -/
def tilePitch (c : Issuer) (b : SSrc) (dflt : Nat) : Int :=
  let p := (c.w.srcS b).toInt
  if p == 0 then dflt else p

/-- The rows of a tile in memory. -/
def tileRows (c : Issuer) (a : SReg) (pitch : Int) (n : Nat) : List Acc :=
  (List.range 64).map fun i =>
    ⟨c.all.headD 0, ((c.w.readS a).toNat + i * pitch.toNat) % 2 ^ 64, n⟩

/-- The alignment rules of R290. -/
def tileAlign (c : Issuer) (a : SReg) (pitch : Int) (n : Nat) : List Cause :=
  when ((c.w.readS a).toNat % 8 != 0 || pitch % 8 != 0 || pitch < n) (c.wide 6 0)

/-- What an MLOAD has asked of memory beyond the package holds its tile until the MLOAD has been performed or has faulted
(R272). -/
def noteLoad (s : State) (c : Issuer) (m : Nat) : State :=
  match findWave s c.ref.gid c.ref.wave with
  | none => s
  | some w =>
    if w.far.isEmpty then (if c.w.loading m then retryQuads s c.ref.gid else s)
    else modWave s c.ref.gid c.ref.wave fun w => { w with tilesM := w.tilesM ++ [(m, w.far.map FarReq.req)] }

def execMload (d : TReg) (a : SReg) (b : SSrc) (t : Ty) (sp : Space) (s : State) : Result :=
  issued s fun c =>
    let n := if t == .f32 then 256 else 512
    let pitch := tilePitch c b n
    let pre := useConds c c.all (.sr a :: useS b) ++ tileBound c d.val ++ tileAlign c a pitch n
    if !c.w.loading d.val && matrixBusy c.g (some d.val) none && (report c.all pre).isNone then
      holdAt s c (.matrix (some d.val) none)
    else roomM s c (noteLoad (directOp s c .wave pre sp (tileRows c a pitch n)
      (fun x => x.oks.flatMap fun (k, ps) => directConds x.s c true k.lane ps) fun x =>
        let rows := x.oks.flatMap fun (_, ps) =>
          let bs := readPieces x.s c.w.far ps
          (List.range 64).map fun j =>
            if t == .f32 then word (natOfBytes ((bs.drop (4 * j)).take 4))
            else word (natOfBytes ((bs.drop (8 * j)).take 8))
        let s := touch x.s c false (x.oks.flatMap Prod.snd)
        let s := modGroup s c.ref.gid fun g => modTile (putCells g d.val rows) d.val fun _ =>
          { TileStat.reset with i64 := t != .f32, valid := true }
        retireNow s c (slen b) fun w => { w with mq := w.mq + 1 }) c d.val)

def execMstore (a : SReg) (b : SSrc) (m : TReg) (t : Ty) (sp : Space) (rnd : Rnd) (s : State) : Result :=
  issued s fun c =>
    let wide := t == .n64 || t == .i64
    let size := t.width / 8
    let pitch := tilePitch c b (if wide then 512 else 256)
    let st := tileStat c.g m.val
    let mode := c.w.mode rnd
    let pre := useConds c c.all ((if rnd = .dyn then [Use.spec 2] else []) ++ .sr a :: useS b) ++
      tileBound c m.val ++ tileAlign c a pitch (64 * size)
    let vals := (tileCells c.g m.val).map fun x =>
      if wide then (x.toNat, (0 : Flags))
      else
        let r := foldOf x
        if t == .f32 then r
        else
          let y := encodeVal t mode false 0 (decodeVal .f32 r.1)
          (y.1, r.2 ||| y.2)
    if matrixBusy c.g (some m.val) none && (report c.all pre).isNone then holdAt s c (.matrix (some m.val) none)
    else roomM s c (accessOp s c .wave pre sp .write (tileRows c a pitch (64 * size))
      (fun x => writeConds x ++ tileMode c m.val wide ++ tileUce c m.val) fun x =>
        let ps := x.oks.flatMap Prod.snd
        remoteGate x.s c ps (hostGate x.s c ps
          (let rows := x.oks.zipIdx.map fun ((_, ps), i) =>
             (ps, ((vals.drop (64 * i)).take 64).flatMap fun v => bytesOfNat size v.1)
           let s := touch x.s c true ps
           let s := plainWrite s false (rows.flatMap fun (ps, bs) => localWrites s ps bs)
           let (s, rs) := sendAll s (planWrites s (rows.flatMap fun (ps, bs) => farWrites s 0 ps bs))
           let s := modGroup s c.ref.gid fun g => modTile g m.val fun _ =>
             { (st.orFlags (vals.foldl (fun f v => f ||| v.2) 0)) with dirty := false }
           retireNow (noteHost s c ps) c (slen b) fun w =>
             { w with mq := w.mq + 1, farM := w.farM ++ rs.map Prod.fst
                      tilesM := if rs.isEmpty then w.tilesM else w.tilesM ++ [(m.val, rs.map fun r => r.1.req)] })))

/-! ## WBLOAD (R294) -/

/-- The shape in sB. -/
def wbN (b : Word) : Nat := field b 15 0
def wbKb (b : Word) : Nat := field b 31 16
def wbPitch (b : Word) : Nat := field b 43 32

/-- Operand Format, condition 9. -/
def wbBadShape (t : Ty) (b : Word) : Bool :=
  let n := wbN b
  let kb := wbKb b
  let p := wbPitch b
  field b 63 44 != 0 || n % 64 != 0 || n < 64 || 384 < n || kb == 0 ||
    65536 < slotBytes (Ty.code t) n kb false || p == 0 || (fmtSix (fmtCode t) && p % 3 != 0) ||
    128 * p < kb * aBlockBytes t

/-- Bytes of the blocks of one column, and the distance of two columns. -/
def wbRow (t : Ty) (b : Word) : Nat := wbKb b * aBlockBytes t
def wbStep (t : Ty) (b : Word) : Nat :=
  if fmtCode t != 0 then 128 * wbPitch b / aBlockBytes t * aBlockBytes t else 128 * wbPitch b

/-- The source, whatever its shape, reaches beyond the allotment (R119, R298). -/
def wbBeyond (g : Group) (t : Ty) (base : Nat) (b : Word) : Bool :=
  (t == .aq8 && wbN b != 0 && (base < 8 * wbN b || 4096 * g.tiles < base)) ||
    (wbN b != 0 && wbKb b != 0 && 4096 * g.tiles < base + wbStep t b * (wbN b - 1) + wbRow t b)

/-- The engine-owned tiles that a badly shaped source lies on: their numbers in the core (R123, R298). -/
def wbOwned (s : State) (g : Group) (t : Ty) (base : Nat) (b : Word) : List Nat :=
  ((List.range g.tiles).filter fun k => ownedByEngine s g.die g.phys (g.spadBase + k) &&
    ((List.range (wbN b)).any fun col =>
      let at_ := base + wbStep t b * col
      wbKb b != 0 && at_ < 4096 * (k + 1) && 4096 * k < at_ + wbRow t b) ||
    (t == .aq8 && wbN b != 0 && base - 8 * wbN b < 4096 * (k + 1) && 4096 * k < base &&
      ownedByEngine s g.die g.phys (g.spadBase + k))).map fun k => g.spadBase + k

def execWbload (a b : SReg) (t : Ty) (slot : Fin 8) (s : State) : Result :=
  issued s fun c =>
    let sb := c.w.readS b
    let base := (c.w.readS a).toNat
    let n := wbN sb
    let kb := wbKb sb
    let size := aBlockBytes t
    let pitch := 128 * wbPitch sb
    let no (col q : Nat) : Nat := col * (pitch / size) + q
    let off (col q : Nat) : Nat :=
      if fmtCode t != 0 then base + no col q * size else base + pitch * col + size * q
    let blocks := (List.range n).flatMap fun col => (List.range kb).map fun q => (col, q)
    let bad := wbBadShape t sb
    let beyond := wbBeyond c.g t base sb
    let pre := useConds c c.all [.sr a, .sr b] ++
      when (c.g.wbslots ≤ slot.val) (c.wide 3 (7 * 2 ^ 56)) ++
      when beyond (c.wide 3 (4 * 2 ^ 56)) ++
      when (base % 128 != 0) (c.wide 6 0) ++
      (if bad && !beyond then (wbOwned s c.g t base sb).map fun k => c.wide 10 (k * 2 ^ 55) else []) ++
      when bad (c.wide 11 (opFormat 9))
    if matrixBusy c.g none (some slot.val) && (report c.all pre).isNone then holdAt s c (.matrix none (some slot.val))
    else
      let lane := c.all.headD 0
      let accs : List Acc := if (report c.all pre).isSome then [] else
        (blocks.map fun (col, q) => ⟨lane, off col q, size⟩) ++
          (if t == .aq8 then (List.range n).map fun col => ⟨lane, base - 8 * n + 8 * col, 8⟩ else [])
      let code (col q : Nat) (ps : List Piece) : List Cause :=
        if fmtCode t == 0 then []
        else match desyncCheck (lineAt s ((pasOf ps).headD 0)) (fmtCode t) (no col q) with
          | some k => [c.wide 11 (k * 2 ^ 60)]
          | none => []
      roomM s c (accessOp s c .wave pre .l .read accs
        (fun x => ((x.oks.zip blocks).flatMap fun (k, col, q) => code col q k.2) ++
          x.oks.flatMap fun (k, ps) => poisonConds x.s k.lane ps) fun x =>
          let tc := Ty.code t
          let put (at_ : Nat) (bs : List Byte) : List (Nat × Byte × Bool) :=
            bs.zipIdx.map fun (v, i) => (at_ + i, v, false)
          let head := put 0 (bytesOfNat 8 (kb * 2 ^ 32 + n * 2 ^ 16 + tc) ++ List.replicate 56 0)
          let data := (x.oks.zip blocks).flatMap fun (k, col, q) =>
            put (64 + (col * kb + q) * size) (readPieces x.s c.w.far k.2) ++
              (if fmtCode t == 0 then [] else
                put (slotD1 tc n kb + col * kb + q) [BitVec.ofNat 8
                  ((lineAt x.s ((pasOf k.2).headD 0)).scale (slotOf (fmtCode t) (no col q)))])
          let params := ((x.oks.drop blocks.length).zipIdx).flatMap fun (k, col) =>
            put (slotD1 tc n kb + 8 * col) (readPieces x.s c.w.far k.2)
          let s := modGroup (touch x.s c false (x.oks.flatMap Prod.snd)) c.ref.gid
            (fillSlot slot.val (head ++ data ++ params))
          retireNow s c 8 fun w => { w with mq := w.mq + 1 })

/-! ## MCK (R295) -/

/-- The sum of column j of a tile. -/
def columnSum (cells : List Word) (wide : Bool) (j : Nat) : Nat × Flags :=
  let xs := (List.range 64).map fun i => cells.getD (64 * i + j) 0
  if wide then (xs.foldl (fun a x => a + x.toNat) 0 % 2 ^ 64, 0)
  else
    let fs := xs.map foldOf
    let r := encodeExact .f64 .rne false (sumVals false (fs.map fun x => decodeVal .f32 x.1))
    (r.1, fs.foldl (fun f x => f ||| x.2) r.2)

def execMck (a : TReg) (o : MckOp) (s : State) : Result :=
  let m := a.val
  match o with
  | .col d t =>
    let wide := t != .f64
    let sums (c : Issuer) : List (Nat × Flags) :=
      let cells := tileCells c.g m
      (List.range 64).map (columnSum cells wide)
    issued s fun c =>
      let us := useConds c (List.range 32) (runUse (.vw 0) d.val 2)
      check s c c.all (widen c .wave (us.filter fun k => !k.lanes.isEmpty) ++ tileBound c m ++
          tileMode c m wide ++ tileUce c m)
        (matrixGate s c (some m) none
          (let fl := (sums c).foldl (fun f x => f ||| x.2) (0 : Flags)
           retireNow (modGroup s c.ref.gid fun g => modTile g m fun t => t.orFlags fl) c 8 fun w =>
             (sums c).zipIdx.foldl (fun w (x, j) => w.writeV (d.val + j / 32) (j % 32) (word x.1)) w))
  | .ck n =>
    let terms (c : Issuer) : List (Int × Flags) :=
      let wide := (tileStat c.g m).i64
      (tileCells c.g m).map fun x =>
        if wide then ckTerm (.ofInt x.toInt)
        else
          let r := foldOf x
          let k := ckTerm (decodeVal .f32 r.1)
          (k.1, k.2 ||| r.2)
    issued s fun c =>
      check s c c.all (useConds c c.all [.ck n.val] ++ tileBound c m ++
          when (!(tileStat c.g m).valid) (c.wide 11 (opFormat 6)) ++ tileUce c m)
        (matrixGate s c (some m) none
          (let fl := (terms c).foldl (fun f x => f ||| x.2) (0 : Flags)
           let sum := (terms c).foldl (fun a x => a + x.1) 0
           retireNow (modGroup s c.ref.gid fun g => modTile g m fun t => t.orFlags fl) c 8 fun w =>
             w.writeCk n.val (w.readCk n.val + BitVec.ofInt 320 sum)))

end Sys2Proof.Machine
end

