-- ==== Sys2Proof/Machine/Sched.lean ====
section
/-!
DEFINITION. The scheduler: queues and records (R369-R376), the free resources of a core and placement
(R204, R377), SPAWN, RELEASE, YIELD, EXIT and ACQUIRE (R350, R356-R359), admission (R379), stopping a group
(R396), operating points (R380), joins and the end of a group (R359, R381).
-/

namespace Sys2Proof.Machine

/-! ## Queues (R373-R376) -/

def queueOf (s : State) (die prio : Nat) : Queue := s.queues.getD (8 * die + prio) Queue.reset

def setQueue (s : State) (die prio : Nat) (f : Queue → Queue) : State :=
  { s with queues := modifyAt f (8 * die + prio) s.queues }

/-- Capacity in records; 0 for a disabled queue (R373). -/
def Queue.cap (q : Queue) : Nat := if 6 ≤ q.logcap && q.logcap ≤ 16 then 2 ^ q.logcap else 0
/-- Records in the ring. -/
def Queue.count (q : Queue) : Nat := q.spawned.length
/-- A disabled queue counts as full. -/
def Queue.full (q : Queue) : Bool := q.cap ≤ q.count
/-- Non-empty for R377: the chain counts too. -/
def Queue.busy (q : Queue) : Bool := !q.chain.isEmpty || q.count != 0
/-- PA of record i of the ring, counted from the head. -/
def Queue.slotPa (q : Queue) (i : Nat) : Nat := q.base + 64 * ((q.head + i) % max q.cap 1)

/-- Append a record at the tail (R375): one event. -/
def appendRecord (s : State) (die prio : Nat) (ws : List Word) (spawned : Bool) : State :=
  let q := queueOf s die prio
  let s := plainWrite s false (atRun (q.slotPa q.count) (ws.flatMap wordBytes))
  setQueue (recallAll s [q.slotPa q.count]) die prio fun q => { q with spawned := q.spawned ++ [spawned] }

/-- The eight words of a record at a PA. -/
def recordAt (s : State) (pa : Nat) : List Word := wordsOfBytes (readRun s pa 64) 8

def recShape (r : List Word) : Word := r.getD 3 0
def recPrio (r : List Word) : Nat := field (recShape r) 51 49
def recWaves (r : List Word) : Nat := field (recShape r) 43 40 + 1
def recVregs (r : List Word) : Nat := field (recShape r) 39 32
def recTregs (r : List Word) : Nat := field (recShape r) 31 27
def recTiles (r : List Word) : Nat := field (recShape r) 26 18 + 1
def recCommon (r : List Word) : Nat := field (recShape r) 17 11
def recSlots (r : List Word) : Nat := field (recShape r) 10 7
def recCohort (r : List Word) : Nat := field (recShape r) 48 47
def recHint (r : List Word) : Nat := field (recShape r) 55 52
def recFirst (r : List Word) : Nat := field (r.getD 5 0) 31 0
def recCount (r : List Word) : Nat := field (r.getD 5 0) 63 32
def recLaunch (r : List Word) : Nat := field (r.getD 6 0) 15 0
def recImage (r : List Word) : Nat := (r.getD 7 0).toNat
/-- N of the grid word (R371). -/
def recGrid (r : List Word) : Nat :=
  let w := r.getD 4 0
  field w 63 32 * field w 31 16 * field w 15 0

/-- Register runs are rounded up to a multiple of 8 (R204). -/
def up8 (n : Nat) : Nat := (n + 7) / 8 * 8

/-- The reason why a record is invalid, the lowest code first (R372). `spawned`: SPAWN appended it; `chain`:
it is a re-entry, whose one group stands for itself. -/
def recordBad (r : List Word) (spawned chain : Bool) : Option Nat :=
  let w (i : Nat) : Word := r.getD i 0
  let sh := recShape r
  if (w 0).toNat % 4 != 0 || field (w 0) 63 57 != 0 || (w 2).toNat % 64 != 0 || field (w 6) 63 16 != 0 ||
      field sh 46 44 != 0 || field sh 6 0 != 0 then some 1
  else if recVregs r < 16 || 16 < recTregs r || recTiles r < 4 || recCommon r < 8 || 64 < recCommon r ||
      8 < recSlots r || 4096 < recWaves r * up8 (recVregs r) || 32 < recWaves r then some 2
  else if recCount r == 0 || recGrid r == 0 || 2 ^ 32 ≤ recGrid r || recGrid r < recFirst r + recCount r then
    some 3
  else if 2 ≤ recCohort r || (recCohort r == 1 && !chain && (recFirst r % 4 != 0 || recCount r % 4 != 0)) then
    some 4
  else if recImage r != 0 && (recCount r != 1 || spawned) then some 5
  else none

/-- Capture a scheduling error (R387). -/
def schedError (s : State) (reason launch die prio : Nat) : State :=
  if s.regs.schErr.getLsbD 62 then
    { s with regs := { s.regs with schErr := s.regs.schErr ||| (1#64 <<< 63) } }
  else
    let keep := field s.regs.schErr 63 63 * 2 ^ 63
    signal { s with regs := { s.regs with
      schErr := word (keep + 2 ^ 62 + reason * 2 ^ 32 + launch * 2 ^ 16 + die * 8 + prio) } } 0

/-- QUEUE_AGING: a non-empty queue has waited 2^20 cycles (R377). -/
def execQueueAging (die prio : Nat) (s : State) : Result :=
  let q := queueOf s die prio
  if q.busy && q.aged.isNone && die < 8 && prio < 8 then
    .next (setQueue { s with nextReq := s.nextReq + 1 } die prio fun q => { q with aged := some s.nextReq })
  else .next s

/-- SUBMIT: the staged record is appended, unless the queue is full or disabled (R374). -/
def execSubmit (die prio : Nat) (s : State) : Result :=
  let q := queueOf s die prio
  let last (n : Nat) (s : State) : State := setQueue s die prio fun q => { q with last := n }
  if q.cap == 0 then .next (last 2 s)
  else if q.full then .next (last 1 s)
  else .next (last 0 (appendRecord s die prio ((List.range 8).map fun i => q.stage.getD i 0) false))

/-- SPAWN (R358). -/
def execSpawn (d : SReg) (p : PReg) (a : Fin 57) (b : SSrc) (s : State) : Result :=
  issued s fun c =>
    let n := (c.w.srcS b).toNat
    let rec8 := cmdWords c.w a
    let code := if 8 ≤ n then 3 else if (queueOf s n (recPrio rec8)).full then 1 else 0
    check s c c.all (useConds c c.all (sendUses d p a b))
      (let s := if code == 0 then appendRecord s n (recPrio rec8) rec8 true else s
       retireNow s c (slen b) fun w => w.sent d p code)

/-! ## The cores of a die and their free resources (R204, R377, R437) -/

def coreMap (s : State) (die : Nat) : CoreMap := s.cores.getD die CoreMap.reset

def setCoreMap (s : State) (die : Nat) (f : CoreMap → CoreMap) : State :=
  { s with cores := modifyAt f die s.cores }

/-- Physical core of a logical one; `none` when the number is retired. -/
def physOf (s : State) (die core : Nat) : Option Nat :=
  let p := (coreMap s die).cmap.getD core 0x3F
  if p == 0x3F then none else some p

/-- The physical core is fenced. -/
def fencedCore (s : State) (die phys : Nat) : Bool := (coreMap s die).fenced.getLsbD phys

/-- The groups resident on a physical core. -/
def groupsAt (s : State) (die phys : Nat) : List Group :=
  s.groups.filter fun g => g.die == die && g.phys == phys

/-- A run [first, first + count) of a resource. -/
abbrev Run := Nat × Nat

/-- Two runs share an item. -/
def meets (x y : Run) : Bool := x.1 < y.1 + y.2 && y.1 < x.1 + x.2 && x.2 != 0 && y.2 != 0

/-- The lowest start at which n items are free below a limit. -/
def fitRun (used : List Run) (limit n : Nat) : Option Nat :=
  let starts := 0 :: used.map fun r => r.1 + r.2
  leastBy id (starts.filter fun a => a + n ≤ limit && !used.any (meets (a, n)))

/-- The wave-registers in use on a core. -/
def vectorRuns (gs : List Group) : List Run :=
  gs.flatMap fun g => g.waves.map fun w => (w.vbase, up8 g.vregs)
def tileRuns (gs : List Group) : List Run := gs.map fun g => (g.spadBase, g.tiles)

/-- The lowest free numbers below a limit. -/
def freeIds (used : List Nat) (limit n : Nat) : Option (List Nat) :=
  let free := (List.range limit).filter fun i => !used.contains i
  if n ≤ free.length then some (free.take n) else none

/-- Where a group is placed on a core. -/
structure Place where
  slots  : List Nat
  vbases : List Nat
  spadBase : Nat
  cset   : Nat
  tileIds : List Nat
  wbIds  : List Nat
  deriving DecidableEq, Repr

/-- Runs for n waves: each where `room` registers are free, of which it takes `size`. -/
def fitWaves (used : List Run) (size room : Nat) : Nat → Option (List Nat)
  | 0 => some []
  | n + 1 =>
    match fitRun used 4096 room with
    | none => none
    | some v => (fitWaves (used ++ [(v, room)]) size room n).map (v :: ·)

/-- A place on a core for the registers of some waves, with an allotment (log entry 8): first fit, each run
where the full allotment is free if there is such a place. -/
def placeOn (s : State) (die phys : Nat) (r : List Word) (vregs tiles tregs wbslots : Nat) : Option Place :=
  let gs := groupsAt s die phys
  let n := recWaves r
  let vs := match fitWaves (vectorRuns gs) (up8 vregs) (max (up8 vregs) (up8 (recVregs r))) n with
    | some vs => some vs
    | none => fitWaves (vectorRuns gs) (up8 vregs) (up8 vregs) n
  let spad := match fitRun (tileRuns gs) 512 (max tiles (recTiles r)) with
    | some t => some t
    | none => fitRun (tileRuns gs) 512 tiles
  match freeIds (gs.flatMap fun g => g.waves.map Wave.slot) 32 n, vs, spad,
      freeIds (gs.map Group.cset) 32 1, freeIds (gs.flatMap Group.tileIds) 16 tregs,
      freeIds (gs.flatMap Group.wbIds) 8 wbslots with
  | some slots, some vbases, some spadBase, some cs, some tileIds, some wbIds =>
    some ⟨slots, vbases, spadBase, cs.headD 0, tileIds, wbIds⟩
  | _, _, _, _, _, _ => none

/-! ## Operating points (R380, R415, R416) -/

/-- The point a die should run at: the fastest hint of its groups, limited by PMIN. -/
def wantedPoint (s : State) (die : Nat) : Nat :=
  match leastBy id ((s.groups.filter fun g => g.die == die).map Group.ophint) with
  | some h => max h s.regs.pmin
  | none => max (coreMap s die).target s.regs.pmin

/-- The die takes a new target. -/
def retarget (s : State) (die : Nat) : State :=
  let p := wantedPoint s die
  setCoreMap s die fun m => { m with target := p }

/-- OP_POINT_STABLE: the die reports its target stable, and the groups that waited for it issue (R380). -/
def execOpPointStable (die : Nat) (s : State) : Result :=
  let m := coreMap s die
  if m.op == m.target && !(s.groups.any fun g => g.die == die && g.opWait) then .next s
  else
    let s := setCoreMap s die fun m => { m with op := m.target }
    .next { s with groups := s.groups.map fun g => if g.die == die then { g with opWait := false } else g }

/-! ## Stopping a group (R396) -/

/-- Write bytes into a ring of the device: in host memory, and told to the host. DESIGN CHOICE (log entry 62): the spec
does not say what HWRING or FSRING does where it names no host memory; storage of HBM or of the pod takes the bytes, and
other regions ignore them. -/
def hostPut (s : State) (pa : Nat) (bs : List Byte) : State :=
  match regionOf pa with
  | .host a => toHost (storeBytes s (atRun pa bs)) (.write a bs)
  | .hbm _ | .pod _ _ => recallAll (plainWrite s false (atRun pa bs)) [pa]
  | _ => s

/-- Withdraw a wave's host fault-service request: its slot's cause is written 0 (R395). -/
def dropService (s : State) (gid wave : Nat) : State :=
  match (findWave s gid wave).bind Wave.service with
  | none => s
  | some v =>
    let s := match v.slot with
      | some n => hostPut s (s.regs.fsRing + 32 * n) (List.replicate 8 0)
      | none => s
    modWave s gid wave fun w => { w with service := none }

/-- What a stop does to a gang outside a handler: what it waits at it will execute again; a barrier it has
arrived at it goes on waiting for; a clause body goes on unless it waits where others must act. An instruction that waits
for what it reads or writes beyond the package has issued, as has a PUSH or TRAYPUT.drain whose acceptance reads what it
names: the stop waits for it (R151, R201, R396). -/
def Gang.stop (g : Gang) : Gang :=
  let g := { g with parked := false }
  match g.hold with
  | .none | .barrier _ _ _ | .accept | .far => g
  | .room _ _ _ _ | .remote | .common | .matrix _ _ | .give =>
    if g.clause.isSome then g else { g with hold := .none }
  | _ => { g with hold := .none, clause := none }

/-- What a stop does to a gang inside a handler: it ends a hint at once (R351), and what waits at ACQUIRE or in the
matrix engine it will execute again. -/
def Gang.jolt (g : Gang) : Gang :=
  match g.hold with
  | .hint => g.advance 8
  | .latch | .expand | .acquire => { g with hold := .none }
  | _ => g

/-- A stop reaches a wave; `force`: its core issues nothing more, so a handler and a clause stop too. -/
def Wave.stopAt (w : Wave) (force : Bool) : Wave :=
  if force then
    { w with merge := none, answers := [], far := []
             gangs := w.gangs.map fun g => match g.hold with
               | .barrier _ _ _ => { g with clause := none }
               | _ => { g with hold := .none, clause := none } }
  else if w.trap.tm then { w with gangs := w.gangs.map Gang.jolt }
  else Wave.forget { w with merge := none, gangs := w.gangs.map Gang.stop }

/-- An MMAX in progress stops between its steps, and formed accords and an open latch entry are withdrawn
(R274, R287, R288). -/
def withdrawMatrix (s : State) (gid : Nat) : State :=
  match findGroup s gid with
  | none => s
  | some g =>
    let s := g.expansions.foldl (fun s p => modAccord s gid p.latch fun w => { w with mq := w.mq - 1 }) s
    modGroup s gid fun g => { g with latch := none, quads := [], expansions := [] }

/-- A stop request reaches every wave of a group at once (R396). -/
def stopOne (s : State) (kind : StopKind) (force : Bool) (gid : Nat) : State :=
  match findGroup s gid with
  | none => s
  | some g =>
    let s := g.waves.zipIdx.foldl (fun s (w, i) =>
      if w.trap.tm && !force then s
      else
        let keep := w.accepting && !force
        dropService { s with walks := s.walks.filter fun r => keep || r.who != .wave gid i } gid i)
      (withdrawMatrix s gid)
    modGroup s gid fun g => { g with
      stop := some (g.stop.getD kind), order := none
      waves := g.waves.map fun w => w.stopAt force }

/-- Stop a group, with the other three of its quad cohort (R386). -/
def stopGroup (s : State) (kind : StopKind) (force : Bool) (gid : Nat) : State :=
  match findGroup s gid with
  | none => s
  | some g => (dedup (gid :: g.peers)).foldl (fun s n => stopOne s kind force n) s

/-- Every gang of the wave stands at a boundary where it stops. -/
def Wave.stopped (w : Wave) : Bool :=
  !w.accepting && (w.halted || (!w.trap.tm && w.service.isNone && w.gangs.all fun g => g.clause.isNone))

/-- Tiles of a group's scratchpad from a number on. -/
def groupTile (g : Group) (t : Nat × Nat × Nat) (first : Nat) : Bool :=
  t.1 == g.die && t.2.1 == g.phys && g.spadBase + first ≤ t.2.2 && t.2.2 < g.spadBase + g.tiles

/-- A collective runs whose gate tile the group holds (R330). -/
def groupGates (s : State) (g : Group) : Bool := (collGates s).any fun t => groupTile g t 0

/-- A queued or running engine command, of whatever group, names a tile of the group, or writes its common registers through
its window (R125). -/
def groupNamed (s : State) (g : Group) : Bool :=
  s.engq.any fun e => e.2.any fun k => (k.tiles.any fun t => groupTile g t 0) || k.sets.contains (g.die, g.phys, g.cset)

/-- A wave has stopped, and what it issued has completed (R396, R397). -/
def waveStopped (s : State) (g : Group) (w : Wave) (i : Nat) : Bool :=
  (w.stopped || fencedCore s g.die g.phys) && w.lq.isEmpty && w.sq.isEmpty && w.mq == 0 && commonsDone s g.gid i

/-- Every wave has stopped, and what it issued has completed (R396); the engines leave its tiles alone (R125). -/
def groupStopped (s : State) (g : Group) : Bool :=
  (g.waves.zipIdx.all fun (w, i) => waveStopped s g w i) && !groupBusy s g.gid && !groupNamed s g && !groupGates s g

/-- The group's only way on is its image: it is being stopped and has not ended. -/
def groupSaving (g : Group) : Bool := g.stop.isSome && !g.discard && !g.waves.all Wave.ended

/-! ## RELEASE (R357) -/

/-- Nothing accepted or queued uses what a RELEASE gives back. -/
def releaseClear (s : State) (g : Group) (tiles spad : Bool) : Bool :=
  let cmds := s.engq.flatMap Prod.snd
  (g.waves.all fun w => w.mq == 0) &&
    !(tiles && cmds.any fun k =>
      (k.op == 5 || (k.op == 6 && bitsOf (k.w 7).toNat 13 12 == 1)) &&
        k.tiles.any fun t => groupTile g t 0) &&
    !(spad && (cmds.any (fun k => k.tiles.any fun t => groupTile g t 4) ||
      (collGates s).any fun t => groupTile g t 4))

/-- Give the tile registers and weight-buffer slots back; their contents are lost. -/
def giveTiles (g : Group) : Group :=
  { g with relTiles := true, tileIds := [], wbIds := [], cells := [], wb := [], wbMark := []
           tstat := g.tstat.map fun _ => TileStat.reset }

/-- Give the scratchpad beyond the first 16 KiB back, with its owner bits. -/
def giveSpad (s : State) (gid : Nat) : State :=
  match findGroup s gid with
  | none => s
  | some g =>
    let s := (List.range (g.tiles - 4)).foldl (fun s i => setOwner s g.die g.phys (g.spadBase + 4 + i) false) s
    modGroup s gid fun g => { g with relSpad := true }

def execRelease (tiles spad : Bool) (s : State) : Result :=
  issued s fun c =>
    if !c.g.acquired then retire s c 8 c.w
    else if releaseClear s c.g tiles spad then
      let s := if spad then giveSpad s c.ref.gid else s
      let s := if tiles then modGroup s c.ref.gid giveTiles else s
      retireNow s c 8 id
    else holdAt s c (.release tiles spad)

/-! ## YIELD (R350, R383) -/

/-- A group of the core waits at ACQUIRE. -/
def coreWaits (s : State) (die phys : Nat) : Bool := (groupsAt s die phys).any fun g => g.order.isSome

/-- A logical core may take a record of a launch at all: it stands in the map, is not stopped for recovery,
no group of it waits at ACQUIRE, and a vacate does not hold it for another launch (R377, R385). -/
def coreOpen (s : State) (die core launch : Nat) : Option Nat :=
  match physOf s die core with
  | none => none
  | some p =>
    let m := coreMap s die
    if m.fenced.getLsbD p || m.recover.contains core || coreWaits s die p ||
        (m.held.any fun h => h.1 == core && h.2 != launch) then none
    else some p

/-- The allotment that a record needs at its pop (R377): prologue for a fresh one, else what the image's
allotment word says. -/
structure Need where
  acquired : Bool
  relTiles : Bool
  relSpad  : Bool
  deriving DecidableEq, Repr

def needOf (s : State) (r : List Word) : Need :=
  if recImage r == 0 then ⟨false, false, false⟩
  else
    let w := natOfBytes (readRun s (recImage r + 0x58) 8)
    ⟨bitOf w 0, bitOf w 1, bitOf w 2⟩

/-- A place for a record on a physical core. -/
def placeFor (s : State) (die phys : Nat) (r : List Word) : Option Place :=
  let n := needOf s r
  if n.acquired then
    placeOn s die phys r (recVregs r) (if n.relSpad then 4 else recTiles r)
      (if n.relTiles then 0 else recTregs r) (if n.relTiles then 0 else recSlots r)
  else placeOn s die phys r 16 4 0 0

/-- The head record or records of a queue: those of the first re-entry, or the head of the ring. -/
def headRecords (s : State) (q : Queue) : List (List Word) :=
  match q.chain with
  | e :: _ => e.map (recordAt s)
  | [] => if q.count == 0 then [] else [recordAt s (q.slotPa 0)]

/-- The place in its quad of a re-entered record (R399). -/
def recPosition (s : State) (r : List Word) : Nat :=
  bitsOf (natOfBytes (readRun s (recImage r + 0x48) 8)) 33 32

/-- A core takes an invalid head away as it would pop it: it is open for the record's launch, and has room for the prologue
allotment of the record's waves (R372, R377; DEDUCED, log entry 27). -/
def takesBad (s : State) (die core prio : Nat) : Bool :=
  match headRecords s (queueOf s die prio) with
  | [] => false
  | r :: _ => match coreOpen s die core (recLaunch r) with
    | none => false
    | some p => (placeOn s die p r 16 4 0 0).isSome

/-- Where the groups of a head would go if a core took it: per group its record, logical and physical core
and place. Empty when the core cannot take it. -/
def takeHead (s : State) (die core prio : Nat) : List (List Word × Nat × Nat × Place) :=
  let q := queueOf s die prio
  let one (core : Nat) (r : List Word) : Option (List Word × Nat × Nat × Place) :=
    match coreOpen s die core (recLaunch r) with
    | none => none
    | some p => (placeFor s die p r).map fun pl => (r, core, p, pl)
  match headRecords s q with
  | [] => []
  | r :: rs =>
    if recCohort r != 1 then (one core r).toList
    else
      let base := core / 4 * 4
      if !q.chain.isEmpty then
        let xs := (r :: rs).filterMap fun x => one (base + recPosition s x) x
        let quad := (List.range 4).all fun i => (coreOpen s die (base + i) (recLaunch r)).isSome
        if quad && xs.length == rs.length + 1 then xs else []
      else
        let xs := (List.range 4).filterMap fun i =>
          one (base + i) (r.set 5 (word (2 ^ 32 + (recFirst r + i))))
        if xs.length == 4 then xs else []

/-- Some core of the die can pop the head of a queue. -/
def canPop (s : State) (die prio : Nat) : Bool :=
  (List.range 48).any fun core => !(takeHead s die core prio).isEmpty

/-- The scheduler takes a group that YIELD offers (R383). -/
def yieldTaken (s : State) (g : Group) : Bool :=
  g.stop.isNone && (List.range g.prio).any fun p => (queueOf s g.die p).busy && !canPop s g.die p

def yieldOp (s : State) (len : Nat) : Result :=
  issued s fun c =>
    let t := retire s c len c.w
    if yieldTaken s c.g then stopGroup t .yielded false c.ref.gid else t

def execYieldH (s : State) : Result := yieldOp s 4
def execYieldW (s : State) : Result := yieldOp s 8

/-! ## EXIT (R345, R359) -/

/-- The gang's slices retire, and count as arrived at REGANG. -/
def Wave.retireSlices (w : Wave) (slices : BitVec 8) : Wave :=
  Wave.sweepMerge { w with
    slices := w.slices.zipIdx.map fun (sl, j) =>
      if slices.getLsbD j then { sl with exited := true } else sl
    gangs := w.gangs.filter fun g => g.slices != slices }

def exitOp (s : State) : Result :=
  issued s fun c =>
    let deep := (slicesOf c.gang.slices).any fun j => !(sliceAt c.w j).stack.isEmpty
    check s c c.all (when deep (c.wide 15 (2 ^ 56)))
      (sweep (putWave s c (c.w.served.retireSlices c.gang.slices)) c.ref.gid)

def execExitH (s : State) : Result := exitOp s
def execExitW (s : State) : Result := exitOp s

/-! ## ACQUIRE and admission (R356, R379) -/

/-- A group joins the waiters of its core. -/
def waitAcquire (s : State) (c : Issuer) : State :=
  let s := if c.g.order.isSome then s
    else modGroup { s with nextReq := s.nextReq + 1 } c.ref.gid fun g => { g with order := some s.nextReq }
  modWave s c.ref.gid c.ref.wave fun w => w.modGang c.ref.slice fun g => { g with hold := .acquire }

def acquireOp (s : State) (len : Nat) : Result :=
  issued s fun c => if c.g.acquired then retire s c len c.w else waitAcquire s c

def execAcquireH (s : State) : Result := acquireOp s 4
def execAcquireW (s : State) : Result := acquireOp s 8

/-- The waiting groups of a physical core. -/
def waiters (s : State) (die phys : Nat) : List Group :=
  (groupsAt s die phys).filter fun g => g.order.isSome

def oldestWaiter (s : State) (die phys : Nat) : Option Group :=
  leastBy (fun g => g.order.getD 0) (waiters s die phys)

/-- The tile registers and slots that a group would take, where its whole need is free (R379). -/
def growth (s : State) (g : Group) : Option (List Nat × List Nat) :=
  let r := g.record
  let others := (groupsAt s g.die g.phys).filter fun o => o.gid != g.gid
  let own := g.waves.map fun w => (w.vbase, up8 (recVregs r))
  let apart := (g.waves.zipIdx).all fun (w, i) => !(g.waves.zipIdx.any fun (v, j) =>
    i != j && meets (w.vbase, up8 (recVregs r)) (v.vbase, up8 (recVregs r)))
  let vOk := apart && own.all fun x => x.1 + x.2 ≤ 4096 && !(vectorRuns others).any (meets x)
  let t : Run := (g.spadBase, recTiles r)
  let tOk := t.1 + t.2 ≤ 512 && !(tileRuns others).any (meets t)
  if vOk && tOk then
    match freeIds (others.flatMap Group.tileIds) 16 (recTregs r),
        freeIds (others.flatMap Group.wbIds) 8 (recSlots r) with
    | some ts, some ws => some (ts, ws)
    | _, _ => none
  else none

/-- The common registers from c_first to c63 of a set read zero. -/
def clearCommon (s : State) (die phys cset first : Nat) : State :=
  let base := windowPa die phys (winCommon + 512 * cset)
  { s with mem := Sparse.erase s.mem (base + 8 * first) (base + 512) }

/-- Grant the full allotment: what it adds reads as at start (R356). -/
def grantAll (s : State) (g : Group) (tiles slots : List Nat) : State :=
  let first := g.tiles
  let s := (List.range (recTiles g.record - first)).foldl (fun s i =>
    setOwner s g.die g.phys (g.spadBase + first + i) false) s
  let s := clearCommon s g.die g.phys g.cset 8
  modGroup s g.gid fun g => { g with
    acquired := true, order := none, tileIds := tiles, wbIds := slots
    tstat := List.replicate (recTregs g.record) TileStat.reset
    waves := g.waves.map fun w => { w with gangs := w.gangs.map fun x =>
      if x.hold == .acquire then { x with hold := .none } else x } }

/-- ACQUIRE_ADMISSION: the oldest waiting group of a core, once its need is free (R379). -/
def execAcquireAdmission (die core : Nat) (s : State) : Result :=
  match (physOf s die core).bind (oldestWaiter s die) with
  | none => .next s
  | some g => match growth s g with
    | none => .next s
    | some (ts, ws) => .next (grantAll s g ts ws)

/-- A group of a core that neither waits at ACQUIRE nor has ended and waits to append the record of its join (R379, R381). -/
def groupRuns (g : Group) : Bool := g.order.isNone && g.follow.isNone

/-- ADMISSION_SPILL: the oldest waiter cannot be admitted and no other group of the core runs, so the
youngest waiter is spilled (R379). -/
def execAdmissionSpill (die core : Nat) (s : State) : Result :=
  match physOf s die core with
  | none => .next s
  | some p =>
    match oldestWaiter s die p with
    | none => .next s
    | some g =>
      let ws := waiters s die p
      if (growth s g).isSome || (groupsAt s die p).any groupRuns then .next s
      else match leastBy (fun o => s.nextReq - o.order.getD 0) ws with
        | none => .next s
        | some y => .next (stopGroup s .spill false y.gid)

/-! ## The end of a group and its join (R359, R381) -/

/-- A vacate has ended once the groups that its chosen cores held have gone: the groups of the beneficiary that its
cores have popped since then do not hold it up (R385). -/
def settleVacate (s : State) : State :=
  match s.vacate with
  | none => s
  | some v =>
    if v.left.all fun gid => !(s.groups.any fun g => g.gid == gid) then
      signal { s with vacate := none
                      regs := { s.regs with vacBusy := false, vacDone := v.chosen.length } } 4
    else s

/-- A fenced core without groups leaves the map: a spare takes its number or the number is retired (R401). -/
def settleFence (s : State) (die phys : Nat) : State :=
  let m := coreMap s die
  if !m.fenced.getLsbD phys || !(groupsAt s die phys).isEmpty || !m.cmap.contains phys then s
  else
    let spare := (List.range 52).find? fun p => m.spare.getLsbD p && !m.fenced.getLsbD p
    let new := spare.getD 0x3F
    let on := match spare with
      | some p => 1#52 <<< p
      | none => 0
    setCoreMap s die fun m => { m with
      cmap := m.cmap.map fun p => if p == phys then new else p
      enabled := (m.enabled &&& ~~~(1#52 <<< phys)) ||| on
      spare := m.spare &&& ~~~on }

/-- The group leaves its core: its allotment and its status table are gone (R177, R359). -/
def removeGroup (s : State) (g : Group) : State :=
  let s := { s with groups := s.groups.filter fun o => o.gid != g.gid
                    walks := s.walks.filter fun r => match r.who with
                      | .wave gid _ => gid != g.gid
                      | .unit _ | .prefetch _ _ => true }
  settleFence (settleVacate (retarget s g.die)) g.die g.phys

/-- What the counter of a join or the record behind it gives: a failure, a result that enqueues nothing, a counter
that has reached 0, the record, or what the group has still to wait for. -/
inductive JoinRes where
  | failed
  | below
  | more
  | zero
  | follow (r : List Word)
  | pending (va : Nat) (kind : AKind)
  | needs (ks : List FarKey)
  deriving DecidableEq, Repr

/-- The record of a join that lies beyond the package, once its bytes have come (R301, R307). -/
def joinFar (s : State) (w : Wave) (p : Piece) : JoinRes :=
  let ks := farMissing s w.far [p]
  if !ks.isEmpty || !farDone w.far then .needs ks
  else if (farBad w.far p).isSome then .failed
  else .follow (wordsOfBytes (farRun s w.far p.tr.pa 64) 8)

/-- Read the record behind a counter (R381). -/
def joinRecord (s : State) (g : Group) (w : Wave) (va : Nat) : State × JoinRes :=
  match translateCore s g.die g.phys g.asid va .read w.answers with
  | (s, .pending) => (s, .pending va .read)
  | (s, .ok t) =>
    match regionOf (resolvePa s t.pa) with
    | .hbm _ => (s, if poisonedRun s t.pa 64 then .failed else .follow (recordAt s t.pa))
    | .pod _ _ | .host _ => (s, joinFar s w ⟨va, 64, t⟩)
    | _ => (s, .failed)
  | (s, _) => (s, .failed)

/-- The decrement of the counter (R381). -/
def joinDecrement (s : State) (g : Group) (w : Wave) (j : Nat) : State × JoinRes :=
  match translateCore s g.die g.phys g.asid j .rmw w.answers with
  | (s, .pending) => (s, .pending j .rmw)
  | (s, .ok t) =>
    let pa := resolvePa s t.pa
    match regionOf pa with
    | .hbm _ =>
      if poisonedRun s pa 8 then (s, .failed)
      else
        let n := intOf true 64 (natOfBytes (readRun s pa 8)) - 1
        let s := recallAll (writeNow (setDirty s g.die g.asid j t) pa (bytesOfNat 8 (natOf 64 n))) [pa]
        (s, if n == 0 then .zero else if n < 0 then .below else .more)
    | _ => (s, .failed)
  | (s, _) => (s, .failed)

/-- The last step of a group's end: the record is appended, or waits for a place in its queue. -/
def finishGroup (s : State) (g : Group) (follow : Option (List Word)) : State :=
  match follow with
  | none => removeGroup s g
  | some r =>
    if (queueOf s g.die (recPrio r)).full then
      modGroup s g.gid fun g => { g with joined := true, follow := some r }
    else removeGroup (appendRecord s g.die (recPrio r) r false) g

/-- Every wave has ended, and no engine command, collective or common-register write of the group is left. -/
def groupOver (s : State) (g : Group) : Bool :=
  g.waves.all Wave.ended && !groupBusy s g.gid && !groupGates s g && !s.commons.any fun k => k.gid == g.gid

/-- The wave of a group that stands for it in its join: it keeps the answers. -/
def Group.first (g : Group) : Wave := g.waves.headD Wave.blank

/-- What a group does with the outcome of its join (R381). -/
def settleJoin (s : State) (g : Group) : JoinRes → State
  | .pending va k => addWalks s g.die (.wave g.gid 0) g.asid k [va]
  | .needs ks =>
    if !remoteRoom s ks.length then s
    else
      let (s, rs) := askFar s ks
      modWave s g.gid 0 fun w => { w with far := w.far ++ rs }
  | .failed => finishGroup (schedError s 7 g.launch g.die g.prio) g none
  | .below => finishGroup (schedError s 6 g.launch g.die g.prio) g none
  | .more => finishGroup s g none
  | .zero => s
  | .follow r => finishGroup s g (some r)

/-- The counter has reached 0: the record behind it is read, at once where it lies in this package. -/
def followJoin (s : State) (g : Group) (j : Nat) : State :=
  let (s, r) := joinRecord s g g.first (j + 64)
  settleJoin s g r

/-- GROUP_END: the join, then the allotment is released (R359, R381); a discarded group has no join (R401). A join whose
walk the host has still to answer waits for it (R115, R118). -/
def execGroupEnd (gid : Nat) (s : State) : Result :=
  match findGroup s gid with
  | none => .next s
  | some g =>
    let j := (g.record.getD 2 0).toNat
    if !groupOver s g || g.follow.isSome || waveWalks s gid 0 then .next s
    else if g.joined then .next (followJoin s g j)
    else if g.discard || j == 0 then .next (removeGroup s g)
    else match joinDecrement s g g.first j with
      | (s, .zero) =>
        let served (g : Group) : Group := { g with joined := true, waves := g.waves.map Wave.served }
        .next (followJoin (modGroup s gid served) (served g) j)
      | (s, r) => .next (settleJoin s g r)

/-- JOIN_ENQUEUE_RETRY: the append that found its queue full is tried again (R381). -/
def execJoinEnqueueRetry (gid : Nat) (s : State) : Result :=
  match findGroup s gid with
  | none => .next s
  | some g => match g.follow with
    | none => .next s
    | some r =>
      if (queueOf s g.die (recPrio r)).full then .next s
      else .next (removeGroup (appendRecord s g.die (recPrio r) r false) g)

end Sys2Proof.Machine
end

