-- ==== Sys2Proof/Machine/Image.lean ====
section
/-!
DEFINITION. The state image (R399, R400): saving a stopped group and refilling one; the pop of a group
(R377, R378); vacates (R384, R385, R397, R398); fencing a core (R401).
-/

namespace Sys2Proof.Machine

/-! ## Offsets of the image (R399, R400) -/

def imgWave (w : Nat) : Nat := 0x2000 + 4096 * w
def imgV (vb n : Nat) : Nat := 0x20000 + 256 * (vb + n)
def imgSide (vb n : Nat) : Nat := 0x120000 + 16 * (vb + n)
def imgSpad (k : Nat) : Nat := 0x130000 + 4096 * k
def imgMeta (k : Nat) : Nat := 0x330000 + 512 * k
def imgCells (t : Nat) : Nat := 0x370000 + 32768 * t
def imgWb (n : Nat) : Nat := 0x3F0000 + 65536 * n
def imgMarks : Nat := 0x470000
/-- Bytes of an image slot. -/
def imgSize : Nat := 2 ^ 23

/-- Where the registers of wave w start: w times the rounded count. -/
def imgVb (g : Group) (w : Nat) : Nat := w * up8 g.vregs

/-! ## Saving -/

/-- An item of the image: where it lies, its bytes, and whether its words are marked uncorrectable. -/
structure ImgItem where
  off   : Nat
  bytes : List Byte
  bad   : Bool
  deriving DecidableEq, Repr

def imgWord (off : Nat) (x : Word) (bad : Bool) : ImgItem := ⟨off, wordBytes x, bad⟩
def imgNat (off n x : Nat) (bad : Bool) : ImgItem := ⟨off, bytesOfNat n x, bad⟩

/-- The group's own part, offsets 0 to 0x7FF. -/
def headerItems (s : State) (g : Group) (pa : Nat) (quad : List Nat) : List ImgItem :=
  let r := (g.record.set 5 (word (2 ^ 32 + g.index))).set 7 (word pa)
  let present := waveMask g.waves fun w => !w.ended
  let halted := waveMask g.waves Wave.halted
  let bars := g.bars.zipIdx.map fun (b, i) =>
    imgNat (0x60 + 16 * i) 16 ((b.fixed.getD 0).toNat + b2n b.fixed.isSome * 2 ^ 16 + b.arrived.toNat * 2 ^ 32
      + b.gen % 2 ^ 32 * 2 ^ 64) (g.marked (gmBar i))
  let tile (k : Nat) (f : State → Nat → Nat → Nat → Bool) : Bool :=
    decide (k < g.tiles) && f s g.die g.phys (g.spadBase + k)
  let owners := (List.range 8).map fun i =>
    let ks := (List.range 64).map (64 * i + ·)
    imgNat (0x100 + 8 * i) 8 (ks.foldl (fun n k => n + b2n (tile k ownedByEngine) * 2 ^ (k - 64 * i)) 0)
      (ks.any fun k => tile k ownerFails)
  let tiles := (List.range 16).map fun m => imgWord (0x140 + 8 * m) (tileStat g m).status (g.marked (gmTile m))
  let commons := (List.range g.common).map fun n =>
    (⟨0x200 + 8 * n, readRun s (commonPa g (8 * n)) 8, g.marks.get false (gmCommon n)⟩ : ImgItem)
  let stats := (List.range 64).flatMap fun n =>
    let e := g.stat.get (0, 0) n
    [imgWord (0x400 + 16 * n) e.1 (g.marks.get false (gmStat (2 * n))),
      imgWord (0x408 + 16 * n) e.2 (g.marks.get false (gmStat (2 * n + 1)))]
  (r.zipIdx.map fun (x, i) => imgWord (8 * i) x false) ++
    [imgNat 0x40 8 1 false,
      imgNat 0x48 8 (present.toNat + halted.toNat * 2 ^ 16 + g.cohort % 4 * 2 ^ 32) false,
      imgWord 0x50 g.accord (g.marks.get false gmAccord),
      imgNat 0x58 8 (b2n g.acquired + 2 * b2n g.relTiles + 4 * b2n g.relSpad) false] ++
    bars ++ ((List.range 4).map fun i => imgNat (0xC0 + 8 * i) 8 (quad.getD i 0) false) ++
    owners ++ tiles ++ commons ++ stats

/-- The number of the gang that holds a slice, and its PC; a handler's gang comes first. -/
def gangOf (w : Wave) (j : Nat) : Nat × Word :=
  let (rest, run) := w.gangs.partition Gang.parked
  match (run ++ rest).zipIdx.find? fun g => g.1.slices.getLsbD j with
  | some (g, i) => (i, g.pc)
  | none => (0, 0)

/-- %tcause as a word. -/
def TrapRegs.causeWord (t : TrapRegs) : Word := word (t.tm.toNat * 2 ^ 63 + t.code * 2 ^ 32 + t.cause)

/-- The special registers of a section, in order. -/
def sectionSpecs (w : Wave) : List Word :=
  [w.grain, w.grainctr, w.fmode.setWidth 64, w.trap.tvec, w.trap.causeWord, w.trap.tpc,
    w.trap.tlanes.setWidth 64, w.trap.tinfo, word (w.bhalted.toNat * 2 ^ 16 + w.abnd.toNat)]

/-- A wave's section. -/
def sectionItems (w : Wave) (base : Nat) : List ImgItem :=
  let m := w.marked
  let at_ (o : Nat) : Nat := base + o
  let slices := (List.range 8).flatMap fun j =>
    let sl := sliceAt w j
    let bad := m (mkSlice j)
    [imgWord (at_ (8 * j)) (gangOf w j).2 bad,
      imgNat (at_ (0x40 + j)) 1 ((gangOf w j).1 % 8 + 128 * b2n sl.exited) bad,
      imgNat (at_ (0x48 + j)) 1 sl.amask.toNat bad,
      imgNat (at_ (0x50 + j)) 1 sl.tsaved.toNat bad,
      imgNat (at_ (0x58 + j)) 1 (sl.stack.length % 16 + 16 * (sl.tdepth % 16)) bad] ++
    sl.stack.reverse.zipIdx.flatMap fun (e, i) =>
      [imgWord (at_ (0x600 + 256 * j + 32 * i)) e.joinPc bad,
        imgWord (at_ (0x608 + 256 * j + 32 * i)) e.pendPc bad,
        imgNat (at_ (0x610 + 256 * j + 32 * i)) 1 (e.pend.toNat + 16 * e.saved.toNat) bad]
  slices ++
    ((List.range 64).map fun n => imgWord (at_ (0x80 + 8 * n)) (w.s.get 0 n) (m (mkS n))) ++
    ((List.range 7).map fun n => imgNat (at_ (0x280 + 4 * n)) 4 (w.p.get 0 n).toNat
      ((List.range 4).any fun k => m (mkP n k))) ++
    ((List.range 4).flatMap fun n =>
      [imgNat (at_ (0x2A0 + 4 * n)) 4 (w.xbase.get 0 n + w.xlimit.get 0 n * 2 ^ 16) (m (mkBase n))] ++
      ((List.range 4).map fun k =>
        imgNat (at_ (0x340 + 32 * n + 8 * k)) 8 (bitsOf (w.cursor n).bits (64 * k + 63) (64 * k)) (m (mkQ n k))) ++
      ((List.range 5).map fun k =>
        imgNat (at_ (0x420 + 40 * n + 8 * k)) 8 (bitsOf (w.ck.get 0 n).toNat (64 * k + 63) (64 * k)) (m (mkCk n k))) ++
      (List.range 32).map fun l => imgNat (at_ (0x2C0 + 32 * n + l)) 1 (w.readX n l) (m (mkX n l))) ++
    ((sectionSpecs w).zipIdx.map fun (x, k) => imgWord (at_ (0x3C0 + 8 * k)) x (m (mkSpec k))) ++
    (List.range 32).map fun l => imgWord (at_ (0x4C0 + 8 * l)) ((w.readFf l).setWidth 64) (m (mkFf l))

/-- The vector registers and sidecars of a wave within the allotment. -/
def vectorItems (g : Group) (w : Wave) (i : Nat) : List ImgItem :=
  let vb := imgVb g i
  ((List.range g.vregs).flatMap fun n => (List.range 32).map fun l =>
    imgWord (imgV vb n + 8 * l) (w.v.get 0 (32 * n + l)) (w.marked (mkV n l))) ++
  (List.range g.vregs).flatMap fun n => (List.range 8).map fun j =>
    imgNat (imgSide vb n + 2 * j) 2 (w.readSide n j).toNat (w.marked (mkSide n j 0) || w.marked (mkSide n j 1))

/-- The metadata bytes of a line as they stand in storage: the CRC of a poisoned line is complemented
(R97). -/
def lineMeta (data : List Byte) (l : Line) : List Byte :=
  let crc := crcOf data l.md
  bytesOfNat 16 (l.md.toNat + 2 ^ 112 * (if l.poison then 65535 - crc else crc))

/-- The scratchpad tile k of a group. -/
def spadItems (s : State) (g : Group) (k : Nat) : List ImgItem :=
  (List.range 32).flatMap fun i =>
    let pa := spadPa g (4096 * k + 128 * i)
    let data := readRun s pa 128
    [⟨imgSpad k + 128 * i, data, false⟩, ⟨imgMeta k + 16 * i, lineMeta data (lineAt s pa), false⟩]

/-- A tile register's cells. -/
def cellItems (g : Group) (m : Nat) : List ImgItem :=
  (tileCells g m).zipIdx.map fun (x, i) => imgWord (imgCells m + 8 * i) x false

/-- A weight-buffer slot, word by word. -/
def slotItems (g : Group) (n : Nat) : List ImgItem :=
  (List.range 8192).map fun i =>
    ⟨imgWb n + 8 * i, slotRun g n (8 * i) 8, slotMarked g n (8 * i) 8⟩

/-- The lines of a run of the image, which are written even where no item lies in them. -/
def wholeLines (off n : Nat) : List ImgItem := (List.range (n / 128)).map fun i => ⟨off + 128 * i, [], false⟩

/-- All items of a group's image; the header and the sections are written whole. -/
def imageItems (s : State) (g : Group) (pa : Nat) (quad : List Nat) : List ImgItem :=
  wholeLines 0 0x800 ++ (List.range g.waves.length).flatMap (fun i => wholeLines (imgWave i) 4096) ++
    headerItems s g pa quad ++
    (g.waves.zipIdx.flatMap fun (w, i) => sectionItems w (imgWave i) ++ vectorItems g w i) ++
    (List.range g.tiles).flatMap (spadItems s g) ++ (List.range g.tregs).flatMap (cellItems g) ++
    (List.range g.wbslots).flatMap (slotItems g)

/-- Put bytes into a byte map. -/
def putBytes (m : Memory) (off : Nat) (bs : List Byte) : Memory := m.writeBytes off bs

/-- Lines of the mark map (R399): a bit per word of the offsets before it. -/
def imgMarkLines : List Nat := (List.range (imgMarks / 64 / 128)).map (imgMarks / 128 + ·)

/-- Write an image with plain writes, each line that holds an item as a whole, bytes without an item 0; the mark map is
written whole, with the marks of the words written (R399, R433). -/
def writeImage (s : State) (pa : Nat) (items : List ImgItem) : State :=
  let data := items.foldl (fun m i => putBytes m i.off i.bytes) ([] : Memory)
  let lines := dedup (items.map fun i => i.off / 128)
  let marked := dedup ((items.filter ImgItem.bad).flatMap fun i =>
    (List.range ((i.off + i.bytes.length + 7) / 8 - i.off / 8)).map fun k => i.off / 8 + k)
  let marks := marked.foldl (fun (m : Memory) k =>
    let o := imgMarks + k / 8
    m.write o (m.read o ||| (1#8 <<< (k % 8)))) ([] : Memory)
  let put (m : Memory) (s : State) (l : Nat) : State :=
    plainWrite s false (atRun (pa + 128 * l) ((List.range 128).map fun i => m.read (128 * l + i)))
  let s := lines.foldl (put data) s
  let s := imgMarkLines.foldl (put marks) s
  recallAll s ((lines ++ imgMarkLines).map fun l => pa + 128 * l)

/-! ## Refilling -/

/-- An image being read: where it lies. -/
structure Img where
  s  : State
  pa : Nat
  deriving DecidableEq, Repr

def Img.bytes (m : Img) (off n : Nat) : List Byte := readRun m.s (m.pa + off) n
def Img.nat (m : Img) (off n : Nat) : Nat := natOfBytes (m.bytes off n)
def Img.word (m : Img) (off : Nat) : Word := wordOfBytes (m.bytes off 8)
/-- Some line of a run is poisoned. -/
def Img.poison (m : Img) (off n : Nat) : Bool := poisonedRun m.s (m.pa + off) n
/-- The poisoned lines of a run, each by its number in the image: each is a containment event (R400, R402). -/
def Img.hurtLines (m : Img) (off n : Nat) : List Nat :=
  if n == 0 then [] else ((List.range ((off + n - 1) / 128 + 1 - off / 128)).map (off / 128 + ·)).filter fun k =>
    m.poison (128 * k) 128

/-- Some word of a run is marked, or its line or its mark's line is poisoned. -/
def Img.bad (m : Img) (off n : Nat) : Bool :=
  m.poison off n || (List.range ((off + n + 7) / 8 - off / 8)).any fun k =>
    let w := off / 8 + k
    let o := imgMarks + w / 8
    m.poison o 1 || bitOf (m.nat o 1) (w % 8)

/-- Marks at numbers whose words are bad. -/
def badMarks (ks : List (Nat × Bool)) (m : Sparse Bool) : Sparse Bool :=
  ks.foldl (fun m k => if k.2 then m.set false k.1 true else m) m

/-- A map filled from a list. -/
def fillMap {α : Type} [DecidableEq α] (d : α) (xs : List (Nat × α)) : Sparse α :=
  xs.foldl (fun m x => m.set d x.1 x.2) []

/-- A slice of a section. -/
def Img.slice (m : Img) (base j : Nat) : Slice :=
  let deep := m.nat (base + 0x58 + j) 1
  { exited := bitOf (m.nat (base + 0x40 + j) 1) 7
    amask := BitVec.ofNat 4 (m.nat (base + 0x48 + j) 1)
    stack := ((List.range (deep % 16)).map fun i =>
      let o := base + 0x600 + 256 * j + 32 * i
      let b := m.nat (o + 16) 1
      (⟨m.word o, m.word (o + 8), BitVec.ofNat 4 b, BitVec.ofNat 4 (b / 16)⟩ : StackEntry)).reverse
    tsaved := BitVec.ofNat 4 (m.nat (base + 0x50 + j) 1)
    tdepth := deep / 16 }

/-- The gangs of a section: the live slices by gang number, each gang at its PC; while traps are masked the gangs whose
slices did not enter the handler stay stopped: their TSAVED is empty (R403, log entry 64). -/
def Img.gangs (m : Img) (base : Nat) (tm : Bool) : List Gang :=
  let live := (List.range 8).filter fun j => !bitOf (m.nat (base + 0x40 + j) 1) 7
  let num (j : Nat) : Nat := m.nat (base + 0x40 + j) 1 % 8
  (dedup (live.map num)).map fun n =>
    let js := live.filter fun j => num j == n
    { slices := sliceMask js, pc := m.word (base + 8 * js.headD 0), hold := .none, clause := none
      last := 0, parked := tm && js.all fun j => m.nat (base + 0x50 + j) 1 % 16 == 0 }

/-- Wave i of a group refilled. Until it issues again, no generation that it has arrived in completes (R354). -/
def Img.wave (m : Img) (g : Group) (i slot vbase : Nat) (present halted : Bool) : Wave :=
  let b := imgWave i
  let vb := imgVb g i
  let spec (k : Nat) : Word := m.word (b + 0x3C0 + 8 * k)
  let cause := spec 4
  let tm := cause.getLsbD 63
  let trap : TrapRegs :=
    { tvec := spec 3, tm := tm, code := field cause 39 32, cause := field cause 4 0, tpc := spec 5
      tlanes := (spec 6).setWidth 32, tinfo := spec 7 }
  let vs := (List.range g.vregs).flatMap fun n => (List.range 32).map fun l => (n, l)
  let sides := (List.range g.vregs).flatMap fun n => (List.range 8).map fun j => (n, j)
  let xs := (List.range 4).flatMap fun n => (List.range 32).map fun l => (n, l)
  let bad (k off n : Nat) : Nat × Bool := (k, m.bad off n)
  let marks := badMarks (
    vs.map (fun (n, l) => bad (mkV n l) (imgV vb n + 8 * l) 8) ++
    (sides.flatMap fun (n, j) => (List.range 2).map fun k => bad (mkSide n j k) (imgSide vb n + 2 * j + k) 1) ++
    (List.range 64).map (fun n => bad (mkS n) (b + 0x80 + 8 * n) 8) ++
    (List.range 28).map (fun i => bad (mkP (i / 4) (i % 4)) (b + 0x280 + i) 1) ++
    (List.range 4).map (fun n => bad (mkBase n) (b + 0x2A0 + 4 * n) 4) ++
    xs.map (fun (n, l) => bad (mkX n l) (b + 0x2C0 + 32 * n + l) 1) ++
    (List.range 16).map (fun i => bad (mkQ (i / 4) (i % 4)) (b + 0x340 + 8 * i) 8) ++
    (List.range 9).map (fun k => bad (mkSpec k) (b + 0x3C0 + 8 * k) 8) ++
    (List.range 20).map (fun i => bad (mkCk (i / 5) (i % 5)) (b + 0x420 + 8 * i) 8) ++
    (List.range 32).map (fun l => bad (mkFf l) (b + 0x4C0 + 8 * l) 8) ++
    (List.range 8).map (fun j => (mkSlice j, m.bad (b + 8 * j) 8 || m.bad (b + 0x40) 32 ||
      (let n := m.nat (b + 0x58 + j) 1 % 16
       n != 0 && m.bad (b + 0x600 + 256 * j) (32 * n))))) []
  let q (n : Nat) : Cursor := Cursor.ofBits (m.nat (b + 0x340 + 32 * n) 32)
  let barst := spec 8
  { Wave.blank with
    slot := slot, vbase := vbase
    v := fillMap 0 (vs.map fun (n, l) => (32 * n + l, m.word (imgV vb n + 8 * l)))
    side := fillMap 0 (sides.map fun (n, j) => (8 * n + j, BitVec.ofNat 16 (m.nat (imgSide vb n + 2 * j) 2)))
    s := fillMap 0 ((List.range 64).map fun n => (n, m.word (b + 0x80 + 8 * n)))
    p := fillMap 0 ((List.range 7).map fun n => (n, BitVec.ofNat 32 (m.nat (b + 0x280 + 4 * n) 4)))
    x := fillMap 0 (xs.map fun (n, l) => (32 * n + l, BitVec.ofNat 8 (m.nat (b + 0x2C0 + 32 * n + l) 1)))
    xbase := fillMap 0 ((List.range 4).map fun n => (n, bitsOf (m.nat (b + 0x2A0 + 4 * n) 4) 7 0))
    xlimit := fillMap 0 ((List.range 4).map fun n => (n, bitsOf (m.nat (b + 0x2A0 + 4 * n) 4) 24 16))
    q0 := q 0, q1 := q 1, q2 := q 2, q3 := q 3
    grain := spec 0, grainctr := spec 1
    fflags := fillMap 0 ((List.range 32).map fun l => (l, BitVec.ofNat 6 (m.nat (b + 0x4C0 + 8 * l) 8)))
    fmode := (spec 2).setWidth 8, trap := trap
    bhalted := BitVec.ofNat 16 (field barst 31 16), abnd := barst.getLsbD 0
    ck := fillMap 0 ((List.range 4).map fun n => (n, BitVec.ofNat 320 (m.nat (b + 0x420 + 40 * n) 40)))
    slices := (List.range 8).map fun j =>
      let sl := m.slice b j
      if present || halted then sl else { sl with exited := true }
    gangs := if present || halted then m.gangs b tm else []
    marks := marks, refilled := true, halted := halted }

/-- A barrier of the image. -/
def Img.barrier (m : Img) (i : Nat) : Barrier :=
  let n := m.nat (0x60 + 16 * i) 16
  ⟨if bitOf n 16 then some (BitVec.ofNat 16 n) else none, BitVec.ofNat 16 (n / 2 ^ 32), bitsOf n 95 64⟩

/-- A group without waves, cells and slots, from a record, in a place. -/
def Group.start (gid die core phys index : Nat) (r : List Word) (n : Need) (p : Place) : Group :=
  { gid := gid, record := r, index := index, die := die, core := core, phys := phys
    acquired := n.acquired, relTiles := n.relTiles, relSpad := n.relSpad
    spadBase := p.spadBase, cset := p.cset, tileIds := p.tileIds, wbIds := p.wbIds, waves := []
    cells := [], tstat := List.replicate (if n.acquired then recTregs r else 0) TileStat.reset
    wb := [], wbMark := [], accord := 0, latch := none, quads := [], expansions := []
    bars := List.replicate 4 ⟨none, 0, 0⟩, stat := [], marks := [], order := none, stop := none
    opWait := false, poolWait := false, discard := false, joined := false, follow := none
    cohort := 0, peers := [] }

/-- The metadata and poison of a scratchpad line as refilled: a failing CRC or a bad word poisons it
(R97, R400). -/
def Img.line (m : Img) (k i : Nat) : List Byte × Line :=
  let data := m.bytes (imgSpad k + 128 * i) 128
  let n := m.nat (imgMeta k + 16 * i) 16
  let md := BitVec.ofNat 112 n
  (data, ⟨md, n / 2 ^ 112 != crcOf data md || m.bad (imgSpad k + 128 * i) 128 || m.bad (imgMeta k + 16 * i) 16⟩)

/-- Bytes of storage and their lines are put as they stand. -/
def putLine (s : State) (pa : Nat) (x : List Byte × Line) : State :=
  setLine (storeBytes s (atRun pa x.1)) pa x.2

/-- Refill a group from its image (R400) into a place; the scratchpad and common registers are written. -/
def refillGroup (s : State) (gid die core phys : Nat) (r : List Word) (p : Place) : State × Group :=
  let m : Img := ⟨s, recImage r⟩
  let n := needOf s r
  let g0 := Group.start gid die core phys (recFirst r) r n p
  let live := m.nat 0x48 8
  let cells := (List.range g0.tregs).flatMap fun t => (List.range 4096).map fun i =>
    (4096 * t + i, m.word (imgCells t + 8 * i))
  let wb := (List.range g0.wbslots).flatMap fun k => (m.bytes (imgWb k) 65536).zipIdx.map fun (x, i) =>
    (65536 * k + i, x)
  let wbMark := (List.range g0.wbslots).flatMap fun k => (List.range 8192).flatMap fun i =>
    if m.bad (imgWb k + 8 * i) 8 then (List.range 8).map fun q => (65536 * k + 8 * i + q, true) else []
  let tstat := (List.range g0.tstat.length).map fun t =>
    let st := TileStat.ofWord (m.word (0x140 + 8 * t))
    let bad := (List.range 4096).any fun i => m.bad (imgCells t + 8 * i) 8
    { st with uce := st.uce || (bad && decide (t < g0.tregs)) }
  let marks := badMarks (
    (List.range g0.common).map (fun i => (gmCommon i, m.bad (0x200 + 8 * i) 8)) ++
    [(gmAccord, m.bad 0x50 8)] ++
    (List.range g0.tregs).map (fun t => (gmTile t, m.bad (0x140 + 8 * t) 8)) ++
    (List.range 4).map (fun i => (gmBar i, m.bad (0x60 + 16 * i) 16)) ++
    (List.range 128).map (fun i => (gmStat i, m.bad (0x400 + 8 * i) 8))) []
  let g := { g0 with
    cells := fillMap 0 cells, wb := fillMap 0 wb, wbMark := fillMap false wbMark, tstat := tstat
    accord := m.word 0x50, bars := (List.range 4).map m.barrier
    stat := fillMap (0, 0) ((List.range 64).map fun i => (i, (m.word (0x400 + 16 * i), m.word (0x408 + 16 * i))))
    marks := marks, cohort := bitsOf live 33 32 }
  let waves := (List.range (recWaves r)).map fun i =>
    m.wave g i (p.slots.getD i 0) (p.vbases.getD i 0) (bitOf live i) (bitOf live (16 + i))
  let owners := m.nat 0x100 64
  let s := (List.range g.tiles).foldl (fun s k =>
    let s := setOwner s die phys (g.spadBase + k) (bitOf owners k)
    let s := if m.bad (0x100 + k / 64 * 8) 8 then spoilOwner s die phys (g.spadBase + k) else s
    (List.range 32).foldl (fun s i => putLine s (spadPa g (4096 * k + 128 * i)) (m.line k i)) s) s
  let s := (List.range g.common).foldl (fun s i =>
    storeBytes s (atRun (commonPa g (8 * i)) (m.bytes (0x200 + 8 * i) 8)))
    (clearCommon s die phys g.cset 0)
  let runs := (0, 0x800) :: ((List.range (recWaves r)).flatMap fun i =>
      [(imgWave i, 4096), (imgV (imgVb g i) 0, 256 * g.vregs), (imgSide (imgVb g i) 0, 16 * g.vregs)]) ++
    ((List.range g.tiles).flatMap fun k => [(imgSpad k, 4096), (imgMeta k, 512)]) ++
    ((List.range g.tregs).map fun t => (imgCells t, 32768)) ++
    ((List.range g.wbslots).map fun k => (imgWb k, 65536)) ++ [(imgMarks, imgMarks / 64)]
  let s := (dedup (runs.flatMap fun x => m.hurtLines x.1 x.2)).foldl
    (fun s _ => capture s 6 0 0 die phys 0 (recLaunch r) (recFirst r)) s
  (s, { g with waves := waves })

/-! ## Popping a group (R377, R378) -/

/-- Launch values of a wave (R378). -/
def launchRegs (r : List Word) (index wave : Nat) : Sparse Word :=
  fillMap 0 [(0, r.getD 1 0), (1, word index), (2, r.getD 4 0), (3, word wave)]

/-- A wave at its start. -/
def Wave.start (r : List Word) (index i slot vbase : Nat) : Wave :=
  { Wave.blank with
    slot := slot, vbase := vbase, s := launchRegs r index i
    gangs := [⟨255, r.getD 0 0, .none, none, 0, false⟩] }

/-- Start a fresh group in a place: its tiles belong to the lanes, its common registers read 0. -/
def freshGroup (s : State) (gid die core phys : Nat) (r : List Word) (p : Place) : State × Group :=
  let g := Group.start gid die core phys (recFirst r) r ⟨false, false, false⟩ p
  let s := (List.range g.tiles).foldl (fun s k => setOwner s die phys (g.spadBase + k) false)
    (clearCommon s die phys g.cset 0)
  (s, { g with
    waves := (List.range (recWaves r)).map fun i =>
      Wave.start r (recFirst r) i (p.slots.getD i 0) (p.vbases.getD i 0) })

/-- Put a popped group on its core; the die takes its new target (R380). The first pop locks MEMCFG (R82). -/
def placeGroup (s : State) (die : Nat) (x : List Word × Nat × Nat × Place) (peers : List Nat) (pos : Nat) : State :=
  let (r, core, phys, p) := x
  let gid := s.nextGid
  let s := { s with nextGid := gid + 1 }
  let (s, g) := if recImage r == 0 then freshGroup s gid die core phys r p
    else refillGroup s gid die core phys r p
  let cohort := if recImage r == 0 then pos else g.cohort
  let s := { s with regs := { s.regs with lock := true } }
  let s := { s with groups := s.groups ++ [{ g with peers := peers, cohort := cohort }]
                    images := s.images.filter (· != recImage r) }
  retarget s die

/-- The groups of a pop, as one event. Their waves wait where the pop moves the die to a faster point, and where the power
limit forbids their hint and the die is not yet at the nearest point allowed (R380). -/
def placeAll (s : State) (die : Nat) (xs : List (List Word × Nat × Nat × Place)) : State :=
  let first := s.nextGid
  let peers := if xs.length ≤ 1 then [] else (List.range xs.length).map (first + ·)
  let old := (coreMap s die).target
  let s := xs.zipIdx.foldl (fun s (x, i) => placeGroup s die x peers i) s
  let m := coreMap s die
  (List.range xs.length).foldl (fun s i => modGroup s (first + i) fun g => { g with
    opWait := decide (m.target < old) || (decide (g.ophint < s.regs.pmin) && m.op != m.target) }) s

/-- The head of a ring after n of its groups have been taken. -/
def advanceRing (s : State) (die prio n : Nat) (r : List Word) : State :=
  let q := queueOf s die prio
  if n < recCount r then
    plainWrite s false (atRun (q.slotPa 0 + 40)
      (wordBytes (word ((recCount r - n) * 2 ^ 32 + (recFirst r + n)))))
  else setQueue s die prio fun q =>
    { q with head := (q.head + 1) % max q.cap 1, spawned := q.spawned.drop 1 }

/-- Put a queue among others in the order in which they reached the limit of R377. -/
def insertAged (age : Nat → Nat) (p : Nat) : List Nat → List Nat
  | [] => [p]
  | x :: xs => if age x ≤ age p then x :: insertAged age p xs else p :: x :: xs

/-- The queues of a die that wait, in the order of the choice (R377): the aged queues, the longest-waiting first, then
the others by priority. -/
def queueOrder (s : State) (die : Nat) : List Nat :=
  let age (p : Nat) : Nat := ((queueOf s die p).aged).getD 0
  let (aged, plain) := ((List.range 8).filter fun p => (queueOf s die p).busy).partition fun p =>
    (queueOf s die p).aged.isSome
  aged.foldl (fun l p => insertAged age p l) [] ++ plain

/-- The reason why the head of a queue cannot be run (R372). -/
def headBad (s : State) (die prio : Nat) : Option Nat :=
  let q := queueOf s die prio
  match q.chain with
  | e :: _ => if e.any fun pa => poisonedRun s pa 64 then some 8
      else (e.map fun pa => recordBad (recordAt s pa) false true).findSome? id
  | [] =>
    if q.count == 0 then none
    else if poisonedRun s (q.slotPa 0) 64 then some 8
    else recordBad (recordAt s (q.slotPa 0)) (q.spawned.headD false) false

/-- The head of a queue is a cohort that no quad can take: it blocks its own queue (R377). -/
def blockedHead (s : State) (die prio : Nat) : Bool :=
  match headRecords s (queueOf s die prio) with
  | r :: _ => recCohort r == 1 && (headBad s die prio).isNone && !canPop s die prio
  | [] => false

/-- The queue that a core chooses: a held core only among heads of its beneficiary. -/
def chosenQueue (s : State) (die core : Nat) : Option Nat :=
  let mine (p : Nat) : Bool :=
    match (coreMap s die).held.find? fun h => h.1 == core with
    | none => true
    | some h => ((headRecords s (queueOf s die p)).map recLaunch).headD 0 == h.2
  (queueOrder s die).find? fun p => mine p && !blockedHead s die p

/-- An invalid head leaves its queue whole, its image slots free. -/
def dropHead (s : State) (die prio reason : Nat) : State :=
  let q := queueOf s die prio
  let launch := recLaunch ((headRecords s q).headD [])
  let s := match q.chain with
    | e :: _ => { setQueue s die prio fun q => { q with chain := q.chain.drop 1, aged := none } with
        images := s.images.filter fun pa => !e.contains pa }
    | [] => setQueue s die prio fun q =>
        { q with head := (q.head + 1) % max q.cap 1, spawned := q.spawned.drop 1, aged := none }
  schedError s reason launch die prio

/-- GROUP_POP: a logical core pops the next group of its die, or takes an invalid record away where it could pop a group
(R372, R377, R378). Schedulers are enabled by step 8 of bring-up (R411). -/
def execGroupPop (die core : Nat) (s : State) : Result :=
  if s.boot.step != 8 || (physOf s die core).isNone then .next s
  else
    match chosenQueue s die core with
    | none => .next s
    | some p =>
      match headBad s die p with
      | some reason => .next (if takesBad s die core p then dropHead s die p reason else s)
      | none =>
        match takeHead s die core p with
        | [] => .next s
        | x :: xs =>
          let q := queueOf s die p
          let s1 := if q.chain.isEmpty then advanceRing s die p (xs.length + 1) (recordAt s (q.slotPa 0))
            else setQueue s die p fun q => { q with chain := q.chain.drop 1 }
          .next (placeAll (setQueue s1 die p fun q => { q with aged := none }) die (x :: xs))

/-! ## Saving a group (R386, R396, R399) -/

/-- Free image slots of a die's pool. -/
def freeImages (s : State) (die : Nat) : List Nat :=
  let base := s.regs.imgBase.get 0 die
  ((List.range (s.regs.imgCount.get 0 die)).map fun i => base + imgSize * i).filter fun pa =>
    !s.images.contains pa

/-- The groups that are saved together: the group, or what is left of its quad cohort. -/
def savedWith (s : State) (g : Group) : List Group :=
  if g.peers.isEmpty then [g]
  else s.groups.filter fun o => g.peers.contains o.gid && groupSaving o

/-- A core that waits for FENCEREQ saves nothing yet (R401). -/
def coreRecovers (s : State) (g : Group) : Bool :=
  (coreMap s g.die).recover.contains g.core && !fencedCore s g.die g.phys

/-- Groups that can be saved now: every wave has stopped, and their cores do not wait for FENCEREQ. -/
def saveReady (s : State) (g : Group) : Bool :=
  groupSaving g && (savedWith s g).all fun o => groupStopped s o && !coreRecovers s o

/-- A zero-length read for a group is in flight: of a FENCE.sys that was stopped, or of the saver (R312, R313). -/
def flushes (s : State) (gs : List Group) : Bool :=
  s.hostq.any fun q => match q with
    | .flush gid _ _ _ | .saved gid _ => gs.any fun g => g.gid == gid
    | _ => false

/-- The saver's zero-length reads for the waves that have unflushed host writes (R313). -/
def flushSaved (s : State) (gs : List Group) : State :=
  gs.foldl (fun s g => g.waves.zipIdx.foldl (fun s (w, i) =>
    match w.hostWrote with
    | none => s
    | some a =>
      let (s, _) := sendHost s (fun _ => .saved g.gid a) (fun id => .read id a 0)
      modWave s g.gid i fun w => { w with hostWrote := none }) s) s

/-- Write the images of some groups into free slots and re-enter their records at the head of the chain. -/
def writeImages (s : State) (g : Group) (gs : List Group) (pas : List Nat) : State :=
  let quad := (List.range 4).map fun i =>
    if g.peers.isEmpty then 0
    else (((gs.zip pas).find? fun x => x.1.cohort == i).map Prod.snd).getD 0
  let s := (gs.zip pas).foldl (fun s (o, pa) => writeImage s pa (imageItems s o pa quad)) s
  let s := setQueue { s with images := s.images ++ pas } g.die g.prio fun q => { q with chain := pas :: q.chain }
  gs.foldl removeGroup s

/-- GROUP_SAVE: once every wave has stopped and its engine commands have completed, the unflushed host writes are
flushed (R313), the images are written and their records re-entered at the head of the chain; without a free slot the
spill waits. -/
def execGroupSave (gid : Nat) (s : State) : Result :=
  match findGroup s gid with
  | none => .next s
  | some g =>
    let gs := savedWith s g
    if !saveReady s g then .next s
    else if gs.any fun o => o.waves.any fun w => w.hostWrote.isSome then .next (flushSaved s gs)
    else if flushes s gs then .next s
    else
      let free := freeImages s g.die
      if free.length < gs.length then
        if g.poolWait then .next s
        else .next (capture (modGroup s gid fun g => { g with poolWait := true })
          5 0 0 g.die g.phys 0 g.launch g.index)
      else .next (writeImages s g gs (free.take gs.length))

/-- VACATE_TIMEOUT: every wave of the group that has not stopped, or whose issued instructions have not completed, is
halted with Watchdog (R396, R397). -/
def execVacateTimeout (gid : Nat) (s : State) : Result :=
  match findGroup s gid with
  | none => .next s
  | some g =>
    if g.stop.isNone || g.stop == some .fence then .next s
    else .next (g.waves.zipIdx.foldl (fun s (w, i) =>
      if waveStopped s g w i || w.exited then s else haltAndSweep s gid i 19 0) s)

/-! ## Vacating cores (R384, R385, R398) -/

/-- Set ERR of VACST. -/
def vacateError (s : State) : State := { s with regs := { s.regs with vacErr := true } }

/-- Logical cores ordered by a count, the greatest first, ties to the higher number. -/
def byCount (count : Nat → Nat) (cores : List Nat) : List Nat :=
  (List.range 33).flatMap fun k => (cores.filter fun c => count c == 32 - k).reverse

/-- The cores that a vacate chooses. -/
def vacateChoice (s : State) (v : Word) : List Nat :=
  let die := field v 10 8
  let live := (List.range 48).filter fun c => (physOf s die c).isSome
  if s.regs.vacHost then live.filter fun c => s.regs.vacMask.getLsbD c
  else
    let on (c : Nat) : List Group := s.groups.filter fun g => g.die == die && g.core == c
    let victims (c : Nat) : Nat := ((on c).filter fun g => g.launch == field v 47 32).length
    let busy := byCount victims (live.filter fun c => victims c != 0)
    let idle := (live.filter fun c => (on c).isEmpty).reverse
    (busy ++ idle).take (field v 5 0)

/-- VACREQ without its reserved bits (R9). -/
def vacreqWord (v : Word) : Word := v &&& 0xC000FFFFFFFF073F#64

/-- A write to VACREQ (R384). -/
def writeVacreq (s : State) (v : Word) : State :=
  let v := vacreqWord v
  let s := { s with regs := { s.regs with vacReq := v } }
  let die := field v 10 8
  let op := field v 63 62
  let none_ := if s.regs.vacHost then s.regs.vacMask == 0 else op == 1 && field v 5 0 == 0
  if s.regs.vacBusy || op == 0 || op == 3 || none_ then vacateError s
  else if op == 2 then setCoreMap s die fun m => { m with held := [] }
  else
    let chosen := vacateChoice s v
    let s := setCoreMap s die fun m =>
      { m with held := (m.held.filter fun h => !chosen.contains h.1) ++ chosen.map fun c => (c, field v 31 16) }
    let gs := s.groups.filter fun g => g.die == die && chosen.contains g.core
    let s := { s with vacate := some ⟨die, field v 31 16, chosen, gs.map Group.gid⟩
                      regs := { s.regs with vacBusy := true } }
    settleVacate (gs.foldl (fun s g => stopGroup s .vacate false g.gid) s)

/-- VACREQ_VACATE: a write with OP 1. -/
def execVacreqVacate (v : Word) (s : State) : Result :=
  if field v 63 62 == 1 then .next (writeVacreq s v) else .next s

/-- VACREQ_RELEASE: a write with OP 2. -/
def execVacreqRelease (v : Word) (s : State) : Result :=
  if field v 63 62 == 2 then .next (writeVacreq s v) else .next s

/-! ## Fencing a core (R401) -/

/-- Halt every wave of a group and discard it: it is captured, and its join is not performed. -/
def discardGroup (s : State) (g : Group) : State :=
  let s := stopOne s .fence true g.gid
  let s := modGroup s g.gid fun g => { g with
    discard := true
    waves := g.waves.map fun w => { w with halted := true, merge := none, service := none, answers := [], far := [] } }
  capture s 3 0 0 g.die g.phys 0 g.launch g.index

/-- Fence a physical core: it issues and pops nothing more; its groups are stopped for their images, or
discarded; the fence is captured, and the core leaves the map when its last group has gone. -/
def fenceCore (s : State) (die core phys : Nat) (discard : Bool) : State :=
  let s := setCoreMap s die fun m => { m with
    fenced := m.fenced ||| (1#52 <<< phys), recover := m.recover.filter (· != core) }
  let gs := groupsAt s die phys
  let s := gs.foldl (fun s g => if discard then discardGroup s g
    else (dedup (g.gid :: g.peers)).foldl (fun s n => stopOne s .fence (n == g.gid) n) s) s
  settleFence (capture s 2 0 0 die phys 0 0 0) die phys

/-- A core must be fenced: at once, or it stops its groups and waits for the host (R401). -/
def coreError (s : State) (die core phys : Nat) (discard : Bool) : State :=
  if s.regs.recHost then
    let s := setCoreMap s die fun m => { m with recover := core :: m.recover }
    signal ((groupsAt s die phys).foldl (fun s g => stopGroup s .fence false g.gid) s) 0
  else fenceCore s die core phys discard

/-- CORE_UNCORRECTABLE_ERROR: the core is fenced at once, or stops its groups and waits for the host. -/
def execCoreUncorrectableError (die core : Nat) (s : State) : Result :=
  match physOf s die core with
  | none => .next s
  | some p =>
    if fencedCore s die p || (coreMap s die).recover.contains core then .next s
    else .next (coreError s die core p false)

/-- A core's save path fails on a group that is to be saved: the groups of the core are discarded, and the core is
fenced where it is not yet (R401). -/
def saveFails (s : State) (gid : Nat) : State :=
  match findGroup s gid with
  | none => s
  | some g =>
    if !groupSaving g || coreRecovers s g then s
    else if fencedCore s g.die g.phys then (groupsAt s g.die g.phys).foldl discardGroup s
    else coreError s g.die g.core g.phys true

/-- FENCEREQ without its reserved bits (R9, R401). -/
def fencereqWord (v : Word) : Word := v &&& 0xE0000000000001FF#64

/-- A write to FENCEREQ. -/
def writeFencereq (s : State) (v : Word) : State :=
  let v := fencereqWord v
  let s := { s with regs := { s.regs with fenceReq := v } }
  let die := field v 8 6
  let core := field v 5 0
  match physOf s die core with
  | none => s
  | some p =>
    if !v.getLsbD 63 || fencedCore s die p then s
    else match field v 62 61 with
      | 1 => fenceCore s die core p false
      | 2 => fenceCore s die core p true
      | _ => s

/-- FENCEREQ_FENCE: OP 1. -/
def execFencereqFence (v : Word) (s : State) : Result :=
  if v.getLsbD 63 && field v 62 61 == 1 then .next (writeFencereq s v) else .next s

/-- FENCEREQ_DISCARD: OP 2. -/
def execFencereqDiscard (v : Word) (s : State) : Result :=
  if v.getLsbD 63 && field v 62 61 == 2 then .next (writeFencereq s v) else .next s

end Sys2Proof.Machine
end

