-- ==== Sys2Proof/Machine/Service.lean ====
section
/-!
DEFINITION. Translation beyond the unit: host-assisted walks (R118), invalidations (R116), host fault service
(R395); and the two ways in which a fetch ends without an instruction: a reserved opcode (R62) and a failed
fetch (R54).
-/

namespace Sys2Proof.Machine

/-- The lowest number below 256 that is not in use: both rings have 256 slots. -/
def freeSlot (used : List Nat) : Option Nat := (List.range 256).find? fun n => !used.contains n

/-! ## Host-assisted walks (R118) -/

/-- The request words of a walk, word 0 and word 1. -/
def WalkReq.words (r : WalkReq) : Word × Word :=
  (word (2 ^ 63 + r.kind * 2 ^ 57 + r.va % 2 ^ 57), word r.asid)

/-- HOST_WALK_REQUEST: the oldest walk of a die without a slot takes the lowest free one. -/
def execHostWalkRequest (die : Nat) (s : State) : Result :=
  match s.walks.find? fun r => r.die == die && r.slot.isNone, freeSlot (s.walks.filterMap WalkReq.slot) with
  | some r, some n =>
    let pa := s.regs.hwRing + 16 * n
    let s := hostPut (hostPut s (pa + 8) (wordBytes r.words.2)) pa (wordBytes r.words.1)
    .next (signal { s with walks := s.walks.map fun q => if q == r then { q with slot := some n } else q } 1)
  | _, _ => .next s

/-- Give the answer of a walk to whoever asked: a gang that awaits walks holds its wave until it has executed again with all
its answers (R111); a prefetch fills with its answer (R146). -/
def settleWalk (s : State) (r : WalkReq) (a : Answer) : State :=
  let s := { s with walks := s.walks.filter (· != r) }
  match r.who with
  | .wave gid w => modWave s gid w fun wv => { wv with answers := wv.answers ++ [a] }
  | .unit n => { s with unitAns := s.unitAns.set [] n (s.unitAns.get [] n ++ [a]) }
  | .prefetch phys l2 => (prefetchLine r.die phys r.asid [a] l2 s r.va).1

/-- The host writes a word of an answer into a ring of the device, in its own memory or in the package's. -/
def hostWord (s : State) (pa : Nat) (x : Word) : State :=
  match regionOf pa with
  | .host _ => storeBytes s (atRun pa (wordBytes x))
  | .hbm _ | .pod _ _ => recallAll (plainWrite s false (atRun pa (wordBytes x))) [pa]
  | _ => s

/-- HOST_WALK_ANSWER: the host has written word 1, then word 0 with PEND cleared. -/
def execHostWalkAnswer (slot level : Nat) (leaf : Word) (s : State) : Result :=
  match s.walks.find? fun r => r.slot == some slot with
  | none => .next s
  | some r =>
    let pa := s.regs.hwRing + 16 * slot
    let w0 := word (level % 8 * 2 ^ 60 + r.kind * 2 ^ 57 + r.va % 2 ^ 57)
    let s := hostWord (hostWord s (pa + 8) leaf) pa w0
    .next (settleWalk s r ⟨r.va, r.kind, level % 8, leaf, false⟩)

/-- HOST_WALK_TIMEOUT: TMO of the n-th pending walk expires; its slot, if it has one, is withdrawn. -/
def execHostWalkTimeout (n : Nat) (s : State) : Result :=
  match s.walks[n]? with
  | none => .next s
  | some r => .next (settleWalk s r ⟨r.va, r.kind, 0, 0, true⟩)

/-! ## Invalidations (R116) -/

/-- TRINV without its reserved bits (R9). -/
def trinvWord (v : Word) : Word := v &&& 0xFFFFFFFFFFFFFF00#64

/-- A write to TRINV that covers its start field. -/
def writeTrinv (s : State) (v : Word) : State :=
  let v := trinvWord v
  let refused := s.regs.trinvRun.isSome || (trinvScope v).isNone
  { s with regs := { s.regs with
      trinv := v
      trinvErr := s.regs.trinvErr || refused
      trinvRun := if refused then s.regs.trinvRun else some v } }

def execTrinvRange (v : Word) (s : State) : Result :=
  if field v 63 61 ≤ 3 then .next (writeTrinv s v) else .next s

def execTrinvAsid (v : Word) (s : State) : Result :=
  if field v 63 61 == 4 then .next (writeTrinv s v) else .next s

def execTrinvAll (v : Word) (s : State) : Result :=
  if field v 63 61 == 5 then .next (writeTrinv s v) else .next s

/-- TRINV_DONE: the entries are dropped and BUSY returns to 0. -/
def execTrinvDone (s : State) : Result :=
  match s.regs.trinvRun with
  | none => .next s
  | some v =>
    let s := match trinvScope v with
      | some (lo, hi, asid) => invalidate s lo hi asid
      | none => s
    .next { s with regs := { s.regs with trinvRun := none } }

/-! ## Host fault service (R395) -/

/-- The four words of a request. -/
def serviceWords (g : Group) (w : Wave) (v : Service) : List Word :=
  [word (2 ^ 63 + v.cause * 2 ^ 56), v.info, v.pc,
    word (g.asid + w.slot * 2 ^ 8 + g.core * 2 ^ 16 + g.die * 2 ^ 24 + g.launch * 2 ^ 32)]

/-- Slots that pending requests hold. -/
def serviceSlots (s : State) : List Nat :=
  s.groups.flatMap fun g => g.waves.filterMap fun w => w.service.bind Service.slot

/-- FAULT_SERVICE_REQUEST: the request of a wave takes a free slot and the host is signalled. -/
def execFaultServiceRequest (gid wave : Nat) (s : State) : Result :=
  match findGroup s gid, findWave s gid wave with
  | some g, some w =>
    match w.service, freeSlot (serviceSlots s) with
    | some v, some n =>
      if v.slot.isSome then .next s
      else
        let s := hostPut s (s.regs.fsRing + 32 * n) ((serviceWords g w v).flatMap wordBytes)
        .next (signal (modWave s gid wave fun w => { w with service := some { v with slot := some n } }) 2)
    | _, _ => .next s
  | _, _ => .next s

/-- The cause is entered as R391 enters it with FSHOST = 0. -/
def deliverService (s : State) (gid wave : Nat) (v : Service) : State :=
  let s := modWave s gid wave fun w => { w with service := none }
  match issuerAt s ⟨gid, wave, (slicesOf v.slices).headD 0⟩ with
  | none => s
  | some c => sweep (enterTrap s c ⟨v.cause, 0, v.lanes, v.info⟩ v.pc) gid

/-- The wave whose request holds a slot. -/
def serviceAt (s : State) (slot : Nat) : Option (Nat × Nat × Service) :=
  s.groups.findSome? fun g => g.waves.zipIdx.findSome? fun (w, i) =>
    match w.service with
    | some v => if v.slot == some slot then some (g.gid, i, v) else none
    | none => none

/-- FAULT_SERVICE_ANSWER: 1 retry, 2 deliver, 3 halt; anything else is no answer. -/
def execFaultServiceAnswer (slot resp : Nat) (s : State) : Result :=
  match serviceAt s slot with
  | none => .next s
  | some (gid, w, v) =>
    if resp == 0 || 4 ≤ resp then .next s
    else
      let s := hostWord s (s.regs.fsRing + 32 * slot) (word (resp * 2 ^ 61 + v.cause * 2 ^ 56))
      if resp == 1 then .next (modWave s gid w Wave.resume)
      else if resp == 2 then .next (deliverService s gid w v)
      else .next (haltAndSweep s gid w v.cause 1)

/-- FAULT_SERVICE_TIMEOUT: as for Deliver, and the slot is withdrawn. -/
def execFaultServiceTimeout (gid wave : Nat) (s : State) : Result :=
  match (findWave s gid wave).bind Wave.service with
  | none => .next s
  | some v => .next (deliverService (dropService s gid wave) gid wave v)

/-! ## A fetch without an instruction (R54, R62) -/

/-- RESERVED_OPCODE: a first word with LEN = 0b11 (check 1) or an opcode that is not assigned (check 2). -/
def execReservedOpcode (w : BitVec 32) (s : State) : Result :=
  issued s fun c =>
    if w.toNat % 4 == 3 then illegalTrap s c 1
    else if !opcAssigned (w.toNat / 4 % 256) then illegalTrap s c 2
    else s

/-- The fetch of a word of the next instruction fails: a translation cause with its level and address, or
Uncorrectable Data, with its source in place of the level (R388). -/
def fetchTrap (s : State) (c : Issuer) (cause level va : Nat) : State :=
  let info := if cause == 18 then level * 2 ^ 60 else transInfo level .fetch va
  takeTrap s c ⟨cause, 0, maskOf c.all, word info⟩ c.pc

def execFetchFault (kind level : Nat) (va : Word) (s : State) : Result :=
  issued s fun c =>
    if (7 ≤ kind && kind ≤ 9) || kind == 18 then fetchTrap s c kind level va.toNat else s

end Sys2Proof.Machine
end

