-- ==== Sys2Proof/Machine/Fabric.lean ====
section
/-!
DEFINITION. The fabric (R315-R324): ports and lanes, FABCFG, route versions and their advance, forwarding,
and the flows that deliver each request and response once.
-/

namespace Sys2Proof.Machine

/-! ## Ports and lanes (R316) -/

def setPort (s : State) (k : Nat) (f : Port → Port) : State := { s with ports := modifyAt f k s.ports }

/-- A die-to-die link before any of its lanes has changed: it is up, its last lane in the shadow role. PRESUMED (log entry
63): it has a port's five lanes. -/
def Port.link : Port := { Port.reset with state := 2 }

/-- The lanes that a number names: port k below 18, and link l of die d at 18 + 64 d + l (R316; log entry 63). -/
def portLanes (s : State) (n : Nat) : Port :=
  if n < 18 then portOf s n
  else
    let p := s.d2d.get Port.link (n - 18)
    if s.frozen then { p with state := 0 } else p

def setLanes (s : State) (n : Nat) (p : Port) : State :=
  if n < 18 then setPort s n fun _ => p else { s with d2d := s.d2d.set Port.link (n - 18) p }

/-- A lane of a port is marked weak. -/
def Port.isWeak (p : Port) (lane : Nat) : Bool := p.weak.getLsbD lane

/-- A data lane gives its place to the shadow lane and becomes the shadow. -/
def Port.swap (p : Port) (lane : Nat) : Port :=
  { p with shadow := lane, serving := p.serving.filter (· != lane) ++ [p.shadow] }

/-- Mark a lane weak. -/
def Port.mark (p : Port) (lane : Nat) : Port := { p with weak := p.weak ||| (1#5 <<< lane) }

/-- SHADOW_ROTATION: the longest-serving data lane of an up port or of a link becomes the shadow; a weak shadow lane
does not return to rotation. -/
def execShadowRotation (port : Nat) (s : State) : Result :=
  let p := portLanes s port
  if p.state != 2 || p.isWeak p.shadow then .next s
  else match p.serving with
    | [] => .next s
    | lane :: _ => .next (setLanes s port (p.swap lane))

/-- LANE_RECALIBRATED: the weak lane in the shadow role passes. -/
def execLaneRecalibrated (port lane : Nat) (s : State) : Result :=
  let p := portLanes s port
  if p.shadow == lane && p.isWeak lane then
    .next (setLanes s port { p with weak := p.weak &&& ~~~(1#5 <<< lane) })
  else .next s

/-- DATA_LINK_RETRY: a flit in error is sent again below the level of this model. -/
def execDataLinkRetry (_port : Nat) (s : State) : Result := .next s

/-- A die-to-die link goes on with its remaining lanes (R316, R401): captured with KIND 4. -/
def degradeLink (s : State) (die link : Nat) : State := capture s 4 0 0 die link 0 0 0

/-- D2D_LINK_DEGRADED: a link needs a second replacement lane, its shadow lane being weak itself. -/
def execD2dLinkDegraded (die link : Nat) (s : State) : Result :=
  let p := portLanes s (18 + 64 * die + link % 64)
  if p.isWeak p.shadow then .next (degradeLink s die link) else .next s

/-! ## FABCFG (R317) -/

/-- The limits that a written value must keep. -/
def fabcfgLegal (mode npkg pkgId : Nat) : Bool :=
  mode != 3 && 1 ≤ npkg && npkg ≤ (if mode == 1 then 64 else 1024) && pkgId < npkg

/-- A port under a new MODE: down in mode 0; training where MODE has become non-zero, or where it is down. -/
def Port.retrain (p : Port) (old new : Nat) : Port :=
  if new == 0 then { p with state := 0 }
  else if old != new || p.state == 0 then { p with state := 1 }
  else p

/-- A write to FABCFG; `high`: it covers MODE. While bring-up step 7 stands skipped, MODE keeps its value. -/
def writeFabcfg (s : State) (v : Word) (high : Bool) : State :=
  let mode := if s.boot.skip7 then s.regs.mode else field v 41 40
  if s.regs.lock || !fabcfgLegal mode (field v 26 16) (field v 9 0) then s
  else
    let old := s.regs.mode
    let s := { s with
      ports := if s.boot.skip7 || !high then s.ports else s.ports.map fun p => Port.retrain p old mode }
    { s with regs := { s.regs with mode := mode, npkg := field v 26 16, pkgId := field v 9 0 } }

def execFabcfgModeNone (v : Word) (s : State) : Result :=
  if field v 41 40 == 0 then .next (writeFabcfg s v true) else .next s

def execFabcfgModeMesh (v : Word) (s : State) : Result :=
  if field v 41 40 == 1 then .next (writeFabcfg s v true) else .next s

def execFabcfgModeSwitched (v : Word) (s : State) : Result :=
  if field v 41 40 == 2 then .next (writeFabcfg s v true) else .next s

/-- PORT_TRAINING_DONE: a training port comes up, with SHADOW at 4, or fails. The link's other end is then
known. -/
def execPortTrainingDone (port : Nat) (up : Bool) (pkg far : Nat) (s : State) : Result :=
  if (portOf s port).state != 1 then .next s
  else if up then .next (setPort s port fun p =>
    { p with state := 2, shadow := 4, serving := [0, 1, 2, 3], pkg := pkg, far := far })
  else .next (setPort s port fun p => { p with state := 0 })

/-! ## Replay (R320) -/

/-- Send the unacknowledged requests of a flow again, with the current version. -/
def replayRequests (s : State) (f : Flow) : State :=
  f.unacked.foldl (fun s (n, _, r) => inject s f.pkg (requestPacket s f.pkg n r)) s

/-- Send the responses that are held for a package again. -/
def replayResponses (s : State) (f : Flow) : State :=
  f.held.foldl (fun s (n, r) => inject s f.pkg (.response s.regs.pkgId f.pkg n (stampVer s) r)) s

/-- Send the messages of collectives that wait for slots of the retry buffers, in order (R319, R320). -/
def sendWaiting : List (Nat × Nat × CollMsg) → State → State
  | [], s => { s with collOut := [] }
  | (pkg, id, m) :: rest, s =>
    if remoteRoom s 1 then sendWaiting rest (sendPod s pkg (.collective id m)).1
    else { s with collOut := (pkg, id, m) :: rest }

/-- Slots may have become free. -/
def drainColl (s : State) : State := if s.collOut.isEmpty then s else sendWaiting s.collOut s

/-- Every flow, after its router has advanced or its ports have changed. -/
def replayAll (s : State) : State := s.flows.foldl (fun s f => replayResponses (replayRequests s f) f) s

/-- RETRY_TIMER_EXPIRY: the timer of the request flow to a package, or of the response flow. -/
def execRetryTimerExpiry (pkg : Nat) (resp : Bool) (s : State) : Result :=
  .next (if resp then replayResponses s (flowOf s pkg) else replayRequests s (flowOf s pkg))

/-! ## Route versions (R321, R322) -/

/-- The identity of a link: the package and port at its lower-numbered end. -/
def linkOf (s : State) (k : Nat) : Nat × Nat :=
  let p := portOf s k
  if p.pkg < s.regs.pkgId || (p.pkg == s.regs.pkgId && p.far < k) then (p.pkg, p.far) else (s.regs.pkgId, k)

/-- The backup table for a link, where every entry is a port or 0xFF. -/
def backupTable (s : State) (link : Nat × Nat) : Option (Sparse Byte) :=
  let at_ (i : Nat) : Byte := s.regs.rtBackup.get 0xFE (64 * (18 * link.1 + link.2) + i)
  if (List.range 64).all fun i => (at_ i).toNat < 18 || at_ i == 0xFF then
    some ((List.range 64).foldl (fun m i => m.set 0xFF i (at_ i)) [])
  else none

/-- Install a table and advance the version: a notice leaves by every up port, everything unacknowledged is
replayed, and the advance is signalled. -/
def advanceRoute (s : State) (table : Sparse Byte) (link : Option (Nat × Nat)) : State :=
  let ver := (s.regs.ver + 1) % 16
  let s := { s with regs := { s.regs with ver := ver, rtCur := table } }
  let s := (upPorts s).foldl (fun s k => toWire s k (.notice k ver link)) s
  signal (replayAll s) 3

/-- Advance by hardware over a dead link, or wait for the host where its backup table is invalid. -/
def advanceOver (s : State) (link : Nat × Nat) : State :=
  match backupTable s link with
  | some t => advanceRoute s t (some link)
  | none => signal s 3

/-- A port is dead: the host is signalled; a mesh router in hardware mode advances; in switched mode the flows
move to the other ports and are replayed (R324). -/
def killPort (s : State) (k : Nat) : State :=
  let link := linkOf s k
  let s := signal (setPort s k fun p => { p with state := 3 }) 3
  if s.regs.mode == 2 then replayAll s
  else if s.regs.mode == 1 && !s.regs.assist then advanceOver s link
  else s

/-- PORT_DEAD: an up port needs a replacement lane while its shadow lane is weak. -/
def execPortDead (port : Nat) (s : State) : Result :=
  let p := portOf s port
  if p.state == 2 && p.isWeak p.shadow then .next (killPort s port) else .next s

/-- WEAK_LANE: a lane falls below its limit. The shadow replaces a data lane; without a good shadow a port is dead, and
a link goes on without the lane. The lane in the shadow role is only marked. -/
def execWeakLane (port lane : Nat) (s : State) : Result :=
  let p := portLanes s port
  if p.state != 2 || 5 ≤ lane then .next s
  else if lane == p.shadow then .next (setLanes s port (p.mark lane))
  else if !p.isWeak p.shadow then
    .next (setLanes s port { (p.swap lane).mark lane with swaps := min 0xFFFF (p.swaps + 1) })
  else if port < 18 then .next (killPort s port)
  else
    let lost : Port := { p.mark lane with serving := p.serving.filter (· != lane) }
    .next (degradeLink (setLanes s port lost) ((port - 18) / 64) ((port - 18) % 64))

/-- ADVANCE_NOTICE: a notice for the next version installs the backup table of its link, or the staged table;
any other notice is dropped. -/
def execAdvanceNotice (ver : Nat) (link : Option (Nat × Nat)) (s : State) : Result :=
  if s.regs.mode != 1 || ver != (s.regs.ver + 1) % 16 then .next s
  else match link with
    | none => .next (advanceRoute s s.regs.rtStage none)
    | some l => .next (if s.regs.assist then advanceRoute s s.regs.rtStage (some l) else advanceOver s l)

/-- RTADV: a host-assisted advance; an advance is one step, so no write meets one in progress. -/
def execRtadv (v : Word) (s : State) : Result :=
  if v.getLsbD 0 && s.regs.mode == 1 then .next (advanceRoute s s.regs.rtStage none) else .next s

/-! ## Forwarding (R321) -/

/-- Destination and version of a packet. -/
def packetDst : Packet → Option (Nat × Nat)
  | .request _ d _ v _ => some (d, v)
  | .response _ d _ v _ => some (d, v)
  | .ack _ d _ v => some (d, v)
  | .collective _ d _ v _ _ => some (d, v)
  | .notice _ _ _ => none

/-- A is not after b, modulo 2^24 (R320). -/
def seqLe (a b : Nat) : Bool := (b + 2 ^ 24 - a % 2 ^ 24) % 2 ^ 24 < 2 ^ 23

/-- The responses up to a number are acknowledged. -/
def ackResponses (s : State) (src seq : Nat) : State :=
  let f := flowOf s src
  setFlow s { f with held := f.held.filter fun h => !seqLe h.1 seq }

/-- The version of a packet is the router's (R321); outside mesh mode none is discarded for it (R324). -/
def verOk (s : State) (v : Nat) : Bool := s.regs.mode != 1 || v == s.regs.ver

/-- PACKET_FORWARD: a mesh router forwards a packet of its version by its table and discards any other. An
acknowledgement for this package is taken here. -/
def execPacketForward (p : Packet) (s : State) : Result :=
  match packetDst p with
  | none => .next s
  | some (d, v) =>
    if s.regs.mode == 0 || !verOk s v then .next s
    else if d == s.regs.pkgId then
      match p with
      | .ack src _ seq _ => .next (drainColl (ackResponses s src seq))
      | _ => .next s
    else if s.regs.mode == 1 then .next (inject s d p)
    else .next s

/-! ## The home of a request (R307, R309, R319, R320) -/

/-- The bytes that a masked line write writes. -/
def maskedWrite (addr : Nat) (bs : List (Option Byte)) : List (Nat × Byte) :=
  bs.zipIdx.filterMap fun (b, i) => b.map fun b => (addr + i, b)

/-- A masked write of a line, which poisons it where an engine's poisoned source was written; `whole`: it is the last part
of a full-line write, which clears the poison (R97). -/
def lineWrite (s : State) (a : Nat) (bs : List (Option Byte)) (poison whole : Bool) : State :=
  let s := plainWrite s false (maskedWrite a (bs.take 128))
  let line := a / 128 * 128
  let s := if whole && (lineAt s line).poison && !inCode s (resolvePa s line) then setLine s line Line.plain else s
  if poison then poisonLines s [a] else s

/-- The bytes of a block with their places: from `a` on to the end of its line, and from `tail` on behind it. -/
def blockBytesAt (a tail : Nat) (bs : List Byte) : List (Nat × Byte) :=
  let n := 128 - a % 128
  atRun a (bs.take n) ++ atRun tail (bs.drop n)

/-- A native write of a block; `whole`: its command fills the line whole, and this is its first block there (R92). -/
def blockWrite (s : State) (a fmt b : Nat) (scale : Byte) (bs : List Byte) (tail : Nat) (whole : Bool) : State :=
  nativeWrite (if whole then formatLine s fmt b a else s) fmt b scale.toNat (blockBytesAt a tail bs) (prevLine a)

/-- A line as an answer carries it: its bytes, its metadata with the CRC, and its poison (R319). -/
def lineAnswer (s : State) (a : Nat) : List Byte × BitVec 128 × Bool :=
  let bs := readRun s a 128
  let l := lineAt s a
  (bs, mdWithCrc bs l, l.poison)

/-- Perform one request on local HBM. The message of a collective has no effect on memory. -/
def performRequest (s : State) (r : PodReq) : State × PodResp :=
  let wrote (s : State) (pas : List Nat) : State := recallAll s pas
  match r with
  | .lineRead a =>
    let x := lineAnswer s (a % 2 ^ 40 / 128 * 128)
    (fillL2 s [a % 2 ^ 40], .line x.1 x.2.1 x.2.2)
  | .pairRead a b =>
    let x := lineAnswer s (a % 2 ^ 40 / 128 * 128)
    let y := lineAnswer s (b % 2 ^ 40 / 128 * 128)
    (fillL2 s [a % 2 ^ 40, b % 2 ^ 40], .pair x.1 x.2.1 x.2.2 y.1 y.2.1 y.2.2)
  | .write a bs p whole =>
    let a := a % 2 ^ 40
    (wrote (lineWrite s a bs p whole) (a :: (maskedWrite a (bs.take 128)).map Prod.fst), .written)
  | .nativeWrite a fmt b scale bs tail whole =>
    let a := a % 2 ^ 40
    let tail := tail % 2 ^ 40
    (wrote (blockWrite s a fmt b scale bs tail whole) ((blockBytesAt a tail bs).map Prod.fst), .written)
  | .nativeTail a fmt place bs =>
    let ws := atRun (a % 2 ^ 40) bs
    (wrote (nativeTail s fmt place ws) (ws.map Prod.fst), .written)
  | .collective _ _ => (s, .written)
  | .atomic a op t v cmp =>
    let a := a % 2 ^ 40
    let n := t.width / 8
    if poisonedRun s a n then (s, .old 0 true)
    else
      let old := readRun s a n
      let (x, _) := atomNew t op (natOfBytes old) v.toNat cmp.toNat
      (wrote (writeNow s a (bytesOfNat n x)) [a], .old (wordOfBytes old) false)

/-- A request arrives: the next of its flow is performed and answered, if the buffers have room for its response; an
earlier one is answered again from what is held; a later one, or one of another version, is discarded (R319-R321). -/
def requestArrives (s : State) (src seq ver : Nat) (perform : State → State × PodResp) : State :=
  let f := flowOf s src
  if s.regs.mode == 0 || !verOk s ver || src == s.regs.pkgId then s
  else if seq == f.expect then
    if !remoteRoom s 1 then s
    else
      let s := setFlow s { f with expect := seqNext seq }
      let (s, a) := perform s
      let f := flowOf s src
      inject (setFlow s { f with held := f.held ++ [(seq, a)] }) src (.response s.regs.pkgId src seq (stampVer s) a)
  else if seqLe seq f.expect then
    match f.held.find? fun h => h.1 == seq with
    | some (_, a) => inject s src (.response s.regs.pkgId src seq (stampVer s) a)
    | none => s
  else s

/-- POD_REQUEST_ARRIVAL. The messages of collectives arrive by their own rows. -/
def execPodRequestArrival (src seq ver : Nat) (r : PodReq) (s : State) : Result :=
  match r with
  | .collective _ _ => .next s
  | r => .next (requestArrives s src seq ver fun s => performRequest s r)

/-! ## The source of a request (R318-R320, R323) -/

/-- The physical address of another package's HBM (R80). -/
def podPa (pkg off : Nat) : Nat := 2 ^ 50 + pkg % 1024 * 2 ^ 40 + off % 2 ^ 40

/-- An arriving line: its CRC is checked (R93), and the package's image of the pod keeps it. What it brings, and whether it
is poisoned. -/
def lineArrives (s : State) (pkg a : Nat) (bs : List Byte) (md : BitVec 128) (poison : Bool) : State × FarData × Bool :=
  let pa := podPa pkg a
  let body : BitVec 112 := md.setWidth 112
  let bad := poison || md.toNat / 2 ^ 112 != crcOf bs body
  (setLine (storeBytes s (atRun pa bs)) pa ⟨body, bad⟩, ⟨pa, bs, ⟨body, bad⟩⟩, bad)

/-- The package's image of another follows what was written there. -/
def imageWrite (s : State) (pkg : Nat) : PodReq → State
  | .write a bs p whole => lineWrite s (podPa pkg a) bs p whole
  | .nativeWrite a fmt b scale bs tail whole => blockWrite s (podPa pkg a) fmt b scale bs (podPa pkg tail) whole
  | .nativeTail a fmt place bs => nativeTail s fmt place (atRun (podPa pkg a) bs)
  | _ => s

/-- A response reaches the request it answers. -/
def deliver (s : State) (pkg req : Nat) (q : PodReq) (r : PodResp) : State :=
  match q, r with
  | .lineRead a, .line bs md p =>
    let (s, d, bad) := lineArrives s pkg a bs md p
    if bad then answerBad s req 0 [d] else answerRead s req bs 0 [d]
  | .pairRead a b, .pair bs md p bs2 md2 p2 =>
    let (s, d, bad) := lineArrives s pkg a bs md p
    let (s, d2, bad2) := lineArrives s pkg b bs2 md2 p2
    if bad || bad2 then answerBad s req 0 [d, d2] else answerRead s req bs 0 [d, d2]
  | .collective _ _, .written => s
  | .atomic a op t v cmp, .old x p =>
    if p then answerBad s req 0 []
    else
      let (new, fl) := atomNew t op (x.toNat % 2 ^ t.width) v.toNat cmp.toNat
      let s := storeBytes s (atRun (podPa pkg a) (bytesOfNat (t.width / 8) new))
      answerWrite (answerRead s req (wordBytes x) fl []) req fl
  | .write _ _ _ _, .written | .nativeWrite _ _ _ _ _ _ _, .written | .nativeTail _ _ _ _, .written =>
    answerWrite (imageWrite s pkg q) req 0
  | _, _ => answerBad s req 4 []

/-- POD_RESPONSE_ARRIVAL: the next response of its flow is delivered and acknowledged; any other is
dropped. A request that FABTMO has ended has had its answer: of its response only the image of the pod takes a write. -/
def execPodResponseArrival (src seq ver : Nat) (r : PodResp) (s : State) : Result :=
  let f := flowOf s src
  if s.regs.mode == 0 || !verOk s ver || src == s.regs.pkgId || seq != f.rexpect then .next s
  else
    let mine := f.unacked.find? fun u => u.1 == seq
    let s := setFlow s { f with rexpect := seqNext seq, unacked := f.unacked.filter fun u => u.1 != seq }
    let s := match mine with
      | some (_, req, q) => if req == 0 then imageWrite s src q else deliver s src req q r
      | none => s
    .next (drainColl (inject s src (.ack s.regs.pkgId src seq (stampVer s))))

end Sys2Proof.Machine
end

