-- ==== Sys2Proof/Machine/Tray.lean ====
section
/-!
DEFINITION. Trays (R178-R188): the append of TRAYPUT, the command of TRAYPUT.drain, and the drain itself.
-/

namespace Sys2Proof.Machine

/-! ## Tray sets (R178, R179) -/

/-- A tray-set descriptor. -/
structure TraySet where
  t      : Nat
  logReg : Nat
  logCap : Nat
  nreg   : Nat
  base   : Nat
  hdr    : Nat
  recs   : Nat
  res    : Bool
  deriving DecidableEq, Repr

/-- The descriptor that 64 bytes hold. -/
def TraySet.ofBytes (bs : List Byte) : TraySet :=
  let n := natOfBytes bs
  { t := bitsOf n 4 0, logReg := bitsOf n 15 8, logCap := bitsOf n 23 16, nreg := bitsOf n 47 24
    base := bitsOf n 127 64, hdr := bitsOf n 191 128, recs := bitsOf n 255 192
    res := bitsOf n 7 5 != 0 || bitsOf n 63 48 != 0 || bitsOf n 511 256 != 0 }

/-- An invalid descriptor (R178). -/
def TraySet.invalid (d : TraySet) : Bool :=
  let typed := (5 ≤ d.t && d.t ≤ 8) || d.t == 11 || d.t == 12
  let ranged := 12 ≤ d.logReg && d.logReg ≤ 16 && 4 ≤ d.logCap && d.logCap ≤ 16 && 1 ≤ d.nreg &&
    d.nreg ≤ 2 ^ 20
  d.res || !typed || !ranged || d.recs % 16 != 0 || d.hdr % 32 != 0 || d.base % 2 ^ d.logReg != 0

def TraySet.cap (d : TraySet) : Nat := 2 ^ d.logCap
def TraySet.size (d : TraySet) : Nat := 2 ^ d.logReg
/-- VA of a region, of its header, and of record i of its tray (R178). -/
def TraySet.region (d : TraySet) (g : Nat) : Nat := (d.base + g * d.size) % 2 ^ 64
def TraySet.header (d : TraySet) (g : Nat) : Nat := (d.hdr + 32 * g) % 2 ^ 64
def TraySet.record (d : TraySet) (g i : Nat) : Nat := (d.recs + 16 * (g * d.cap + i % d.cap)) % 2 ^ 64

/-- A region header (R179). -/
structure TrayHeader where
  head    : Nat
  applied : Nat
  drains  : Nat
  res     : Bool
  deriving DecidableEq, Repr

/-- The header that 32 bytes hold. -/
def TrayHeader.ofBytes (bs : List Byte) : TrayHeader :=
  let n := natOfBytes bs
  ⟨bitsOf n 63 0, bitsOf n 127 64, bitsOf n 191 128, bitsOf n 255 192 != 0⟩

/-- Records appended and not applied, modulo 2^64. -/
def TrayHeader.held (h : TrayHeader) : Nat := (h.head + 2 ^ 64 - h.applied) % 2 ^ 64
def TrayHeader.invalid (h : TrayHeader) (cap : Nat) : Bool := h.res || cap < h.held

/-- The sixteen bytes of a record (R179). -/
def recordBytes (off : Nat) (op : AtomOp) (v w : Nat) : List Byte :=
  bytesOfNat 16 (off + op.code * 2 ^ 32 + v % 2 ^ w * 2 ^ 64)

/-! ## The append (R181) -/

/-- What the lanes of an append have produced so far; `a` is the state with the A bits that their translations have set, and
nothing else (R107). -/
structure TrayAcc where
  s    : State
  a    : State
  res  : List (Nat × Word × Bool)
  bad  : List Nat
  pend : List Nat
  ws   : List (Nat × Byte)     -- what the records have written
  deriving DecidableEq, Repr

/-- A VA that a lane may read and modify in local HBM. DESIGN CHOICE (log entry 62): a walk that a poisoned table entry stops
is a translation that fails (R181), not Uncorrectable Data (R98). -/
def trayAccess (s : State) (c : Issuer) (va : Nat) : State × Except Bool Trans :=
  match translateCore s c.g.die c.g.phys c.g.asid va .rmw c.answers with
  | (s, .ok t) =>
    match regionOf (resolvePa s t.pa) with
    | .hbm _ => (s, .ok t)
    | _ => (s, .error false)
  | (s, .pending) => (s, .error true)
  | (s, _) => (s, .error false)

/-- A record written to a line that nothing has written before defines it as a plain line: the record area needs no
initialisation (R179, which names the record area, over R90 and R97; DEDUCED, log entry 71). The code region stays as it
is (R406). -/
def defineRecord (s : State) (pa : Nat) : State :=
  if lineAt s pa == Line.unwritten && !inCode s (resolvePa s pa) then setLine s pa Line.plain else s

/-- One lane's append, as one event. DESIGN CHOICE (log entry 62): a translation that a poisoned table entry stops gives what
any failing one gives (`trayAccess`). -/
def trayLane (c : Issuer) (d : TraySet) (t : Ty) (op : AtomOp) (x : TrayAcc) (lane addr : Nat) (v : Word) :
    TrayAcc :=
  let give (s : State) (n : Nat) (b : Bool) : TrayAcc := { x with s := s, res := x.res ++ [(lane, word n, b)] }
  let w := t.width / 8
  if d.invalid || t.code != d.t then give x.s 1 false
  else if addr < d.base || d.nreg * d.size ≤ addr - d.base || addr % w != 0 then give x.s 3 false
  else
    let g := (addr - d.base) / d.size
    let x := { x with a := (trayAccess x.a c (d.header g)).1 }
    match trayAccess x.s c (d.header g) with
    | (s, .error true) => { x with s := s, pend := x.pend ++ [d.header g] }
    | (s, .error false) => give s 2 false
    | (s, .ok ht) =>
      let h := TrayHeader.ofBytes (readRun s ht.pa 32)
      let x := { x with a := (trayAccess x.a c (d.record g h.head)).1 }
      match trayAccess s c (d.record g h.head) with
      | (s, .error true) => { x with s := s, pend := x.pend ++ [d.record g h.head] }
      | (s, .error false) => give s 2 false
      | (s, .ok rt) =>
        if poisonedRun s ht.pa 32 then { x with s := s, bad := x.bad ++ [lane] }
        else if h.invalid d.cap then give s 1 false
        else if h.held == d.cap then give s 0 false
        else
          let s := touch s c true [⟨d.header g, 32, ht⟩, ⟨d.record g h.head, 16, rt⟩]
          let head := (h.head + 1) % 2 ^ 64
          let row := atRun rt.pa (recordBytes ((addr - d.base) % d.size) op v.toNat t.width)
          let s := plainWrite (defineRecord s rt.pa) false (row ++ atRun ht.pa (bytesOfNat 8 head))
          { give s (h.held + 1) true with ws := x.ws ++ row }

def execTrayputAppend (g : Guard) (d a : VReg) (b : SSrc) (cc : VReg) (t : Ty) (op : AtomOp) (p : PReg)
    (s : State) : Result :=
  issued s fun c =>
    let ls := c.lanes g
    let pre := guardConds c g ++
      useConds c ls ([.vw 0 d.val, .vr 1 a.val, .vr 3 cc.val, .pw p.val] ++ useS b)
    let va := (c.w.srcS b).toNat
    directOp s c .wave pre .g [⟨c.all.headD 0, va, 64⟩]
      (fun x => x.oks.flatMap fun (k, ps) => directConds x.s c true k.lane ps) fun x =>
        let set := TraySet.ofBytes (readPieces x.s c.w.far (x.oks.flatMap Prod.snd))
        -- a descriptor that is not aligned to 64 bytes is taken as invalid (log entry 24)
        let set := { set with res := set.res || va % 64 != 0 }
        let r := ls.foldl (fun r l =>
          trayLane c set t op r l (c.w.readV a.val l).toNat (c.w.readV cc.val l)) ⟨x.s, x.s, [], [], [], []⟩
        if !r.pend.isEmpty then awaitWalks r.a c .rmw r.pend
        else check r.a c c.all [⟨18, 0, r.bad⟩]
          (retireNow (settleWrites (touch r.s c false (x.oks.flatMap Prod.snd)) r.ws) c (slen b) fun w =>
            r.res.foldl (fun w (l, v, ok) => (w.writeV d.val l v).writeP p.val [l] fun _ => ok) w)

/-! ## The drain command (R182, R183) -/

/-- FIRST and COUNT of a drain. -/
def Cmd.first (k : Cmd) : Nat := field (k.w 2) 31 0
def Cmd.count (k : Cmd) : Nat := field (k.w 2) 63 32

/-- A drain command that is malformed (R183). DESIGN CHOICE (log entry 62): so is one whose staging offset is no multiple of
4,096, for which the rule names no consequence. -/
def drainMalformed (k : Cmd) : Bool :=
  field (k.w 0) 47 14 != 0 || field (k.w 0) 11 8 != 0 || k.count == 0 || field (k.w 3) 11 0 != 0 ||
    [4, 5, 6, 7].any fun i => k.w i != 0

/-- The staging area (R183). -/
def stagingSpan (k : Cmd) (d : TraySet) : Span := ⟨true, (k.w 3).toNat, d.size⟩

/-- The address of a drain's descriptor; one that is not aligned to 64 bytes is taken as invalid (log entry 24). -/
def Cmd.trayVa (k : Cmd) : Nat := (k.w 1).toNat / 64 * 64

/-- An invalid descriptor of a drain, or regions beyond its set (R183). -/
def drainInvalid (k : Cmd) (d : TraySet) : Bool :=
  (k.w 1).toNat % 64 != 0 || d.invalid || d.nreg < k.first + k.count

/-- The tiles that a drain names (R183); one that ends before it can name them names none (R170). -/
def drainTiles (r : Runner) (k : Cmd) (bs : List Byte) (s : State) : List (Nat × Nat × Nat) :=
  let d := TraySet.ofBytes bs
  if drainMalformed k || drainInvalid k d then [] else r.tiles s .write [stagingSpan k d]

/-- The descriptor of a drain as the tray engine reads it. DESIGN CHOICE (log entry 62): where it lies on a scratchpad tile
whose bit is 0, which no engine reads (R123), the drain ends with ERR 0x06. -/
def readTraySet (s : State) (r : Runner) (va : Nat) : State × DescRead :=
  match readDesc s r va 64 with
  | (s, .ok bs) => match (r.peek s va .read).bind fun t => tileRefused s t.pa with
    | some st => (s, .bad st)
    | none => (s, .ok bs)
  | x => x

/-- The tiles of an accepted drain for the tracker (R151, R182), or what reading its descriptor waits for. -/
def acceptDrain (s : State) (c : Issuer) (die : Nat) (k : Cmd) : State × (Cmd ⊕ Needs) :=
  let r := pushRunner c die trayUnit
  match readTraySet s r k.trayVa with
  | (s, .needs n) => (s, .inr n)
  | (s, .bad _) => (s, .inl k)
  | (s, .ok bs) => (s, .inl { k with tiles := drainTiles r k bs s })

def execTrayputDrain (d : SReg) (p : PReg) (a : Fin 57) (b : SSrc) (s : State) : Result :=
  issued s fun c =>
    let q := (c.w.srcS b).toNat
    let die := q / 4 % 8
    let code := sendCode s c q 32 die trayUnit (q % 4)
    let k := newCmd s c (cmdWords c.w a)
    check s c c.all (useConds c c.all (sendUses d p a b))
      (if code != 0 then retire s c (slen b) (c.w.sent d p code)
       else if waitsForC c k then holdAt s c (.room 255 255 254 255)
       else if !accessesDone s c.ref.gid c.ref.wave c.w then holdAt s c .give   -- R175, R182
       else match acceptDrain s c die k with
        | (s, .inr n) => awaitNeeds s c die n
        | (s, .inl k) => enqueueCmd (dropAnswers s c) c d p (slen b) die trayUnit (q % 4) k)

/-! ## The drain (R184-R187) -/

/-- Apply one record to the staging bytes (R184). -/
def applyRecord (d : TraySet) (x : List Byte × Nat × Flags) (bs : List Byte) : List Byte × Nat × Flags :=
  let (st, bad, fl) := x
  let n := natOfBytes bs
  let t := tyOf d.t
  let w := t.width / 8
  let op := bitsOf n 35 32
  let off := bitsOf n 31 0
  if 6 < op || !atomOk (atomOpOf op) t || bitsOf n 63 36 != 0 || d.size ≤ off || off % w != 0 then
    (st, bad + 1, fl)
  else
    let old := natOfBytes ((st.drop off).take w)
    let (v, f) := atomNew t (atomOpOf op) old (bitsOf n 127 64 % 2 ^ t.width) 0
    (patch st off (bytesOfNat w v), bad, fl ||| f)

/-- What one step of a drain ends in: it stands at a place, waits for walks, or completes with a status. -/
inductive DrainRes where
  | at_ (x : DrainPos)
  | walks (ks : List (AKind × Nat))
  | ends (st : Status)
  deriving DecidableEq, Repr

/-- The status of a drain that stands at a place (R187). DESIGN CHOICE (log entry 62): NEXT is the region that it has not
finished, so that of a drain which ends inside a region is that region. -/
def DrainPos.status (x : DrainPos) (err : Nat) (poison : Bool) : Status :=
  ⟨err, x.next * 2 ^ 32 + min x.skipped 255 * 2 ^ 24 + min x.badrec (2 ^ 24 - 1), x.poison || poison, false, false,
    x.flags⟩

/-- A translation has failed at a region (R185): its own STAT1 for ERR 0x03-0x05, else that of R187. -/
def DrainPos.failed (x : DrainPos) (e : Status) : Status :=
  if 3 ≤ e.err && e.err ≤ 5 then { e with poison := x.poison || e.poison, flags := x.flags } else x.status e.err e.poison

/-- What the records of the region in hand have added to the status (R184). -/
def DrainPos.fold (x : DrainPos) (h : DrainHeld) : DrainPos :=
  { x with badrec := x.badrec + h.badrec, flags := x.flags ||| h.flags }

/-- The region is passed over or done: the next is the following one. -/
def DrainPos.pass (x : DrainPos) : DrainPos := { x with next := x.next + 1, held := none }

/-- The header of a region with its translation, or why the drain does not get there. -/
def drainHeader (r : Runner) (s : State) (d : TraySet) (g : Nat) : State × Except Status (PageTable × Span) :=
  let hs : Span := ⟨false, d.header g, 32⟩
  match r.translatePages s .rmw .hbm [hs] with
  | (s, .ok t) => (s, .ok (t, hs))
  | (s, .error e) => (s, .error e)

/-- A drain reads its next region (R184): the snapshot of the header, then the region and the records, in the staging
area. -/
def drainRead (r : Runner) (s : State) (k : Cmd) (d : TraySet) (x : DrainPos) : State × DrainRes :=
  let g := x.next
  let asks (kind : AKind) (sps : List Span) : List (AKind × Nat) := (r.pending s kind sps).map fun va => (kind, va)
  match asks .rmw [⟨false, d.header g, 32⟩] with
  | w :: ws => (s, .walks (w :: ws))
  | [] =>
  match drainHeader r s d g with
  | (s, .error e) => (s, .ends (x.failed e))
  | (s, .ok (ht, hs)) =>
    let (hb, hbad) := r.fetch s ht hs
    let h := TrayHeader.ofBytes hb
    if hbad then (s, .at_ { x.pass with poison := true })
    else if h.invalid d.cap then (s, .at_ { x.pass with skipped := x.skipped + 1 })
    else if h.held == 0 then (s, .at_ x.pass)
    else
      let reg : Span := ⟨false, d.region g, d.size⟩
      let recs := (List.range h.held).map fun i => (⟨false, d.record g (h.applied + i), 16⟩ : Span)
      match asks .rmw [reg] ++ asks .read recs with
      | w :: ws => (s, .walks (w :: ws))
      | [] =>
      match r.translatePages s .rmw .hbm [reg] with
      | (s, .error e) => (s, .ends (x.failed e))
      | (s, .ok rt) =>
        match r.translatePages s .read .hbm recs with
        | (s, .error e) => (s, .ends (x.failed e))
        | (s, .ok ct) =>
          let (data, bad) := r.fetch s rt reg
          let rows := recs.map (r.fetch s ct)
          -- the records before the first poisoned one have been applied: what they add to the status stays
          let (out, nbad, fl) := (rows.takeWhile fun row => !row.2).foldl (fun y row => applyRecord d y row.1) (data, 0, 0)
          let held : DrainHeld := ⟨h.head, h.applied, out, nbad, fl⟩
          if bad then (s, .at_ { x.pass with poison := true })
          else if rows.any Prod.snd then (s, .at_ { (x.fold held).pass with poison := true })
          else (plainWrite s false ((r.pas [] (stagingSpan k d)).zip out), .at_ { x with held := some held })

/-- A drain commits the region that it has read, as one event, if the header's APPLIED still is what it was (R184-R186). -/
def drainCommit (r : Runner) (s : State) (d : TraySet) (x : DrainPos) (h : DrainHeld) : State × DrainRes :=
  let g := x.next
  let reg : Span := ⟨false, d.region g, d.size⟩
  let x := x.fold h
  match (r.pending s .rmw [⟨false, d.header g, 32⟩, reg]).map fun va => (AKind.rmw, va) with
  | w :: ws => (s, .walks (w :: ws))
  | [] =>
  match drainHeader r s d g with
  | (s, .error e) => (s, .ends (x.failed e))
  | (s, .ok (ht, hs)) =>
    match r.translatePages s .rmw .hbm [reg] with
    | (s, .error e) => (s, .ends (x.failed e))
    | (s, .ok rt) =>
      let (hb, hbad) := r.fetch s ht hs
      let now := TrayHeader.ofBytes hb
      if hbad then (s, .at_ { x.pass with poison := true })
      else if now.applied != h.applied then (s, .at_ { x.pass with skipped := x.skipped + 1 })
      else
        let hdr := bytesOfNat 8 h.head ++ bytesOfNat 8 ((now.drains + 1) % 2 ^ 64)
        let commit := (r.pas rt reg).zip h.out ++ (r.pas ht ⟨false, d.header g + 8, 16⟩).zip hdr
        let s := r.dirty rt [reg] (r.dirty ht [hs] s)
        (plainWrite (recallAll s (commit.map Prod.fst)) false commit, .at_ x.pass)

/-- The place of a drain that has not begun. -/
def DrainPos.first (k : Cmd) : DrainPos := ⟨k.first, 0, 0, 0, false, none⟩

/-- The checks at the start of a drain (R183): the descriptor, then the staging area. -/
def drainStart (r : Runner) (s : State) (k : Cmd) (d : TraySet) : DrainRes :=
  let x := DrainPos.first k
  let stage := stagingSpan k d
  if drainInvalid k d then .ends (x.status 0x02 false)
  else if 4096 * r.g.tiles < stage.addr + stage.n then .ends (x.status 0x08 false)
  else if (r.tiles s .write [stage]).any fun (a, b, c) => ownerFails s a b c then .ends (x.status 0x0B false)
  else if (r.tiles s .write [stage]).any fun (a, b, c) => !ownedByEngine s a b c then .ends (x.status 0x06 false)
  else .at_ x

/-- One step of a drain whose descriptor has been read: its start, the reading of a region, or a commit. At a region's
boundary it completes where it has come to its end or the context saver waits (R184, R187); an uncorrectable error that has
struck it ends it at once (R185). -/
def drainStep (r : Runner) (s : State) (k : Cmd) (d : TraySet) : State × DrainRes :=
  match k.drain with
  | none => (s, drainStart r s k d)
  | some x =>
    if k.hurt then (s, .ends (((x.held.map x.fold).getD x).status 0x0B false))
    else match x.held with
    | some h => drainCommit r s d x h
    | none =>
      if k.first + k.count ≤ x.next || r.g.stop.isSome then (s, .ends (x.status 0 false))
      else drainRead r s k d x

/-- The descriptor of a drain: as its start has read it. -/
def drainDesc (r : Runner) (s : State) (k : Cmd) : State × DescRead :=
  match k.reads with
  | (_, bs, _) :: _ => (s, .ok bs)
  | [] => readTraySet s r k.trayVa

def execTrayDrain (die : Nat) (s : State) : Result :=
  if unitWalks s (64 * die + trayUnit) then .next s
  else match nextCmd s die trayUnit with
  | none => .next s
  | some (prio, k) =>
    if k.op != 0x10 then .next s
    else match findGroup s k.gid with
      | none => .next (setUnitQueue s die trayUnit prio ((unitQueue s die trayUnit prio).filter fun x => x.id != k.id))
      | some g =>
        let r := unitRunner s die trayUnit k.asid g
        let key := 64 * die + trayUnit
        let ends (s : State) (named : List (Nat × Nat × Nat)) (st : Status) : Result :=
          .next (completeCmd s die trayUnit prio k named st)
        let put (s : State) (f : Cmd → Cmd) : State := modCmd s die trayUnit prio k.id f
        let walks (s : State) (ks : List (AKind × Nat)) : Result :=
          .next (ks.foldl (fun s (kind, va) => addWalks s die (.unit key) k.asid kind [va]) s)
        if drainMalformed k then ends s [] ((DrainPos.first k).status 0x01 false)
        else match drainDesc r (put s fun k => { k with started := true }) k with
          | (s, .needs (.walks kind vas)) => walks s (vas.map fun va => (kind, va))
          | (s, .needs (.far ks)) => .next (askUnit s key ks)
          | (s, .bad st) => ends s [] ((DrainPos.first k).failed st)
          | (s, .ok bs) =>
            let named := drainTiles r k bs s
            let s := put s fun k => { k with reads := [(k.trayVa, bs, false)], tiles := named }
            match drainStep r s k (TraySet.ofBytes bs) with
            | (s, .at_ x) => .next (put s fun k => { k with drain := some x })
            | (s, .walks ks) => walks s ks
            | (s, .ends st) => ends s named st

end Sys2Proof.Machine
end

