-- ==== Sys2Proof/Machine/Collective.lean ====
section
/-!
DEFINITION. The collective engine (R325-R330): its intake deques, the command block, joins, the tree of
partial values, and completion; the end of a flow's requests under FABTMO (R323); and the commands whose
operation code no unit defines (R154).
-/

namespace Sys2Proof.Machine

/-- The collective engine's number among the units of a die. -/
def collUnit : Nat := 33

/-- The engine as a runner of accesses; it uses no scratchpad offsets. -/
def collRunner (s : State) (die asid : Nat) : Runner :=
  unitRunner s die collUnit asid (Group.start 0 die 0 0 0 [] ⟨false, false, false⟩ ⟨[], [], 0, 0, [], []⟩)

/-! ## The command block (R326, R327) -/

def cwOp (ws : List Word) : Nat := field (ws.getD 0 0) 7 0
def cwTag (ws : List Word) : Nat := field (ws.getD 0 0) 63 48
def cwRop (ws : List Word) : Nat := field (ws.getD 0 0) 43 40
def cwWire (ws : List Word) : Nat := field (ws.getD 0 0) 36 32
def cwTy (ws : List Word) : Nat := field (ws.getD 0 0) 28 24
def cwRm (ws : List Word) : Nat := field (ws.getD 0 0) 18 16
def cwPolicy (ws : List Word) : Policy := if (ws.getD 0 0).getLsbD 15 then .fit else .floor
def cwCheck (ws : List Word) : Bool := (ws.getD 0 0).getLsbD 14
def cwId (ws : List Word) : Nat := (ws.getD 1 0).toNat
def cwCount (ws : List Word) : Nat := field (ws.getD 3 0) 10 0
def cwElems (ws : List Word) : Nat := field (ws.getD 6 0) 31 0
def cwSize (ws : List Word) : Nat := (tyOf (cwTy ws)).width / 8

/-- The root writes and, but for BROADCAST, every participant reads its source. -/
def cwReads (ws : List Word) (place : Nat) : Bool := cwOp ws != 0x23 || place == 0
def cwWrites (ws : List Word) (place : Nat) : Bool := cwOp ws != 0x22 || place == 0

/-- A block whose words break R326. DESIGN CHOICE (log entry 62): a count of packages that is 0 or above NPKG, a count of
elements that is 0 or, with an MX WIRE, no multiple of 32, and an odd VA of the list, for which R327 names no end, end the
command with ERR 0x01 like its other words. -/
def collBad (npkg : Nat) (ws : List Word) : Bool :=
  let w (i : Nat) : Word := ws.getD i 0
  let mx := mxCode (cwWire ws)
  field (w 0) 47 44 != 0 || field (w 0) 39 37 != 0 || field (w 0) 31 29 != 0 || field (w 0) 23 19 != 0 ||
    field (w 0) 13 8 != 0 || field (w 3) 63 11 != 0 || field (w 6) 63 32 != 0 ||
    ((List.range 7).any fun i => w (9 + i) != 0) ||
    !(cwOp ws == 0x21 || cwOp ws == 0x22 || cwOp ws == 0x23) || 2 < cwRop ws ||
    !(mx || cwWire ws == 10 || cwWire ws == 11) || !(cwTy ws == 10 || cwTy ws == 11) ||
    !(cwRm ws == 0 || cwRm ws == 5) || (cwRm ws == 5 && cwWire ws == 11) || (cwRop ws != 0 && mx) ||
    cwCount ws == 0 || npkg < cwCount ws || cwElems ws == 0 || (mx && cwElems ws % 32 != 0) ||
    (w 2).toNat % 2 != 0

/-- A source or destination in use that is not a multiple of 128. DESIGN CHOICE (log entry 62): R327 names no end for it, and
the command ends with ERR 0x01. -/
def collSkew (ws : List Word) (place : Nat) : Bool :=
  (cwReads ws place && (ws.getD 4 0).toNat % 128 != 0) ||
    (cwWrites ws place && (ws.getD 5 0).toNat % 128 != 0)

/-- A participant list that R327 refuses. -/
def listBad (npkg pkgId : Nat) (l : List Nat) : Bool :=
  (l.any fun p => npkg ≤ p) || (dedup l).length != l.length || !l.contains pkgId

def listSpan (ws : List Word) : Span := ⟨false, (ws.getD 2 0).toNat, 2 * cwCount ws⟩
def srcSpan (ws : List Word) : Span := ⟨false, (ws.getD 4 0).toNat, cwSize ws * cwElems ws⟩
def dstSpan (ws : List Word) : Span := ⟨false, (ws.getD 5 0).toNat, cwSize ws * cwElems ws⟩

/-- The package numbers of a list. -/
def listOf (bs : List Byte) (n : Nat) : List Nat :=
  (List.range n).map fun i => natOfBytes ((bs.drop (2 * i)).take 2)

/-- What the join's digest is taken of (R327), as one number. -/
def collDigest (ws : List Word) (l : List Nat) : Nat :=
  (l ++ [(ws.getD 7 0).toNat, (ws.getD 6 0).toNat, (ws.getD 3 0).toNat,
    (ws.getD 0 0).toNat % 2 ^ 48]).foldl (fun a x => a * 2 ^ 64 + x) 0

/-! ## Values (R328) -/

/-- Wire(x, lv): exact values, each with its poison, in wire format, and the flags. -/
def wireOf (ws : List Word) (lv : Nat) (xs : List (Val × Bool)) : List WireBlock × Flags :=
  let t := tyOf (cwWire ws)
  let mode := cmdMode (cwRm ws)
  let rand (e : Nat) : Nat := if cwRm ws == 5 then srBits (ws.getD 7 0) (word (e + 2 ^ 40 * lv)) else 0
  let out : List (WireBlock × Flags) :=
    if mxCode (cwWire ws) then
      (runs32 xs.length xs).zipIdx.map fun (b, i) =>
        let (sc, codes, f) := quantBlock t (.choose (cwPolicy ws)) mode (fun q => rand (32 * i + q))
          (b.map Prod.fst)
        (⟨sc, codes, b.any Prod.snd⟩, f)
    else xs.zipIdx.map fun (x, e) =>
      let (b, f) := encodeVal t mode false (rand e) x.1
      (⟨0, [b], x.2⟩, f)
  (out.map Prod.fst, out.foldl (fun f o => f ||| o.2) 0)

/-- Decode(WIRE, ·) of a value in wire format. -/
def wireVals (ws : List Word) (bs : List WireBlock) : List (Val × Bool) :=
  let t := tyOf (cwWire ws)
  bs.flatMap fun b => b.codes.map fun c =>
    (if mxCode (cwWire ws) then blockElem t b.scale c else decodeVal t c, b.poison)

/-- Op of two elements: its f32 value, and the flags of its Encode. -/
def collOp (rop : Nat) (x y : Val) : Val × Flags :=
  if rop == 0 then
    let (b, f) := encodeExact .f32 .rne false (addVals false x y)
    (decodeVal .f32 b, f)
  else
    let bits (v : Val) : Nat := (encodeVal .f32 .rne false 0 v).1
    (decodeVal .f32 (minMaxVal .f32 (rop == 2) (bits x) (bits y)).1, 0)

/-- One level of the tree at a participant. -/
def combine (ws : List Word) (lv : Nat) (a b : List WireBlock) : List WireBlock × Flags :=
  let rs := ((wireVals ws a).zip (wireVals ws b)).map fun (x, y) =>
    let (v, f) := collOp (cwRop ws) x.1 y.1
    ((v, x.2 || y.2), f)
  let (out, f) := wireOf ws lv (rs.map Prod.fst)
  (out, rs.foldl (fun f r => f ||| r.2) f)

/-! ## Completion (R329, R330) -/

/-- The resident group that holds a scratchpad tile. -/
def tileGroup (s : State) (t : Nat × Nat × Nat) : Option Group := s.groups.find? fun g => groupTile g t 0

/-- Completion: the status entry in the table of the gate tile's group, and the gate tile's owner bit. -/
def finishColl (s : State) (gate : Nat × Nat × Nat) (ws : List Word) (st : Status) : State :=
  let s := match tileGroup s gate with
    | none => s
    | some g => putStatus s g.gid (cwTag ws % 64) (st.stat0 (cwTag ws)) (word st.stat1)
  setOwner s gate.1 gate.2.1 gate.2.2 false

/-- A command whose gate tile cannot be found is dropped and counted. -/
def dropColl (s : State) : State := { s with regs := { s.regs with cdrop := (s.regs.cdrop + 1) % 2 ^ 64 } }

/-- Put a collective in progress. -/
def putColl (s : State) (c : Coll) : State :=
  { s with colls := s.colls.map fun k => if k.uid == c.uid then c else k }

/-- A message is a part of a run. -/
def isPart (id run : Nat) (m : Nat × Nat × CollMsg) : Bool :=
  m.1 == id && (match m.2.2 with | .part r _ _ => r == run | _ => false)

/-- A collective leaves the engine, with the parts that have come for its run. -/
def removeColl (s : State) (c : Coll) : State :=
  { s with colls := s.colls.filter fun k => k.uid != c.uid
           collIn := s.collIn.filter fun m => !isPart (cwId c.words) c.run m }

/-- A collective ends with an error and no write. -/
def failColl (s : State) (c : Coll) (err : Nat) : State :=
  finishColl (removeColl s c) c.gate c.words (.error err 0 (c.own.any WireBlock.poison))

/-- The translation that a collective holds for a page. -/
def HeldPage.trans (p : HeldPage) : Trans := ⟨p.pa, p.level, p.entry, p.place⟩

/-- A page of the destination, translated anew: nothing held for it stands any more (R107, R117). -/
def formPage (s : State) (c : Coll) (page : Nat) : State × Except Status HeldPage :=
  let va := 4096 * page
  match (collRunner s c.die c.asid).translate s va .write with
  | (s, .ok t) =>
    match kindRefused s .hbm false va t.pa with
    | some st => (s, .error st)
    | none => (setDirty s c.die c.asid va t, .ok ⟨page, t.pa, t.level, t.entry, t.place⟩)
  | (s, .fail cause level) => (s, .error (transStatus cause level va))
  | (s, .poison) => (s, .error (.error 0x0B 0 true))
  | (s, .pending) => (s, .error (transStatus 7 0 va))

/-- The translation that the collective took for a page at its start, where no invalidation has ended since (R117) and its
entry has not changed (R107), with the state in which D is set. -/
def standing (s : State) (c : Coll) (page : Nat) : Option (State × HeldPage) :=
  (c.dst.find? fun p => p.page == page).bind fun p =>
    (markDirty s c.die c.asid (4096 * page) p.trans).map fun s => (s, p)

/-- A page as the destination writes go through it. -/
def renewPage (s : State) (c : Coll) (page : Nat) : State × Except Status HeldPage :=
  match standing s c page with
  | some (s, p) => (s, .ok p)
  | none => formPage (dropHeld s c.die c.asid (4096 * page)) c page

/-- The pages in ascending order; the first that fails decides. -/
def renewPages (c : Coll) : List Nat → State → State × Except Status (List HeldPage)
  | [], s => (s, .ok [])
  | p :: ps, s =>
    match renewPage s c p with
    | (s, .error st) => (s, .error st)
    | (s, .ok q) => match renewPages c ps s with
      | (s, .error st) => (s, .error st)
      | (s, .ok qs) => (s, .ok (q :: qs))

/-- The pages of a collective's destination. -/
def dstPages (c : Coll) : List Nat := (spanPages [dstSpan c.words]).map Prod.fst

/-- The host-assisted walks that the destination writes wait for (R118). -/
def finalWalks (s : State) (c : Coll) : List Nat :=
  (dstPages c).filterMap fun page =>
    match standing s c page with
    | some _ => none
    | none =>
      let va := 4096 * page
      match ((collRunner s c.die c.asid).translate (dropHeld s c.die c.asid va) va .write).2 with
      | .pending => some va
      | _ => none

/-- Write the destination (R328): its elements under RNE, poisoned lines where a value is poisoned. -/
def writeFinal (s : State) (c : Coll) (pages : List HeldPage) (bs : List WireBlock) : State × Flags :=
  let n := cwSize c.words
  let base := (c.words.getD 5 0).toNat
  let pa (va : Nat) : Nat := (((pages.find? fun p => p.page == va / 4096).map HeldPage.pa).getD 0) + va % 4096
  let es := (wireVals c.words bs).zipIdx.map fun (x, e) =>
    let (b, f) := encodeVal (tyOf (cwTy c.words)) .rne false 0 x.1
    ((List.range n).map fun i => pa (base + n * e + i), bytesOfNat n b, x.2, f)
  let ws := es.flatMap fun (pas, b, _, _) => pas.zip b
  let bad := es.flatMap fun (pas, _, p, _) => if p then pas else []
  ((writePlain s ws bad).1, es.foldl (fun f e => f ||| e.2.2.2) 0)

/-- A collective completes with its final value, or keeps it until the walks that its writes wait for have been answered. -/
def completeColl (s : State) (c : Coll) (bs : List WireBlock) (nf : Bool) : State :=
  let write := cwWrites c.words c.place && !nf
  let poison := c.own.any WireBlock.poison || (write && bs.any WireBlock.poison)
  match (if write then finalWalks s c else []) with
  | va :: vas => addWalks (putColl s { c with fin := some (bs, nf) }) c.die (.unit (64 * c.die + collUnit)) c.asid .write
      (va :: vas)
  | [] =>
  match (if write then renewPages c (dstPages c) s else (s, .ok [])) with
  | (s, .error st) => finishColl (removeColl s c) c.gate c.words (.error st.err 0 (st.poison || poison))
  | (s, .ok pages) =>
    let (s, f) := if write then writeFinal s c pages bs else (s, 0)
    finishColl (removeColl s c) c.gate c.words ⟨0, b2n nf, poison, false, false, c.flags ||| f⟩

/-! ## Between the packages (R327-R329) -/

/-- Send to another participant, in the request flow to its package (R320); without a slot of the retry buffers the
message waits. -/
def sendColl (s : State) (pkg id : Nat) (m : CollMsg) : State :=
  drainColl { s with collOut := s.collOut ++ [(pkg, id, m)] }

/-- The joins that the root holds for an ID: package, digest, and the number of the package's command. -/
def joinsOf (s : State) (id : Nat) : List (Nat × Nat × Nat) :=
  s.collIn.filterMap fun (i, src, m) =>
    if i == id then (match m with | .join d num => some (src, d, num) | _ => none) else none

/-- Forget the joins of an ID. -/
def clearJoins (s : State) (id : Nat) : State :=
  { s with collIn := s.collIn.filter fun m => !(m.1 == id && match m.2.2 with | .join _ _ => true | _ => false) }

/-- The root has the final value: it goes to every participant, with NF (R328, R329), and its joins have served. -/
def rootFinal (s : State) (c : Coll) : State :=
  let id := cwId c.words
  let nf := cwCheck c.words && (wireVals c.words c.own).any fun x => !x.1.isFin
  let body := if cwOp c.words == 0x22 then [] else c.own
  let s := (c.list.drop 1).foldl (fun s p => sendColl s p id (.final c.run body nf)) (clearJoins s id)
  completeColl s c c.own nf

/-- A collective that runs goes on as far as what has arrived allows: the tree of R328 over the list, level by level, so that
the list alone fixes which values are combined (R331, R332). -/
def advanceColl (uid : Nat) : Nat → State → State
  | 0, s => s
  | fuel + 1, s =>
    match s.colls.find? fun c => c.uid == uid with
    | none => s
    | some c =>
      let lv := c.level + 1
      let half := 2 ^ (lv - 1)
      let id := cwId c.words
      if c.sent || !c.running || c.fin.isSome then s
      else if cwOp c.words == 0x23 || c.list.length ≤ half then
        (if c.place == 0 then rootFinal s c else s)
      else if c.place % 2 ^ lv != 0 then
        putColl (sendColl s (c.list.getD (c.place - half) 0) id (.part c.run lv c.own)) { c with sent := true }
      else if c.list.length ≤ c.place + half then advanceColl uid fuel (putColl s { c with level := lv })
      else
        let src := c.list.getD (c.place + half) 0
        let hit (m : Nat × Nat × CollMsg) : Bool :=
          isPart id c.run m && m.2.1 == src && (match m.2.2 with | .part _ l _ => l == lv | _ => false)
        match s.collIn.find? hit with
        | some (_, _, .part _ _ bs) =>
          let (own, f) := combine c.words lv c.own bs
          let s := { s with collIn := s.collIn.filter fun m => !hit m }
          advanceColl uid fuel (putColl s { c with own := own, level := lv, flags := c.flags ||| f })
        | _ => s

/-- Enough for every level of 1,024 participants. -/
def collFuel : Nat := 16

/-- This package's collectives of an ID whose root is a package. -/
def collsOf (s : State) (id root : Nat) : List Coll :=
  s.colls.filter fun c => cwId c.words == id && c.list.headD 0 == root

/-- A collective of this package, by its number, ends without any write; one that has its final value does not. -/
def endColl (s : State) (id root num err : Nat) : State :=
  ((collsOf s id root).filter fun c => c.uid == num && c.fin.isNone).foldl (fun s c => failColl s c err) s

/-- The root ends a collective without any write, at every participant that joined, whether or not it runs. -/
def stopColl (s : State) (id err : Nat) : State :=
  (joinsOf s id).foldl (fun s (p, _, num) =>
    if p == s.regs.pkgId then endColl s id p num err else sendColl s p id (.stop num err)) (clearJoins s id)

/-- The root's own collective whose joins for an ID are there. -/
def rootColl (s : State) (id : Nat) : Option Coll :=
  ((joinsOf s id).find? fun j => j.1 == s.regs.pkgId).bind fun j =>
    (collsOf s id s.regs.pkgId).find? fun c => c.uid == j.2.2

/-- The collective whose joins are there runs. -/
def joinsRun (s : State) (id : Nat) : Bool := (rootColl s id).any Coll.running

/-- The root looks at the joins of an ID: two that differ, or two of one package, end the collective, also while it runs;
when every participant has joined it runs (R327). DEDUCED (log entry 69): the root then tells every participant, and no
participant sends its part before: a part of a collective that has ended reaches no other one, whatever the timing (R331). -/
def checkJoins (s : State) (id : Nat) : State :=
  let js := joinsOf s id
  let same := match js with
    | [] => true
    | j :: r => r.all fun k => k.2.1 == j.2.1
  if !same || (dedup (js.map Prod.fst)).length != js.length then stopColl s id 0x01
  else match rootColl s id with
    | none => s
    | some c =>
      if js.length == c.list.length && !c.running then
        let run := 1024 * c.uid + s.regs.pkgId
        let s := js.foldl (fun s (p, _, num) =>
          if p == s.regs.pkgId then s else sendColl s p id (.start num run)) s
        advanceColl c.uid collFuel (putColl s { c with running := true, run := run })
      else s

/-- COLLECTIVE_JOIN: a request of its flow, taken once (R320, R331). -/
def execCollectiveJoin (h : PacketHead) (id digest : Nat) (s : State) : Result :=
  .next (requestArrives s h.src h.seq h.ver fun s =>
    (checkJoins { s with collIn := s.collIn ++ [(id, h.src, .join digest h.num)] } id, .written))

/-- COLLECTIVE_JOIN_TIMEOUT: not every join has arrived within FABTMO. A collective that runs has them all. -/
def execCollectiveJoinTimeout (id : Nat) (s : State) : Result :=
  if (joinsOf s id).isEmpty || joinsRun s id then .next s else .next (stopColl s id 0x0A)

/-- What a message of a collective does where it arrives: the collective runs, a partial value, the final value, or the
end. -/
def takeMessage (s : State) (src id : Nat) (m : CollMsg) : State :=
  match m with
  | .join _ _ => s
  | .start num run => ((collsOf s id src).filter fun c => c.uid == num && !c.running).foldl (fun s c =>
      advanceColl c.uid collFuel (putColl s { c with running := true, run := run })) s
  | .part _ _ _ =>
    let mine := s.colls.filter fun c => cwId c.words == id
    if mine.isEmpty then s
    else mine.foldl (fun s c => advanceColl c.uid collFuel s) { s with collIn := s.collIn ++ [(id, src, m)] }
  | .final run bs nf => ((collsOf s id src).filter fun c => c.running && c.run == run).foldl
      (fun s c => completeColl s c bs nf) s
  | .stop num err => endColl s id src num err

/-- COLLECTIVE_PAYLOAD: a request of its flow, taken once (R320, R331); a join is a row of its own. -/
def execCollectivePayload (h : PacketHead) (id : Nat) (m : CollMsg) (s : State) : Result :=
  match m with
  | .join _ _ => .next s
  | m => .next (requestArrives s h.src h.seq h.ver fun s => (takeMessage s h.src id m, .written))

/-! ## Taking a command (R325) -/

/-- The head of an intake deque: none to serve, a walk to wait for, or an item. -/
inductive CollHead where
  | idle
  | wait (kind : AKind) (va : Nat)
  | item (desc top va : Nat)
  deriving DecidableEq, Repr

/-- Bytes of this package that the engine reads by their PA: of local HBM, or of a scratchpad tile whose bit is 1 (R123). -/
def storedHere (s : State) (pa n : Nat) : Bool :=
  (match regionOf (resolvePa s pa) with
    | .hbm _ => true
    | .window _ _ off => decide (winRange off = .spad) && (tileRefused s pa).isNone
    | _ => false) && !poisonedRun s pa n

/-- The head of the deque that serves an ASID. -/
def collHead (s : State) (die asid : Nat) : State × CollHead :=
  let entry := s.regs.cqRoot.get 0 die + 8 * asid
  if !storedHere s entry 8 then (s, .idle)
  else
  let desc := natOfBytes (readRun s entry 8)
  if desc == 0 || desc % 64 != 0 || !storedHere s desc 64 then (s, .idle)
  else
    let d := Deque.ofBytes (readRun s desc 64)
    if d.invalid || d.count == 0 then (s, .idle)
    else match (collRunner s die asid).translate s d.buf .rmw with
      | (s, .pending) => (s, .wait .rmw d.buf)
      | (s, .ok t) =>
        let pa := t.pa + (d.item d.top - d.buf)
        (s, if inOnePage d t && arrayPage s t && storedHere s pa 8 then
            .item desc d.top (natOfBytes (readRun s pa 8)) else .idle)
      | (s, _) => (s, .idle)

/-- The ASID whose deque a die's engine serves next: rotation over the deques that hold an item. -/
def collTurn (s : State) (die : Nat) : Option Nat :=
  let from_ := s.collNext.get 0 die
  let lines := (List.range 32).filter fun j => storedHere s (s.regs.cqRoot.get 0 die + 128 * j) 128
  if lines.isEmpty then none
  else ((List.range 256).map fun i => (from_ + i) % 256).find? fun a =>
    lines.contains (a / 16) && (collHead s die a).2 != .idle

/-- Remove the item with the effect of QSTEAL; the rotation goes on behind the ASID. -/
def takeItem (s : State) (die asid desc top : Nat) : State :=
  let s := recallAll (putCounter s desc 16 ((top + 1) % 2 ^ 64)) [desc]
  { s with collNext := s.collNext.set 0 die ((asid + 1) % 256) }

/-- The command that a die's engine has taken. -/
def takenColl (s : State) (die : Nat) : Option CollTaken := s.collCmd.get none die

def setTaken (s : State) (die : Nat) (k : Option CollTaken) : State := { s with collCmd := s.collCmd.set none die k }

/-- The engine has done with its command: what it fetched for it has served. -/
def doneColl (s : State) (die : Nat) : State :=
  let key := 64 * die + collUnit
  setTaken { s with unitAns := s.unitAns.set [] key [], unitFar := s.unitFar.set [] key [] } die none

/-- The engine keeps its command and waits for what it needs. -/
def awaitColl (s : State) (die : Nat) (k : CollTaken) (needs : List Needs) : State :=
  let key := 64 * die + collUnit
  needs.foldl (fun s n => match n with
    | .walks kind vas => addWalks s die (.unit key) k.asid kind vas
    | .far ks => askUnit s key ks) (setTaken s die (some k))

/-- What a read of the engine ends in: its bytes, each read once, with their poison; a status; or what it waits for. -/
inductive CollRead where
  | ok (bs : List Byte) (poison : Bool)
  | bad (st : Status)
  | needs (n : Needs)
  deriving DecidableEq, Repr

/-- Read a span of the engine's command. DESIGN CHOICE (log entry 62): one on a scratchpad tile whose bit is 0, which no engine
reads (R123), ends with ERR 0x06. -/
def readColl (s : State) (r : Runner) (sp : Span) : State × CollRead :=
  match r.pending s .read [sp] with
  | va :: vas => (s, .needs (.walks .read (va :: vas)))
  | [] => match r.translatePages s .read .any [sp] with
    | (s, .error st) => (s, .bad st)
    | (s, .ok tbl) => match (r.parts tbl sp).findSome? fun p => tileRefused s p.tr.pa with
      | some st => (s, .bad st)
      | none => match r.wants s tbl false [sp] with
      | k :: ks => (s, .needs (.far (k :: ks)))
      | [] =>
        if r.dead s tbl sp then (s, .bad (.error 0x0A 0 false))
        else if r.fails s tbl sp then (s, .bad (.error 0x0B 0 false))
        else
          let (bs, p) := r.fetch s tbl sp
          (s, .ok bs p)

/-- The pages of a span if a command uses it. -/
def collPages (r : Runner) (s : State) (kind : AKind) (used : Bool) (sp : Span) :
    State × Except Status PageTable :=
  if used then r.translatePages s kind .hbm [sp] else (s, .ok [])

/-- The source in wire format: the package's part, with poison by line. -/
def readSource (s : State) (r : Runner) (tbl : PageTable) (ws : List Word) : List WireBlock × Flags :=
  let n := cwSize ws
  let base := (ws.getD 4 0).toNat
  wireOf ws 0 ((List.range (cwElems ws)).map fun e =>
    let (bs, p) := r.fetch s tbl ⟨false, base + n * e, n⟩
    (decodeVal (tyOf (cwTy ws)) (natOfBytes bs), p))

/-- A command behind its list: its places are translated, its source is read, and it joins. -/
def joinColl (s : State) (r : Runner) (gate : Nat × Nat × Nat) (ws : List Word) (l : List Nat) : State :=
  let place := l.idxOf s.regs.pkgId
  let fail (s : State) (st : Status) : State := finishColl s gate ws (.error st.err 0 st.poison)
  match collPages r s .read (cwReads ws place) (srcSpan ws) with
  | (s, .error st) => fail s st
  | (s, .ok src) =>
    match collPages r s .write (cwWrites ws place) (dstSpan ws) with
    | (s, .error st) => fail s st
    | (s, .ok dst) =>
      let (own, f) := if cwReads ws place then readSource s r src ws else ([], 0)
      let pages := dst.filterMap fun (page, t) => t.map fun t => HeldPage.mk page t.pa t.level t.entry t.place
      let uid := s.nextReq
      let c : Coll := ⟨uid, r.die, r.asid, ws, l, place, gate, pages, own, 0, false, false, 0, none, f⟩
      let s := { s with nextReq := uid + 1, colls := s.colls ++ [c] }
      let id := cwId ws
      if place == 0 then
        checkJoins { s with collIn := s.collIn ++ [(id, s.regs.pkgId, .join (collDigest ws l) uid)] } id
      else sendColl s (l.headD 0) id (.join (collDigest ws l) uid)

/-- The walks that a command's source and destination still wait for (R118). -/
def collWalks (s : State) (r : Runner) (ws : List Word) (l : List Nat) : List Needs :=
  let place := l.idxOf s.regs.pkgId
  let need (used : Bool) (kind : AKind) (sp : Span) : List Needs :=
    if !used then [] else match r.pending s kind [sp] with
      | [] => []
      | vas => [.walks kind vas]
  need (cwReads ws place) .read (srcSpan ws) ++ need (cwWrites ws place) .write (dstSpan ws)

/-- A command whose list has been read: it is malformed, waits for walks, or joins. -/
def listColl (s : State) (r : Runner) (k : CollTaken) (gate : Nat × Nat × Nat) : State :=
  if listBad s.regs.npkg s.regs.pkgId k.list || collSkew k.words (k.list.idxOf s.regs.pkgId) then
    doneColl (finishColl s gate k.words (.error 0x01 0 false)) r.die
  else match collWalks s r k.words k.list with
    | [] => doneColl (joinColl s r gate k.words k.list) r.die
    | ns => awaitColl s r.die k ns

/-- A command whose gate tile is known: it is refused, or its list is read. -/
def gatedColl (s : State) (r : Runner) (k : CollTaken) (gate : Nat × Nat × Nat) : State :=
  let fail (s : State) (err : Nat) (p : Bool) : State :=
    doneColl (finishColl s gate k.words (.error err 0 p)) r.die
  if !k.list.isEmpty then listColl s r k gate
  else if k.poison then fail s 0x0B true
  else if collBad s.regs.npkg k.words then fail s 0x01 false
  else if ownerFails s gate.1 gate.2.1 gate.2.2 then fail s 0x0B false
  else if !ownedByEngine s gate.1 gate.2.1 gate.2.2 then fail s 0x06 false
  else match readColl s r (listSpan k.words) with
    | (s, .needs n) => awaitColl s r.die { k with gate := some gate } [n]
    | (s, .bad st) => fail s st.err st.poison
    | (s, .ok _ true) => fail s 0x0B true
    | (s, .ok bs false) => listColl s r { k with gate := some gate, list := listOf bs (cwCount k.words) } gate

/-- A command whose block has been read: its gate VA is translated to a tile that a resident group holds, or the command
is dropped (R330). -/
def startColl (s : State) (r : Runner) (k : CollTaken) : State :=
  match k.gate with
  | some gate => gatedColl s r k gate
  | none =>
    let va := (k.words.getD 8 0).toNat
    match r.translate s va .write with
    | (s, .pending) => awaitColl s r.die k [.walks .write [va]]
    | (s, .ok t) => match (tileOfPa s t.pa).bind fun tile => (tileGroup s tile).map fun _ => tile with
      | some gate => gatedColl s r k gate
      | none => doneColl (dropColl s) r.die
    | (s, _) => doneColl (dropColl s) r.die

/-- A command that the engine has taken: its block is read, or it goes on. A block that cannot be read is dropped,
whatever it holds. DESIGN CHOICE (log entry 62): a block at a VA that is no multiple of 128, against R326, is read where it
stands. `want`: the operation codes of the step. -/
def goColl (s : State) (r : Runner) (k : CollTaken) (want : Nat → Bool) : Option State :=
  if !k.words.isEmpty then (if want (cwOp k.words) then some (startColl s r k) else none)
  else match readColl s r ⟨false, k.va, 128⟩ with
    | (s, .needs n) => some (awaitColl s r.die k [n])
    | (s, .bad _) => some (doneColl (dropColl s) r.die)
    | (s, .ok bs p) =>
      let ws := wordsOfBytes bs 16
      if want (cwOp ws) then some (startColl s r { k with words := ws, poison := p }) else none

/-- A collective whose final value waits for walks that have been answered writes it. -/
def resumeColl (s : State) (die asid : Nat) (want : Nat → Bool) : Option State :=
  match s.colls.find? fun c => c.die == die && c.asid == asid && want (cwOp c.words) && c.fin.isSome with
  | none => none
  | some c => c.fin.map fun (bs, nf) =>
    let s := completeColl s c bs nf
    if (takenColl s die).isSome then s else { s with unitAns := s.unitAns.set [] (64 * die + collUnit) [] }

/-- The engine of a die goes on with a collective that waited for walks, or with the command that it has taken for an ASID,
or serves the deque of the ASID whose turn it is. While a walk of its own is pending it waits (R118). A step for other
operation codes than the command's is none. -/
def collStep (s : State) (die asid : Nat) (want : Nat → Bool) : Result :=
  if unitWalks s (64 * die + collUnit) then .next s
  else match resumeColl s die asid want with
  | some s => .next s
  | none =>
  let r := collRunner s die asid
  match takenColl s die with
  | some k => .next (if k.asid == asid then (goColl s r k want).getD s else s)
  | none =>
    if collTurn s die != some asid then .next s
    else match collHead s die asid with
      | (t, .idle) => .next t
      | (t, .wait kind va) => .next (addWalks t die (.unit (64 * die + collUnit)) asid kind [va])
      | (t, .item desc top va) =>
        .next ((goColl (takeItem t die asid desc top) r ⟨asid, va, [], false, none, []⟩ want).getD s)

def execAllreduceCmd (die asid : Nat) (s : State) : Result := collStep s die asid (· == 0x21)
def execReduceCmd (die asid : Nat) (s : State) : Result := collStep s die asid (· == 0x22)
def execBroadcastCmd (die asid : Nat) (s : State) : Result := collStep s die asid (· == 0x23)

/-! ## Commands without a meaning (R154, R327) -/

/-- Operation codes that a unit of a die defines. -/
def opDefined (unit op : Nat) : Bool := if unit == trayUnit then op == 0x10 else 1 ≤ op && op ≤ 6

/-- MALFORMED_COMMAND: a unit's next command has an undefined operation code, and completes with ERR 0x01.
Unit 33 + a is the collective engine serving ASID a. DESIGN CHOICE (log entry 62): STAT1 is 0, for a tray engine's command
too, as NEXT of R187 belongs to a drain; and the command ends so even where its descriptor could not be read or is invalid, as
R438 orders the errors of the six commands alone. -/
def execMalformedCommand (die unit : Nat) (s : State) : Result :=
  if collUnit ≤ unit then collStep s die (unit - collUnit) fun op => op < 0x21 || 0x23 < op
  else match nextCmd s die unit with
    | none => .next s
    | some (prio, k) =>
      if opDefined unit k.op then .next s
      else .next (completeCmd s die unit prio k [] (.error 0x01 0 false))

/-! ## FABTMO (R323) -/

/-- A request whose end concerns a collective of this package that runs: its part, or the root's word that it runs. -/
def loses (q : PodReq) (c : Coll) : Bool :=
  match q with
  | .collective id (.part run _ _) | .collective id (.start _ run) => cwId c.words == id && c.running && c.run == run
  | _ => false

/-- FABTMO_EXPIRY: every unacknowledged request to a package completes with the error response: its owner has its answer, and
the request stays in its flow, which may still be delivered and is answered there in its order (R320, R323). A collective
whose root the package is, or whose message ends so, ends with ERR 0x0A; where this package is its root, at every
participant. -/
def execFabtmoExpiry (pkg : Nat) (s : State) : Result :=
  let f := flowOf s pkg
  let ended := f.unacked.filter fun u => u.2.1 != 0
  let mine := s.colls.filter fun c => c.fin.isNone &&
    ((c.list.headD 0 == pkg && pkg != s.regs.pkgId) || ended.any fun u => loses u.2.2 c)
  if ended.isEmpty && mine.isEmpty then .next s
  else
    let s := ended.foldl (fun s (_, req, _) => answerBad s req 4 [])
      (setFlow s { f with unacked := f.unacked.map fun u => (u.1, 0, u.2.2) })
    .next (mine.foldl (fun s c =>
      if c.place == 0 then stopColl s (cwId c.words) 0x0A else failColl s c 0x0A) s)

end Sys2Proof.Machine
end

