-- ==== Sys2Proof/Machine/CrossLane.lean ====
section
/-!
DEFINITION. Cross-lane instructions 0x90-0x99 (R257-R269). Sources are read in any lane of the wave. A source
register that an instruction names is checked for its bound and its pending bit in the instruction's own lanes as well,
whichever lanes it is read in (R128, R207).
-/

namespace Sys2Proof.Machine

/-- The checks of a source register that lane l reads in another lane (R128, R213, R257). -/
def crossCond (c : Issuer) (f r l src : Nat) : List Cause :=
  boundCond c [l] f r ++
    when (r != 255 && c.w.pv.get false (8 * r + src / 4)) ⟨5, r * 2 ^ 56, [l]⟩ ++
    when (r != 255 && c.w.marked (mkV r src)) ⟨18, 2 ^ 60, [l]⟩

/-- The address that a shuffle forms in lane l for sub-element k (R260). -/
def shflAddr (w : Wave) (o : ShflOp) (l k : Nat) : Nat :=
  let b := match o.b with
    | .reg r => subElem (w.readV r.val l) 8 k
    | .lit x => x.toNat % 256
  if o.rel then (8 * l + k + b) % 256 else b

/-- Sub-element that an address names among n. -/
def addrSub (a n : Nat) : Nat := a % 8 % n

def execXshfl (o : ShflOp) (s : State) : Result :=
  let n := 64 / o.t.width
  laneOp s (vlen o.b) o.g ([.vw 0 o.d.val, .vw 1 o.a.val] ++ useV 2 o.b)
    (fun c ls => ls.flatMap fun l => (List.range n).flatMap fun k =>
      crossCond c 1 o.a.val l (shflAddr c.w o l k / 8))
    fun c ls => c.w.writeLanes o.d.val ls fun l => mapSubs o.t fun k =>
      let a := shflAddr c.w o l k
      subElem (c.w.readV o.a.val (a / 8)) o.t.width (addrSub a n)

/-- The pushes of XPUSH in order: target lane, target sub-element, value; those to inactive lanes are
discarded (R261). -/
def pushes (w : Wave) (o : ShflOp) (ls : List Nat) : List (Nat × Nat × Nat) :=
  let n := 64 / o.t.width
  (ls.flatMap fun l => (List.range n).map fun k =>
    let a := shflAddr w o l k
    (a / 8, addrSub a n, subElem (w.readV o.a.val l) o.t.width k)).filter fun p => ls.contains p.1

/-- The lanes of which XPUSH keeps a part: they receive a push, but not in every sub-element. -/
def keptLanes (ps : List (Nat × Nat × Nat)) (n : Nat) : List Nat :=
  (dedup (ps.map fun q => q.1)).filter fun l => (dedup ((ps.filter fun q => q.1 == l).map fun q => q.2.1)).length < n

/-- XPUSH. D is read, for the sub-elements that receive nothing, only where the lane receives a push and keeps a part. -/
def execXpush (o : ShflOp) (p : PReg) (s : State) : Result :=
  laneOp s (vlen o.b) o.g ([.vw 0 o.d.val, .vr 1 o.a.val, .pw p.val] ++ useV 2 o.b)
    (fun c ls => [⟨18, 2 ^ 60, (keptLanes (pushes c.w o ls) (64 / o.t.width)).filter fun l =>
      o.d.val != 255 && c.w.marked (mkV o.d.val l)⟩])
    fun c ls =>
      let ps := pushes c.w o ls
      let w := ps.foldl (fun w (l, k, x) => w.writeV o.d.val l (setSub (w.readV o.d.val l) o.t.width k x)) c.w
      w.writeP p.val ls fun l => ps.any fun q => q.1 == l

/-- XBFLY (R262). -/
def execXbfly (g : Guard) (d a b : VReg) (stage : Fin 5) (s : State) : Result :=
  let m := 2 ^ stage.val
  laneOp s 8 g [.vw 0 d.val, .vw 0 (d.val + 1), .vw 1 a.val, .vw 2 b.val]
    (fun c ls => ls.flatMap fun l =>
      if bitOf l stage.val then crossCond c 2 b.val l (l ^^^ m) ++ crossCond c 2 b.val l l
      else crossCond c 1 a.val l l ++ crossCond c 1 a.val l (l ^^^ m))
    fun c ls =>
      (c.w.writeLanes d.val ls fun l =>
        if bitOf l stage.val then c.w.readV b.val (l ^^^ m) else c.w.readV a.val l).writeLanes
        (d.val + 1) ls fun l =>
          if bitOf l stage.val then c.w.readV b.val l else c.w.readV a.val (l ^^^ m)

def execXbcast (g : Guard) (d a : VReg) (b : SSrc) (t : Ty) (s : State) : Result :=
  laneOp s (slen b) g ([.vw 0 d.val, .vw 1 a.val] ++ useS b)
    (fun c ls => ls.flatMap fun l => crossCond c 1 a.val l (field (c.w.srcS b) 7 0 / 8))
    fun c ls =>
      let ad := field (c.w.srcS b) 7 0
      c.w.writeLanes d.val ls fun _ => mapSubs t fun _ =>
        subElem (c.w.readV a.val (ad / 8)) t.width (addrSub ad (64 / t.width))

/-! ## Votes, reductions and scans (R264-R266) -/

def execXvote (g : Guard) (d : SReg) (a : PReg) (fn : VoteFn) (s : State) : Result :=
  laneOp s 8 g [.sw d, .pr a.val] noMore fun c ls =>
    let ballot := ls.filter fun l => (c.w.readP a.val).getLsbD l
    c.w.writeS d (match fn with
      | .ballot => (maskOf ballot).setWidth 64
      | .any => word (!ballot.isEmpty).toNat
      | .all => word (ballot.length == ls.length).toNat)

/-- The operation of XRED and XSCAN on two elements (R265). -/
def redOp (t : Ty) (mode : Mode) (op : RedOp) (x y : Nat) : Nat × Flags :=
  if t.within 9 12 then
    match op with
    | .min => minMaxVal t false x y
    | .max => minMaxVal t true x y
    | _ => encodeExact t mode false (addVals mode.isRdn (decodeVal t x) (decodeVal t y))
  else
    match op with
    | .add => (iAdd t false x y, 0)
    | .min => (iMin t x y, 0)
    | .max => (iMax t x y, 0)
    | .and => (iAnd t x y, 0)
    | .or => (iOr t x y, 0)
    | .xor => (iXor t x y, 0)

/-- Identities (R265). -/
def redIdentity (t : Ty) (op : RedOp) : Nat :=
  match op with
  | .min => match fmtOf t with
    | some f => infPat f false
    | none => natOf t.width (intMax t)
  | .max => match fmtOf t with
    | some f => infPat f true
    | none => natOf t.width (intMin t)
  | .and => 2 ^ t.width - 1
  | _ => 0

/-- One level of the tree: pairs combined, a lone present value passed up. -/
def treeLevel (f : Nat → Nat → Nat × Flags) :
    List (Option Nat) → Flags → List (Option Nat) × Flags
  | x :: y :: rest, fl =>
    let (r, e) := match x, y with
      | none, y => (y, 0)
      | x, none => (x, 0)
      | some a, some b => let p := f a b; (some p.1, p.2)
    let (rs, fl) := treeLevel f rest (fl ||| e)
    (r :: rs, fl)
  | xs, fl => (xs, fl)

/-- Five levels. -/
def treeFold (f : Nat → Nat → Nat × Flags) : Nat → List (Option Nat) → Flags → Option Nat × Flags
  | 0, xs, fl => (xs.headD none, fl)
  | k + 1, xs, fl => let (xs, fl) := treeLevel f xs fl; treeFold f k xs fl

/-- The lanes of a float source that hold a signalling NaN in some sub-element. -/
def snanLane (w : Wave) (t : Ty) (r l : Nat) : Bool :=
  t.within 9 12 && (w.subsOf t r l).any fun x => (decodeVal t x).isSNan

/-- What a rounding operation reads of %fmode; integer operations read nothing. -/
def fmodeUse (t : Ty) : List Use := if t.within 9 12 then [.spec 2, .ff] else []

def execXred (g : Guard) (d : SReg) (a : VReg) (t : Ty) (rnd : Rnd) (op : RedOp) (s : State) : Result :=
  issued s fun c =>
    let ls := c.lanes g
    let mode := c.w.mode rnd
    let col (k : Nat) : Option Nat × Flags :=
      treeFold (redOp t mode op) 5 ((List.range 32).map fun i =>
        if ls.contains i then some (subElem (c.w.readV a.val i) t.width k) else none) 0
    let rs := (List.range (64 / t.width)).map col
    let fl := rs.foldl (fun f r => f ||| r.2) 0
    let lr := ls.map fun l => (⟨l, 0, fl, snanLane c.w t a.val l⟩ : LaneRes)
    let x := packSubs t.width (rs.map fun r => r.1.getD (redIdentity t op))
    check s c c.all
      (guardConds c g ++ useConds c ls ([.sw d, .vr 1 a.val] ++ fmodeUse t) ++ fpCond c.w lr)
      (retire s c 8 ((c.w.writeS d x).orRes lr))

/-- The sweep of XSCAN over the elements of the active lanes: per lane the value written and the flags of
its step (R266). -/
def scanFold (f : Nat → Nat → Nat × Flags) (excl : Bool) (ident : Nat) :
    Option Nat → List Nat → List (Nat × Flags)
  | _, [] => []
  | acc, x :: xs =>
    let (now, fl) := match acc with
      | none => (x, 0)
      | some a => f a x
    (if excl then acc.getD ident else now, fl) :: scanFold f excl ident (some now) xs

def execXscan (g : Guard) (d a : VReg) (t : Ty) (rnd : Rnd) (op : RedOp) (excl : Bool) (s : State) :
    Result :=
  issued s fun c =>
    let ls := c.lanes g
    let mode := c.w.mode rnd
    let cols := (List.range (64 / t.width)).map fun k =>
      scanFold (redOp t mode op) excl (redIdentity t op) none
        (ls.map fun l => subElem (c.w.readV a.val l) t.width k)
    let lr := ls.zipIdx.map fun (l, i) =>
      let row := cols.map fun col => col.getD i (0, 0)
      (⟨l, packSubs t.width (row.map Prod.fst), row.foldl (fun f r => f ||| r.2) 0,
        snanLane c.w t a.val l⟩ : LaneRes)
    check s c c.all
      (guardConds c g ++ useConds c ls ([.vw 0 d.val, .vr 1 a.val] ++ fmodeUse t) ++ fpCond c.w lr)
      (retire s c 8 ((c.w.writeRes d.val lr).orRes lr))

/-! ## Compaction, sampling and match (R267-R269) -/

def execXcompact (g : Guard) (d a : VReg) (b : PReg) (k : SReg) (s : State) : Result :=
  laneOp s 8 g [.vw 0 d.val, .vw 1 a.val, .prAll b.val, .sw k]
    (fun c ls => (ls.zip (lanesOf (c.w.readP b.val))).flatMap fun (l, src) => crossCond c 1 a.val l src)
    fun c ls =>
      let sel := lanesOf (c.w.readP b.val)
      let w := (ls.zip sel).foldl (fun w (l, src) => w.writeV d.val l (c.w.readV a.val src)) c.w
      w.writeS k (word sel.length)

/-- The weight of a lane as XSAMPLE counts it, and its flag. -/
def weightOf (t : Ty) (bits : Nat) : Val × Flags :=
  let v := decodeVal t bits
  if v.isNan then (.zero, Flags.nv)
  else if v.sign && !v.isZero then (.zero, Flags.nv)
  else (v, 0)

/-- The first lane whose running sum exceeds a bound, over a common denominator. -/
def sampleLane (bound : Nat) : Nat → List (Nat × Nat) → Option Nat
  | _, [] => none
  | acc, (l, x) :: rest => if bound < (acc + x) * 2 ^ 24 then some l else sampleLane bound (acc + x) rest

/-- The lane that XSAMPLE chooses (R268). -/
def sampleOf (ws : List (Nat × Val)) (r : Nat) : Nat :=
  let infs := ws.filter fun x => x.2.isInf
  if !infs.isEmpty then ((infs.getD (r * infs.length / 2 ^ 24) (0, .zero)).1)
  else
    let den := ws.foldl (fun m x => match x.2 with | .fin _ _ d => Val.commonDen m d | _ => m) 1
    let nums := ws.map fun x => (x.1, match x.2 with | .fin _ n d => n * (den / d) | _ => 0)
    let sum := nums.foldl (fun a x => a + x.2) 0
    if sum == 0 then 32 else (sampleLane (r * sum) 0 nums).getD 32

def execXsample (g : Guard) (d : SReg) (a : VReg) (b : SSrc) (t : Ty) (s : State) : Result :=
  issued s fun c =>
    let ls := c.lanes g
    let el (l : Nat) : Nat := subElem (c.w.readV a.val l) t.width 0
    let lr := ls.map fun l =>
      (⟨l, 0, (weightOf t (el l)).2, (decodeVal t (el l)).isSNan⟩ : LaneRes)
    let i := sampleOf (ls.map fun l => (l, (weightOf t (el l)).1)) (field (c.w.srcS b) 23 0)
    check s c c.all
      (guardConds c g ++ useConds c ls ([.spec 2, .ff, .sw d, .vr 1 a.val] ++ useS b) ++ fpCond c.w lr)
      (retire s c (slen b) ((c.w.writeS d (word i)).orRes lr))

def execXmatch (g : Guard) (d a : VReg) (t : Ty) (s : State) : Result :=
  laneOp s 8 g [.vw 0 d.val, .vr 1 a.val] noMore fun c ls =>
    let el (l : Nat) : Nat := subElem (c.w.readV a.val l) t.width 0
    c.w.writeLanes d.val ls fun l =>
      (maskOf (ls.filter fun i => el i == el l)).setWidth 64

end Sys2Proof.Machine
end

