-- ==== Sys2Proof/Machine/Fixer.lean ====
section
/-!
DEFINITION. The Fixer (R404-R410): SHA-256 (FIPS 180-4) and the LMS signatures of RFC 8554 that R407 names,
the layout of an image, and LOADREQ.
-/

namespace Sys2Proof.Machine

/-! ## SHA-256 -/

/-- The greatest number whose k-th power is at most x, found bit by bit from bit n - 1 down. -/
def rootBits (k x : Nat) : Nat → Nat → Nat
  | 0, r => r
  | n + 1, r => rootBits k x n (if (r + 2 ^ n) ^ k ≤ x then r + 2 ^ n else r)

/-- The first 32 bits behind the binary point of the k-th root of a number. -/
def rootFraction (k p : Nat) : BitVec 32 := BitVec.ofNat 32 (rootBits k (p * 2 ^ (32 * k)) 40 0)

/-- The 64 prime numbers below 312. -/
def smallPrimes : List Nat := (List.range 312).filter fun n => 2 ≤ n && (List.range n).all fun d => d < 2 || n % d != 0

/-- The round constants: the cube roots of the primes. -/
def shaK : List (BitVec 32) := smallPrimes.map (rootFraction 3)

/-- The initial hash value: the square roots of the first eight. -/
def shaInit : List (BitVec 32) := (smallPrimes.take 8).map (rootFraction 2)

/-- A 32-bit word, most significant byte first. -/
def beWord (bs : List Byte) : BitVec 32 := BitVec.ofNat 32 (natOfBytes ((bs.take 4).reverse))

/-- The n bytes of a number, most significant first. -/
def beBytes (n x : Nat) : List Byte := (bytesOfNat n x).reverse

/-- The next word of the message schedule, whose words are held latest first. -/
def shaNext (w : List (BitVec 32)) : BitVec 32 :=
  let at_ (i : Nat) : BitVec 32 := w.getD (i - 1) 0
  let x := at_ 15
  let y := at_ 2
  let s0 := x.rotateRight 7 ^^^ x.rotateRight 18 ^^^ (x >>> 3)
  let s1 := y.rotateRight 17 ^^^ y.rotateRight 19 ^^^ (y >>> 10)
  at_ 16 + s0 + at_ 7 + s1

/-- Extend the schedule by n words. -/
def shaExtend : Nat → List (BitVec 32) → List (BitVec 32)
  | 0, w => w
  | n + 1, w => shaExtend n (shaNext w :: w)

/-- One round on the eight working variables. -/
def shaRound (v : List (BitVec 32)) (kw : BitVec 32) : List (BitVec 32) :=
  match v with
  | [a, b, c, d, e, f, g, h] =>
    let s1 := e.rotateRight 6 ^^^ e.rotateRight 11 ^^^ e.rotateRight 25
    let ch := (e &&& f) ^^^ (~~~e &&& g)
    let t1 := h + s1 + ch + kw
    let s0 := a.rotateRight 2 ^^^ a.rotateRight 13 ^^^ a.rotateRight 22
    let maj := (a &&& b) ^^^ (a &&& c) ^^^ (b &&& c)
    [t1 + (s0 + maj), a, b, c, d + t1, e, f, g]
  | v => v

/-- One block of 64 bytes. -/
def shaBlock (h : List (BitVec 32)) (bs : List Byte) : List (BitVec 32) :=
  let first := (List.range 16).map fun i => beWord (bs.drop (4 * i))
  let w := (shaExtend 48 first.reverse).reverse
  let v := (shaK.zip w).foldl (fun v kw => shaRound v (kw.1 + kw.2)) h
  (h.zip v).map fun (a, b) => a + b

/-- The blocks of a padded message in turn. -/
def shaBlocks : Nat → List Byte → List (BitVec 32) → List (BitVec 32)
  | 0, _, h => h
  | n + 1, bs, h => shaBlocks n (bs.drop 64) (shaBlock h (bs.take 64))

/-- SHA-256 of a message of bytes. -/
def sha256 (m : List Byte) : List Byte :=
  let zeros := (119 - m.length % 64) % 64
  let padded := m ++ [0x80] ++ List.replicate zeros 0 ++ beBytes 8 (8 * m.length)
  (shaBlocks (padded.length / 64) padded shaInit).flatMap fun x => beBytes 4 x.toNat

/-! ## LMS_SHA256_M32_H20 with LMOTS_SHA256_N32_W8 -/

/-- Bytes [first, first + n) of a list. -/
def slice (bs : List Byte) (first n : Nat) : List Byte := (bs.drop first).take n

/-- A number from bytes, most significant first. -/
def beNat (bs : List Byte) : Nat := natOfBytes bs.reverse

/-- The Winternitz chain of digit i from position a to 255. -/
def otsChain (pre : List Byte) (i : Nat) : Nat → Nat → List Byte → List Byte
  | 0, _, x => x
  | n + 1, a, x => otsChain pre i n (a + 1) (sha256 (pre ++ beBytes 2 i ++ beBytes 1 a ++ x))

/-- The one-time public key that a signature of a message leads to. -/
def otsKey (key : List Byte) (q : Nat) (sig msg : List Byte) : List Byte :=
  let pre := key ++ beBytes 4 q
  let h := sha256 (pre ++ beBytes 2 0x8181 ++ slice sig 4 32 ++ msg)
  let sum := h.foldl (fun a b => a + (255 - b.toNat)) 0
  let digits := h ++ beBytes 2 sum
  let ends := (digits.take 34).zipIdx.flatMap fun (d, i) =>
    otsChain pre i (255 - d.toNat) d.toNat (slice sig (36 + 32 * i) 32)
  sha256 (pre ++ beBytes 2 0x8080 ++ ends)

/-- The root that a leaf and its path lead to. -/
def lmsClimb (key path : List Byte) : Nat → Nat → Nat → List Byte → List Byte
  | 0, _, _, x => x
  | n + 1, i, node, x =>
    let sib := slice path (32 * i) 32
    let pair := if node % 2 == 1 then sib ++ x else x ++ sib
    lmsClimb key path n (i + 1) (node / 2)
      (sha256 (key ++ beBytes 4 (node / 2) ++ beBytes 2 0x8383 ++ pair))

/-- A signature of 1,772 bytes verifies a message under a public key of 56 bytes. -/
def lmsVerify (pub sig msg : List Byte) : Bool :=
  let key := slice pub 8 16
  let q := beNat (slice sig 0 4)
  let ots := slice sig 4 1124
  let leaf := sha256 (key ++ beBytes 4 (2 ^ 20 + q) ++ beBytes 2 0x8282 ++ otsKey key q ots msg)
  beNat (slice pub 0 4) == 8 && beNat (slice pub 4 4) == 4 && beNat (slice ots 0 4) == 4 &&
    beNat (slice sig 1128 4) == 8 && q < 2 ^ 20 && sig.length == 1772 &&
    lmsClimb key (slice sig 1132 640) 20 0 (2 ^ 20 + q) leaf == slice pub 24 32

/-! ## Images (R404, R405) -/

/-- The fields of a LOADREQ write (R407). -/
def loadGo (v : Word) : Bool := v.getLsbD 63
def loadAsid (v : Word) : Nat := field v 55 48
def loadPa (v : Word) : Nat := field v 47 0

/-- A segment entry. -/
structure SegEntry where
  va   : Nat
  len  : Nat
  data : Nat
  sig  : Nat
  flags : Nat
  bad  : Bool
  raw  : List Byte
  deriving DecidableEq, Repr

def SegEntry.x (e : SegEntry) : Bool := bitOf e.flags 3
def SegEntry.w (e : SegEntry) : Bool := bitOf e.flags 2
def SegEntry.r (e : SegEntry) : Bool := bitOf e.flags 1
def SegEntry.p (e : SegEntry) : Bool := bitOf e.flags 0

/-- The entry that 32 bytes hold; `bad`: a field breaks R404 or R405. -/
def SegEntry.ofBytes (bs : List Byte) : SegEntry :=
  let n := natOfBytes bs
  let f := bitsOf n 195 192
  { va := bitsOf n 63 0, len := bitsOf n 127 96, data := bitsOf n 95 64, sig := bitsOf n 159 128, flags := f
    bad := bitsOf n 63 0 % 4096 != 0 || bitsOf n 127 96 % 4096 != 0 || bitsOf n 127 96 == 0 ||
      bitsOf n 191 160 != 0 || bitsOf n 255 196 != 0 || (bitOf f 3 && bitOf f 2)
    raw := bs }

/-- Staged bytes of the image; `none` where they do not lie in local HBM or a line of them is poisoned. -/
def staged (s : State) (pa n : Nat) : Option (List Byte) :=
  if 2 ^ 40 < pa + n || poisonedRun s pa n then none else some (readRun s pa n)

/-- The public key of an image whose header keeps R404 and whose key a fused hash names. -/
def imageKey (s : State) (pa : Nat) : Option (List Byte × Nat) :=
  match staged s pa 128 with
  | none => none
  | some h =>
    let n := natOfBytes h
    let count := bitsOf n 63 48
    let pub := slice h 16 56
    let hash := sha256 pub
    if bitsOf n 31 0 == 0x31495754 && bitsOf n 47 32 == 1 && 1 ≤ count && count ≤ 256 &&
        bitsOf n 127 64 == 0 && bitsOf n 1023 576 == 0 && s.keys.contains hash &&
        hash != List.replicate 32 0
    then some (pub, count) else none

/-- The leaf of a page in the tables and its place, without any effect. -/
def fixerLeaf (s : State) (asid va : Nat) : Option Trans :=
  if 2 ^ 57 ≤ va then none
  else match walkRoot s asid with
    | .error _ => none
    | .ok t =>
      match (walkFrom 8 asid va 6 1 t s).2 with
      | .leaf t => some t
      | _ => none

/-- A leaf that keeps R407 for a segment. -/
def leafFits (s : State) (e : SegEntry) (t : Trans) : Bool :=
  let pa := ptePa t.entry
  let code := s.regs.codeBase ≤ pa && pa + 4096 ≤ s.regs.codeLimit
  let apart := pa + 4096 ≤ s.regs.codeBase || s.regs.codeLimit ≤ pa || s.regs.codeLimit ≤ s.regs.codeBase
  t.level == 5 && pteP t.entry == e.p && pa < 2 ^ 40 && (if e.x then code else apart)

/-- The leaves of a segment's pages, where every one fits. -/
def segLeaves (s : State) (asid : Nat) (e : SegEntry) : Option (List Trans) :=
  let ts := (List.range (e.len / 4096)).map fun i => fixerLeaf s asid (e.va + 4096 * i)
  if ts.all fun t => (t.map (leafFits s e)).getD false then some (ts.filterMap id) else none

/-- Copy a segment page by page into its leaves' pages; the bytes as written, and whether a source line was poisoned. A page
in the table region takes bit 63 of its words as 0: no F bit is set but by the leaves that R407 sets, and the signature is
verified over what has been written (R105; DEDUCED, log entry 72). -/
def copySegment (s : State) (pa : Nat) (ts : List Trans) : State × List Byte × Bool :=
  ts.zipIdx.foldl (fun (s, out, bad) (t, i) =>
    let src := pa + 4096 * i
    let bs := readRun s src 4096
    let dst := ptePa t.entry
    let late := bad || 2 ^ 40 < src + 4096 || poisonedRun s src 4096
    let s := recallAll (plainWrite s true (atRun dst bs)) ((List.range 32).map fun k => dst + 128 * k)
    (s, out ++ readRun s dst 4096, late)) (s, [], false)

/-- A segment that has been verified. -/
structure Verified where
  seg    : SegEntry
  leaves : List Trans
  mark   : List Byte
  deriving DecidableEq, Repr

/-- One segment of R407: its error, or its measurement. -/
def fixSegment (s : State) (asid pa i : Nat) (pub : List Byte) : State × Except Nat Verified :=
  match staged s (pa + 128 + 32 * i) 32 with
  | none => (s, .error 2)
  | some raw =>
    let e := SegEntry.ofBytes raw
    match e.bad, segLeaves s asid e with
    | false, some ts =>
      let (s, data, late) := copySegment s (pa + e.data) ts
      let msg := e.raw ++ data
      match late, staged s (pa + e.sig) 1772 with
      | false, some sig => if lmsVerify pub sig msg then (s, .ok ⟨e, ts, sha256 msg⟩) else (s, .error 3)
      | _, _ => (s, .error 3)
    | _, _ => (s, .error 2)

/-- The segments in table order: the error and the segment where it stopped, or all that were verified. -/
def fixSegments (asid pa : Nat) (pub : List Byte) :
    Nat → Nat → List Verified → State → State × Except (Nat × Nat) (List Verified)
  | 0, _, acc, s => (s, .ok acc)
  | n + 1, i, acc, s =>
    match fixSegment s asid pa i pub with
    | (s, .error err) => (s, .error (err, i))
    | (s, .ok v) => fixSegments asid pa pub n (i + 1) (acc ++ [v]) s

/-- A leaf with R, W and X as a segment's flags give them, and F where it is set. -/
def fixedLeaf (e : SegEntry) (x : Word) : Word :=
  let keep := x &&& ~~~0x800000000000001C#64
  keep ||| word (4 * b2n e.r + 8 * b2n e.w + (if e.x then 16 + 2 ^ 63 else 0))

/-- Set the leaves of a segment, one event per leaf. -/
def fixLeaves (s : State) (v : Verified) : State :=
  v.leaves.foldl (fun s t => match t.place with
    | none => s
    | some pa => putEntry s pa (fixedLeaf v.seg (entryAt s pa))) s

/-- The end of a request: SEG, ERR, and vector 5 (R408). -/
def endLoad (s : State) (err : Nat) (seg : Option Nat) : State :=
  let n := s.nextReq
  let seg := seg.getD (Config.fixSeg n % 256)
  signal { s with nextReq := n + 1
                  regs := { s.regs with fixRun := none, fixErr := err, fixSeg := seg } } 5

/-- The procedure of R407. -/
def runLoad (s : State) (v : Word) : State :=
  match imageKey s (loadPa v) with
  | none => endLoad s 1 none
  | some (pub, count) =>
    match fixSegments (loadAsid v) (loadPa v) pub count 0 [] s with
    | (s, .error (err, i)) => endLoad s err (some i)
    | (s, .ok vs) =>
      let attest := vs.foldl (fun a v => sha256 (a ++ v.mark)) s.regs.attest
      let s := { s with regs := { s.regs with attest := attest, attCnt := s.regs.attCnt + word vs.length } }
      let data := vs.filter fun v => !v.seg.x
      let code := vs.filter fun v => v.seg.x
      endLoad (code.foldl fixLeaves (data.foldl fixLeaves s)) 0 none

/-- LOADREQ with the fields of R407 alone. -/
def loadreqWord (v : Word) : Word := v &&& 0x80FFFFFFFFFFFFFF#64

/-- A LOADREQ write that covers GO: a request begins; while one runs, the write is ignored and sets REFUSED
(R408). -/
def writeLoadreq (s : State) (v : Word) : State :=
  let v := loadreqWord v
  if s.regs.fixRun.isSome then { s with regs := { s.regs with fixRefused := true } }
  else { s with regs := { s.regs with loadReq := v, fixRun := if loadGo v then some v else none } }

/-- LOADREQ: the request that a write started is carried out; without one, the write and the request. -/
def execLoadreq (v : Word) (s : State) : Result :=
  let v := loadreqWord v
  match s.regs.fixRun with
  | some r => if r == v then .next (runLoad s v) else .next (writeLoadreq s v)
  | none => if loadGo v then .next (runLoad (writeLoadreq s v) v) else .next s

end Sys2Proof.Machine
end

