-- ==== Sys2Proof/Machine/System.lean ====
section
/-!
DEFINITION. The system: bring-up and its step log (R411-R413, R437), power (R415, R416), freezing and the
read-out (R417).
-/

namespace Sys2Proof.Machine

/-! ## Bring-up -/

/-- The form of a step: 0 primary, 1 alternate, 2 skipped. -/
abbrev Form := Nat

/-- Steps with an alternate, and the skippable one (R411). -/
def hasAlternate (stp : Nat) : Bool := stp == 2 || stp == 4 || stp == 5
def skippable (stp : Nat) : Bool := stp == 7

/-- The step at which an attempt failed, with its form: the last one logged, where it failed. -/
def failedStep (log : List (Nat × Bool)) : Option (Nat × Form) :=
  match log.getLast? with
  | some (form, false) => some (log.length, form)
  | _ => none

/-- The form that a step runs after the previous attempt (R412). -/
def formOf (prev : List (Nat × Bool)) (stp : Nat) : Form :=
  match failedStep prev with
  | none => 0
  | some (f, form) =>
    if f != stp then 0
    else if form == 0 && hasAlternate stp then 1
    else if skippable stp then 2
    else 0

/-- Run the steps in order until one fails; `pass` tells how each ends, and a skipped step does not fail. -/
def runSteps (prev : List (Nat × Bool)) (pass : List Bool) : Nat → Nat → List (Nat × Bool)
  | 0, _ => []
  | n + 1, stp =>
    let form := formOf prev stp
    let ok := form == 2 || pass.getD (stp - 1) false
    (form, ok) :: (if ok then runSteps prev pass n (stp + 1) else [])

/-- Cores by the fuses (R437): the 48 lowest good ones take the logical numbers, the rest are spares. -/
def mapCores (m : CoreMap) : CoreMap :=
  let good := (List.range 52).filter fun p => m.good.getLsbD p
  let mask (ps : List Nat) : BitVec 52 := ps.foldl (fun b p => b ||| (1#52 <<< p)) 0
  let on := good.take 48
  { m with enabled := mask on, spare := mask (good.drop 48)
           cmap := on ++ List.replicate (48 - on.length) 0x3F
           fenced := 0, held := [], recover := [], op := 0, target := 0 }

/-- Step 5 has run its alternate: the shadow lane of one link is held as a data lane, and the lane whose place it has taken is
the weak one in the shadow role, so that neither returns to rotation and a further replacement is a second one (R316). -/
def heldLink (s : State) (attempt : Nat) : State :=
  let lane := Config.bringupLane attempt % 4
  setLanes s (18 + Config.bringupLink attempt % 512) ((Port.link.swap lane).mark lane)

/-- One attempt, of a number, with the results of its steps: what the module is after it. Once the host's link is up, its
end is signalled on vector 5 (R336, log entry 65). -/
def runAttempt (s : State) (attempt : Nat) (pass : List Bool) : State :=
  let log := runSteps (s.boot.log.getLastD []) pass 8 1
  let passed := (log.filter Prod.snd).length
  let degr := log.zipIdx.foldl (fun b (x, i) => if x.1 != 0 then b ||| (1#8 <<< i) else b) (0#8)
  let kept := (s.boot.log ++ [log]).drop (s.boot.log.length - 3)
  let boot : Boot :=
    { degr := degr, attempt := attempt, stop := false, step := passed, log := kept
      skip7 := ((log[6]?).map fun x => x.1 == 2).getD false }
  let s := { s with boot := if passed != 8 && attempt == 4 then { boot with stop := true, step := 1 } else boot }
  let s := if log[4]? == some (1, true) then heldLink s attempt else s
  if 6 ≤ passed then signal s 5 else s

/-- What a reset leaves (R411): the state after reset, with what the module keeps: its fuses, its step log,
the memory of the host and of other packages, and what it has sent. -/
def afterReset (s : State) : State :=
  { State.reset with
      mem := s.mem.filter fun c => 2 ^ 50 ≤ c.1
      hbm := s.hbm.filter fun l => 2 ^ 50 ≤ 128 * l.1
      cores := s.cores.map mapCores
      keys := s.keys
      hostOut := s.hostOut, wire := s.wire, outside := s.outside, debugOut := s.debugOut
      boot := { Boot.reset with log := s.boot.log }
      agenda := s.agenda }

/-- POWER_ON_RESET: a start, whose steps end as `pass` says. -/
def execPowerOnReset (pass : List Bool) (s : State) : Result := .next (runAttempt (afterReset s) 1 pass)

/-- An attempt has failed and the next one is due (R412). -/
def retryDue (s : State) : Bool := s.boot.attempt != 0 && s.boot.step != 8 && !s.boot.stop && s.boot.attempt < 4

/-- BRINGUP_RETRY: the next attempt, 1 s after a failed one. -/
def execBringupRetry (pass : List Bool) (s : State) : Result :=
  if retryDue s && !s.frozen then .next (runAttempt (afterReset s) (s.boot.attempt + 1) pass) else .next s

/-! ## Power -/

/-- Every die takes its target point anew. -/
def retargetAll (s : State) : State := (List.range 8).foldl retarget s

/-- POWER_LIMIT_EXCEEDED, signalled on vector 5 (log entry 65): the measured power is above LIMITW, and PMIN rises to a slower point. -/
def execPowerLimitExceeded (pmin : Nat) (s : State) : Result :=
  if s.regs.limitW < s.power && s.regs.pmin < pmin && pmin < 16 then
    .next (signal (retargetAll { s with regs := { s.regs with pmin := pmin } }) 5)
  else .next s

/-- MEASURED_POWER_UPDATE: PMIN is set again; a power that has fallen allows faster points. -/
def execMeasuredPowerUpdate (watts : Nat) (s : State) : Result :=
  let s := { s with power := watts }
  if s.regs.limitW < watts then .next s
  else
    let p := min s.regs.pmin (Config.pminOf s.regs.limitW watts)
    let t := retargetAll { s with regs := { s.regs with pmin := p } }
    .next (if p == s.regs.pmin then t else signal t 5)

/-! ## Freezing -/

/-- FREEZE: every clock stops, and the links drop. -/
def execFreeze (s : State) : Result :=
  .next { s with frozen := true, ports := s.ports.map fun p => { p with state := 0 } }

/-- FREEZE_N_HIGH: the clocks stay stopped; only a reset starts them. -/
def execFreezeNHigh (s : State) : Result := .next s

/-- Where the read-out has a die's scheduler and the package's own storage: behind the engines of a die, the latter on die 0
alone (DESIGN CHOICE, log entry 37). -/
def schedulerUnit : Nat := 34
def sharedUnit : Nat := 35

/-- The units of the read-out in their order: die by die the cores, the L2, the engines and the translation unit; last
the HBM. -/
def readoutOrder : List (UnitKind × Nat × Nat) :=
  ((List.range 8).flatMap fun die =>
    ((List.range 52).map fun p => (UnitKind.core, die, p)) ++ [(.l2, die, 0)] ++
      ((List.range (if die == 0 then 36 else 35)).map fun n => (UnitKind.engine, die, n)) ++ [(.translation, die, 0)]) ++ [(.hbm, 0, 0)]

/-- The kinds of units by number. -/
def UnitKind.number : UnitKind → Nat
  | .core => 0
  | .l2 => 1
  | .engine => 2
  | .translation => 3
  | .hbm => 4

/-- The header before a unit: its kind, its index and its length in bytes. -/
def readoutHeader (k : UnitKind) (index : Nat) : Word :=
  word (Config.readoutKind k.number % 65536 * 2 ^ 48 + index % 65536 * 2 ^ 32 +
    Config.readoutLength k.number index % 2 ^ 32)

/-- What of a map lies in a range of keys. -/
def within {α : Type} (m : Sparse α) (lo n : Nat) : Sparse α := m.filter fun e => lo ≤ e.1 && e.1 < lo + n

/-- The storage bits of a unit of a die: as State holds what they hold, since the spec gives the bits of a unit no order
(log entry 65). -/
def unitBits (s : State) (k : UnitKind) (die i : Nat) : UnitBits :=
  let win := windowPa die i 0
  let key := 64 * die + i
  match k with
  | .core => .core (groupsAt s die i) (s.l1.filter fun l => l.die == die && l.phys == i) (within s.mem win (2 ^ 24))
      (within s.spad (win / 128) (2 ^ 17)) (within s.owner (tileKey die i 0) 512) (within s.ownerBad (tileKey die i 0) 512)
      (s.commons.filter fun k => k.die == die && k.phys == i)
  | .l2 => .l2 ((s.l2.filter fun n => l2Die n == die).map fun n =>
      (n, (List.range 128).map fun j => s.mem.read (128 * n + j), s.hbm.get Line.unwritten n))
  | .engine =>
    if i == schedulerUnit then
      .scheduler ((s.queues.drop (8 * die)).take 8) (coreMap s die) (s.vacate.filter fun v => v.die == die)
        (within s.d2d (64 * die) 64)
    else if i == sharedUnit then
      .shared s.regs s.boot s.keys s.images s.ports s.flows s.collIn s.collOut s.hostq s.bar4Log s.power s.ticks
    else if i == collUnit then
      .engine [] (s.colls.filter fun c => c.die == die) (takenColl s die) (s.collNext.get 0 die) (s.unitAns.get [] key)
        (s.unitFar.get [] key)
    else .engine (within s.engq (unitKey die i 0) 4) [] none 0 (s.unitAns.get [] key) (s.unitFar.get [] key)
  | .translation => .translation (s.trans.getD die ⟨[], [], [], []⟩) (s.walks.filter fun r => r.die == die)
  | .hbm => .hbm (within s.mem 0 (2 ^ 48)) (within s.hbm 0 (2 ^ 41))

/-- SAFELIGHT_READOUT: while the clocks are stopped, every unit's bits leave through the debug port behind its header,
and nothing else changes. -/
def execSafelightReadout (s : State) : Result :=
  if s.frozen then
    .next { s with debugOut := readoutOrder.map fun (k, die, i) => ⟨k, die, i, readoutHeader k i, unitBits s k die i⟩ }
  else .next s

end Sys2Proof.Machine
end

