-- ==== Sys2Proof/Machine/HostPort.lean ====
section
/-!
DEFINITION. The host port (R333-R335): the device registers as BAR0 and BAR2 read and write them (R87, R374),
the HBM aperture, and the completions of the package's own requests to host memory.
-/

namespace Sys2Proof.Machine

/-! ## Device registers (R87) -/

/-- The address of BAR2 in the numbering of registers: BAR0 lies below (R333). -/
def bar2Base : Nat := 2 ^ 24

/-- A bit at a place. -/
def bitAt (b : Bool) (i : Nat) : Nat := b2n b * 2 ^ i

/-- n bytes of a byte map from a place, as a number. -/
def bytesAt (dflt : Byte) (m : Sparse Byte) (off n : Nat) : Nat :=
  natOfBytes ((List.range n).map fun i => m.get dflt (off + i))

/-- PORTST (R316). -/
def portWord (p : Port) : Nat := p.swaps * 2 ^ 16 + p.shadow * 2 ^ 8 + p.weak.toNat * 2 ^ 3 + p.state

/-- QSTAT (R374). -/
def queueWord (q : Queue) : Nat := q.count * 2 ^ 32 + q.last

/-- BOOTST (R413). -/
def bootWord (b : Boot) : Nat := b.degr.toNat * 2 ^ 8 + b.attempt * 2 ^ 5 + bitAt b.stop 4 + b.step

/-- The eight bytes of CMAP from a byte on (R437). -/
def cmapWord (m : CoreMap) (first : Nat) : Nat :=
  natOfBytes ((List.range 8).map fun i => BitVec.ofNat 8 (m.cmap.getD (first + i) 0))

/-- A register of a submission window (R374). -/
def readWindow (s : State) (off : Nat) : Nat :=
  let q := s.queues.getD (off / 16384) Queue.reset
  let o := off % 16384
  if o < 0x40 then (q.stage.getD (o / 8) 0).toNat
  else if o == 0x48 then queueWord q
  else 0

/-- Registers below 0x800, by offset. -/
def readLow (s : State) (off : Nat) : Nat :=
  let r := s.regs
  if off == 0x100 then bitAt r.lock 63 + r.localGib
  else if off == 0x200 then r.walkTmo * 2 ^ 16 + b2n r.walkHost
  else if off == 0x208 then r.rootBase
  else if off == 0x210 then r.ptBase
  else if off == 0x218 then r.ptLimit
  else if off == 0x220 then r.trinv.toNat
  else if off == 0x228 then bitAt r.trinvErr 1 + b2n r.trinvRun.isSome
  else if off == 0x230 then r.hwRing
  else if off == 0x400 then bitAt r.lock 63 + r.mode * 2 ^ 40 + r.npkg * 2 ^ 16 + r.pkgId
  else if 0x440 ≤ off && off < 0x440 + 8 * 18 then portWord (portOf s ((off - 0x440) / 8))
  else if off == 0x500 then r.fabTmo * 2 ^ 32 + bitAt r.assist 8 + stampVer s
  else if 0x600 ≤ off && off < 0x640 then r.cqRoot.get 0 ((off - 0x600) / 8)
  else if off == 0x640 then r.cdrop
  else if off == 0x700 then r.h4base
  else if off == 0x708 then r.hostErr.toNat
  else 0

/-- Registers from 0x800 to 0xBFF. -/
def readMid (s : State) (off : Nat) : Nat :=
  let r := s.regs
  if off < 0xA00 then
    let q := s.queues.getD ((off - 0x800) / 8) Queue.reset
    q.base + q.logcap
  else if off == 0xA00 then r.vacReq.toNat
  else if off == 0xA08 then bitAt r.vacBusy 63 + bitAt r.vacErr 62 + r.vacDone
  else if off == 0xA10 then r.schErr.toNat
  else if off == 0xB00 then
    r.fsTmo * 2 ^ 48 + r.vacTmo * 2 ^ 16 + bitAt r.vacHost 2 + bitAt r.recHost 1 + b2n r.fsHost
  else if off == 0xB08 then r.fsRing
  else if off == 0xB10 then r.vacMask.toNat
  else if off == 0xB18 then r.fenceReq.toNat
  else if off == 0xB40 then r.contst0.toNat
  else if off == 0xB48 then r.contst1.toNat
  else if 0xB80 ≤ off && off < 0xBC0 then
    r.imgBase.get 0 ((off - 0xB80) / 8) + r.imgCount.get 0 ((off - 0xB80) / 8)
  else 0

/-- Registers from 0xC00 on. -/
def readHigh (s : State) (off : Nat) : Nat :=
  let r := s.regs
  if off == 0xC00 then r.loadReq.toNat
  else if off == 0xC08 then r.fixSeg * 4 + bitAt r.fixRefused 1 + b2n r.fixRun.isSome
  else if off == 0xC10 then r.codeBase
  else if off == 0xC18 then r.codeLimit
  else if off == 0xC28 then r.fixErr
  else if 0xC30 ≤ off && off < 0xC50 then natOfBytes (slice r.attest (off - 0xC30) 8)
  else if off == 0xC50 then r.attCnt.toNat
  else if off == 0xC80 then bootWord s.boot
  else if off == 0xD00 then r.pmin * 2 ^ 16 + r.limitW
  else if off == 0xD08 then (List.range 8).foldl (fun n d => n + (coreMap s d).op * 2 ^ (4 * d)) 0
  else if 0xD40 ≤ off && off < 0xD80 then (coreMap s ((off - 0xD40) / 8)).enabled.toNat
  else if 0xD80 ≤ off && off < 0xDC0 then (coreMap s ((off - 0xD80) / 8)).spare.toNat
  else if 0xE00 ≤ off && off < 0x1000 then cmapWord (coreMap s ((off - 0xE00) / 64)) (off % 64)
  else if 0x10000 ≤ off && off < 0x10040 then bytesAt 0xFF r.rtCur (off - 0x10000) 8
  else if 0x10040 ≤ off && off < 0x10080 then bytesAt 0xFF r.rtStage (off - 0x10040) 8
  else if 0x20000 ≤ off && off < 0x20000 + 64 * 1152 then bytesAt 0xFE r.rtBackup (off - 0x20000) 8
  else 0

/-- What the eight bytes at an aligned offset of BAR0 or BAR2 read; nothing there reads 0. -/
def readRegister (s : State) (off : Nat) : Word :=
  word (if bar2Base ≤ off then readWindow s (off - bar2Base)
    else if off < 0x800 then readLow s off
    else if off < 0xC00 then readMid s off
    else readHigh s off)

/-- An access of 4 or 8 bytes that is naturally aligned. -/
def accessOk (off bytes : Nat) : Bool := (bytes == 4 || bytes == 8) && off % bytes == 0

/-- What a host read of a register returns; `none`: Unsupported Request. -/
def hostReadRegister (s : State) (off bytes : Nat) : Option Nat :=
  if accessOk off bytes then some ((readRegister s (off / 8 * 8)).toNat / 2 ^ (8 * (off % 8)) % 2 ^ (8 * bytes))
  else none

/-- A write as the whole register sees it: the word with the other half as it stands, and the mask of the
half or halves written. -/
structure RegWrite where
  off  : Nat
  v    : Word
  mask : Word
  deriving DecidableEq, Repr

def regWrite (s : State) (off bytes : Nat) (v : Word) : RegWrite :=
  let mask : Word := if bytes == 8 then BitVec.allOnes 64
    else if off % 8 == 4 then 0xFFFFFFFF00000000#64 else 0x00000000FFFFFFFF#64
  let at_ := v <<< (8 * (off % 8))
  let now := readRegister s (off / 8 * 8)
  ⟨off / 8 * 8, (now &&& ~~~mask) ||| (at_ &&& mask), mask⟩

/-- The upper half is written. -/
def RegWrite.high (w : RegWrite) : Bool := w.mask.getLsbD 63
/-- The lower half is written. -/
def RegWrite.low (w : RegWrite) : Bool := w.mask.getLsbD 0
/-- A W1C bit is cleared by this write. -/
def RegWrite.clears (w : RegWrite) (i : Nat) : Bool := w.mask.getLsbD i && w.v.getLsbD i

/-- Bits [51:lo] in their places. -/
def upTo51 (v : Word) (lo : Nat) : Nat := field v 51 lo * 2 ^ lo

/-- Change the device registers. -/
def modRegs (s : State) (f : Regs → Regs) : State := { s with regs := f s.regs }

/-- VALID and OVF of a capture register, each cleared by writing 1. -/
def clearCapture (old : Word) (w : RegWrite) : Word :=
  let a := if w.clears 63 then old &&& ~~~(1#64 <<< 63) else old
  if w.clears 62 then a &&& ~~~(1#64 <<< 62) else a

/-- SCHQCFG (R373, R376): ignored while the queue or its chain holds anything. -/
def writeQueue (s : State) (i : Nat) (v : Word) : State :=
  { s with queues := modifyAt (fun q =>
      if q.busy then q else { q with base := upTo51 v 12, logcap := field v 4 0, head := 0 }) i s.queues }

/-- Some slot of a die's pool is in use. -/
def poolUsed (s : State) (die : Nat) : Bool :=
  let base := s.regs.imgBase.get 0 die
  s.images.any fun pa => base ≤ pa && pa < base + imgSize * s.regs.imgCount.get 0 die

/-- IMGPOOL (R399). -/
def writePool (s : State) (die : Nat) (v : Word) : State :=
  let base := upTo51 v 23
  let n := field v 11 0
  if n < s.regs.imgCount.get 0 die || (base != s.regs.imgBase.get 0 die && poolUsed s die) then s
  else modRegs s fun r => { r with imgBase := r.imgBase.set 0 die base, imgCount := r.imgCount.set 0 die n }

/-- A register of a submission window (R374): eight staged words, and SUBMIT. -/
def writeWindow (s : State) (w : RegWrite) : State :=
  let off := w.off - bar2Base
  let i := off / 16384
  let o := off % 16384
  if o < 0x40 then
    { s with queues := modifyAt (fun q => { q with stage := q.stage.set (o / 8) w.v }) i s.queues }
  else if o == 0x40 && w.high && w.low then
    match execSubmit (i / 8) (i % 8) s with
    | .next s => s
    | _ => s
  else s

/-- PWRCTL.LIMITW: a value outside its range is the nearer bound (R416). -/
def limitOf (n : Nat) : Nat := if n < 1000 then 1000 else if 5400 < n then 5400 else n

/-- Write registers below 0x800. -/
def writeLow (s : State) (w : RegWrite) : State :=
  let v := w.v
  let off := w.off
  if off == 0x100 then
    (if s.regs.lock then s else modRegs s fun r => { r with localGib := min 64 (field v 6 0) })
  else if off == 0x200 then modRegs s fun r => { r with walkTmo := field v 31 16, walkHost := v.getLsbD 0 }
  else if off == 0x208 then modRegs s fun r => { r with rootBase := upTo51 v 12 }
  else if off == 0x210 then modRegs s fun r => { r with ptBase := upTo51 v 21 }
  else if off == 0x218 then modRegs s fun r => { r with ptLimit := upTo51 v 21 }
  else if off == 0x220 then (if w.high then writeTrinv s v else modRegs s fun r => { r with trinv := trinvWord v })
  else if off == 0x228 then
    modRegs s fun r => { r with trinvErr := r.trinvErr && !w.clears 1 }
  else if off == 0x230 then modRegs s fun r => { r with hwRing := upTo51 v 12 }
  else if off == 0x400 then writeFabcfg s v w.high
  else if off == 0x500 then
    modRegs s fun r => { r with fabTmo := field v 47 32, assist := v.getLsbD 8 }
  else if off == 0x508 then
    (if w.low then
      match execRtadv v s with
      | .next s => s
      | _ => s
     else s)
  else if 0x600 ≤ off && off < 0x640 then
    modRegs s fun r => { r with cqRoot := r.cqRoot.set 0 ((off - 0x600) / 8) (upTo51 v 12) }
  else if off == 0x700 then modRegs s fun r => { r with h4base := field v 39 30 * 2 ^ 30 }
  else s

/-- Write registers from 0x800 to 0xBFF. -/
def writeMid (s : State) (w : RegWrite) : State :=
  let v := w.v
  let off := w.off
  if off < 0xA00 then writeQueue s ((off - 0x800) / 8) v
  else if off == 0xA00 then (if w.high then writeVacreq s v else modRegs s fun r => { r with vacReq := vacreqWord v })
  else if off == 0xA08 then modRegs s fun r => { r with vacErr := r.vacErr && !w.clears 62 }
  else if off == 0xA10 then modRegs s fun r => { r with schErr := clearCapture r.schErr w }
  else if off == 0xB00 then
    modRegs s fun r => { r with fsTmo := field v 63 48, vacTmo := field v 31 16, vacHost := v.getLsbD 2,
                                recHost := v.getLsbD 1, fsHost := v.getLsbD 0 }
  else if off == 0xB08 then modRegs s fun r => { r with fsRing := upTo51 v 12 }
  else if off == 0xB10 then modRegs s fun r => { r with vacMask := v.setWidth 48 }
  else if off == 0xB18 then
    (if w.high then writeFencereq s v else modRegs s fun r => { r with fenceReq := fencereqWord v })
  else if off == 0xB40 then modRegs s fun r => { r with contst0 := clearCapture r.contst0 w }
  else if 0xB80 ≤ off && off < 0xBC0 then writePool s ((off - 0xB80) / 8) v
  else s

/-- Put the eight bytes of a word into a byte map. -/
def putWord (dflt : Byte) (m : Sparse Byte) (off : Nat) (v : Word) : Sparse Byte :=
  (wordBytes v).zipIdx.foldl (fun m (b, i) => m.set dflt (off + i) b) m

/-- Write registers from 0xC00 on. -/
def writeHigh (s : State) (w : RegWrite) : State :=
  let v := w.v
  let off := w.off
  if off == 0xC00 then
    (if w.high || s.regs.fixRun.isSome then writeLoadreq s v
     else modRegs s fun r => { r with loadReq := loadreqWord v })
  else if off == 0xC08 then modRegs s fun r => { r with fixRefused := r.fixRefused && !w.clears 1 }
  else if off == 0xC10 then
    (if s.regs.lock then s else modRegs s fun r => { r with codeBase := upTo51 v 21 })
  else if off == 0xC18 then
    (if s.regs.lock then s else modRegs s fun r => { r with codeLimit := upTo51 v 21 })
  else if off == 0xD00 then modRegs s fun r => { r with limitW := limitOf (field v 12 0) }
  else if 0x10040 ≤ off && off < 0x10080 then
    modRegs s fun r => { r with rtStage := putWord 0xFF r.rtStage (off - 0x10040) v }
  else if 0x20000 ≤ off && off < 0x20000 + 64 * 1152 then
    modRegs s fun r => { r with rtBackup := putWord 0xFE r.rtBackup (off - 0x20000) v }
  else s

/-- A write to a register of BAR0 or BAR2; read-only and absent registers ignore it. -/
def writeRegister (s : State) (off bytes : Nat) (v : Word) : State :=
  let w := regWrite s off bytes v
  if bar2Base ≤ w.off then writeWindow s w
  else if w.off < 0x800 then writeLow s w
  else if w.off < 0xC00 then writeMid s w
  else writeHigh s w

/-- REGISTER_WRITE: a host write of 4 or 8 bytes, naturally aligned; any other is an Unsupported Request. -/
def execRegisterWrite (off bytes : Nat) (v : Word) (s : State) : Result :=
  if accessOk off bytes then .next (writeRegister s off bytes v) else .next (toHost s .unsupported)

/-! ## BAR4 (R333, R334) -/

/-- The Resizable BAR capability sets the size of BAR4: a power of two from 1 GiB to 1 TiB (R333). -/
def resizeBar4 (s : State) (log : Nat) : State := if 30 ≤ log && log ≤ 40 then { s with bar4Log := log } else s

/-- The HBM offset of an aperture offset, where n bytes from it lie within the aperture and the HBM. -/
def apertureAt (s : State) (off n : Nat) : Option Nat :=
  let size := 2 ^ s.bar4Log
  let a := s.regs.h4base / size * size + off
  if off + n ≤ size && a + n ≤ 2 ^ 40 then some a else none

/-- BAR4_READ: the completion carries the bytes, poisoned where a line is (R98). -/
def execBar4Read (off len : Nat) (s : State) : Result :=
  match apertureAt s off len with
  | none => .next (toHost s .unsupported)
  | some a => .next (toHost s (.completion (readRun s a len) (poisonedRun s a len)))

/-- BAR4_WRITE: a plain write (R92). -/
def execBar4Write (off : Nat) (bytes : List Byte) (s : State) : Result :=
  match apertureAt s off bytes.length with
  | none => .next (toHost s .unsupported)
  | some a =>
    let s := plainWrite s false (atRun a bytes)
    .next (recallAll s ((List.range bytes.length).map (a + ·)))

/-! ## The package's requests to host memory (R308, R312, R335) -/

/-- The PA of a host address (R80). -/
def hostPa (addr : Nat) : Nat := 2 ^ 51 + addr % 2 ^ 51

/-- A gang's FENCE.sys completes: its zero-length read has come back (R312). -/
def flushDone (s : State) (gid wave slice : Nat) : State :=
  match (findWave s gid wave).bind fun w => w.gangs.find? fun g => g.slices.getLsbD slice with
  | none => s
  | some g =>
    if g.hold == .fence true then
      modWave s gid wave fun w => { w.modGang slice fun g => g.advance 8 with hostWrote := none }
    else s

/-- What the host held when it answered, but for the bytes that later posted writes have written (R308). -/
def storeAnswered (s : State) (addr : Nat) (bs : List Byte) (later : List Nat) : State :=
  storeBytes s ((atRun (hostPa addr) bs).filter fun c => !(later.map hostPa).contains c.1)

/-- What a completion does to the request it answers. -/
def completeHost (s : State) (q : HostReq) (r : HostResp) : State :=
  match q, r with
  | .flush gid wave slice _, _ => flushDone s gid wave slice
  | .saved _ _, _ => s
  | .read id addr _ later, .data bs => answerRead (storeAnswered s addr bs later) id bs 0 [⟨hostPa addr, bs, Line.plain⟩]
  | .read id _ _ _, .error => answerBad s id 5 []
  | .atomic id addr n op v cmp later, .data bs =>
    let t : Ty := if n == 4 then .n32 else .n64
    let (x, _) := atomNew t op (natOfBytes (bs.take n)) v.toNat cmp.toNat
    let s := storeAnswered s addr (bytesOfNat n x) later
    answerWrite (answerRead s id (bs.take n) 0 []) id 0
  | .atomic id _ _ _ _ _ _, .error => answerBad s id 5 []

/-- HOST_COMPLETION: the completion of the oldest request. -/
def execHostCompletion (r : HostResp) (s : State) : Result :=
  match s.hostq with
  | [] => .next s
  | q :: rest => .next (completeHost { s with hostq := rest } q r)

/-- COMPLETION_TIMEOUT: the oldest request has no completion in time. -/
def execCompletionTimeout (s : State) : Result := execHostCompletion .error s

/-- HOST_WRITE_FAILURE: a posted write failed; it is logged and signalled on vector 0. -/
def execHostWriteFailure (addr : Nat) (s : State) : Result :=
  .next (signal { s with regs := { s.regs with hostErr := Config.hostErr addr } } 0)

end Sys2Proof.Machine
end

