-- ==== Sys2Proof/Machine/Scalar.lean ====
section
/-!
DEFINITION. Scalar integer arithmetic 0x20-0x35 (R363-R366) and the index registers 0x36-0x37 (R367).
-/

namespace Sys2Proof.Machine

/-- D ← op(A, B), extended to 64 bits by the type (R364). -/
def scalarBin (s : State) (o : SBin) (op : Nat → Nat → Nat) : Result :=
  waveOp s (slen o.b) (.sw o.d :: .sr o.a :: useS o.b) (fun _ => []) fun c =>
    c.w.writeS o.d (extendTy o.t (op ((c.w.readS o.a).toNat % 2 ^ o.t.width) (c.w.srcSTy o.t o.b)))

/-- D ← op(A), extended to 64 bits by the type (R364). -/
def scalarUn (s : State) (o : SUn) (op : Nat → Nat) : Result :=
  waveOp s 8 [.sw o.d, .sr o.a] (fun _ => []) fun c =>
    c.w.writeS o.d (extendTy o.t (op ((c.w.readS o.a).toNat % 2 ^ o.t.width)))

def execSadd (o : SBin) (s : State) : Result := scalarBin s o (iAdd o.t o.sat)
def execSsub (o : SBin) (s : State) : Result := scalarBin s o (iSub o.t o.sat)
def execSmul (o : SBin) (s : State) : Result := scalarBin s o (iMul o.t o.sat)
def execSmulh (o : SBin) (s : State) : Result := scalarBin s o (iMulh o.t)
def execSdiv (o : SBin) (s : State) : Result := scalarBin s o (iDiv o.t o.sat)
def execSrem (o : SBin) (s : State) : Result := scalarBin s o (iRem o.t)
def execSand (o : SBin) (s : State) : Result := scalarBin s o (iAnd o.t)
def execSor (o : SBin) (s : State) : Result := scalarBin s o (iOr o.t)
def execSxor (o : SBin) (s : State) : Result := scalarBin s o (iXor o.t)
def execSshl (o : SBin) (s : State) : Result := scalarBin s o (iShl o.t o.sat)
def execSshr (o : SBin) (s : State) : Result := scalarBin s o (iShr o.t)
def execSmin (o : SBin) (s : State) : Result := scalarBin s o (iMin o.t)
def execSmax (o : SBin) (s : State) : Result := scalarBin s o (iMax o.t)
def execSbfx (o : SBin) (s : State) : Result := scalarBin s o (iBfx o.t)
def execSpopc (o : SUn) (s : State) : Result := scalarUn s o (iPopc o.t)
def execSclz (o : SUn) (s : State) : Result := scalarUn s o (iClz o.t)

/-- SCMP: 1 where the condition holds, else 0 (R365). -/
def execScmp (d a : SReg) (b : SSrc) (t : Ty) (cond : Cond) (s : State) : Result :=
  waveOp s (slen b) (.sw d :: .sr a :: useS b) (fun _ => []) fun c =>
    c.w.writeS d (word (iCond t cond ((c.w.readS a).toNat % 2 ^ t.width) (c.w.srcSTy t b)).toNat)

/-- SSEL: all 64 bits (R365). -/
def execSsel (d a : SReg) (b : SSrc) (k : SReg) (s : State) : Result :=
  waveOp s (slen b) (.sw d :: .sr a :: .sr k :: useS b) (fun _ => []) fun c =>
    c.w.writeS d (if c.w.readS k != 0 then c.w.readS a else c.w.srcS b)

/-- SMOV: wrapped to the type's width and extended (R365). -/
def execSmov (d : SReg) (b : SSrc) (t : Ty) (s : State) : Result :=
  waveOp s (slen b) (.sw d :: useS b) (fun _ => []) fun c =>
    c.w.writeS d (extendTy t (c.w.srcSTy t b))

/-- SLEA: sA + sB × 2^F (R365). -/
def execSlea (d a : SReg) (b : SSrc) (sh : Fin 8) (s : State) : Result :=
  waveOp s (slen b) (.sw d :: .sr a :: useS b) (fun _ => []) fun c =>
    c.w.writeS d (c.w.readS a + (c.w.srcS b <<< sh.val))

/-- SBFI: the field of C replaced by the low bits of A (R223). -/
def execSbfi (d a : SReg) (b : SSrc) (k : SReg) (t : Ty) (s : State) : Result :=
  waveOp s (slen b) (.sw d :: .sr a :: .sr k :: useS b) (fun _ => []) fun c =>
    c.w.writeS d (extendTy t (iBfi t ((c.w.readS a).toNat % 2 ^ t.width) (c.w.srcSTy t b)
      ((c.w.readS k).toNat % 2 ^ t.width)))

/-- SARG: word F of the frame, a plain read that completes at once (R366). -/
def execSarg (d : SReg) (n : Imm8) (s : State) : Result :=
  issued s fun c =>
    let frame := c.g.record.getD 1 0
    let pre := useConds c c.all [.sw d] ++ when (frame.toNat % 8 != 0) (c.wide 6 (3 * 2 ^ 56))
    let a : Acc := ⟨c.all.headD 0, (frame + word (8 * n.val)).toNat, 8⟩
    directOp s c .wave pre .g [a]
      (fun t => t.oks.flatMap fun (a, ps) => directConds t.s c true a.lane ps)
      fun t =>
        let ps := t.oks.flatMap Prod.snd
        let x := wordOfBytes (readPieces t.s c.w.far ps)
        retireNow (touch t.s c false ps) c 8 fun w => w.writeS d x

/-- XSETB: BASE and LIMIT, not checked (R367). -/
def execXsetb (d : XReg) (a : SReg) (b : SSrc) (s : State) : Result :=
  waveOp s (slen b) (.sr a :: useS b) (fun _ => []) fun c =>
    let w := { c.w with xbase := c.w.xbase.set 0 d.val (field (c.w.readS a) 7 0)
                        xlimit := c.w.xlimit.set 0 d.val (min (c.w.srcS b).toNat 256) }
    w.unmark (mkBase d.val)

/-- XLD: the low byte of A in each active lane (R367). -/
def execXld (g : Guard) (d : XReg) (a : VReg) (s : State) : Result :=
  laneOp s 8 g [.vr 1 a.val] (fun _ _ => []) fun c ls =>
    ls.foldl (fun w l => w.writeX d.val l (field (c.w.readV a.val l) 7 0)) c.w

end Sys2Proof.Machine
end

