-- ==== Sys2Proof/Machine/Dispatch.lean ====
section
/-!
DEFINITION. The meaning of every constructor of Instr: one direct call each.
-/

namespace Sys2Proof.Machine

def exec (i : Instr) (s : State) : Host.Outcome State Fault Refusal :=
  match i with
  | .bra x1 x2 x3 => Sys2Proof.Machine.execBra x1 x2 x3 s
  | .brs x1 x2 x3 => Sys2Proof.Machine.execBrs x1 x2 x3 s
  | .brx x1 x2 x3 x4 => Sys2Proof.Machine.execBrx x1 x2 x3 x4 s
  | .call x1 x2 => Sys2Proof.Machine.execCall x1 x2 s
  | .calli x1 x2 x3 => Sys2Proof.Machine.execCalli x1 x2 x3 s
  | .ret x1 => Sys2Proof.Machine.execRet x1 s
  | .regang x1 => Sys2Proof.Machine.execRegang x1 s
  | .clause x1 x2 x3 x4 x5 x6 => Sys2Proof.Machine.execClause x1 x2 x3 x4 x5 x6 s
  | .wait x1 x2 x3 x4 => Sys2Proof.Machine.execWait x1 x2 x3 x4 s
  | .bar x1 x2 => Sys2Proof.Machine.execBar x1 x2 s
  | .arrive x1 x2 => Sys2Proof.Machine.execArrive x1 x2 s
  | .spawn x1 x2 x3 x4 => Sys2Proof.Machine.execSpawn x1 x2 x3 x4 s
  | .release x1 x2 => Sys2Proof.Machine.execRelease x1 x2 s
  | .trap x1 => Sys2Proof.Machine.execTrap x1 s
  | .mfs x1 => Sys2Proof.Machine.execMfs x1 s
  | .mts x1 => Sys2Proof.Machine.execMts x1 s
  | .hint x1 => Sys2Proof.Machine.execHint x1 s
  | .sadd x1 => Sys2Proof.Machine.execSadd x1 s
  | .ssub x1 => Sys2Proof.Machine.execSsub x1 s
  | .smul x1 => Sys2Proof.Machine.execSmul x1 s
  | .smulh x1 => Sys2Proof.Machine.execSmulh x1 s
  | .sdiv x1 => Sys2Proof.Machine.execSdiv x1 s
  | .srem x1 => Sys2Proof.Machine.execSrem x1 s
  | .sand x1 => Sys2Proof.Machine.execSand x1 s
  | .sor x1 => Sys2Proof.Machine.execSor x1 s
  | .sxor x1 => Sys2Proof.Machine.execSxor x1 s
  | .sshl x1 => Sys2Proof.Machine.execSshl x1 s
  | .sshr x1 => Sys2Proof.Machine.execSshr x1 s
  | .smin x1 => Sys2Proof.Machine.execSmin x1 s
  | .smax x1 => Sys2Proof.Machine.execSmax x1 s
  | .scmp x1 x2 x3 x4 x5 => Sys2Proof.Machine.execScmp x1 x2 x3 x4 x5 s
  | .ssel x1 x2 x3 x4 => Sys2Proof.Machine.execSsel x1 x2 x3 x4 s
  | .smov x1 x2 x3 => Sys2Proof.Machine.execSmov x1 x2 x3 s
  | .slea x1 x2 x3 x4 => Sys2Proof.Machine.execSlea x1 x2 x3 x4 s
  | .sbfx x1 => Sys2Proof.Machine.execSbfx x1 s
  | .sbfi x1 x2 x3 x4 x5 => Sys2Proof.Machine.execSbfi x1 x2 x3 x4 x5 s
  | .spopc x1 => Sys2Proof.Machine.execSpopc x1 s
  | .sclz x1 => Sys2Proof.Machine.execSclz x1 s
  | .sarg x1 x2 => Sys2Proof.Machine.execSarg x1 x2 s
  | .xsetb x1 x2 x3 => Sys2Proof.Machine.execXsetb x1 x2 x3 s
  | .xld x1 x2 x3 => Sys2Proof.Machine.execXld x1 x2 x3 s
  | .vadd x1 => Sys2Proof.Machine.execVadd x1 s
  | .vsub x1 => Sys2Proof.Machine.execVsub x1 s
  | .vmul x1 => Sys2Proof.Machine.execVmul x1 s
  | .vmulh x1 => Sys2Proof.Machine.execVmulh x1 s
  | .vmad x1 => Sys2Proof.Machine.execVmad x1 s
  | .vdiv x1 => Sys2Proof.Machine.execVdiv x1 s
  | .vrem x1 => Sys2Proof.Machine.execVrem x1 s
  | .vand x1 => Sys2Proof.Machine.execVand x1 s
  | .vor x1 => Sys2Proof.Machine.execVor x1 s
  | .vxor x1 => Sys2Proof.Machine.execVxor x1 s
  | .vnot x1 => Sys2Proof.Machine.execVnot x1 s
  | .vshl x1 => Sys2Proof.Machine.execVshl x1 s
  | .vshr x1 => Sys2Proof.Machine.execVshr x1 s
  | .vmin x1 => Sys2Proof.Machine.execVmin x1 s
  | .vmax x1 => Sys2Proof.Machine.execVmax x1 s
  | .vabs x1 => Sys2Proof.Machine.execVabs x1 s
  | .vneg x1 => Sys2Proof.Machine.execVneg x1 s
  | .vcmp x1 => Sys2Proof.Machine.execVcmp x1 s
  | .vsel x1 x2 x3 x4 x5 => Sys2Proof.Machine.execVsel x1 x2 x3 x4 x5 s
  | .vmov x1 x2 x3 x4 => Sys2Proof.Machine.execVmov x1 x2 x3 x4 s
  | .vpopc x1 => Sys2Proof.Machine.execVpopc x1 s
  | .vclz x1 => Sys2Proof.Machine.execVclz x1 s
  | .vbfx x1 => Sys2Proof.Machine.execVbfx x1 s
  | .vbfi x1 => Sys2Proof.Machine.execVbfi x1 s
  | .vdot4 x1 => Sys2Proof.Machine.execVdot4 x1 s
  | .viota x1 x2 x3 x4 => Sys2Proof.Machine.execViota x1 x2 x3 x4 s
  | .vrdx x1 x2 x3 => Sys2Proof.Machine.execVrdx x1 x2 x3 s
  | .vwrx x1 x2 x3 => Sys2Proof.Machine.execVwrx x1 x2 x3 s
  | .vcvti x1 => Sys2Proof.Machine.execVcvti x1 s
  | .vpack x1 x2 x3 x4 x5 x6 x7 => Sys2Proof.Machine.execVpack x1 x2 x3 x4 x5 x6 x7 s
  | .vunpk x1 x2 x3 x4 x5 x6 => Sys2Proof.Machine.execVunpk x1 x2 x3 x4 x5 x6 s
  | .vpermb x1 x2 x3 x4 x5 => Sys2Proof.Machine.execVpermb x1 x2 x3 x4 x5 s
  | .vfadd x1 => Sys2Proof.Machine.execVfadd x1 s
  | .vfsub x1 => Sys2Proof.Machine.execVfsub x1 s
  | .vfmul x1 => Sys2Proof.Machine.execVfmul x1 s
  | .vfma x1 => Sys2Proof.Machine.execVfma x1 s
  | .vfdiv x1 => Sys2Proof.Machine.execVfdiv x1 s
  | .vfsqrt x1 => Sys2Proof.Machine.execVfsqrt x1 s
  | .vfmin x1 => Sys2Proof.Machine.execVfmin x1 s
  | .vfmax x1 => Sys2Proof.Machine.execVfmax x1 s
  | .vfcmp x1 => Sys2Proof.Machine.execVfcmp x1 s
  | .vfclass x1 => Sys2Proof.Machine.execVfclass x1 s
  | .vfrcp x1 => Sys2Proof.Machine.execVfrcp x1 s
  | .vfrsq x1 => Sys2Proof.Machine.execVfrsq x1 s
  | .vfexp2 x1 => Sys2Proof.Machine.execVfexp2 x1 s
  | .vflog2 x1 => Sys2Proof.Machine.execVflog2 x1 s
  | .vfscale x1 => Sys2Proof.Machine.execVfscale x1 s
  | .vfrnd x1 x2 x3 x4 x5 x6 => Sys2Proof.Machine.execVfrnd x1 x2 x3 x4 x5 x6 s
  | .vfcvt x1 => Sys2Proof.Machine.execVfcvt x1 s
  | .vfcvti x1 => Sys2Proof.Machine.execVfcvti x1 s
  | .vicvtf x1 => Sys2Proof.Machine.execVicvtf x1 s
  | .vfslice x1 x2 x3 x4 x5 x6 => Sys2Proof.Machine.execVfslice x1 x2 x3 x4 x5 x6 s
  | .vfjoin x1 => Sys2Proof.Machine.execVfjoin x1 s
  | .voptm x1 x2 x3 x4 => Sys2Proof.Machine.execVoptm x1 x2 x3 x4 s
  | .vckadd x1 x2 x3 x4 x5 => Sys2Proof.Machine.execVckadd x1 x2 x3 x4 x5 s
  | .vcktst x1 x2 x3 x4 x5 => Sys2Proof.Machine.execVcktst x1 x2 x3 x4 x5 s
  | .vfdot2 x1 x2 x3 x4 x5 x6 x7 x8 => Sys2Proof.Machine.execVfdot2 x1 x2 x3 x4 x5 x6 x7 x8 s
  | .bamax x1 x2 x3 x4 => Sys2Proof.Machine.execBamax x1 x2 x3 x4 s
  | .bscale x1 x2 x3 x4 x5 x6 => Sys2Proof.Machine.execBscale x1 x2 x3 x4 x5 x6 s
  | .bquant x1 => Sys2Proof.Machine.execBquant x1 s
  | .bdeq x1 x2 x3 x4 x5 x6 x7 => Sys2Proof.Machine.execBdeq x1 x2 x3 x4 x5 x6 x7 s
  | .brescale x1 => Sys2Proof.Machine.execBrescale x1 s
  | .scget x1 x2 x3 => Sys2Proof.Machine.execScget x1 x2 x3 s
  | .scset x1 x2 x3 x4 x5 => Sys2Proof.Machine.execScset x1 x2 x3 x4 x5 s
  | .aqparm x1 x2 x3 => Sys2Proof.Machine.execAqparm x1 x2 x3 s
  | .aquant x1 x2 x3 x4 x5 x6 => Sys2Proof.Machine.execAquant x1 x2 x3 x4 x5 x6 s
  | .adeq x1 x2 x3 x4 x5 x6 x7 => Sys2Proof.Machine.execAdeq x1 x2 x3 x4 x5 x6 x7 s
  | .xshfl x1 => Sys2Proof.Machine.execXshfl x1 s
  | .xpush x1 x2 => Sys2Proof.Machine.execXpush x1 x2 s
  | .xbfly x1 x2 x3 x4 x5 => Sys2Proof.Machine.execXbfly x1 x2 x3 x4 x5 s
  | .xbcast x1 x2 x3 x4 x5 => Sys2Proof.Machine.execXbcast x1 x2 x3 x4 x5 s
  | .xvote x1 x2 x3 x4 => Sys2Proof.Machine.execXvote x1 x2 x3 x4 s
  | .xred x1 x2 x3 x4 x5 x6 => Sys2Proof.Machine.execXred x1 x2 x3 x4 x5 x6 s
  | .xscan x1 x2 x3 x4 x5 x6 x7 => Sys2Proof.Machine.execXscan x1 x2 x3 x4 x5 x6 x7 s
  | .xcompact x1 x2 x3 x4 x5 => Sys2Proof.Machine.execXcompact x1 x2 x3 x4 x5 s
  | .xsample x1 x2 x3 x4 x5 => Sys2Proof.Machine.execXsample x1 x2 x3 x4 x5 s
  | .xmatch x1 x2 x3 x4 => Sys2Proof.Machine.execXmatch x1 x2 x3 x4 s
  | .ld x1 => Sys2Proof.Machine.execLd x1 s
  | .st x1 => Sys2Proof.Machine.execSt x1 s
  | .lds x1 => Sys2Proof.Machine.execLds x1 s
  | .sts x1 => Sys2Proof.Machine.execSts x1 s
  | .ldb x1 => Sys2Proof.Machine.execLdb x1 s
  | .stb x1 => Sys2Proof.Machine.execStb x1 s
  | .atom x1 => Sys2Proof.Machine.execAtom x1 s
  | .red x1 => Sys2Proof.Machine.execRed x1 s
  | .fence x1 => Sys2Proof.Machine.execFence x1 s
  | .ownGive x1 x2 => Sys2Proof.Machine.execOwnGive x1 x2 s
  | .ownTake x1 x2 => Sys2Proof.Machine.execOwnTake x1 x2 s
  | .ownt x1 x2 x3 => Sys2Proof.Machine.execOwnt x1 x2 x3 s
  | .qpush x1 x2 => Sys2Proof.Machine.execQpush x1 x2 s
  | .qpop x1 => Sys2Proof.Machine.execQpop x1 s
  | .qsteal x1 => Sys2Proof.Machine.execQsteal x1 s
  | .pref x1 x2 x3 x4 => Sys2Proof.Machine.execPref x1 x2 x3 x4 s
  | .push x1 x2 x3 x4 => Sys2Proof.Machine.execPush x1 x2 x3 x4 s
  | .engst x1 x2 x3 => Sys2Proof.Machine.execEngst x1 x2 x3 s
  | .trayputAppend x1 x2 x3 x4 x5 x6 x7 x8 => Sys2Proof.Machine.execTrayputAppend x1 x2 x3 x4 x5 x6 x7 x8 s
  | .trayputDrain x1 x2 x3 x4 => Sys2Proof.Machine.execTrayputDrain x1 x2 x3 x4 s
  | .copen x1 x2 x3 x4 => Sys2Proof.Machine.execCopen x1 x2 x3 x4 s
  | .cnext x1 x2 x3 x4 x5 => Sys2Proof.Machine.execCnext x1 x2 x3 x4 x5 s
  | .csplit x1 x2 x3 x4 => Sys2Proof.Machine.execCsplit x1 x2 x3 x4 s
  | .cseek x1 x2 x3 x4 => Sys2Proof.Machine.execCseek x1 x2 x3 x4 s
  | .csave x1 x2 x3 x4 => Sys2Proof.Machine.execCsave x1 x2 x3 x4 s
  | .cload x1 x2 x3 x4 => Sys2Proof.Machine.execCload x1 x2 x3 x4 s
  | .cstatH x1 x2 x3 => Sys2Proof.Machine.execCstatH x1 x2 x3 s
  | .cstatW x1 x2 x3 => Sys2Proof.Machine.execCstatW x1 x2 x3 s
  | .ccloseH x1 => Sys2Proof.Machine.execCcloseH x1 s
  | .ccloseW x1 => Sys2Proof.Machine.execCcloseW x1 s
  | .cunpk x1 x2 x3 x4 x5 => Sys2Proof.Machine.execCunpk x1 x2 x3 x4 x5 s
  | .accord x1 x2 => Sys2Proof.Machine.execAccord x1 x2 s
  | .mma x1 => Sys2Proof.Machine.execMma x1 s
  | .qmma x1 x2 => Sys2Proof.Machine.execQmma x1 x2 s
  | .mmax x1 x2 => Sys2Proof.Machine.execMmax x1 x2 s
  | .mzeroH x1 x2 => Sys2Proof.Machine.execMzeroH x1 x2 s
  | .mzeroW x1 x2 => Sys2Proof.Machine.execMzeroW x1 x2 s
  | .mload x1 x2 x3 x4 x5 => Sys2Proof.Machine.execMload x1 x2 x3 x4 x5 s
  | .mstore x1 x2 x3 x4 x5 x6 => Sys2Proof.Machine.execMstore x1 x2 x3 x4 x5 x6 s
  | .mread x1 x2 x3 x4 x5 => Sys2Proof.Machine.execMread x1 x2 x3 x4 x5 s
  | .mwrite x1 x2 x3 x4 x5 => Sys2Proof.Machine.execMwrite x1 x2 x3 x4 x5 s
  | .mstatH x1 x2 x3 => Sys2Proof.Machine.execMstatH x1 x2 x3 s
  | .mstatW x1 x2 x3 => Sys2Proof.Machine.execMstatW x1 x2 x3 s
  | .wbload x1 x2 x3 x4 => Sys2Proof.Machine.execWbload x1 x2 x3 x4 s
  | .mfoldH x1 => Sys2Proof.Machine.execMfoldH x1 s
  | .mfoldW x1 => Sys2Proof.Machine.execMfoldW x1 s
  | .mscale x1 x2 => Sys2Proof.Machine.execMscale x1 x2 s
  | .mck x1 x2 => Sys2Proof.Machine.execMck x1 x2 s
  | .hintExpiry x1 x2 x3 => Sys2Proof.Machine.execHintExpiry x1 x2 x3 s
  | .lCountedCompletion x1 x2 => Sys2Proof.Machine.execLCountedCompletion x1 x2 s
  | .sCountedCompletion x1 x2 => Sys2Proof.Machine.execSCountedCompletion x1 x2 s
  | .enlargerStep x1 => Sys2Proof.Machine.execEnlargerStep x1 s
  | .matrixCompletion x1 x2 => Sys2Proof.Machine.execMatrixCompletion x1 x2 s
  | .commonRegisterWrite x1 x2 => Sys2Proof.Machine.execCommonRegisterWrite x1 x2 s
  | .engineHeadAging x1 x2 x3 => Sys2Proof.Machine.execEngineHeadAging x1 x2 x3 s
  | .copyCmd x1 x2 => Sys2Proof.Machine.execCopyCmd x1 x2 s
  | .gatherCmd x1 x2 => Sys2Proof.Machine.execGatherCmd x1 x2 s
  | .importCmd x1 x2 => Sys2Proof.Machine.execImportCmd x1 x2 s
  | .exportCmd x1 x2 => Sys2Proof.Machine.execExportCmd x1 x2 s
  | .wbfillCmd x1 x2 => Sys2Proof.Machine.execWbfillCmd x1 x2 s
  | .landCmd x1 x2 => Sys2Proof.Machine.execLandCmd x1 x2 s
  | .trayDrain x1 => Sys2Proof.Machine.execTrayDrain x1 s
  | .malformedCommand x1 x2 => Sys2Proof.Machine.execMalformedCommand x1 x2 s
  | .hostWalkRequest x1 => Sys2Proof.Machine.execHostWalkRequest x1 s
  | .hostWalkAnswer x1 x2 x3 => Sys2Proof.Machine.execHostWalkAnswer x1 x2 x3 s
  | .hostWalkTimeout x1 => Sys2Proof.Machine.execHostWalkTimeout x1 s
  | .trinvRange x1 => Sys2Proof.Machine.execTrinvRange x1 s
  | .trinvAsid x1 => Sys2Proof.Machine.execTrinvAsid x1 s
  | .trinvAll x1 => Sys2Proof.Machine.execTrinvAll x1 s
  | .registerWrite x1 x2 x3 => Sys2Proof.Machine.execRegisterWrite x1 x2 x3 s
  | .fabcfgModeNone x1 => Sys2Proof.Machine.execFabcfgModeNone x1 s
  | .fabcfgModeMesh x1 => Sys2Proof.Machine.execFabcfgModeMesh x1 s
  | .fabcfgModeSwitched x1 => Sys2Proof.Machine.execFabcfgModeSwitched x1 s
  | .portTrainingDone x1 x2 x3 x4 => Sys2Proof.Machine.execPortTrainingDone x1 x2 x3 x4 s
  | .shadowRotation x1 => Sys2Proof.Machine.execShadowRotation x1 s
  | .weakLane x1 x2 => Sys2Proof.Machine.execWeakLane x1 x2 s
  | .laneRecalibrated x1 x2 => Sys2Proof.Machine.execLaneRecalibrated x1 x2 s
  | .portDead x1 => Sys2Proof.Machine.execPortDead x1 s
  | .advanceNotice x1 x2 => Sys2Proof.Machine.execAdvanceNotice x1 x2 s
  | .rtadv x1 => Sys2Proof.Machine.execRtadv x1 s
  | .packetForward x1 => Sys2Proof.Machine.execPacketForward x1 s
  | .podRequestArrival x1 x2 x3 x4 => Sys2Proof.Machine.execPodRequestArrival x1 x2 x3 x4 s
  | .podResponseArrival x1 x2 x3 x4 => Sys2Proof.Machine.execPodResponseArrival x1 x2 x3 x4 s
  | .retryTimerExpiry x1 x2 => Sys2Proof.Machine.execRetryTimerExpiry x1 x2 s
  | .fabtmoExpiry x1 => Sys2Proof.Machine.execFabtmoExpiry x1 s
  | .dataLinkRetry x1 => Sys2Proof.Machine.execDataLinkRetry x1 s
  | .d2dLinkDegraded x1 x2 => Sys2Proof.Machine.execD2dLinkDegraded x1 x2 s
  | .allreduceCmd x1 x2 => Sys2Proof.Machine.execAllreduceCmd x1 x2 s
  | .reduceCmd x1 x2 => Sys2Proof.Machine.execReduceCmd x1 x2 s
  | .broadcastCmd x1 x2 => Sys2Proof.Machine.execBroadcastCmd x1 x2 s
  | .collectiveJoin x1 x2 x3 => Sys2Proof.Machine.execCollectiveJoin x1 x2 x3 s
  | .collectiveJoinTimeout x1 => Sys2Proof.Machine.execCollectiveJoinTimeout x1 s
  | .collectivePayload x1 x2 x3 => Sys2Proof.Machine.execCollectivePayload x1 x2 x3 s
  | .bar4Read x1 x2 => Sys2Proof.Machine.execBar4Read x1 x2 s
  | .bar4Write x1 x2 => Sys2Proof.Machine.execBar4Write x1 x2 s
  | .hostCompletion x1 => Sys2Proof.Machine.execHostCompletion x1 s
  | .hostWriteFailure x1 => Sys2Proof.Machine.execHostWriteFailure x1 s
  | .submit x1 x2 => Sys2Proof.Machine.execSubmit x1 x2 s
  | .groupPop x1 x2 => Sys2Proof.Machine.execGroupPop x1 x2 s
  | .queueAging x1 x2 => Sys2Proof.Machine.execQueueAging x1 x2 s
  | .acquireAdmission x1 x2 => Sys2Proof.Machine.execAcquireAdmission x1 x2 s
  | .admissionSpill x1 x2 => Sys2Proof.Machine.execAdmissionSpill x1 x2 s
  | .opPointStable x1 => Sys2Proof.Machine.execOpPointStable x1 s
  | .groupEnd x1 => Sys2Proof.Machine.execGroupEnd x1 s
  | .joinEnqueueRetry x1 => Sys2Proof.Machine.execJoinEnqueueRetry x1 s
  | .vacreqVacate x1 => Sys2Proof.Machine.execVacreqVacate x1 s
  | .vacreqRelease x1 => Sys2Proof.Machine.execVacreqRelease x1 s
  | .groupSave x1 => Sys2Proof.Machine.execGroupSave x1 s
  | .vacateTimeout x1 => Sys2Proof.Machine.execVacateTimeout x1 s
  | .faultServiceRequest x1 x2 => Sys2Proof.Machine.execFaultServiceRequest x1 x2 s
  | .faultServiceAnswer x1 x2 => Sys2Proof.Machine.execFaultServiceAnswer x1 x2 s
  | .faultServiceTimeout x1 x2 => Sys2Proof.Machine.execFaultServiceTimeout x1 x2 s
  | .coreUncorrectableError x1 x2 => Sys2Proof.Machine.execCoreUncorrectableError x1 x2 s
  | .fencereqFence x1 => Sys2Proof.Machine.execFencereqFence x1 s
  | .fencereqDiscard x1 => Sys2Proof.Machine.execFencereqDiscard x1 s
  | .reservedOpcode x1 => Sys2Proof.Machine.execReservedOpcode x1 s
  | .fetchFault x1 x2 x3 => Sys2Proof.Machine.execFetchFault x1 x2 x3 s
  | .loadreq x1 => Sys2Proof.Machine.execLoadreq x1 s
  | .powerOnReset x1 => Sys2Proof.Machine.execPowerOnReset x1 s
  | .bringupRetry x1 => Sys2Proof.Machine.execBringupRetry x1 s
  | .powerLimitExceeded x1 => Sys2Proof.Machine.execPowerLimitExceeded x1 s
  | .measuredPowerUpdate x1 => Sys2Proof.Machine.execMeasuredPowerUpdate x1 s
  | .nopH => Sys2Proof.Machine.execNopH s
  | .nopW => Sys2Proof.Machine.execNopW s
  | .joinH => Sys2Proof.Machine.execJoinH s
  | .joinW => Sys2Proof.Machine.execJoinW s
  | .yieldH => Sys2Proof.Machine.execYieldH s
  | .yieldW => Sys2Proof.Machine.execYieldW s
  | .exitH => Sys2Proof.Machine.execExitH s
  | .exitW => Sys2Proof.Machine.execExitW s
  | .acquireH => Sys2Proof.Machine.execAcquireH s
  | .acquireW => Sys2Proof.Machine.execAcquireW s
  | .tretH => Sys2Proof.Machine.execTretH s
  | .tretW => Sys2Proof.Machine.execTretW s
  | .trinvDone => Sys2Proof.Machine.execTrinvDone s
  | .completionTimeout => Sys2Proof.Machine.execCompletionTimeout s
  | .freeze => Sys2Proof.Machine.execFreeze s
  | .freezeNHigh => Sys2Proof.Machine.execFreezeNHigh s
  | .safelightReadout => Sys2Proof.Machine.execSafelightReadout s

end Sys2Proof.Machine
end

