-- ==== Sys2Proof/Machine/Issue.lean ====
section
/-!
DEFINITION. The issue of an instruction: its fetch (R50, R54), the clause it lies in (R66), the gangs that are
ready and the choice among them (R382), and what the package does by itself when no gang issues.
-/

namespace Sys2Proof.Machine

/-! ## Fetch (R54) -/

/-- What fetching some bytes ends in. -/
inductive FetchRes where
  | bytes (bs : List Byte)
  | fault (cause level va : Nat)
  | pending (va : Nat)
  | needs (ks : List FarKey)
  deriving DecidableEq, Repr

/-- The bytes of one page of a fetch, or why there are none; what lies beyond the package is asked for, and is as its home
gave it (R307, R318, R335). -/
def fetchPiece (s : State) (c : Issuer) (p : Piece) : FetchRes :=
  match regionOf (resolvePa s p.tr.pa) with
  | .window _ _ _ | .device _ => .fault 8 6 p.va
  | .pod _ _ | .host _ =>
    match farMissing s c.w.far [p] with
    | k :: ks => .needs (k :: ks)
    | [] => match farBad c.w.far p with
      | some src => .fault 18 src p.va
      | none => .bytes (farRun s c.w.far p.tr.pa p.len)
  | _ => if poisonedRun s p.tr.pa p.len then .fault 18 0 p.va
    else .bytes (readRun (touch s c false [p]) p.tr.pa p.len)

/-- Fetch pages in ascending order; the first that fails decides (R112). -/
def fetchPages (c : Issuer) : List (Nat × Nat) → List Byte → State → State × FetchRes
  | [], acc, s => (s, .bytes acc)
  | (va, k) :: rest, acc, s =>
    match translateCore s c.g.die c.g.phys c.g.asid va .fetch c.answers with
    | (s, .pending) => (s, .pending va)
    | (s, .fail cause level) => (s, .fault cause level va)
    | (s, .poison) => (s, .fault 18 0 va)
    | (s, .ok t) =>
      match fetchPiece s c ⟨va, k, t⟩ with
      | .bytes bs => fetchPages c rest (acc ++ bs) (touch s c false [⟨va, k, t⟩])
      | r => (s, r)

/-- n bytes from the gang's program counter. -/
def fetchRun (s : State) (c : Issuer) (n : Nat) : State × FetchRes :=
  fetchPages c (pagesOf c.pc.toNat n) [] s

/-- What fetching an instruction ends in. -/
inductive Fetched where
  | instr (i : Instr) (opc : Nat)
  | illegal (chk : Nat)
  | fault (cause level va : Nat)
  | pending (va : Nat)
  | needs (ks : List FarKey)
  deriving DecidableEq, Repr

/-- The opcode of a first word. -/
def opcodeOf (bs : List Byte) : Nat := natOfBytes (bs.take 4) / 4 % 256

/-- What decoding some bytes gives the gang. -/
def decodedAs (bs : List Byte) : Fetched :=
  match decode bs with
  | .ok i _ => .instr i (opcodeOf bs)
  | .illegal k => .illegal k
  | .short _ => .illegal 1

/-- Fetch the next instruction: its first word, then the words that it names. -/
def fetchInstr (s : State) (c : Issuer) : State × Fetched :=
  match fetchRun s c 4 with
  | (s, .pending va) => (s, .pending va)
  | (s, .needs ks) => (s, .needs ks)
  | (s, .fault k l va) => (s, .fault k l va)
  | (s, .bytes bs) =>
    match decode bs with
    | .short n =>
      match fetchRun s c n with
      | (s, .pending va) => (s, .pending va)
      | (s, .needs ks) => (s, .needs ks)
      | (s, .fault k l va) => (s, .fault k l va)
      | (s, .bytes bs) => (s, decodedAs bs)
    | _ => (s, decodedAs bs)

/-! ## Clauses (R65, R66) -/

/-- The units of R382. -/
inductive IssueUnit where
  | scalar | vector | memory | matrix
  deriving DecidableEq, Repr

def unitOfOpc (opc : Nat) : IssueUnit :=
  if opc < 0x40 then .scalar
  else if opc < 0xA0 then .vector
  else if opc < 0xD0 then .memory
  else .matrix

/-- The unit that a clause of a class holds. -/
def unitOfClass : ClauseClass → IssueUnit
  | .vector => .vector
  | .memory => .memory
  | .coord => .memory
  | .matrix => .matrix

/-- The opcodes that a clause class admits in its body. -/
def admitted (k : ClauseClass) (opc : Nat) : Bool :=
  opc == 0 || (0x20 ≤ opc && opc ≤ 0x37) || match k with
    | .vector => (0x40 ≤ opc && opc ≤ 0x78) || (0x80 ≤ opc && opc ≤ 0x99)
    | .memory => (0xA0 ≤ opc && opc ≤ 0xAE) || (0xB0 ≤ opc && opc ≤ 0xB2)
    | .matrix => 0xD0 ≤ opc && opc ≤ 0xDD
    | .coord => 0xC0 ≤ opc && opc ≤ 0xC8

/-- The instruction lies in a clause body that does not admit it: check 10 of R60. -/
def clauseRefuses (g : Gang) (opc : Nat) : Bool :=
  match g.clause with
  | none => false
  | some k => !admitted k.cls opc

/-! ## Gangs that are ready (R382) -/

/-- The wait of a gang is over, or it has none: its instruction may be performed (again). -/
def holdOver (s : State) (g : Group) (i : Nat) (w : Wave) (x : Gang) : Bool :=
  match x.hold with
  | .none => true
  | .counters l st c m => w.countersAt l st c m
  | .room l st c m => w.countersAt l st c m
  | .release tiles spad => releaseClear s g tiles spad
  | .common => !s.commons.any fun k => k.gid == g.gid && k.wave == i
  | .remote => remoteRoom s 512
  | .give => accessesDone s g.gid i w
  | .far => farDone w.far
  | .matrix tile slot => !matrixBusy g tile slot
  | .walk => !waveWalks s g.gid i
  | .accept => !waveWalks s g.gid i && farDone w.far && remoteRoom s 512
  | .fence flush => !flush && w.cntL == 0 && w.cntS == 0
  | _ => false

/-- A gang whose wait holds the whole wave (R111, R312); one that waits for answers of the host's walks or from beyond the
package does until its instruction has been executed with them. -/
def holdsWave (x : Gang) : Bool :=
  match x.hold with
  | .walk => true
  | .fence _ => true
  | .far => true
  | .accept => true
  | _ => false

/-- The gang has still to finish what it has begun when its wave stops or parks: a clause body (R66, R391, R395), or an
instruction that has issued (R151, R201, R396). -/
def Gang.finishes (x : Gang) : Bool := x.clause.isSome || x.awaits

/-- Predicates of the wave are to come for other slices: a gang that has no part in that instruction waits for them, so
that its guards see them, however late it issues (R15, R427). DEDUCED (log entry 68). -/
def awaitsPredicates (w : Wave) (x : Gang) : Bool :=
  w.lq.any fun e => !e.pp.isEmpty && (e.slices &&& x.slices) == 0

/-- The wave may issue at all: it runs, and the group's stop has not reached this gang (R391, R395, R396). Of a halted wave
only what has issued already completes (R393). -/
def mayIssue (s : State) (g : Group) (w : Wave) (x : Gang) : Bool :=
  !fencedCore s g.die g.phys && (!w.halted || x.awaits) && (w.service.isNone || x.finishes) && !g.opWait &&
    (!x.parked || x.finishes) && (g.stop.isNone || x.finishes || w.trap.tm) && !awaitsPredicates w x &&
    !w.gangs.any fun y => y != x && holdsWave y

/-- A gang is ready on its unit, the clauses of others left aside. -/
def ready (s : State) (g : Group) (i : Nat) (w : Wave) (x : Gang) : Bool :=
  mayIssue s g w x && holdOver s g i w x

/-- The unit is held by the clauses of other gangs of the core, but for halted waves', whose clauses have ended
(R67); there are two vector pipes. -/
def unitHeld (s : State) (g : Group) (slot : Nat) (x : Gang) (u : IssueUnit) : Bool :=
  let open_ := (groupsAt s g.die g.phys).flatMap fun o => (o.waves.filter fun w => !w.halted).flatMap fun w =>
    w.gangs.filter fun y => (w.slot != slot || y != x) &&
      match y.clause with
      | some k => unitOfClass k.cls == u
      | none => false
  (if u == .vector then 2 else 1) ≤ open_.length

/-- The unit of a gang's next instruction, where its first word can be fetched. -/
def peekUnit (s : State) (c : Issuer) : Option IssueUnit :=
  match (fetchRun s c 4).2 with
  | .bytes bs => some (unitOfOpc (opcodeOf bs))
  | _ => none

/-- An instruction whose accesses, or whose effect on other waves, must follow every earlier access of its wave: it does
not issue while a common-register write of the wave is still to be performed (R299, R305, R353, R358). -/
def followsCommons (i : Instr) (opc : Nat) : Bool :=
  match unitOfOpc opc with
  | .memory | .matrix => true
  | .vector => false
  | .scalar => match i with
    | .sarg _ _ | .bar _ _ | .arrive _ _ | .spawn _ _ _ _ => true
    | _ => false

/-- The next instruction of a gang is not held back by its own wave's common-register writes; and a clause header not by
a clause of another gang that holds the unit of its class (R66). -/
def gateOpen (s : State) (c : Issuer) : Bool :=
  match (fetchInstr s c).2 with
  | .instr (.clause k _ _ _ _ _) _ => c.gang.clause.isSome || !unitHeld s c.g c.w.slot c.gang (unitOfClass k)
  | .instr i opc => !followsCommons i opc || commonsDone s c.ref.gid c.ref.wave
  | _ => true

/-- A gang can issue now. -/
def issuable (s : State) (c : Issuer) : Bool :=
  ready s c.g c.ref.wave c.w c.gang &&
    (match peekUnit s c with
    | some u => !unitHeld s c.g c.w.slot c.gang u
    | none => true) && gateOpen s c

/-- Every gang of the package, by one of its slices. -/
def allGangs (s : State) : List Issuer :=
  s.groups.flatMap fun g => g.waves.zipIdx.flatMap fun (w, i) => w.gangs.map fun x =>
    ⟨⟨g.gid, i, (slicesOf x.slices).headD 0⟩, g, w, x⟩

/-- The order of the issue choice: the oldest last issue, then the core, the wave slot and the slice. -/
def issueKey (c : Issuer) : Nat :=
  (((c.gang.last * 8 + c.g.die) * 64 + c.g.phys) * 64 + c.w.slot) * 8 + c.ref.slice

/-- The gang that issues next. -/
def issueChoice (s : State) : Option GangRef :=
  (leastBy issueKey ((allGangs s).filter (issuable s))).map Issuer.ref

/-! ## Issuing -/

/-- The program counter, masks or stack of a slice of the gang fail their check (R400). -/
def gangMarked (c : Issuer) : Bool := (slicesOf c.gang.slices).any fun j => c.w.marked (mkSlice j)

/-- The state in which a gang's instruction is performed: the gang is the issuing one, and its issue is the
latest. -/
def issueState (s : State) (r : GangRef) : State :=
  let n := s.issueNo
  modWave { s with cur := some r, issueNo := n + 1 } r.gid r.wave fun w =>
    w.modGang r.slice fun g => { g with last := n }

/-! ## What the package does by itself -/

/-- Steps of waves: results that have come, hints, tile operations, fault service. -/
def waveEvents (s : State) : List Instr :=
  s.groups.flatMap fun g =>
    (if g.expansions.isEmpty then [] else [.enlargerStep g.gid]) ++
    g.waves.zipIdx.flatMap fun (w, i) =>
      (match w.lq with
        | e :: _ => if e.elems.all fun x => x.waits.isEmpty then [.lCountedCompletion g.gid i] else []
        | [] => []) ++
      (match w.sq with
        | e :: _ => if e.waits.isEmpty && commonsDone s g.gid i then [.sCountedCompletion g.gid i] else []
        | [] => []) ++
      (if expanding g i < w.mq && farDone w.farM then [.matrixCompletion g.gid i] else []) ++
      (w.gangs.flatMap fun x => if x.hold == .hint
        then [.hintExpiry g.gid i ((slicesOf x.slices).headD 0)] else []) ++
      (match w.service with
        | some v => if v.slot.isNone && (freeSlot (serviceSlots s)).isSome
            then [.faultServiceRequest g.gid i] else []
        | none => [])

/-- The step by which a copy engine takes a command. -/
def engineEvent (die unit op : Nat) : Instr :=
  match op with
  | 1 => .copyCmd die unit
  | 2 => .gatherCmd die unit
  | 3 => .importCmd die unit
  | 4 => .exportCmd die unit
  | 5 => .wbfillCmd die unit
  | 6 => .landCmd die unit
  | _ => .malformedCommand die unit

/-- A unit has something to send beyond the package, and room for it. -/
def unitSends (s : State) (die unit : Nat) : Bool :=
  remoteRoom s 1 && ((nextCmd s die unit).bind fun k => k.2.fin).any fun f => !f.todo.isEmpty

/-- A unit's command waits for walks of the host or for answers from beyond the package. -/
def unitWaits (s : State) (die unit : Nat) : Bool :=
  (s.walks.any fun r => r.who == .unit (64 * die + unit)) ||
    (!farDone (s.unitFar.get [] (64 * die + unit)) && !unitSends s die unit)

/-- The row by which a collective engine takes a command of an operation code. -/
def collRow (die asid op : Nat) : Instr :=
  match op with
  | 0x21 => .allreduceCmd die asid
  | 0x22 => .reduceCmd die asid
  | 0x23 => .broadcastCmd die asid
  | _ => .malformedCommand die (collUnit + asid)

/-- The row of a command whose block lies at a VA; one that has not been read yet shows no operation code. -/
def collPeek (s : State) (die asid va : Nat) : Instr :=
  match (readColl s (collRunner s die asid) ⟨false, va, 128⟩).2 with
  | .ok bs _ => collRow die asid (cwOp (wordsOfBytes bs 16))
  | _ => collRow die asid 0x21

/-- The step of a die's collective engine: a command whose data have come and are still to be written; the one that it has
taken; or the next one. -/
def collEvent (s : State) (die : Nat) : Option Instr :=
  match s.colls.find? fun c => c.die == die && c.fin.isSome with
  | some c => some (collRow die c.asid (cwOp c.words))
  | none => match takenColl s die with
  | some k => some (if k.words.isEmpty then collPeek s die k.asid k.va else collRow die k.asid (cwOp k.words))
  | none => (collTurn s die).map fun asid => match collHead s die asid with
    | (s, .item _ _ va) => collPeek s die asid va
    | _ => collRow die asid 0x21

/-- Steps of the engines of the dies. -/
def unitEvents (s : State) : List Instr :=
  (dedup (s.engq.map fun e => e.1 / 4)).flatMap (fun n =>
    let die := n / 33
    let unit := n % 33
    if unitWaits s die unit then []
    else match nextCmd s die unit with
      | none => []
      | some (_, k) =>
        if unit == trayUnit then (if k.op == 0x10 then [.trayDrain die] else [.malformedCommand die unit])
        else [engineEvent die unit k.op]) ++
  (List.range 8).flatMap fun die => if unitWaits s die collUnit then [] else (collEvent s die).toList

/-- Steps of translation and of the Fixer. -/
def transEvents (s : State) : List Instr :=
  (dedup ((s.walks.filter fun r => r.slot.isNone).map WalkReq.die)).map Instr.hostWalkRequest ++
  (if s.regs.trinvRun.isSome then [.trinvDone] else []) ++
  (match s.regs.fixRun with
    | some v => [.loadreq v]
    | none => [])

/-- A group's end is due. -/
def endDue (s : State) (g : Group) : Bool :=
  groupOver s g && g.follow.isNone && farDone g.first.far && !s.walks.any fun r => r.who == .wave g.gid 0

/-- A group's host writes can be flushed, its image can be written, or its wait for a slot is still to be captured. -/
def saveDue (s : State) (g : Group) : Bool :=
  let gs := savedWith s g
  saveReady s g && ((gs.any fun o => o.waves.any fun w => w.hostWrote.isSome) ||
    (!flushes s gs && (gs.length ≤ (freeImages s g.die).length || !g.poolWait)))

/-- A core can pop, or take an invalid record away. -/
def popDue (s : State) (die core : Nat) : Bool :=
  s.boot.step == 8 && (physOf s die core).isSome &&
    match chosenQueue s die core with
    | none => false
    | some p => if (headBad s die p).isSome then takesBad s die core p else !(takeHead s die core p).isEmpty

/-- The core of a die that pops next: the lowest of those that can (R377). -/
def popChoice (s : State) (die : Nat) : Option Nat := (List.range 48).find? (popDue s die)

/-- A group of the core runs and has not acquired its full allotment. -/
def inPrologue (s : State) (die core : Nat) : Bool :=
  match physOf s die core with
  | none => false
  | some p => (groupsAt s die p).any fun g => !g.acquired &&
      g.waves.zipIdx.any fun (w, i) => w.gangs.any (ready s g i w)

/-- The pops that are due, one on a die: those on a core whose groups still run towards ACQUIRE, which R377 admits and which
come with the timeouts alone (log entry 1), or the others. -/
def popsDue (s : State) (prologue : Bool) : List Instr :=
  (List.range 8).filterMap fun die =>
    if (List.range 8).any fun p => (queueOf s die p).busy then
      (popChoice s die).bind fun c => if inPrologue s die c == prologue then some (.groupPop die c) else none
    else none

/-- What is due for the groups that wait at ACQUIRE on a core (R379). -/
def admissionDue (s : State) (die phys core : Nat) : List Instr :=
  match oldestWaiter s die phys with
  | none => []
  | some g =>
    if (growth s g).isSome then [.acquireAdmission die core]
    else if (groupsAt s die phys).any fun o => groupRuns o || o.stop.isSome then []
    else [.admissionSpill die core]

/-- Steps of the scheduler. -/
def schedEvents (s : State) : List Instr :=
  (s.groups.flatMap fun g =>
    (if endDue s g then [.groupEnd g.gid] else []) ++
    (if saveDue s g then [.groupSave g.gid] else []) ++
    (match g.follow with
      | some r => if (queueOf s g.die (recPrio r)).full then [] else [.joinEnqueueRetry g.gid]
      | none => []) ++
    (if g.order.isSome then admissionDue s g.die g.phys g.core else [])) ++
  ((List.range 8).flatMap fun die =>
    let m := coreMap s die
    if m.op != m.target || s.groups.any fun g => g.die == die && g.opWait then [.opPointStable die] else []) ++
  popsDue s false

/-! ## What answers from beyond the package where the agenda does not (log entry 12) -/

/-- Another package answers the requests of this one: a port reaches it, and it is not among the silent ones. -/
def podAnswers (s : State) (pkg : Nat) : Bool := reachable s pkg && !s.outside.deadPkgs.contains pkg

/-- The host answers an access to some bytes. -/
def hostAnswers (s : State) : HostReq → Bool
  | .read _ addr n _ | .atomic _ addr n _ _ _ _ => !s.outside.badHost.any fun r => addr < r.2 && r.1 < addr + n
  | .flush _ _ _ _ | .saved _ _ => true

/-- The response of another package to a request: what this package's image of it holds. -/
def podAnswer (s : State) (pkg : Nat) : PodReq → PodResp
  | .lineRead a =>
    let x := lineAnswer s (podPa pkg (a / 128 * 128))
    .line x.1 x.2.1 x.2.2
  | .pairRead a b =>
    let x := lineAnswer s (podPa pkg (a / 128 * 128))
    let y := lineAnswer s (podPa pkg (b / 128 * 128))
    .pair x.1 x.2.1 x.2.2 y.1 y.2.1 y.2.2
  | .write _ _ _ _ | .nativeWrite _ _ _ _ _ _ _ | .nativeTail _ _ _ _ | .collective _ _ => .written
  | .atomic a _ t _ _ =>
    let n := t.width / 8
    .old (wordOfBytes (readRun s (podPa pkg a) n)) (poisonedRun s (podPa pkg a) n)

/-- The host's completion of a request: what the package's image of host memory holds. -/
def hostAnswer (s : State) : HostReq → HostResp
  | .read _ addr n _ | .atomic _ addr n _ _ _ _ => .data (readRun s (hostPa addr) n)
  | .flush _ _ _ _ | .saved _ _ => .data []

/-- The answers that come by themselves: of each package to the next request of its flow, and of the host to the oldest
request. -/
def answerEvents (s : State) : List Instr :=
  (s.flows.filterMap fun f =>
    if podAnswers s f.pkg then (f.unacked.find? fun u => u.1 == f.rexpect).map fun u =>
      Instr.podResponseArrival f.pkg u.1 (stampVer s) (podAnswer s f.pkg u.2.2)
    else none) ++
  match s.hostq with
  | [] => []
  | q :: _ => if hostAnswers s q then [.hostCompletion (hostAnswer s q)] else []

/-- What the package can do by itself, and the answers that it gets. -/
def ownEvents (s : State) : List Instr :=
  waveEvents s ++ unitEvents s ++ transEvents s ++ schedEvents s ++ answerEvents s

/-- Timeouts, which come when nothing else can: of walks, of requests to the host and to packages that do not answer, of
fault service, of joins and of vacates; and pops that outrun an ACQUIRE. -/
def timeouts (s : State) : List Instr :=
  (if s.walks.isEmpty then [] else [.hostWalkTimeout 0]) ++
  (match s.hostq with
    | [] => []
    | q :: _ => if hostAnswers s q then [] else [.completionTimeout]) ++
  ((s.flows.filter fun f => (f.unacked.any fun u => u.2.1 != 0) && !podAnswers s f.pkg).map fun f => Instr.fabtmoExpiry f.pkg) ++
  (s.groups.flatMap fun g => g.waves.zipIdx.flatMap fun (w, i) =>
    if w.service.isSome then [Instr.faultServiceTimeout g.gid i] else []) ++
  (s.collIn.filterMap fun m => match m.2.2 with
    | .join _ _ => if joinsRun s m.1 then none else some (Instr.collectiveJoinTimeout m.1)
    | _ => none) ++
  ((s.groups.filter fun g => g.stop.isSome && g.stop != some .fence && !g.waves.all Wave.gone).map
    fun g => Instr.vacateTimeout g.gid) ++
  popsDue s true

/-- One of some steps, in rotation with the machine's steps. -/
def rotate (n : Nat) (es : List Instr) : Option Instr :=
  match es with
  | [] => none
  | e :: _ => some (es.getD (n % es.length) e)

/-- A common-register write that is due: the third cycle after its issue has come (R305). -/
def commonDue (s : State) : Option Instr :=
  (s.commons.find? fun k => k.cycle + 3 ≤ cycleOf s).map fun k => .commonRegisterWrite k.die k.phys

/-- The results of a bring-up attempt that nobody outside has given (log entry 20). -/
def bringupResults (attempt : Nat) : List Bool :=
  (List.range 8).map fun i => Config.bringupPasses attempt (i + 1)

/-- Bring-up that is due by itself: the first start after power, and the attempts that follow a failure. -/
def bringupDue (s : State) : Option Instr :=
  if s.boot.attempt == 0 then some (.powerOnReset (bringupResults 1))
  else if retryDue s then some (.bringupRetry (bringupResults (s.boot.attempt + 1)))
  else none

/-- What the machine does next where the agenda does not say: a gang issues, or a step by itself. -/
inductive Move where
  | issue (r : GangRef)
  | event (i : Instr)
  | idle
  deriving DecidableEq, Repr

/-- The next move: bring-up; then gangs and the package's own steps by turns, so that neither waits for ever; timeouts
where there is neither and no common-register write comes due, and otherwise once in 2 ^ 16 steps. -/
def nextMove (s : State) : Move :=
  let event (o : Option Instr) (m : Move) : Move := match o with
    | some i => .event i
    | none => m
  let own (m : Move) : Move := event (rotate (s.ticks / 2) (ownEvents s)) m
  let gang (m : Move) : Move := match issueChoice s with
    | some r => .issue r
    | none => m
  let late := if s.commons.isEmpty then event (rotate (s.ticks / 2) (timeouts s)) .idle else .idle
  event (bringupDue s)
    (if s.ticks % 65536 == 65535 then (if late == .idle then gang (own .idle) else late)
     else if s.ticks % 2 == 0 then gang (own late) else own (gang late))

/-- Steps that a stopped module still takes (R417). -/
def whileFrozen : Instr → Bool
  | .powerOnReset _ => true
  | .freeze => true
  | .freezeNHigh => true
  | .safelightReadout => true
  | _ => false

/-- What only a gang performs: an instruction word, or a fetch that ends without one. -/
def isWord : Instr → Bool
  | .reservedOpcode _ => true
  | .fetchFault _ _ _ => true
  | i => i.opc.isSome

/-- A step that comes at its own time alone: what is due of it has been performed before any other turn (R305). -/
def ownTime : Instr → Bool
  | .commonRegisterWrite _ _ => true
  | _ => false

/-- The outside changes its own memory: the host's and other packages'. -/
def outsideWrite (s : State) (cells : List Host.Cell) : State :=
  (cells.filter fun c => 2 ^ 50 ≤ c.1 && c.1 < 2 ^ 52).foldl (fun s c =>
    plainWrite s false [(c.1, c.2)]) s

/-! ## One step -/

/-- What a step does: it has its next state, or it performs an instruction or a row of the step list in a
state. -/
inductive Doing where
  | done (s : State)
  | perform (i : Instr) (s : State)
  deriving DecidableEq, Repr

/-- A word that R62 assigns to no instruction: its checks come before the clause's. -/
def isReserved : Instr → Bool
  | .reservedOpcode _ => true
  | _ => false

/-- Illegal Encoding of the instruction that a gang issues. -/
def issueIllegal (s : State) (r : GangRef) (c : Issuer) (chk : Nat) : State :=
  let s := issueState s r
  illegalTrap s ((issuerAt s r).getD c) chk

/-- What the gang does with what it has fetched. -/
def issueFetched (s : State) (r : GangRef) (c : Issuer) : Fetched → Doing
  | .pending va => .done (awaitWalks s c .fetch [va])
  | .needs ks => .done (awaitFar s c ks)
  | .fault cause level va => .perform (.fetchFault cause level (word va)) (issueState s r)
  | .illegal chk => .done (issueIllegal s r c chk)
  | .instr i opc =>
    if !isReserved i && clauseRefuses c.gang opc then .done (issueIllegal s r c 10)
    else .perform i (issueState s r)

/-- What a gang's wave holds of reads beyond the package serves the instruction that asked for them: one that issues for
the first time finds nothing. -/
def freshFar (s : State) (c : Issuer) : State :=
  match c.gang.hold with
  | .far | .remote | .common | .walk | .accept => s
  | _ => if c.w.far.isEmpty then s else modWave s c.ref.gid c.ref.wave fun w => { w with far := [] }

/-- The instruction is BAR. -/
def Fetched.isBar : Fetched → Bool
  | .instr (.bar _ _) _ => true
  | _ => false

/-- The fetch has ended in an instruction. -/
def Fetched.isInstr : Fetched → Bool
  | .instr _ _ => true
  | _ => false

/-- The first issue of a wave whose group has been refilled: barriers that its waiting held up complete, unless it is a BAR
again, which completes them itself (R354, R403). A fetch that faults, and the handler that it enters, are not yet the
instruction at which the wave stood. -/
def firstIssue (s : State) (c : Issuer) (f : Fetched) : State :=
  if !c.w.refilled || c.w.trap.tm || !f.isInstr then s
  else
    let s := modWave s c.ref.gid c.ref.wave fun w => { w with refilled := false }
    if f.isBar then s else sweepBars s c.ref.gid

/-- What a gang that can issue does with its next instruction. -/
def issueWith (s : State) (r : GangRef) (go : State → Issuer → Fetched → Doing) : Doing :=
  match issuerAt s r with
  | none => .done s
  | some c =>
    if !issuable s c then .done s
    else if gangMarked c then .done (sweep (haltGang s c 18 0) r.gid)
    else
      let s := freshFar s c
      let c := (issuerAt s r).getD c
      let f := fetchInstr s c
      go (firstIssue f.1 c f.2) c f.2

/-- The turn of a gang: where it can issue, it fetches its next instruction and performs it. -/
def issueTurn (s : State) (r : GangRef) : Doing := issueWith s r fun s c f => issueFetched s r c f

/-- The guard and the registers of an instruction whose results' residues the vector ALUs predict: the integer
additions, subtractions and multiplications (R212). -/
def predicted : Instr → Option (Guard × List Use)
  | .vadd o | .vsub o | .vmul o | .vmulh o => some (o.g, .vw 0 o.d.val :: .vr 1 o.a.val :: useV 2 o.b)
  | .vmad o => some (o.g, .vw 0 o.d.val :: .vr 1 o.a.val :: .vr 3 o.c.val :: useV 2 o.b)
  | _ => none

/-- The turn of a gang in which the residue prediction fails in some lanes (R212, R213, R242): its instruction, where it
is one that predicts and those lanes take part, raises Uncorrectable Data and writes nothing. -/
def residueTurn (s : State) (r : GangRef) (bad : BitVec 32) : Doing :=
  issueWith s r fun s c f =>
    match f with
    | .instr i opc =>
      match predicted i with
      | some (g, us) =>
        let ls := c.lanes g
        let hit := ls.filter bad.getLsbD
        if hit.isEmpty || clauseRefuses c.gang opc then issueFetched s r c f
        else
          let s := issueState s r
          let c := (issuerAt s r).getD c
          .done (check s c c.all (guardConds c g ++ useConds c ls us ++ [⟨18, 6 * 2 ^ 60, hit⟩]) s)
      | none => issueFetched s r c f
    | f => issueFetched s r c f

/-- A turn that the agenda names. -/
def agendaTurn (s : State) : Turn → Doing
  | .issue r => issueTurn s r
  | .event i => if isWord i || ownTime i then .done s else .perform i s
  | .outside cells => .done (outsideWrite s cells)
  | .environment o => .done { s with outside := o }
  | .bar4Size log => .done (resizeBar4 s log)
  | .stackError off => .done (poisonLine s (off % 2 ^ 40 / 128 * 128))
  | .unitError die unit => .done (hurtUnit s die unit)
  | .saveError gid => .done (saveFails s gid)
  | .residueError r lanes => residueTurn s r lanes

/-- A stopped module takes only what a stopped module can (R417). -/
def frozenTurn (s : State) : Turn → Doing
  | .event i => if whileFrozen i then .perform i s else .done s
  | _ => .done s

/-- A turn that the machine chooses. -/
def moveTurn (s : State) : Move → Doing
  | .issue r => issueTurn s r
  | .event i => .perform i s
  | .idle => .done s

/-- The agenda's first turn, else the machine's own choice. -/
def nextTurn (s : State) : Doing :=
  match s.agenda with
  | t :: rest => agendaTurn { s with agenda := rest, ticks := s.ticks + 1 } t
  | [] =>
    let m := nextMove s
    moveTurn { s with ticks := s.ticks + 1 } m

/-- The next thing that happens: a common-register write that is due; else the next turn, which advances the machine's
time. While the clocks stand, only what a stopped module takes (R417). -/
def nextDoing (s : State) : Doing :=
  if s.frozen then
    match s.agenda with
    | t :: rest => frozenTurn { s with agenda := rest } t
    | [] => .done s
  else match commonDue s with
    | some i => .perform i s
    | none => nextTurn s

/-! ## Placing an instruction where the next step fetches it -/

/-- Where the placed instruction stands: its VA, and its HBM address. -/
def placedVa : Nat := 2 ^ 20
def placedPa : Nat := 2 ^ 16

/-- A record of one group of one wave whose allotment is the largest that R370 admits. -/
def placedRecord : List Word :=
  [word placedVa, 0, 0, word (255 * 2 ^ 32 + 16 * 2 ^ 27 + 511 * 2 ^ 18 + 64 * 2 ^ 11 + 8 * 2 ^ 7),
    word (2 ^ 32 + 2 ^ 16 + 1), 0, 0, 0]

/-- The wave of the placed group: one gang of its eight slices at the placed instruction. -/
def placedWave : Wave :=
  { Wave.blank with gangs := [⟨0xFF, word placedVa, .none, none, 0, false⟩] }

/-- The placed group: resident on core 0 of die 0, its full allotment granted. -/
def placedGroup (gid : Nat) : Group :=
  { Group.start gid 0 0 0 0 placedRecord ⟨true, false, false⟩
      { slots := [0], vbases := [0], spadBase := 0, cset := 0, tileIds := List.range 16, wbIds := List.range 8 }
    with waves := [placedWave] }

/-- The line of the core's L1 through which the placed instruction is fetched (R110). -/
def placedLine : L1Line :=
  { die := 0, phys := 0, asid := 0, va := placedVa / 128, pa := placedPa / 128, r := true, x := true,
    p := true, w := false, wbit := false, level := 5, owned := false }

/-- The machine with a group placed alone on core 0 of die 0, whose next instruction is some bytes, and
whose turn is next. -/
def placed (s : State) (bs : List Byte) : State :=
  let s := storeBytes s (atRun placedPa (bs ++ List.replicate (128 - bs.length) 0))
  let s := setLine s placedPa Line.plain
  { s with
    groups := placedGroup s.nextGid :: s.groups.filter fun g => !(g.die == 0 && g.phys == 0)
    nextGid := s.nextGid + 1
    l1 := placedLine :: s.l1.filter fun l => !(l.die == 0 && l.phys == 0)
    cores := modifyAt (fun m => { m with fenced := m.fenced &&& ~~~1#52 }) 0 s.cores
    commons := []
    frozen := false
    agenda := [.issue ⟨s.nextGid, 0, 0⟩] }

end Sys2Proof.Machine
end

