-- ==== Sys2Proof/Machine/Step.lean ====
section
/-!
DEFINITION. One step of the machine: the next thing that happens, performed; and the placing of an
instruction where the next step fetches it.
-/

namespace Sys2Proof.Machine

/-- One step. -/
def step (s : State) : Host.Outcome State Fault Refusal :=
  match nextDoing s with
  | .done s => .next s
  | .perform i s => exec i s

/-- The state with an instruction, its table word and zero words behind it, placed as the next one that a
gang fetches (log entry 13). -/
def State.withFetchWord (s : State) (nbits w : Nat) : State :=
  placed s (bytesOfNat 12 (w % 2 ^ nbits))

end Sys2Proof.Machine
end

