-- ==== Sys2Proof/Safety.lean ====
section
/-!
DEFINITION. What the claims speak of: storage in its one canonical form, a run of steps, the stopped
module, a gang that has retired its instruction, and the operands and accesses that stand in nothing's way.
-/

namespace Sys2Proof.Machine

/-! ## Runs -/

/-- Memory, the metadata of its lines, the owner bits and their marks stand in their canonical form: keys strictly
rising, and no entry that equals what an unlisted key reads as. -/
def storageWf (s : State) : Bool :=
  Memory.wf s.mem && Sparse.wf Line.unwritten s.hbm && Sparse.wf Line.plain s.spad &&
    Sparse.wf false s.owner && Sparse.wf false s.ownerBad

/-- A state follows another in one step. -/
def Follows (s t : State) : Prop := step s = .next t

/-- A step goes on: it ends in a next state. -/
def GoesOn (s : State) : Prop := ∃ t, Follows s t

/-- The module's clocks stand, and nothing that is still to come is a reset (R417). -/
def stopped (s : State) : Bool :=
  s.frozen && s.agenda.all fun t => match t with
    | .event (.powerOnReset _) => false
    | _ => true

/-! ## Operands (R128, R207, R213) -/

/-- A vector register lies inside the allotment, and in no slice of some lanes is it pending; where it is
read, no word of those lanes fails its residue. v255 is always free. -/
def vectorFree (c : Issuer) (lanes : List Nat) (r : Nat) (read : Bool) : Bool :=
  r == 255 || (decide (r < c.g.vregs) && lanes.all fun l =>
    !c.w.pv.get false (8 * r + l / 4) && !(read && c.w.marked (mkV r l)))

/-- Nothing keeps an instruction from a register it names: it lies inside the allotment, it is not
pending, and, where it is read, its residue or parity holds. -/
def Use.free (c : Issuer) (lanes : List Nat) : Use → Bool
  | .vr _ r => vectorFree c lanes r true
  | .vw _ r => vectorFree c lanes r false
  | .sr (.s n) => !c.w.ps.get false n.val && !c.w.marked (mkS n.val)
  | .sr .zero => true
  | .sw (.s n) => !c.w.ps.get false n.val
  | .sw .zero => true
  | .pr p => p == 7 || (!c.w.pp.get false p && (waveLanes c lanes).all fun l => !c.w.marked (mkP p (l / 8)))
  | .pw p => p == 7 || !c.w.pp.get false p
  | .prAll p => p == 7 || (!c.w.pp.get false p && (List.range 4).all fun k => !c.w.marked (mkP p k))
  | .lead _ r => vectorFree c lanes r false && (r == 255 || lanes.all fun l => l % 4 != 0 || !c.w.marked (mkV r l))
  | .side r => r == 255 || lanes.all fun l => !c.w.marked (mkSide r (l / 4) 0) && !c.w.marked (mkSide r (l / 4) 1)
  | .sideB r k => r == 255 || lanes.all fun l => !c.w.marked (mkSide r (l / 4) k)
  | .xr n => lanes.all fun l => !c.w.marked (mkX n l)
  | .base n => !c.w.marked (mkBase n)
  | .q n => (List.range 4).all fun k => !c.w.marked (mkQ n k)
  | .qw n k => !c.w.marked (mkQ n k)
  | .spec k => !c.w.marked (mkSpec k)
  | .ck n => (List.range 5).all fun k => !c.w.marked (mkCk n k)
  | .ckw n k => !c.w.marked (mkCk n k)
  | .ff => lanes.all fun l => !c.w.marked (mkFf l)
  | .accord => !c.g.marks.get false gmAccord

/-- Every register of a list is free. -/
def allFree (c : Issuer) (lanes : List Nat) (us : List Use) : Bool := us.all (Use.free c lanes)

/-- A vector register may be read in every lane of the wave. -/
def wholeFree (c : Issuer) (r : Nat) : Bool := vectorFree c (List.range 32) r true

/-- No lane meets a condition of R39 whose enable is set. -/
def untrapped (w : Wave) (rs : List LaneRes) : Bool :=
  rs.all fun r => (List.range 6).all fun code => !fpMet w code r.fl r.snan

/-! ## Results -/

/-- The instruction of the wave `c` retires: the gang that issued it stands behind it, without a wait, and the
wave is neither halted nor in a handler by it. -/
def Retired (c : Issuer) (i : Instr) (t : State) : Prop :=
  ∃ c', issuerAt t c.ref = some c' ∧ c'.gang.pc = c.pc + word i.len ∧ c'.gang.hold = .none ∧
    c'.w.trap.tm = c.w.trap.tm ∧ c'.w.halted = c.w.halted

/-- The instruction acts on the wave as a whole: with the registers it names free, its next state is the
one in which the gang stands behind it and the wave is as `eff` says. -/
def WaveResult (i : Instr) (us : List Use) (eff : Issuer → Wave) : Prop :=
  ∀ s c, issuer s = some c → allFree c c.all us = true → exec i s = .next (retire s c i.len (eff c))

/-- The same of an instruction that acts on the lanes its guard leaves active. -/
def LaneResult (i : Instr) (g : Guard) (us : List Use) (eff : Issuer → List Nat → Wave) : Prop :=
  ∀ s c, issuer s = some c → allFree c c.all [.pr g.p.val] = true → allFree c (c.lanes g) us = true →
    exec i s = .next (retire s c i.len (eff c (c.lanes g)))

/-- The same of an instruction that rounds: `res` is what each active lane produces, no trap that %fmode
enables is met, and the flags of the lanes are joined into %fflags (R216). -/
def FloatResult (i : Instr) (g : Guard) (us : List Use) (res : Issuer → Nat → LaneRes)
    (write : Wave → List LaneRes → Wave) : Prop :=
  ∀ s c, issuer s = some c → allFree c c.all [.pr g.p.val] = true →
    allFree c (c.lanes g) (.spec 2 :: .ff :: us) = true → untrapped c.w ((c.lanes g).map (res c)) = true →
    exec i s = .next (retire s c i.len ((write c.w ((c.lanes g).map (res c))).orRes ((c.lanes g).map (res c))))

/-- An instruction of the active lanes completes where the registers it names are free and %fmode enables no
trap (R37). -/
def LaneCompletes (i : Instr) (g : Guard) (us : List Use) : Prop :=
  ∀ s c, issuer s = some c → allFree c c.all [.pr g.p.val] = true → allFree c (c.lanes g) us = true →
    c.w.fmode.toNat < 4 → ∃ t, exec i s = .next t ∧ Retired c i t

/-! ## Frames -/

/-- What the wave keeps beside its registers: its places on the core, sidecars, index registers, cursors, special
registers, traps, checksums, divergence, counters and what it awaits from outside. -/
def sameRest (w w' : Wave) : Prop :=
  w'.slot = w.slot ∧ w'.vbase = w.vbase ∧
    w'.side = w.side ∧ w'.x = w.x ∧ w'.xbase = w.xbase ∧ w'.xlimit = w.xlimit ∧ w'.q0 = w.q0 ∧ w'.q1 = w.q1 ∧
    w'.q2 = w.q2 ∧ w'.q3 = w.q3 ∧ w'.grain = w.grain ∧ w'.grainctr = w.grainctr ∧ w'.fmode = w.fmode ∧
    w'.trap = w.trap ∧ w'.bhalted = w.bhalted ∧ w'.abnd = w.abnd ∧ w'.ck = w.ck ∧ w'.slices = w.slices ∧
    w'.lq = w.lq ∧ w'.sq = w.sq ∧ w'.cq = w.cq ∧ w'.mq = w.mq ∧ w'.pv = w.pv ∧ w'.ps = w.ps ∧ w'.pp = w.pp ∧
    w'.merge = w.merge ∧ w'.hostWrote = w.hostWrote ∧ w'.service = w.service ∧ w'.farM = w.farM ∧ w'.halted = w.halted ∧
    w'.tilesM = w.tilesM ∧ w'.refilled = w.refilled

/-- Of the gangs of a wave, the issuing one stands behind the instruction, the others where they stood; what had been
fetched for an instruction that waited has served it. -/
def steppedGangs (c : Issuer) (i : Instr) (w w' : Wave) : Prop :=
  w'.gangs = (w.gangs.map fun g => if g.slices.getLsbD c.ref.slice then g.advance i.len else g) ∧
    w'.answers = [] ∧ w'.far = []

/-- Marks of failing words stand as before, but for those of words that have been written. -/
def onlyCleared (m m' : Sparse Bool) (written : Nat → Prop) : Prop :=
  ∀ k, m'.get false k = m.get false k ∨ (m'.get false k = false ∧ written k)

/-- The marks of the words that an instruction writes: lanes of vector registers, scalar registers, and bytes of
predicates. -/
def writtenWords (ls vs : List Nat) (ss : List SReg) (ps : List Nat) (k : Nat) : Prop :=
  (∃ r ∈ vs, ∃ l ∈ ls, k = mkV r l) ∨ (∃ n, SReg.s n ∈ ss ∧ k = mkS n.val) ∨ ∃ p ∈ ps, ∃ l ∈ ls, k = mkP p (l / 8)

/-- The registers of a wave outside the lists read as before, and those in the lists in every lane outside `ls`. -/
def sameRegisters (w w' : Wave) (ls vs : List Nat) (ss : List SReg) (ps : List Nat) : Prop :=
  (∀ r l, l < 32 → r ∉ vs ∨ l ∉ ls → w'.readV r l = w.readV r l) ∧ (∀ r, r ∉ ss → w'.readS r = w.readS r) ∧
    (∀ p l, p ∉ ps ∨ l ∉ ls → (w'.readP p).getLsbD l = (w.readP p).getLsbD l)

/-- Beside the issuing wave, the whole package is as it was: every other wave, what a group holds beside its waves
(tiles, weights, barriers, status), and everything beside the groups. -/
def sameOthers (s : State) (c : Issuer) (t : State) : Prop :=
  (∀ gid k, gid ≠ c.ref.gid ∨ k ≠ c.ref.wave → findWave t gid k = findWave s gid k) ∧
    t.groups.map (fun g => { g with waves := [] }) = s.groups.map (fun g => { g with waves := [] }) ∧
    t = { s with groups := t.groups }

/-- Memory reads as before at every address, with the metadata of its lines and the owner bits. -/
def sameStorage (s t : State) : Prop :=
  (∀ a, readPa t a = readPa s a) ∧ (∀ a, lineAt t a = lineAt s a) ∧ t.owner = s.owner

/-- The frame of an instruction of the wave's registers: beside the lanes `ls` of the vector and predicate registers
in the lists, and the scalar registers in theirs, nothing of the wave changes but the program counter of the gang that
issued it, and nothing else of the package. -/
def Framed (s : State) (c : Issuer) (i : Instr) (t : State) (ls vs : List Nat) (ss : List SReg) (ps : List Nat) : Prop :=
  (∃ w, findWave t c.ref.gid c.ref.wave = some w ∧ sameRegisters c.w w ls vs ss ps ∧ sameRest c.w w ∧
    steppedGangs c i c.w w ∧ onlyCleared c.w.marks w.marks (writtenWords ls vs ss ps) ∧
    w.fflags = c.w.fflags) ∧ sameOthers s c t ∧ sameStorage s t

/-- The same of an instruction that rounds: the sticky flags of its lanes may be raised, never lowered. -/
def FramedFlags (s : State) (c : Issuer) (i : Instr) (t : State) (ls vs : List Nat) (ss : List SReg) (ps : List Nat) :
    Prop :=
  (∃ w, findWave t c.ref.gid c.ref.wave = some w ∧ sameRegisters c.w w ls vs ss ps ∧ sameRest c.w w ∧
    steppedGangs c i c.w w ∧
    onlyCleared c.w.marks w.marks (writtenWords ls vs ss ps) ∧
    (∀ l, w.readFf l ||| c.w.readFf l = w.readFf l) ∧ (∀ l, l ∉ ls → w.readFf l = c.w.readFf l)) ∧
    sameOthers s c t ∧ sameStorage s t

/-! ## Accesses (R111, R112, R119) -/

/-- Every access of an instruction resolves: no walk is awaited, and no condition of R388 is met. -/
def resolves (s : State) (c : Issuer) (sp : Space) (kind : AKind) (as : List Acc) : Bool :=
  let t := resolveAll s c sp kind as
  t.pend.isEmpty && t.lacks.isEmpty

/-- Requests beyond the package that an access of some pieces needs find slots in the retry buffers (R319). -/
def roomBeyond (s : State) (ps : List Piece) : Bool :=
  let n := (ps.filter (isRemote s)).foldl (fun n p => n + p.len / 32 + 2) 0
  n == 0 || remoteRoom s n

/-- Whatever some resolved reads need from beyond the package, by the reads that `keys` gives for each access, the wave holds
the answers (R301, R303). -/
def farHeldBy (keys : State → List Piece → List FarKey) (c : Issuer) (x : AccSum) : Bool :=
  (missingKeys c.w.far (x.oks.flatMap fun e => keys x.s e.2)).isEmpty

/-- The same of reads by granules. -/
def farHeld (c : Issuer) (x : AccSum) : Bool := farHeldBy farGranules c x

/-- No earlier read or atomic of the wave to the host is still to be performed on the bytes of some accesses (R302). -/
def hostClear (c : Issuer) (x : AccSum) : Bool := !hostHazard x.s c.w (x.oks.flatMap Prod.snd)

/-- The writes that some stores send beyond the package have been answered, or none of them has an answer (R308). -/
def storesSent (c : Issuer) (x : AccSum) (bs : List Byte) : Bool :=
  c.w.far.any FarReq.write ||
    (sendAll x.s (planWrites x.s (farWrites x.s 0 (x.oks.flatMap Prod.snd) bs))).2.isEmpty

/-- An address reads a byte that storing some pieces writes: the same storage place, or, where the table region is
written, the top byte of the word it lies in, whose bit 63 is forced to 0 (R105). -/
def storedAt (s : State) (ps : List Piece) (a : Nat) : Prop :=
  ∃ b ∈ pasOf ps, placeOf s (resolvePa s a) = placeOf s (resolvePa s b) ∨
    (inTables s (resolvePa s b) = true ∧
      placeOf s (resolvePa s a) = placeOf s (resolvePa s b / 8 * 8 + 7))

/-- A place at which a translation unit may find a page-table entry: in the table region, among the entries that a leaf
of its cache stands for, or in a table that one of its walk caches names (R105, R109). -/
def entryPlace (s : State) (die p : Nat) : Prop :=
  let u := unitOf s die
  inTables s p = true ∨ (∃ e ∈ u.leaves, p ∈ e.pas) ∨
    ∃ e ∈ u.wc1 ++ u.wc2 ++ u.wc3, e.pa / 128 ≤ p / 128 ∧ p / 128 * 128 < e.pa + 4096

/-- A byte is as it was, or it is the low byte of a page-table entry that the unit of a die found, whose A, or A and D,
it has set (R107). -/
def keptByte (s t : State) (die a : Nat) : Prop :=
  readPa t a = readPa s a ∨ ∃ p, entryPlace s die p ∧
    placeOf s (resolvePa s a) = placeOf s (resolvePa s p) ∧
    (readPa t a = readPa s a ||| 0x40 ∨ readPa t a = readPa s a ||| 0xC0)

/-- No store of a program changes a byte that stands here by rule: the code region, and words of the table region, whose
bit 63 is forced to 0 (R105, R406). -/
def openByte (s : State) (a : Nat) : Prop :=
  inCode s (resolvePa s a) = false ∧ ∀ i, i < 8 → inTables s (resolvePa s a / 8 * 8 + i) = false

/-- Bytes stand in memory as some writes leave them, the last one to an address deciding. -/
def leavesBytes (s t : State) (ws : List (Nat × Byte)) : Prop :=
  ∀ a b, openByte s a →
    (ws.reverse.find? fun w => resolvePa s w.1 == resolvePa s a).map Prod.snd = some b → readPa t a = b

/-- The wave has no common-register write under way (R305). -/
def commonsIdle (s : State) (c : Issuer) : Bool :=
  !s.commons.any fun k => k.gid == c.ref.gid && k.wave == c.ref.wave

/-! ## The matrix engine (R207, R272-R274) -/

/-- Nothing keeps an accord instruction from arriving at the latch. -/
def accordReady (c : Issuer) (o : MmaOp) (cc : SReg) : Prop :=
  allFree c c.all [.sr o.a, .sr o.b, .sr cc, .accord] = true ∧ o.d.val < c.g.tregs ∧
    matrixBusy c.g (some o.d.val) (some (bSlot (c.w.readS o.b))) = false ∧ c.w.mq < 255 ∧
    accordValid c.g.accord c.g.waves.length = true ∧ c.ref.wave ∈ accordWaves c.g.accord ∧
    c.gang.slices = 255

/-- The open entry agrees with what the wave brings, and the wave is the last that it waits for. -/
def latchAwaits (c : Issuer) (opc : Nat) (o : MmaOp) (cc : SReg) (q : Latch) : Prop :=
  c.g.latch = some q ∧ q.opc = opc ∧ q.t = o.t ∧
    q.f = (if opc = 0xD3 then 0 else o.nk.val) + (if o.int then 16 else 0) ∧ q.c = c.w.readS cc ∧
    q.accord = c.g.accord ∧ q.a = c.w.readS o.a ∧ q.b = c.w.readS o.b ∧ q.len = 8 ∧
    (∀ r ∈ q.arrivals, r.d ≠ o.d.val ∧ r.wave ≠ c.ref.wave) ∧
    ∀ w ∈ accordWaves c.g.accord, w = c.ref.wave ∨ ∃ r ∈ q.arrivals, r.wave = w

/-- The entry with the wave's arrival. -/
def latchWith (c : Issuer) (o : MmaOp) (q : Latch) : Latch :=
  { q with arrivals := q.arrivals ++ [⟨c.ref.wave, o.d.val, c.w.readS o.a, c.w.readS o.b⟩] }

end Sys2Proof.Machine
end

