-- ==== Sys2Proof/Certificates/Slice0/Obligations.lean ====
section
/-!
DEFINITION. The statements about the model: its instruction words and their decoding, what each instruction and
each step does where nothing stands in its way, where it traps instead, what it leaves alone, and what holds of
every step.
-/

open Sys2Proof Sys2Proof.Machine

/-! ## Scalar instructions (R363-R366) -/

/-- Scalar arithmetic, logic, shifts, extremes and bit fields: the operands are read at the type's width, the exact
result is wrapped or clamped, and D takes it extended to 64 bits (R364); division by zero as R222 has it. -/
def Obligations.ScalarArithmetic : Prop :=
  ∀ o : SBin,
    let us := .sw o.d :: .sr o.a :: useS o.b
    let n : Nat := 2 ^ o.t.width
    let put (op : Nat → Nat → Nat) (c : Issuer) : Wave :=
      c.w.writeS o.d (extendTy o.t (op ((c.w.readS o.a).toNat % n) (c.w.srcSTy o.t o.b)))
    let v := iv o.t
    let out := wrapClamp o.t o.sat
    WaveResult (.sadd o) us (put fun a b => out (v a + v b)) ∧
    WaveResult (.ssub o) us (put fun a b => out (v a - v b)) ∧
    WaveResult (.smul o) us (put fun a b => out (v a * v b)) ∧
    WaveResult (.smulh o) us (put fun a b => natOf o.t.width (v a * v b / (n : Int))) ∧
    WaveResult (.sdiv o) us (put fun a b => if b % n = 0 then n - 1 else out ((v a).tdiv (v b))) ∧
    WaveResult (.srem o) us (put fun a b => if b % n = 0 then a % n else natOf o.t.width ((v a).tmod (v b))) ∧
    WaveResult (.sand o) us (put fun a b => (a &&& b) % n) ∧
    WaveResult (.sor o) us (put fun a b => (a ||| b) % n) ∧
    WaveResult (.sxor o) us (put fun a b => (a ^^^ b) % n) ∧
    WaveResult (.sshl o) us (put fun a b =>
      wrapClamp o.t o.sat (v a * ((2 ^ (b % n % o.t.width) : Nat) : Int))) ∧
    WaveResult (.sshr o) us (put fun a b =>
      natOf o.t.width (v a / ((2 ^ (b % n % o.t.width) : Nat) : Int))) ∧
    WaveResult (.smin o) us (put fun a b => if v b < v a then b % n else a % n) ∧
    WaveResult (.smax o) us (put fun a b => if v a < v b then b % n else a % n) ∧
    WaveResult (.sbfx o) us (put (iBfx o.t))

/-- The other scalar instructions: comparison, selection, move, address, insertion and counting (R223, R364,
R365). -/
def Obligations.ScalarOther : Prop :=
  (∀ (d a : SReg) (b : SSrc) (t : Ty) (cond : Cond), WaveResult (.scmp d a b t cond) (.sw d :: .sr a :: useS b)
    fun c => c.w.writeS d
      (if iCond t cond ((c.w.readS a).toNat % 2 ^ t.width) (c.w.srcSTy t b) then 1 else 0)) ∧
  (∀ (d a : SReg) (b : SSrc) (k : SReg), WaveResult (.ssel d a b k) (.sw d :: .sr a :: .sr k :: useS b)
    fun c => c.w.writeS d (if c.w.readS k = 0 then c.w.srcS b else c.w.readS a)) ∧
  (∀ (d : SReg) (b : SSrc) (t : Ty), WaveResult (.smov d b t) (.sw d :: useS b)
    fun c => c.w.writeS d (extendTy t (c.w.srcSTy t b))) ∧
  (∀ (d a : SReg) (b : SSrc) (sh : Fin 8), WaveResult (.slea d a b sh) (.sw d :: .sr a :: useS b)
    fun c => c.w.writeS d (c.w.readS a + (c.w.srcS b <<< sh.val))) ∧
  (∀ (d a : SReg) (b : SSrc) (k : SReg) (t : Ty), WaveResult (.sbfi d a b k t)
    (.sw d :: .sr a :: .sr k :: useS b)
    fun c => c.w.writeS d (extendTy t (iBfi t ((c.w.readS a).toNat % 2 ^ t.width) (c.w.srcSTy t b)
      ((c.w.readS k).toNat % 2 ^ t.width)))) ∧
  (∀ o : SUn, WaveResult (.spopc o) [.sw o.d, .sr o.a] fun c => c.w.writeS o.d (extendTy o.t
    ((List.range o.t.width).countP fun i => ((c.w.readS o.a).toNat % 2 ^ o.t.width).testBit i))) ∧
  (∀ o : SUn, WaveResult (.sclz o) [.sw o.d, .sr o.a] fun c => c.w.writeS o.d (extendTy o.t
    (let x := (c.w.readS o.a).toNat % 2 ^ o.t.width
     if x = 0 then o.t.width else o.t.width - 1 - x.log2)))

/-- A scalar register reads what was written last, the encoding 0xFF reads zero and discards what is written to it
(R56, R363), and a vector register likewise with v255 (R202). -/
def Obligations.RegistersReadBack : Prop :=
  (∀ (w : Wave) (d r : SReg) (x : Word),
    (w.writeS d x).readS r = if r = d ∧ d ≠ .zero then x else w.readS r) ∧
  (∀ w : Wave, w.readS .zero = 0) ∧
  (∀ (w : Wave) (d l r k : Nat) (x : Word), l < 32 → k < 32 →
    (w.writeV d l x).readV r k = if r = d ∧ k = l ∧ d ≠ 255 then x else w.readV r k) ∧
  (∀ (w : Wave) (l : Nat), w.readV 255 l = 0)

/-- XSETB sets BASE and LIMIT, XLD the index of each active lane from the low byte of A (R367); VRDX reads the
register BASE + x of each lane, VWRX writes it (R206, R227), where the index lies below LIMIT and the register it
names is free. A lane whose index is not below LIMIT meets Register Index, one that names a register above 254 or outside
the allotment Register Bound, origin 6, which ranks higher (R206). -/
def Obligations.IndexRegisters : Prop :=
  (∀ (d : XReg) (a : SReg) (b : SSrc) (s : State) (c : Issuer), issuer s = some c →
    allFree c c.all (.sr a :: useS b) = true → ∃ t w, exec (.xsetb d a b) s = .next t ∧
      Retired c (.xsetb d a b) t ∧ findWave t c.ref.gid c.ref.wave = some w ∧
      w.xbase.get 0 d.val = (c.w.readS a).toNat % 256 ∧
      w.xlimit.get 0 d.val = min (c.w.srcS b).toNat 256 ∧
      ∀ n, n ≠ d.val → w.xbase.get 0 n = c.w.xbase.get 0 n ∧ w.xlimit.get 0 n = c.w.xlimit.get 0 n) ∧
  (∀ (g : Guard) (d : XReg) (a : VReg) (s : State) (c : Issuer), issuer s = some c →
    allFree c c.all [.pr g.p.val] = true → allFree c (c.lanes g) [.vr 1 a.val] = true →
    ∃ t w, exec (.xld g d a) s = .next t ∧ Retired c (.xld g d a) t ∧
      findWave t c.ref.gid c.ref.wave = some w ∧
      (∀ l ∈ c.lanes g, w.readX d.val l = (c.w.readV a.val l).toNat % 256)) ∧
  (∀ (g : Guard) (d : VReg) (a : XReg) (s : State) (c : Issuer), issuer s = some c →
    allFree c c.all [.pr g.p.val] = true →
    allFree c (c.lanes g) [.vw 0 d.val, .xr a.val, .base a.val] = true →
    (∀ l ∈ c.lanes g, c.w.readX a.val l < c.w.xlimit.get 0 a.val ∧ c.w.indexed a.val l ≤ 254 ∧
      Use.free c [l] (.vr 1 (c.w.indexed a.val l)) = true) →
    exec (.vrdx g d a) s = .next (retire s c 8
      (c.w.writeLanes d.val (c.lanes g) fun l => c.w.readV (c.w.xbase.get 0 a.val + c.w.readX a.val l) l))) ∧
  (∀ (g : Guard) (d : XReg) (a : VReg) (s : State) (c : Issuer), issuer s = some c →
    allFree c c.all [.pr g.p.val] = true →
    allFree c (c.lanes g) [.vr 1 a.val, .xr d.val, .base d.val] = true →
    (∀ l ∈ c.lanes g, c.w.readX d.val l < c.w.xlimit.get 0 d.val ∧ c.w.indexed d.val l ≤ 254 ∧
      Use.free c [l] (.vw 0 (c.w.indexed d.val l)) = true) →
    exec (.vwrx g d a) s = .next (retire s c 8 ((c.lanes g).foldl
      (fun w l => w.writeV (c.w.xbase.get 0 d.val + c.w.readX d.val l) l (c.w.readV a.val l)) c.w))) ∧
  (∀ (i : Instr) (g : Guard) (x : XReg) (us : List Use) (s : State) (c : Issuer), issuer s = some c →
    ((∃ d : VReg, i = .vrdx g d x ∧ us = [.vw 0 d.val, .xr x.val, .base x.val]) ∨
      ∃ a : VReg, i = .vwrx g x a ∧ us = [.vr 1 a.val, .xr x.val, .base x.val]) →
    allFree c c.all [.pr g.p.val] = true → allFree c (c.lanes g) us = true →
    let low := (c.lanes g).filter fun l => decide (c.w.xlimit.get 0 x.val ≤ c.w.readX x.val l)
    let out := (c.lanes g).filter fun l => decide (c.w.readX x.val l < c.w.xlimit.get 0 x.val ∧
      (254 < c.w.indexed x.val l ∨ c.g.vregs ≤ c.w.indexed x.val l))
    (∀ l ∈ c.lanes g, l ∈ low ∨ l ∈ out ∨ Use.free c [l] (.vr 1 (c.w.indexed x.val l)) = true) →
    (out ≠ [] → exec i s = .next (takeTrap s c
      ⟨3, 0, maskOf out, word (6 * 2 ^ 56 + if low = [] then 0 else 1)⟩ c.pc)) ∧
    (out = [] → low ≠ [] → exec i s = .next (takeTrap s c ⟨4, 0, maskOf low, word (x.val * 2 ^ 56)⟩ c.pc)))

/-! ## Vector instructions (R214-R242) -/

/-- Vector integer arithmetic and logic, element by element in every active lane (R216, R217, R221-R224). -/
def Obligations.VectorInteger : Prop :=
  (∀ o : VBin,
    let n : Nat := 2 ^ o.t.width
    let v := iv o.t
    let out := wrapClamp o.t o.sat
    let done (i : Instr) (op : Nat → Nat → Nat) : Prop :=
      LaneResult i o.g (.vw 0 o.d.val :: .vr 1 o.a.val :: useV 2 o.b) fun c ls =>
        c.w.writeLanes o.d.val ls fun l => packSubs o.t.width ((List.range (64 / o.t.width)).map fun k =>
          op (subElem (c.w.readV o.a.val l) o.t.width k) (c.w.subV o.t l k o.b))
    done (.vadd o) (fun a b => out (v a + v b)) ∧ done (.vsub o) (fun a b => out (v a - v b)) ∧
    done (.vmul o) (fun a b => out (v a * v b)) ∧
    done (.vmulh o) (fun a b => natOf o.t.width (v a * v b / (n : Int))) ∧
    done (.vdiv o) (fun a b => if b % n = 0 then n - 1 else out ((v a).tdiv (v b))) ∧
    done (.vrem o) (fun a b => if b % n = 0 then a % n else natOf o.t.width ((v a).tmod (v b))) ∧
    done (.vand o) (fun a b => (a &&& b) % n) ∧ done (.vor o) (fun a b => (a ||| b) % n) ∧
    done (.vxor o) (fun a b => (a ^^^ b) % n) ∧
    done (.vshl o) (fun a b => out (v a * ((2 ^ (b % n % o.t.width) : Nat) : Int))) ∧
    done (.vshr o) (fun a b => natOf o.t.width (v a / ((2 ^ (b % n % o.t.width) : Nat) : Int))) ∧
    done (.vmin o) (fun a b => if v b < v a then b % n else a % n) ∧
    done (.vmax o) (fun a b => if v a < v b then b % n else a % n) ∧ done (.vbfx o) (iBfx o.t)) ∧
  (∀ o : VUn,
    let n : Nat := 2 ^ o.t.width
    let done (i : Instr) (op : Nat → Nat) : Prop :=
      LaneResult i o.g [.vw 0 o.d.val, .vr 1 o.a.val] fun c ls =>
        c.w.writeLanes o.d.val ls fun l => packSubs o.t.width ((List.range (64 / o.t.width)).map fun k =>
          op (subElem (c.w.readV o.a.val l) o.t.width k))
    done (.vnot o) (fun a => n - 1 - a % n) ∧
    done (.vabs o) (fun a => wrapClamp o.t o.sat ((iv o.t a).natAbs : Int)) ∧
    done (.vneg o) (fun a => wrapClamp o.t o.sat (-(iv o.t a))) ∧
    done (.vpopc o) (fun a => (List.range o.t.width).countP fun i => a.testBit i) ∧
    done (.vclz o) (iClz o.t)) ∧
  (∀ o : VTern,
    let done (i : Instr) (op : Nat → Nat → Nat → Nat) : Prop :=
      LaneResult i o.g (.vw 0 o.d.val :: .vr 1 o.a.val :: .vr 3 o.c.val :: useV 2 o.b) fun c ls =>
        c.w.writeLanes o.d.val ls fun l => packSubs o.t.width ((List.range (64 / o.t.width)).map fun k =>
          op (subElem (c.w.readV o.a.val l) o.t.width k) (c.w.subV o.t l k o.b)
            (subElem (c.w.readV o.c.val l) o.t.width k))
    done (.vmad o) (fun a b k => wrapClamp o.t o.sat (iv o.t a * iv o.t b + iv o.t k)) ∧
    done (.vbfi o) (iBfi o.t) ∧ done (.vdot4 o) (iDot4 o.t o.sat))

/-- Compares, selection, moves and conversions between integer types (R215, R224-R229, R253). -/
def Obligations.VectorMoves : Prop :=
  (∀ o : VCmpOp, LaneResult (.vcmp o) o.g (.pw o.d.val :: .vr 1 o.a.val :: useV 2 o.b) fun c ls =>
    c.w.writeP o.d.val ls fun l =>
      let bits := (List.range (64 / o.t.width)).map fun k =>
        iCond o.t o.cond (subElem (c.w.readV o.a.val l) o.t.width k) (c.w.subV o.t l k o.b)
      if o.any then bits.any id else bits.all id) ∧
  (∀ (g : Guard) (d a : VReg) (b : VSrc) (p : PReg), LaneResult (.vsel g d a b p) g
    (.vw 0 d.val :: .vr 1 a.val :: .pr p.val :: useV 2 b) fun c ls => c.w.writeLanes d.val ls fun l =>
      if (c.w.readP p.val).getLsbD l then c.w.readV a.val l else c.w.srcV .none l b) ∧
  (∀ (g : Guard) (d : VReg) (b : VSrc) (t : Ty), LaneResult (.vmov g d b t) g (.vw 0 d.val :: useV 2 b)
    fun c ls => c.w.writeLanes d.val ls fun l => c.w.srcV t l b) ∧
  (∀ (g : Guard) (d : VReg) (a : SReg) (t : Ty), LaneResult (.viota g d a t) g [.vw 0 d.val, .sr a]
    fun c ls => c.w.writeLanes d.val ls fun l => mapSubs t fun k =>
      ((c.w.readS a).toNat + l * (64 / t.width) + k) % 2 ^ t.width) ∧
  (∀ o : VCvt, LaneResult (.vcvti o) o.g (cvtUses o) fun c ls => c.w.writeLanes o.d.val ls fun l =>
    putCvt (c.w.readV o.d.val l) o.t.width
      ((cvtPlaces o.src.width o.t.width o.part.val).map fun (i, k) =>
        (k, wrapClamp o.t o.sat (iv o.src (subElem (c.w.readV o.a.val l) o.src.width i))))) ∧
  (∀ (g : Guard) (d a b : VReg) (t src : Ty) (sat : Bool), LaneResult (.vpack g d a b t src sat) g
    [.vw 0 d.val, .vr 1 a.val, .vr 2 b.val] fun c ls => c.w.writeLanes d.val ls fun l =>
      packSubs t.width ((c.w.subsOf src a.val l ++ c.w.subsOf src b.val l).map (iCvt t src sat))) ∧
  (∀ (g : Guard) (d a : VReg) (t src : Ty) (sat : Bool), LaneResult (.vunpk g d a t src sat) g
    [.vw 0 d.val, .vw 0 (d.val + 1), .vr 1 a.val] fun c ls =>
      let part (l : Nat) : List Nat := (c.w.subsOf src a.val l).map (iCvt t src sat)
      (c.w.writeLanes d.val ls fun l => packSubs t.width ((part l).take (64 / t.width))).writeLanes
        (d.val + 1) ls fun l => packSubs t.width ((part l).drop (64 / t.width))) ∧
  (∀ (g : Guard) (d a b k : VReg), LaneResult (.vpermb g d a b k) g
    [.vw 0 d.val, .vr 1 a.val, .vr 2 b.val, .vr 3 k.val] fun c ls => c.w.writeLanes d.val ls fun l =>
      packSubs 8 ((List.range 8).map fun j =>
        let e := subElem (c.w.readV b.val l) 8 j
        if e.testBit 7 then 0
        else subElem (if e.testBit 3 then c.w.readV k.val l else c.w.readV a.val l) 8 (e % 8))) ∧
  (∀ (g : Guard) (d a : VReg), LaneResult (.scget g d a) g [.vw 0 d.val, .vw 1 a.val, .side a.val]
    fun c ls => c.w.writeLanes d.val ls fun l => (c.w.readSide a.val (l / 4)).setWidth 64)

/-- Floating-point arithmetic: the exact result of the decoded operands, rounded once to the type in the mode of
the instruction, with the flags it raises (R216, R230, R231). The powers and logarithms of VFEXP2 and VFLOG2 are computed
to so many bits that one rounding decides every f32 (log entry 10, DEDUCED). -/
def Obligations.VectorFloat : Prop :=
  (∀ o : VBin,
    let done (i : Instr) (op : Bool → Val → Val → Exact) : Prop :=
      FloatResult i o.g (.vw 0 o.d.val :: .vr 1 o.a.val :: useV 2 o.b)
        (fun c l => packRes o.t.width l ((List.range (64 / o.t.width)).map fun k =>
          let a := decodeVal o.t (subElem (c.w.readV o.a.val l) o.t.width k)
          let b := decodeVal o.t (c.w.subV o.t l k o.b)
          let r := encodeExact o.t (c.w.mode o.rnd) o.sat (op (c.w.mode o.rnd).isRdn a b)
          ⟨r.1, r.2, a.isSNan || b.isSNan⟩))
        fun w rs => w.writeRes o.d.val rs
    done (.vfadd o) addVals ∧ done (.vfsub o) (fun rdn a b => addVals rdn a b.neg) ∧
    done (.vfmul o) (fun _ a b => mulVals a b) ∧ done (.vfdiv o) (fun _ a b => divVals a b)) ∧
  (∀ o : VTern, FloatResult (.vfma o) o.g (.vw 0 o.d.val :: .vr 1 o.a.val :: .vr 3 o.c.val :: useV 2 o.b)
    (fun c l => packRes o.t.width l ((List.range (64 / o.t.width)).map fun k =>
      let a := decodeVal o.t (subElem (c.w.readV o.a.val l) o.t.width k)
      let b := decodeVal o.t (c.w.subV o.t l k o.b)
      let d := decodeVal o.t (subElem (c.w.readV o.c.val l) o.t.width k)
      let r := encodeExact o.t (c.w.mode o.rnd) o.sat (fmaVals (c.w.mode o.rnd).isRdn a b d)
      ⟨r.1, r.2, a.isSNan || b.isSNan || d.isSNan⟩))
    fun w rs => w.writeRes o.d.val rs) ∧
  (∀ o : VBin,
    let done (i : Instr) (isMax : Bool) : Prop :=
      FloatResult i o.g (.vw 0 o.d.val :: .vr 1 o.a.val :: useV 2 o.b)
        (fun c l => packRes o.t.width l ((List.range (64 / o.t.width)).map fun k =>
          let a := subElem (c.w.readV o.a.val l) o.t.width k
          let b := c.w.subV o.t l k o.b
          ⟨(minMaxVal o.t isMax a b).1, (minMaxVal o.t isMax a b).2,
            (decodeVal o.t a).isSNan || (decodeVal o.t b).isSNan⟩))
        fun w rs => w.writeRes o.d.val rs
    done (.vfmin o) false ∧ done (.vfmax o) true) ∧
  (∀ o : VUn,
    let done (i : Instr) (op : Val → Exact) : Prop :=
      FloatResult i o.g [.vw 0 o.d.val, .vr 1 o.a.val]
        (fun c l => packRes o.t.width l ((List.range (64 / o.t.width)).map fun k =>
          let a := decodeVal o.t (subElem (c.w.readV o.a.val l) o.t.width k)
          let r := encodeExact o.t (c.w.mode o.rnd) o.sat (op a)
          ⟨r.1, r.2, a.isSNan⟩))
        fun w rs => w.writeRes o.d.val rs
    done (.vfsqrt o) sqrtVal ∧ done (.vfrcp o) (divVals .one) ∧ done (.vfrsq o) rsqVal ∧
    done (.vfexp2 o) pow2Val ∧ done (.vflog2 o) logVal)

/-- The other floating-point instructions and the checksums complete where the registers they name are free and no
trap is enabled. -/
def Obligations.FloatOthersComplete : Prop :=
  (∀ o : VCmpOp, LaneCompletes (.vfcmp o) o.g (.spec 2 :: .ff :: .pw o.d.val :: .vr 1 o.a.val :: useV 2 o.b)) ∧
  (∀ o : VUn, LaneCompletes (.vfclass o) o.g [.vw 0 o.d.val, .vr 1 o.a.val]) ∧
  (∀ o : VBin, LaneCompletes (.vfscale o) o.g (.spec 2 :: .ff :: .vw 0 o.d.val :: .vr 1 o.a.val :: useV 2 o.b)) ∧
  (∀ (g : Guard) (d a : VReg) (t : Ty) (rnd : Rnd) (exact : Bool),
    LaneCompletes (.vfrnd g d a t rnd exact) g [.spec 2, .ff, .vw 0 d.val, .vr 1 a.val]) ∧
  (∀ o : VCvt, LaneCompletes (.vfcvt o) o.g (.spec 2 :: .ff :: cvtUses o ++ srUse o.rnd) ∧
    LaneCompletes (.vfcvti o) o.g (.spec 2 :: .ff :: cvtUses o ++ srUse o.rnd) ∧
    LaneCompletes (.vicvtf o) o.g (.spec 2 :: .ff :: cvtUses o ++ srUse o.rnd)) ∧
  (∀ (g : Guard) (d a : VReg) (b : VSrc) (j p : Fin 8), LaneCompletes (.vfslice g d a b j p) g
    (.spec 2 :: .ff :: .vw 0 d.val :: .vr 0 d.val :: .vr 1 a.val :: useV 2 b)) ∧
  (∀ o : VTern, LaneCompletes (.vfjoin o) o.g
    (.spec 2 :: .ff :: .vw 0 o.d.val :: .vr 1 o.a.val :: .vr 3 o.c.val :: useV 2 o.b)) ∧
  (∀ (g : Guard) (d a : VReg) (k : Fin 62), LaneCompletes (.voptm g d a k) g
    ([.spec 2, .ff, .vr 1 a.val] ++ runUse (.vr 0) d.val 3 ++
      (List.range 3).map fun i => Use.sr (Machine.sregOf (k.val + i)))) ∧
  (∀ (g : Guard) (ck : Fin 4) (a : VReg) (t : Ty) (neg : Bool), LaneCompletes (.vckadd g ck a t neg) g
    [.spec 2, .ff, .vr 1 a.val, .ck ck.val]) ∧
  (∀ (g : Guard) (d a b k : VReg) (t : Ty) (rnd : Rnd) (sat : Bool), LaneCompletes (.vfdot2 g d a b k t rnd sat) g
    [.spec 2, .ff, .vw 0 d.val, .vr 1 a.val, .vr 2 b.val, .vr 3 k.val])

/-- VCKTST writes the difference in units of the last place; with its trap bit it traps where the bound is exceeded
(R241). -/
def Obligations.ChecksumTest : Prop :=
  ∀ (d : SReg) (a b : Fin 4) (k : SReg) (trap : Bool) (s : State) (c : Issuer), issuer s = some c →
    allFree c c.all [.sw d, .sr k, .ck a.val, .ck b.val] = true →
    let n := ckCount (c.w.readCk a.val) (c.w.readCk b.val)
    (trap = false ∨ n ≤ (c.w.readS k).toNat →
      exec (.vcktst d a b k trap) s = .next (retire s c 8 (c.w.writeS d (word n)))) ∧
    (trap = true → (c.w.readS k).toNat < n → c.all ≠ [] →
      exec (.vcktst d a b k trap) s = .next (takeTrap s c
        ⟨17, 0, maskOf c.all, word (a.val * 2 ^ 62 + b.val * 2 ^ 60)⟩ c.pc))

/-! ## Block-aware and cross-lane instructions (R243-R269) -/

/-- An instruction on whole slices completes where every slice of the wave is wholly active or not at all (R243), the
registers it names are free and no trap is enabled. -/
def Obligations.BlockInstructionsComplete : Prop :=
  let done (i : Instr) (g : Guard) (us : List Use) : Prop :=
    ∀ s c, issuer s = some c → allFree c c.all [.pr g.p.val] = true → allFree c (c.lanes g) us = true →
      c.w.fmode.toNat < 4 → (∀ l ∈ c.lanes g, ∀ m ∈ lanesAt (l / 4), m ∈ c.lanes g) →
      ∃ t, exec i s = .next t ∧ Retired c i t
  (∀ (g : Guard) (d a : VReg) (t : Ty),
    done (.bamax g d a t) g (.vw 0 d.val :: runUse (.vr 1) a.val (runRegs t 1))) ∧
  (∀ (g : Guard) (d a : VReg) (t : Ty) (p : Policy) (hi : Bool),
    done (.bscale g d a t p hi) g
      [.vw 0 d.val, .lead 1 a.val]) ∧
  (∀ o : QuantOp, done (.bquant o) o.g
    (quantUses o ++ runUse (.vr 1) o.a.val (runRegs o.src o.t.blocks))) ∧
  (∀ o : QuantOp, done (.brescale o) o.g (quantUses o ++ .vr 1 o.a.val :: scaleUses o.src o.a.val)) ∧
  (∀ (g : Guard) (d a : VReg) (t src : Ty) (rnd : Rnd) (sat : Bool), done (.bdeq g d a t src rnd sat) g
    ([.spec 2, .ff, .vr 1 a.val] ++ scaleUses src a.val ++ runUse (.vw 0) d.val (runRegs t src.blocks))) ∧
  (∀ (g : Guard) (d : VReg) (b : VSrc) (lo hi : Bool), done (.scset g d b lo hi) g
    (.vw 0 d.val :: leadV 2 b)) ∧
  (∀ (g : Guard) (d a : VReg), LaneCompletes (.aqparm g d a) g [.spec 2, .ff, .vw 0 d.val, .vr 1 a.val]) ∧
  (∀ (g : Guard) (d a b : VReg) (rnd : Rnd) (part : Fin 4), LaneCompletes (.aquant g d a b rnd part) g
    ([.spec 2, .ff, .vw 0 d.val, .vr 0 d.val, .vr 1 a.val, .vr 2 b.val] ++ srUse rnd)) ∧
  (∀ (g : Guard) (d a b : VReg) (rnd : Rnd) (sat : Bool) (part : Fin 4),
    LaneCompletes (.adeq g d a b rnd sat part) g [.spec 2, .ff, .vw 0 d.val, .vr 1 a.val, .vr 2 b.val])

/-- A block instruction on a slice of which only some lanes are active is misaligned and names the lanes of those slices
(R243, R388), where nothing else is amiss and %fmode enables no trap: BAMAX, BSCALE, BQUANT, BRESCALE, BDEQ and SCSET. -/
def Obligations.MisalignedBlocks : Prop :=
  let traps (i : Instr) (g : Guard) (us : List Use) : Prop :=
    ∀ (s : State) (c : Issuer), issuer s = some c → allFree c c.all [.pr g.p.val] = true →
      allFree c (c.lanes g) us = true → c.w.fmode.toNat < 4 →
      let bad := (c.lanes g).filter fun l => !(lanesAt (l / 4)).all fun m => (c.lanes g).contains m
      bad ≠ [] → exec i s = .next (takeTrap s c ⟨6, 0, maskOf bad, word (2 ^ 56)⟩ c.pc)
  (∀ (g : Guard) (d a : VReg) (t : Ty),
    traps (.bamax g d a t) g (.vw 0 d.val :: runUse (.vr 1) a.val (runRegs t 1))) ∧
  (∀ (g : Guard) (d a : VReg) (t : Ty) (p : Policy) (hi : Bool), traps (.bscale g d a t p hi) g
    [.vw 0 d.val, .lead 1 a.val]) ∧
  (∀ o : QuantOp, traps (.bquant o) o.g (quantUses o ++ runUse (.vr 1) o.a.val (runRegs o.src o.t.blocks)) ∧
    traps (.brescale o) o.g (quantUses o ++ .vr 1 o.a.val :: scaleUses o.src o.a.val)) ∧
  (∀ (g : Guard) (d a : VReg) (t src : Ty) (rnd : Rnd) (sat : Bool), traps (.bdeq g d a t src rnd sat) g
    ([.spec 2, .ff, .vr 1 a.val] ++ scaleUses src a.val ++ runUse (.vw 0) d.val (runRegs t src.blocks))) ∧
  (∀ (g : Guard) (d : VReg) (b : VSrc) (lo hi : Bool), traps (.scset g d b lo hi) g
    (.vw 0 d.val :: leadV 2 b))

/-- Shuffles, pushes, broadcasts, compaction and matches: what each active lane takes from which lane (R259-R263,
R267, R269). -/
def Obligations.CrossLaneMoves : Prop :=
  let done (i : Instr) (g : Guard) (us : List Use) (a : VReg) (eff : Issuer → List Nat → Wave) : Prop :=
    ∀ s c, issuer s = some c → allFree c c.all [.pr g.p.val] = true → allFree c (c.lanes g) us = true →
      wholeFree c a.val = true → exec i s = .next (retire s c i.len (eff c (c.lanes g)))
  (∀ o : ShflOp, done (.xshfl o) o.g (.vw 0 o.d.val :: useV 2 o.b) o.a fun c ls =>
    c.w.writeLanes o.d.val ls fun l => packSubs o.t.width ((List.range (64 / o.t.width)).map fun k =>
      let b := match o.b with
        | .reg r => subElem (c.w.readV r.val l) 8 k
        | .lit x => x.toNat % 256
      let from_ := if o.rel then (8 * l + k + b) % 256 else b
      subElem (c.w.readV o.a.val (from_ / 8)) o.t.width (from_ % 8 % (64 / o.t.width)))) ∧
  (∀ (o : ShflOp) (p : PReg) (s : State) (c : Issuer), issuer s = some c → allFree c c.all [.pr o.g.p.val] = true →
    let ls := c.lanes o.g
    let ps := pushes c.w o ls
    allFree c ls ([.vw 0 o.d.val, .vr 1 o.a.val, .pw p.val] ++ useV 2 o.b) = true →
    (∀ l ∈ ls, (∃ k, k < 64 / o.t.width ∧ ∀ q ∈ ps, q.1 = l → q.2.1 ≠ k) → (∃ q ∈ ps, q.1 = l) → o.d.val ≠ 255 →
      c.w.marked (mkV o.d.val l) = false) →
    exec (.xpush o p) s = .next (retire s c (Instr.len (.xpush o p))
      ((ps.foldl (fun w q => w.writeV o.d.val q.1 (setSub (w.readV o.d.val q.1) o.t.width q.2.1 q.2.2)) c.w).writeP
        p.val ls fun l => ps.any fun q => q.1 == l))) ∧
  (∀ (g : Guard) (d a b : VReg) (stage : Fin 5) (s : State) (c : Issuer), issuer s = some c →
    allFree c c.all [.pr g.p.val] = true →
    allFree c (c.lanes g) [.vw 0 d.val, .vw 0 (d.val + 1)] = true → wholeFree c a.val = true →
    wholeFree c b.val = true → (∀ l ∈ c.lanes g, l < 32) →
    exec (.xbfly g d a b stage) s = .next (retire s c 8
      ((c.w.writeLanes d.val (c.lanes g) fun l =>
        if l.testBit stage.val then c.w.readV b.val (l ^^^ 2 ^ stage.val) else c.w.readV a.val l).writeLanes
        (d.val + 1) (c.lanes g) fun l =>
          if l.testBit stage.val then c.w.readV b.val l else c.w.readV a.val (l ^^^ 2 ^ stage.val)))) ∧
  (∀ (g : Guard) (d a : VReg) (b : SSrc) (t : Ty), done (.xbcast g d a b t) g (.vw 0 d.val :: useS b) a
    fun c ls => c.w.writeLanes d.val ls fun _ => packSubs t.width ((List.range (64 / t.width)).map fun _ =>
      let n := (c.w.srcS b).toNat % 256
      subElem (c.w.readV a.val (n / 8)) t.width (n % 8 % (64 / t.width)))) ∧
  (∀ (g : Guard) (d a : VReg) (b : PReg) (k : SReg), done (.xcompact g d a b k) g
    [.vw 0 d.val, .prAll b.val, .sw k] a fun c ls =>
      let chosen := (List.range 32).filter fun l => (c.w.readP b.val).getLsbD l
      ((ls.zip chosen).foldl (fun w q => w.writeV d.val q.1 (c.w.readV a.val q.2)) c.w).writeS k
        (word chosen.length)) ∧
  (∀ (g : Guard) (d a : VReg) (t : Ty), LaneResult (.xmatch g d a t) g [.vw 0 d.val, .vr 1 a.val]
    fun c ls => c.w.writeLanes d.val ls fun l => (maskOf (ls.filter fun i =>
      subElem (c.w.readV a.val i) t.width 0 == subElem (c.w.readV a.val l) t.width 0)).setWidth 64)

/-- Votes, reductions, scans and sampling (R264-R266, R268): XVOTE's three results, and the completion of the
others. -/
def Obligations.VotesAndReductions : Prop :=
  (∀ (g : Guard) (d : SReg) (a : PReg) (fn : VoteFn), LaneResult (.xvote g d a fn) g [.sw d, .pr a.val]
    fun c ls =>
      let yes := ls.filter fun l => (c.w.readP a.val).getLsbD l
      c.w.writeS d (match fn with
        | .ballot => (maskOf yes).setWidth 64
        | .any => if yes = [] then 0 else 1
        | .all => if yes.length = ls.length then 1 else 0)) ∧
  (∀ (g : Guard) (d : SReg) (a : VReg) (t : Ty) (rnd : Rnd) (op : RedOp),
    LaneCompletes (.xred g d a t rnd op) g [.spec 2, .ff, .sw d, .vr 1 a.val]) ∧
  (∀ (g : Guard) (d a : VReg) (t : Ty) (rnd : Rnd) (op : RedOp) (excl : Bool),
    LaneCompletes (.xscan g d a t rnd op excl) g [.spec 2, .ff, .vw 0 d.val, .vr 1 a.val]) ∧
  (∀ (g : Guard) (d : SReg) (a : VReg) (b : SSrc) (t : Ty), LaneCompletes (.xsample g d a b t) g
    ([.spec 2, .ff, .sw d, .vr 1 a.val] ++ useS b))

/-! ## Control (R337-R362) -/

/-- NOP goes on; MFS reads the special register it names, MTS writes it, where the wave may (R361, R362). -/
def Obligations.SpecialRegisters : Prop :=
  (∀ s c, issuer s = some c → exec .nopH s = .next (retire s c 4 c.w) ∧
    exec .nopW s = .next (retire s c 8 c.w)) ∧
  (∀ (g : Guard) (d : VReg) (r : LaneSpec), LaneResult (.mfs (.lane g d r)) g [.vw 0 d.val, .ff]
    fun c ls => c.w.writeLanes d.val ls fun l => match r with
      | .laneid => word l
      | .sliceid => word (l / 4)
      | .fflags => (c.w.readFf l).setWidth 64) ∧
  (∀ (d : SReg) (r : SpecReg) (s : State) (c : Issuer), issuer s = some c →
    allFree c c.all (.sw d :: specUse r) = true →
    exec (.mfs (.wave d r)) s = .next (retire s c 8 (c.w.writeS d (readSpec s c r)))) ∧
  (∀ (g : Guard) (b : VSrc) (s : State) (c : Issuer), issuer s = some c →
    allFree c c.all [.pr g.p.val] = true → allFree c (c.lanes g) (useV 2 b) = true →
    ∃ t w, exec (.mts (.fflags g b)) s = .next t ∧ Retired c (.mts (.fflags g b)) t ∧
      findWave t c.ref.gid c.ref.wave = some w ∧
      (∀ l, w.readFf l = if l ∈ c.lanes g then (c.w.srcV .none l b).setWidth 6 else c.w.readFf l)) ∧
  (∀ (r : SpecReg) (b : SSrc) (s : State) (c : Issuer), issuer s = some c →
    allFree c c.all (useS b) = true →
    SpecReg.masked r = false ∨ (c.w.trap.tm = true ∧ c.w.marked (mkSpec 4) = false) →
    ∃ t, exec (.mts (.wave r b)) s = .next t ∧ Retired c (.mts (.wave r b)) t)

/-- What MFS reads of the registers that say where the wave runs, of the active mask, the counters and the memory
capability (R63, R64, R99, R210, R361), and what MTS leaves in the registers of the trap state and of the wave, read back
by MFS: only the bits that R64 and R390 give them are kept, and MTS to a word of %ckn leaves the other words as they are. -/
def Obligations.SpecialReadBack : Prop :=
  (∀ (s : State) (c : Issuer), issuer s = some c →
    readSpec s c .waveid = word c.ref.wave ∧ readSpec s c .groupid = word (c.g.launch * 2 ^ 32 + c.g.index) ∧
    readSpec s c .coreid = word c.g.core ∧ readSpec s c .quadid = word (c.g.core / 4) ∧
    readSpec s c .dieid = word c.g.die ∧ readSpec s c .pkgid = word s.regs.pkgId ∧
    (∀ l, l < 64 → ((readSpec s c .amask).getLsbD l = true ↔ l ∈ c.all)) ∧
    readSpec s c .cnt = word (c.w.lq.length + 2 ^ 8 * c.w.sq.length + 2 ^ 16 * c.w.cq.length + 2 ^ 24 * c.w.mq) ∧
    readSpec s c .memcap = 0x335566) ∧
  (∀ (b : SSrc) (s : State) (c : Issuer), issuer s = some c → allFree c c.all (useS b) = true →
    let x := c.w.srcS b
    let reads (r q : SpecReg) (v : Word) : Prop :=
      ∃ t c', exec (.mts (.wave r b)) s = .next t ∧ issuerAt t c.ref = some c' ∧ readSpec t c' q = v
    reads .grain .grain x ∧ reads .grainctr .grainctr x ∧ reads .fmode .fmode (x &&& 0xFF) ∧
    reads .tvec .tvec (x &&& 0x01FFFFFFFFFFFFFD) ∧ reads .accord .accord x ∧
    reads .barst .barst (x &&& 0xFFFF0001) ∧
    (∀ (n m : Fin 4) (i j : Fin 5), reads (.ck n i) (.ck m j)
      (if m = n ∧ j = i then x else readSpec s c (.ck m j))) ∧
    (c.w.trap.tm = true → c.w.marked (mkSpec 4) = false →
      reads .tpc .tpc (x &&& 0x01FFFFFFFFFFFFFC) ∧ reads .tlanes .tlanes (x &&& 0xFFFFFFFF) ∧
      reads .tinfo .tinfo x ∧
      reads .tcause .tcause (0x8000000000000000 ||| (x &&& 0x000000FF0000001F))))

/-- Branches (R342): a slice goes to the target where some active lane has guard bit 1 (under `.all`, where every one
has), the other slices go on, and the gang regroups with every active mask as it was. Where a slice would go to a target
that is not a multiple of 4, no slice moves: Misaligned, origin 2, names the active lanes of those slices. Nothing is asked
of what stands at the target. -/
def Obligations.Branches : Prop :=
  let branches (i : Instr) (g : Guard) (all : Bool) (us : Issuer → List Use) (target : Issuer → Word) : Prop :=
    ∀ (s : State) (c : Issuer), issuer s = some c → allFree c c.all [.pr g.p.val] = true → allFree c c.all (us c) = true →
      let goes (j : Nat) : Bool :=
        let bits := (sliceLanes c.w j).map (guardBit c.w g)
        if all then bits.all id else bits.any id
      let moved := ((slicesOf c.gang.slices).filter goes).flatMap (sliceLanes c.w)
      ((target c).toNat % 4 = 0 ∨ moved = [] → exec i s = .next (putWave s c (c.w.regroup c fun j =>
        if goes j then target c else c.pc + word i.len))) ∧
      ((target c).toNat % 4 ≠ 0 → moved ≠ [] →
        exec i s = .next (takeTrap s c ⟨6, 0, maskOf moved, word (2 * 2 ^ 56)⟩ c.pc))
  (∀ (g : Guard) (all : Bool) (k : BitVec 32), branches (.bra g all k) g all (fun _ => [])
    fun c => c.pc + k.signExtend 64) ∧
  (∀ (g : Guard) (all : Bool) (a : SReg) (b : SSrc), branches (.brx g all a b) g all (fun _ => .sr a :: useS b)
    fun c => c.w.readS a + c.w.srcS b)

/-- A gang whose slices go to several places splits into one gang for each, and each slice is in the gang of its own
place (R338). -/
def Obligations.GangsRegroup : Prop :=
  ∀ (s : State) (c : Issuer) (next : Nat → Word) (j : Nat), issuer s = some c →
    (∀ x ∈ c.w.gangs, x ≠ c.gang → x.slices &&& c.gang.slices = 0) → c.gang.slices.getLsbD j = true →
    ∃ x, issuerAt (putWave s c (c.w.regroup c next)) ⟨c.ref.gid, c.ref.wave, j⟩ = some x ∧
      x.gang.pc = next j ∧ x.gang.hold = .none ∧
      ∀ i, x.gang.slices.getLsbD i = true ↔ c.gang.slices.getLsbD i = true ∧ next i = next j

/-- BRS (R343) divides the lanes of each slice of the gang into those with guard bit 1 and the others: where both are, it
stacks the others and goes to the target with the first, where only the first are it goes to the target, and it goes on
where none of them is. It moves no slice, and traps, where a target or a join address that a slice needs is not a
multiple of 4 or a slice has eight entries already. JOIN (R344) brings the stacked lanes back. -/
def Obligations.DivergenceStack : Prop :=
  (∀ (g : Guard) (join : BitVec 16) (k : BitVec 32) (s : State) (c : Issuer), issuer s = some c →
    allFree c c.all [.pr g.p.val] = true →
    let target := c.pc + k.signExtend 64
    let joinPc := c.pc + join.signExtend 64
    let taken (j : Nat) : List Nat := (sliceLanes c.w j).filter (guardBit c.w g)
    let other (j : Nat) : List Nat := (sliceLanes c.w j).filter fun l => !guardBit c.w g l
    let both (j : Nat) : Bool := taken j != [] && other j != []
    let full (j : Nat) : Bool := decide (8 ≤ (sliceAt c.w j).stack.length)
    let pick (p : Nat → Bool) : List Nat := ((slicesOf c.gang.slices).filter p).flatMap (sliceLanes c.w)
    let goers := pick fun j => taken j != []
    let pushers := pick fun j => both j && !full j
    let stuck := pick fun j => both j && full j
    let brs := exec (.brs g join k) s
    let sl (e : Slice × Nat) : Slice :=
      if c.gang.slices.getLsbD e.2 && both e.2 then
        { e.1 with stack := ⟨joinPc, c.pc + 12, nibble (other e.2), e.1.amask⟩ :: e.1.stack, amask := nibble (taken e.2) }
      else e.1
    (target.toNat % 4 = 0 ∨ goers = [] → joinPc.toNat % 4 = 0 ∨ pushers = [] → stuck = [] →
      brs = .next (putWave s c (Wave.regroup { c.w with slices := c.w.slices.zipIdx.map sl } c
        fun j => if taken j = [] then c.pc + 12 else target))) ∧
    (target.toNat % 4 ≠ 0 → goers ≠ [] →
      brs = .next (takeTrap s c ⟨6, 0, maskOf goers, word (2 * 2 ^ 56)⟩ c.pc)) ∧
    (target.toNat % 4 = 0 → joinPc.toNat % 4 ≠ 0 → pushers ≠ [] → brs = .next (takeTrap s c
      ⟨6, 0, maskOf pushers, word (2 * 2 ^ 56 + if stuck = [] then 0 else 2 ^ 8)⟩ c.pc)) ∧
    (target.toNat % 4 = 0 → joinPc.toNat % 4 = 0 ∨ pushers = [] → stuck ≠ [] →
      brs = .next (takeTrap s c ⟨15, 0, maskOf stuck, 0⟩ c.pc))) ∧
  (∀ (s : State) (c : Issuer), issuer s = some c →
    let join (len : Nat) : State :=
      let res (j : Nat) := joinStack c.pc (sliceAt c.w j).stack (sliceAt c.w j).amask
      let sl (e : Slice × Nat) : Slice :=
        if c.gang.slices.getLsbD e.2 then { e.1 with amask := (res e.2).1, stack := (res e.2).2.1 } else e.1
      putWave s c (Wave.regroup { c.w with slices := c.w.slices.zipIdx.map sl } c
        fun j => (res j).2.2.getD (c.pc + word len))
    exec .joinH s = .next (join 4) ∧ exec .joinW s = .next (join 8)) ∧
  (∀ (pc : Word) (e : StackEntry) (es : List StackEntry) (m : BitVec 4),
    joinStack pc [] m = (m, [], none) ∧
    (e.joinPc ≠ pc → joinStack pc (e :: es) m = (m, e :: es, none)) ∧
    (e.joinPc = pc → e.pend ≠ 0 →
      joinStack pc (e :: es) m = (e.pend, { e with pend := 0 } :: es, some e.pendPc)) ∧
    (e.joinPc = pc → e.pend = 0 → joinStack pc (e :: es) m = joinStack pc es e.saved))

/-- CALL and CALLI link in every active lane and move the whole gang to the target; RET sends each slice to the link of its
lowest active lane. A target that is not a multiple of 4 is Misaligned, origin 2, with nothing linked; for RET %tlanes
names the lanes of the slices whose target it is (R346). -/
def Obligations.Calls : Prop :=
  let calls (i : Instr) (d : VReg) (us : Issuer → List Use) (target : Issuer → Word) : Prop :=
    ∀ (s : State) (c : Issuer), issuer s = some c → allFree c c.all (.vw 0 d.val :: us c) = true →
      ((target c).toNat % 4 = 0 → exec i s = .next (putWave s c
        ((c.w.writeLanes d.val c.all fun _ => c.pc + word i.len).regroup c fun _ => target c))) ∧
      ((target c).toNat % 4 ≠ 0 → c.all ≠ [] →
        exec i s = .next (takeTrap s c ⟨6, 0, maskOf c.all, word (2 * 2 ^ 56)⟩ c.pc))
  (∀ (d : VReg) (k : BitVec 32), calls (.call d k) d (fun _ => []) fun c => c.pc + k.signExtend 64) ∧
  (∀ (d : VReg) (a : SReg) (b : SSrc), calls (.calli d a b) d (fun _ => .sr a :: useS b)
    fun c => c.w.readS a + c.w.srcS b) ∧
  (∀ (a : VReg) (s : State) (c : Issuer), issuer s = some c → allFree c c.all [.vw 1 a.val] = true →
    allFree c c.leads [.vr 1 a.val] = true →
    let link (j : Nat) : Word := c.w.readV a.val ((sliceLanes c.w j).headD (4 * j))
    let failed := ((slicesOf c.gang.slices).filter fun j => (link j).toNat % 4 != 0).flatMap (sliceLanes c.w)
    (failed = [] → exec (.ret a) s = .next (putWave s c (c.w.regroup c link))) ∧
    (failed ≠ [] → exec (.ret a) s = .next (takeTrap s c ⟨6, 0, maskOf failed, word (2 * 2 ^ 56)⟩ c.pc)))

/-- WAIT and a clause header go on where every counter is at or below its threshold, and wait otherwise (R66, R349).
HINT holds the gang until the hint expires, a pace of 0 ends at once, and the expiry brings the gang behind the
instruction (R351). -/
def Obligations.WaitsAndClauses : Prop :=
  (∀ (l st k m : Imm8) (s : State) (c : Issuer), issuer s = some c →
      let low (n : Nat) (thr : Imm8) : Prop := thr.val = 255 ∨ n ≤ thr.val
      let met : Prop := low c.w.lq.length l ∧ low c.w.sq.length st ∧ low c.w.cq.length k ∧ low c.w.mq m
      (met → exec (.wait l st k m) s = .next (retire s c 8 c.w) ∧
        ∀ (cls : ClauseClass) (len : Fin 16), ∃ t c', exec (.clause cls len l st k m) s = .next t ∧
          Retired c (.clause cls len l st k m) t ∧ issuerAt t c.ref = some c' ∧
          c'.gang.clause = some ⟨cls, len.val + 1⟩) ∧
      (¬ met → exec (.wait l st k m) s = .next (holdAt s c (.counters l.val st.val k.val m.val)) ∧
        ∀ (cls : ClauseClass) (len : Fin 16), exec (.clause cls len l st k m) s =
          .next (holdAt s c (.counters l.val st.val k.val m.val)))) ∧
  (∀ (s : State) (c : Issuer), issuer s = some c → exec (.hint .spin) s = .next (holdAt s c .hint)) ∧
  (∀ (a : SReg) (s : State) (c : Issuer), issuer s = some c → allFree c c.all [.sr a] = true →
    exec (.hint (.pace a)) s = .next (if c.w.readS a = 0 then retire s c 8 c.w else holdAt s c .hint)) ∧
  (∀ (gid wave slice : Nat) (s : State) (c : Issuer), issuerAt s ⟨gid, wave, slice⟩ = some c →
    c.gang.hold = .hint → ∃ t, exec (.hintExpiry gid wave slice) s = .next t ∧ Retired c (.hint .spin) t)

/-- BAR and ARRIVE (R352-R355): a mask that names a wave the group has not, differs from the mask of the generation or
leaves the wave out, or a gang that does not hold every live slice, is Sync Mask with the form and the barrier in
%tinfo. Otherwise the wave joins the arrived set; ARRIVE goes on, a BAR whose set is not complete waits, and the arrival
that completes the set frees the generation, where the gang of a BAR goes on with the others. -/
def Obligations.Barriers : Prop :=
  ∀ (n : Fin 4) (b : SSrc) (s : State) (c : Issuer) (bar : Barrier), issuer s = some c →
    allFree c c.all (useS b) = true → c.g.bars[n.val]? = some bar → c.g.waves.length ≤ 16 →
    let m := namedWaves c.g.waves.length ((c.w.srcS b).toNat % 65536)
    let good := c.whole = true ∧ m &&& ~~~(BitVec.ofNat 16 (2 ^ c.g.waves.length - 1)) = 0 ∧
      bar.fixed.getD m = m ∧ m.getLsbD c.ref.wave = true
    let sofar := bar.arrived ||| (1#16 <<< c.ref.wave)
    let gone := waveMask c.g.waves fun w => w.halted || w.ended
    (¬ good → c.all ≠ [] →
      exec (.bar n b) s = .next (takeTrap s c ⟨14, 0, maskOf c.all, word (2 ^ 62 + n.val * 2 ^ 60)⟩ c.pc) ∧
      exec (.arrive n b) s =
        .next (takeTrap s c ⟨14, 0, maskOf c.all, word (2 * 2 ^ 62 + n.val * 2 ^ 60)⟩ c.pc)) ∧
    (good → c.g.marked (gmBar n.val) = false →
      (∀ x ∈ c.w.gangs, ∀ k gen len, x.hold ≠ .barrier k gen len) → (∀ w ∈ c.g.waves, w.refilled = false) →
      (∃ t g, exec (.arrive n b) s = .next t ∧ Retired c (.arrive n b) t ∧ findGroup t c.ref.gid = some g ∧
        (m &&& ~~~(sofar ||| gone) ≠ 0 → g.bars[n.val]? = some ⟨some m, sofar, bar.gen⟩)) ∧
      (m &&& ~~~(sofar ||| gone) ≠ 0 → ∃ t c', exec (.bar n b) s = .next t ∧ issuerAt t c.ref = some c' ∧
        c'.gang.hold = .barrier n.val bar.gen (Instr.len (.bar n b)) ∧ c'.gang.pc = c.pc ∧
        c'.g.bars[n.val]? = some ⟨some m, sofar, bar.gen⟩) ∧
      (m &&& ~~~(sofar ||| gone) = 0 →
        ∃ t g, exec (.bar n b) s = .next t ∧ Retired c (.bar n b) t ∧ findGroup t c.ref.gid = some g ∧
          g.bars[n.val]? = some ⟨none, 0, bar.gen + 1⟩))

/-- REGANG (R347): a mask that leaves out a slice of the gang, or that differs in mask or place from the pending merge, is
Sync Mask. Otherwise the gang joins the merge; where slices are still missing it waits at the instruction, and when the
last of the named slices arrives they go on as one gang. -/
def Obligations.Regang : Prop :=
  ∀ (b : SSrc) (s : State) (c : Issuer), issuer s = some c → allFree c c.all (useS b) = true →
    let m := namedSlices ((c.w.srcS b).toNat % 256)
    let good := c.gang.slices &&& ~~~m = 0 ∧ ∀ p, c.w.merge = some p → p.mask = m ∧ p.addr = c.pc
    let here := ((c.w.merge.map Merge.arrived).getD 0) ||| c.gang.slices
    (¬ good → c.all ≠ [] →
      exec (.regang b) s = .next (takeTrap s c ⟨14, 0, maskOf c.all, 0⟩ c.pc)) ∧
    (good → m &&& ~~~(here ||| exitedSlices c.w) ≠ 0 → ∃ t c', exec (.regang b) s = .next t ∧
      issuerAt t c.ref = some c' ∧ c'.gang.hold = .regang (Instr.len (.regang b)) ∧ c'.gang.pc = c.pc ∧
      c'.w.merge = some ⟨m, c.pc, here⟩) ∧
    (good → c.gang.slices ≠ 0 → m &&& ~~~(here ||| exitedSlices c.w) = 0 →
      (∀ x ∈ c.w.gangs, x ≠ c.gang → x.slices &&& here ≠ 0 → x.hold = .regang (Instr.len (.regang b))) →
      (∀ x ∈ c.w.gangs, x ≠ c.gang → x.slices.getLsbD c.ref.slice = false) →
      ∃ t c', exec (.regang b) s = .next t ∧ issuerAt t c.ref = some c' ∧ c'.gang.slices = here ∧
        c'.gang.pc = c.pc + word (Instr.len (.regang b)) ∧ c'.gang.hold = .none ∧ c'.w.merge = none)

/-! ## Traps (R388-R393) -/

/-- Taking a trap (R391): the trapping gang goes to %tvec with every lane of its slices active, %tpc, %tcause, %tlanes
and %tinfo say what happened, the masks and stack depths are saved, and the other gangs of the wave stop. A trap while
traps are masked, and a trap of a wave whose %tvec is not enabled, halt the wave (R391, R393). -/
def Obligations.TrapEntry : Prop :=
  (∀ (code : Imm8) (s : State) (c : Issuer), issuer s = some c → c.w.halted = false → c.w.trap.tm = false →
      c.w.trap.tvec.getLsbD 0 = true → c.w.marked (mkSpec 3) = false → c.w.marked (mkSpec 4) = false →
      c.w.service = none → ∃ t c', exec (.trap code) s = .next t ∧ issuerAt t c.ref = some c' ∧
        c'.gang.pc = c.w.trap.tvec &&& 0x01FFFFFFFFFFFFFC ∧ c'.gang.hold = .none ∧ c'.gang.clause = none ∧
        c'.w.trap = { tvec := c.w.trap.tvec, tm := true, code := code.val, cause := 20,
                      tpc := (c.pc + 8) &&& 0x01FFFFFFFFFFFFFC, tlanes := maskOf c.all, tinfo := 0 } ∧
        (∀ j, c.gang.slices.getLsbD j = true → j < c.w.slices.length → sliceAt c'.w j =
          { sliceAt c.w j with amask := 15, tsaved := (sliceAt c.w j).amask, tdepth := (sliceAt c.w j).stack.length }) ∧
        (∀ x ∈ c'.w.gangs, x.slices ≠ c.gang.slices → x.parked = true) ∧
        (∀ r l, c'.w.readV r l = c.w.readV r l) ∧ (∀ r, c'.w.readS r = c.w.readS r)) ∧
  (∀ (code : Imm8) (s : State) (c : Issuer), issuer s = some c →
      c.w.trap.tm = true ∨ c.w.trap.tvec.getLsbD 0 = false → c.w.service = none →
      ∃ t w, exec (.trap code) s = .next t ∧ findWave t c.ref.gid c.ref.wave = some w ∧ w.halted = true)

/-- TRET goes back to %tpc with the masks that the entry saved, traps are enabled again and the other gangs go on; with a
stack deeper than at entry the wave is halted (R392). -/
def Obligations.TrapReturn : Prop :=
  (∀ (s : State) (c : Issuer), issuer s = some c → c.w.trap.tm = true →
    (∀ j, c.gang.slices.getLsbD j = true → (sliceAt c.w j).stack.length ≤ (sliceAt c.w j).tdepth) →
    allFree c c.all [.spec 4, .spec 5] = true → ∃ t c', exec .tretH s = .next t ∧ exec .tretW s = .next t ∧
      issuerAt t c.ref = some c' ∧ c'.gang.pc = c.w.trap.tpc ∧ c'.gang.hold = .none ∧
      c'.w.trap = { c.w.trap with tm := false } ∧
      (∀ j, c.gang.slices.getLsbD j = true → j < c.w.slices.length →
        (sliceAt c'.w j).amask = (sliceAt c.w j).tsaved ∧ (sliceAt c'.w j).stack = (sliceAt c.w j).stack ∧
        (sliceAt c'.w j).exited = (sliceAt c.w j).exited) ∧
      (∀ x ∈ c'.w.gangs, x.slices ≠ c.gang.slices → x.parked = false)) ∧
  (∀ (s : State) (c : Issuer) (j : Nat), issuer s = some c → c.w.trap.tm = true → c.all ≠ [] → j < 8 →
    c.gang.slices.getLsbD j = true → (sliceAt c.w j).tdepth < (sliceAt c.w j).stack.length →
    ∃ t w, exec .tretH s = .next t ∧ exec .tretW s = .next t ∧ findWave t c.ref.gid c.ref.wave = some w ∧
      w.halted = true)

/-- Illegal Encoding (R60, R61, R388): a word with LEN 0b11 fails check 1 and an opcode that R62 does not assign check 2;
the words of SADD, with its guard fixed, and of VADD fail checks 3 to 9 in order, by guard, form, B of form L, T, M, F and
operands; a gang whose next word fails a check takes the trap with that check's number, and an instruction that the clause
it lies in does not admit fails check 10. A fetch that fails takes the cause it failed with (R54, R388). MTS to a register
of the trap state, and TRET, with traps unmasked, are Privileged Instruction, cause 2 (R360, R362). -/
def Obligations.IllegalAndMaskedTraps : Prop :=
  (∀ (x : BitVec 32) (s : State) (c : Issuer), issuer s = some c →
    (x.toNat % 4 = 3 → exec (.reservedOpcode x) s =
      .next (takeTrap s c ⟨1, 0, maskOf c.all, word (2 ^ 56)⟩ c.pc)) ∧
    (x.toNat % 4 ≠ 3 → opcAssigned (x.toNat / 4 % 256) = false → exec (.reservedOpcode x) s =
      .next (takeTrap s c ⟨1, 0, maskOf c.all, word (2 * 2 ^ 56)⟩ c.pc))) ∧
  (∀ (x : Fields) (scalar : Bool), x.opc = (if scalar then 0x20 else 0x40) →
    let s64 (n : Nat) : Bool := n < 64 || n == 255
    let operands : Bool := if scalar then s64 x.d && s64 x.a && (x.form == .l || s64 x.b) && x.c == 0 else x.c == 0
    let chk : Option Nat :=
      if scalar = true ∧ x.g ≠ 7 ∨ x.g = 15 then some 3
      else if x.form = .h then some 4
      else if x.form = .l ∧ x.b ≠ 255 then some 5
      else if x.t = 0 ∨ 8 < x.t then some 6
      else if x.m ≠ 0 ∧ x.m ≠ 8 then some 7
      else if x.f ≠ 0 then some 8
      else if operands = false ∨ (x.form = .l ∧ litOk (tyOf x.t) (BitVec.ofNat 32 x.k) = false) then some 9
      else none
    (∀ k, chk = some k → decodeFields x = .illegal k) ∧
    (chk = none → ∃ i, decodeFields x = .ok i x.form.bytes)) ∧
  (∀ (s u v : State) (r : GangRef) (d c : Issuer) (f : Fetched) (k : Nat), s.frozen = false → commonDue s = none →
    (∃ rest, s.agenda = .issue r :: rest ∧ u = { s with agenda := rest, ticks := s.ticks + 1 }) ∨
      (s.agenda = [] ∧ nextMove s = .issue r ∧ u = { s with ticks := s.ticks + 1 }) →
    issuerAt u r = some d → issuable u d = true → gangMarked d = false →
    issuerAt (freshFar u d) r = some c → fetchInstr (freshFar u d) c = (v, f) →
    let z := firstIssue v c f
    (f = .illegal k ∨ (k = 10 ∧ ∃ i opc, f = .instr i opc ∧ isReserved i = false ∧
      clauseRefuses c.gang opc = true)) →
    ∃ e, issuer (issueState z r) = some e ∧ e.gang.pc = c.gang.pc ∧
      step s = .next (takeTrap (issueState z r) e ⟨1, 0, maskOf e.all, word (k * 2 ^ 56)⟩ e.pc)) ∧
  (∀ (cls : ClauseClass) (g : Gang) (left opc : Nat), g.clause = some ⟨cls, left⟩ →
    (clauseRefuses g opc = false ↔ opc = 0 ∨ (0x20 ≤ opc ∧ opc ≤ 0x37) ∨ match cls with
      | .vector => (0x40 ≤ opc ∧ opc ≤ 0x78) ∨ (0x80 ≤ opc ∧ opc ≤ 0x99)
      | .memory => (0xA0 ≤ opc ∧ opc ≤ 0xAE) ∨ (0xB0 ≤ opc ∧ opc ≤ 0xB2)
      | .matrix => 0xD0 ≤ opc ∧ opc ≤ 0xDD
      | .coord => 0xC0 ≤ opc ∧ opc ≤ 0xC8)) ∧
  (∀ (kind level : Nat) (va : Word) (s : State) (c : Issuer), issuer s = some c →
    kind ∈ [7, 8, 9] → exec (.fetchFault kind level va) s = .next (takeTrap s c
      ⟨kind, 0, maskOf c.all,
        word (level * 2 ^ 61 + AKind.fetch.code * 2 ^ 59 + va.toNat / 2 ^ 12 % 2 ^ 45 * 2 ^ 14)⟩ c.pc)) ∧
  (∀ (source : Nat) (va : Word) (s : State) (c : Issuer), issuer s = some c →
    exec (.fetchFault 18 source va) s = .next (takeTrap s c ⟨18, 0, maskOf c.all, word (source * 2 ^ 60)⟩ c.pc)) ∧
  (∀ (r : SpecReg) (b : SSrc) (s : State) (c : Issuer), issuer s = some c →
    allFree c c.all (useS b) = true → c.all ≠ [] → r ∈ [SpecReg.tcause, .tpc, .tlanes, .tinfo] →
    c.w.trap.tm = false → c.w.marked (mkSpec 4) = false →
    exec (.mts (.wave r b)) s = .next (takeTrap s c ⟨2, 0, maskOf c.all, 0⟩ c.pc)) ∧
  (∀ (s : State) (c : Issuer), issuer s = some c → c.w.trap.tm = false → c.w.marked (mkSpec 4) = false → c.all ≠ [] →
    exec .tretH s = .next (takeTrap s c ⟨2, 0, maskOf c.all, 0⟩ c.pc) ∧
    exec .tretW s = .next (takeTrap s c ⟨2, 0, maskOf c.all, 0⟩ c.pc))

/-! ## Waves, groups and queues seen by instructions (R356-R359, R381, R384) -/

/-- EXIT retires the slices of the gang (R359); where a divergence stack is not empty it is Divergence Stack, origin 1, and
retires nothing (R345). YIELD goes on; where a queue of strictly lower priority number waits that no core can take from,
the group is stopped so that it makes room (R350, R383). ACQUIRE of a group
that holds its allotment goes on; otherwise the gang waits and the group takes its place in line, which it keeps (R356,
R379). RELEASE gives tiles and scratchpad back once nothing uses them (R357). -/
def Obligations.WavesAndGroups : Prop :=
  (∀ (s : State) (c : Issuer), issuer s = some c →
    (∀ j, c.gang.slices.getLsbD j = true → (sliceAt c.w j).stack = []) →
    ∃ t w, exec .exitH s = .next t ∧ exec .exitW s = .next t ∧ findWave t c.ref.gid c.ref.wave = some w ∧
      (∀ j, c.gang.slices.getLsbD j = true → j < c.w.slices.length → (sliceAt w j).exited = true) ∧
      (∀ r l, w.readV r l = c.w.readV r l)) ∧
  (∀ (s : State) (c : Issuer) (j : Nat), issuer s = some c → c.all ≠ [] → j < 8 →
    c.gang.slices.getLsbD j = true → (sliceAt c.w j).stack ≠ [] →
    exec .exitH s = .next (takeTrap s c ⟨15, 0, maskOf c.all, word (2 ^ 56)⟩ c.pc) ∧
    exec .exitW s = .next (takeTrap s c ⟨15, 0, maskOf c.all, word (2 ^ 56)⟩ c.pc)) ∧
  (∀ (s : State) (c : Issuer), issuer s = some c →
    let done (len : Nat) : State :=
      if yieldTaken s c.g then stopGroup (retire s c len c.w) .yielded false c.ref.gid else retire s c len c.w
    exec .yieldH s = .next (done 4) ∧ exec .yieldW s = .next (done 8)) ∧
  (∀ (s : State) (c : Issuer), issuer s = some c →
    (c.g.acquired = true → exec .acquireH s = .next (retire s c 4 c.w) ∧
      exec .acquireW s = .next (retire s c 8 c.w)) ∧
    (c.g.acquired = false → ∃ t c', exec .acquireH s = .next t ∧ exec .acquireW s = .next t ∧
      issuerAt t c.ref = some c' ∧ c'.gang.hold = .acquire ∧ c'.gang.pc = c.pc ∧
      c'.g.order = some (c.g.order.getD s.nextReq))) ∧
  (∀ (tiles spad : Bool) (s : State) (c : Issuer), issuer s = some c → c.g.acquired = true →
    (releaseClear s c.g tiles spad = true → ∃ t c', exec (.release tiles spad) s = .next t ∧
      Retired c (.release tiles spad) t ∧ issuerAt t c.ref = some c' ∧
      (tiles = true → c'.g.tregs = 0 ∧ c'.g.wbslots = 0) ∧ (spad = true → c'.g.tiles = 4)) ∧
    (releaseClear s c.g tiles spad = false →
      exec (.release tiles spad) s = .next (holdAt s c (.release tiles spad))))

/-- SPAWN appends its record to the queue it names: the ring gains one spawned record, and behind those that stood in it stand
the eight words of s(A) to s(A+7), each in 8 little-endian bytes (R358, R369, R375). A full queue answers 1 and a queue
number above 7 answers 3, with nothing appended, and the predicate says whether the record was taken (R358). Bytes of the
code region and words of the table region stand apart (R105, R406). -/
def Obligations.Spawn : Prop :=
  ∀ (d : SReg) (p : PReg) (a : Fin 57) (b : SSrc) (s : State) (c : Issuer), issuer s = some c →
    allFree c c.all (sendUses d p a b) = true →
    let n := (c.w.srcS b).toNat
    let rec8 := cmdWords c.w a
    let full := (queueOf s n (recPrio rec8)).full
    let code := if 8 ≤ n then 3 else if full then 1 else 0
    ∃ t w, exec (.spawn d p a b) s = .next t ∧ Retired c (.spawn d p a b) t ∧
      findWave t c.ref.gid c.ref.wave = some w ∧ (d ≠ .zero → w.readS d = word code) ∧
      (p.val ≠ 7 → w.readP p.val = if code = 0 then BitVec.allOnes 32 else 0) ∧
      (queueOf t n (recPrio rec8)).count = (queueOf s n (recPrio rec8)).count + (if code = 0 then 1 else 0) ∧
      (code ≠ 0 → t.queues = s.queues ∧ t.mem = s.mem) ∧
      (code = 0 → let q := queueOf s n (recPrio rec8)
        queueOf t n (recPrio rec8) = { q with spawned := q.spawned ++ [true] } ∧
        (s.regs.localGib ≤ 64 → leavesBytes s t (atRun (q.slotPa q.count)
          ((List.range 8).flatMap fun k => wordBytes (c.w.s.get 0 (a.val + k))))))

/-! ## Loads, stores and atomics (R119-R146, R311-R313) -/

/-- LD, LDS and LDB in any space: with room in the counter and in the retry buffers, every access resolved and nothing
uncorrectable in the way, the instruction retires, counts on L, and its destination is pending until the data has come
(R127, R128, R134-R136). What LDB reads beyond the package has been answered before (log entry 12). -/
def Obligations.LoadsComplete : Prop :=
  (∀ (o : LaneMem) (s : State) (c : Issuer), issuer s = some c → allFree c c.all [.pr o.g.p.val] = true →
    allFree c (c.lanes o.g) (.vw 0 o.r.val :: .vr 1 o.a.val :: useS o.b) = true → c.w.cntL < 255 →
    let as := (c.lanes o.g).map fun l => (⟨l, (c.w.readV o.a.val l + c.w.srcS o.b).toNat, o.t.width / 8⟩ : Acc)
    let x := resolveAll s c o.sp .read as
    resolves s c o.sp .read as = true → readConds x = [] → commonsIdle s c = true →
    roomBeyond x.s (x.oks.flatMap Prod.snd) = true → ∃ t w, exec (.ld o) s = .next t ∧ Retired c (.ld o) t ∧
      findWave t c.ref.gid c.ref.wave = some w ∧ w.cntL = c.w.cntL + 1 ∧
      ∀ l ∈ c.lanes o.g, o.r.val ≠ 255 → w.pv.get false (8 * o.r.val + l / 4) = true) ∧
  (∀ (o : WaveMem) (s : State) (c : Issuer), issuer s = some c →
    allFree c c.all (.sw o.r :: .sr o.a :: useS o.b) = true → c.w.cntL < 255 →
    let as : List Acc := [⟨c.all.headD 0, (c.w.readS o.a + c.w.srcS o.b).toNat, o.t.width / 8⟩]
    let x := resolveAll s c o.sp .read as
    c.all ≠ [] → resolves s c o.sp .read as = true → readConds x = [] → commonsIdle s c = true →
    roomBeyond x.s (x.oks.flatMap Prod.snd) = true → ∃ t w, exec (.lds o) s = .next t ∧
      Retired c (.lds o) t ∧ findWave t c.ref.gid c.ref.wave = some w ∧ w.cntL = c.w.cntL + 1 ∧
      ∀ n, o.r = .s n → w.ps.get false n.val = true) ∧
  (∀ (o : BlockMem) (s : State) (c : Issuer), issuer s = some c → allFree c c.all [.pr o.g.p.val] = true →
    allFree c (c.lanes o.g) ([.sr o.a, .sr o.c, .vw 0 o.r.val] ++ useS o.b) = true → c.w.cntL < 255 →
    (∀ l ∈ c.lanes o.g, ∀ m ∈ lanesAt (l / 4), m ∈ c.lanes o.g) →
    blockAligned o.t (waveAddr c o.a o.b) (c.w.readS o.c).toNat = true →
    let accs := blockAccs o.t (waveAddr c o.a o.b) (fullSlices (c.lanes o.g))
    let x := resolveAll s c o.sp .read (accs.map Prod.fst)
    resolves s c o.sp .read (accs.map Prod.fst) = true → commonsIdle s c = true →
    farHeldBy (ldbKeys o.t) c x = true → (∀ e ∈ x.oks, directConds x.s c true e.1.lane e.2 = [] ∧
      ∀ n, desyncConds x.s c.w.far o.t true e.1.lane ((c.w.readS o.c).toNat + n) e.2 = [] ∨ (e.1, n) ∉ accs) →
    ∃ t w, exec (.ldb o) s = .next t ∧ Retired c (.ldb o) t ∧ findWave t c.ref.gid c.ref.wave = some w ∧
      w.cntL = c.w.cntL + 1 ∧
      ∀ l ∈ c.lanes o.g, o.r.val ≠ 255 → w.pv.get false (8 * o.r.val + l / 4) = true)

/-- ST, STS and STB in any space retire and count on S where their accesses resolve (R127, R134, R137). -/
def Obligations.StoresComplete : Prop :=
  (∀ (o : LaneMem) (s : State) (c : Issuer), issuer s = some c → allFree c c.all [.pr o.g.p.val] = true →
    allFree c (c.lanes o.g) (.vr 3 o.r.val :: .vr 1 o.a.val :: useS o.b) = true → c.w.cntS < 255 →
    let as := (c.lanes o.g).map fun l => (⟨l, (c.w.readV o.a.val l + c.w.srcS o.b).toNat, o.t.width / 8⟩ : Acc)
    let x := resolveAll s c o.sp .write as
    resolves s c o.sp .write as = true → writeConds x = [] → hostClear c x = true →
    roomBeyond x.s (x.oks.flatMap Prod.snd) = true → ∃ t w, exec (.st o) s = .next t ∧ Retired c (.st o) t ∧
      findWave t c.ref.gid c.ref.wave = some w ∧ w.cntS = c.w.cntS + 1) ∧
  (∀ (o : WaveMem) (s : State) (c : Issuer), issuer s = some c →
    allFree c c.all (.sr o.r :: .sr o.a :: useS o.b) = true → c.w.cntS < 255 →
    let as : List Acc := [⟨c.all.headD 0, (c.w.readS o.a + c.w.srcS o.b).toNat, o.t.width / 8⟩]
    let x := resolveAll s c o.sp .write as
    c.all ≠ [] → resolves s c o.sp .write as = true → writeConds x = [] → hostClear c x = true →
    roomBeyond x.s (x.oks.flatMap Prod.snd) = true → ∃ t w, exec (.sts o) s = .next t ∧
      Retired c (.sts o) t ∧ findWave t c.ref.gid c.ref.wave = some w ∧ w.cntS = c.w.cntS + 1) ∧
  (∀ (o : BlockMem) (s : State) (c : Issuer), issuer s = some c → allFree c c.all [.pr o.g.p.val] = true →
    allFree c (c.lanes o.g) ([.sr o.a, .sr o.c, .vr 0 o.r.val] ++
      (if o.t = .none then [] else scaleUses o.t o.r.val) ++ useS o.b) = true → c.w.cntS < 255 → (∀ l ∈ c.lanes o.g, ∀ m ∈ lanesAt (l / 4), m ∈ c.lanes o.g) →
    blockAligned o.t (waveAddr c o.a o.b) (c.w.readS o.c).toNat = true →
    let accs := blockAccs o.t (waveAddr c o.a o.b) (fullSlices (c.lanes o.g))
    let x := resolveAll s c o.sp .write (accs.map Prod.fst)
    resolves s c o.sp .write (accs.map Prod.fst) = true → writeConds x = [] → hostClear c x = true →
    roomBeyond x.s (x.oks.flatMap Prod.snd) = true →
    (∀ e ∈ x.oks, ∀ n, desyncConds x.s [] o.t false e.1.lane n e.2 = []) →
    ∃ t w, exec (.stb o) s = .next t ∧ Retired c (.stb o) t ∧ findWave t c.ref.gid c.ref.wave = some w ∧
      w.cntS = c.w.cntS + 1)

/-- What the stores leave in memory (R119, R120, R131, R134, R137-R139, R305): ST, STS and STB their registers' bytes at
the addresses that their accesses resolve to, the last lane's where several meet; STS to a common register one queued
write; ATOM and RED, lane after lane, the value that the operation makes of the one before. An STS to the scratchpad is
read back at its offset. Bytes of the code region and words of the table region stand apart (R105, R406), as do accesses
beyond the package, which are requests. That ATOM and RED leave the new value of a common register as soon as they are
executed is the model's choice (log entry 60), and so are the cycle that a queued write bears and the order of those of one
cycle (log entries 39 and 59). -/
def Obligations.StoresReadBack : Prop :=
  let near (x : AccSum) : Prop := ∀ e ∈ x.oks, ∀ p ∈ e.2, isRemote x.s p = false ∧ isCommon p = false
  let data (x : AccSum) (f : Acc → List Byte) : List (Nat × Byte) := x.oks.flatMap fun e => writesOf e.2 (f e.1)
  let folded (c : Issuer) (x : AccSum) (t : Ty) (op : AtomOp) (v cmp : Nat → Nat) (u : State) : Prop :=
    let n := t.width / 8
    let first := touch x.s c true (x.oks.flatMap Prod.snd)
    ∀ e ∈ x.oks, ∀ p ∈ e.2, isRemote x.s p = false → (∀ i, i < n → openByte x.s (p.tr.pa + i)) →
      readRun u p.tr.pa n = bytesOfNat n ((x.oks.filter fun y => y.2.any fun q =>
        resolvePa x.s q.tr.pa == resolvePa x.s p.tr.pa).foldl (fun old y =>
          (atomNew t op old (v y.1.lane) (cmp y.1.lane)).1 % 2 ^ (8 * n)) (natOfBytes (readRun first p.tr.pa n)))
  (∀ (o : LaneMem) (s : State) (c : Issuer), issuer s = some c → s.regs.localGib ≤ 64 →
    allFree c c.all [.pr o.g.p.val] = true →
    allFree c (c.lanes o.g) (.vr 3 o.r.val :: .vr 1 o.a.val :: useS o.b) = true → c.w.cntS < 255 →
    let as := (c.lanes o.g).map fun l => (⟨l, (c.w.readV o.a.val l + c.w.srcS o.b).toNat, o.t.width / 8⟩ : Acc)
    let x := resolveAll s c o.sp .write as
    resolves s c o.sp .write as = true → near x → ∃ t, exec (.st o) s = .next t ∧
      leavesBytes s t (data x fun a => bytesOfNat (o.t.width / 8) (c.w.readV o.r.val a.lane).toNat)) ∧
  (∀ (o : WaveMem) (s : State) (c : Issuer), issuer s = some c →
    allFree c c.all (.sr o.r :: .sr o.a :: useS o.b) = true → c.w.cntS < 255 → c.all ≠ [] →
    let off := (c.w.readS o.a + c.w.srcS o.b).toNat
    let n := o.t.width / 8
    let as : List Acc := [⟨c.all.headD 0, off, n⟩]
    let x := resolveAll s c o.sp .write as
    (s.regs.localGib ≤ 64 → resolves s c o.sp .write as = true → near x → ∃ t, exec (.sts o) s = .next t ∧
      leavesBytes s t (data x fun _ => bytesOfNat n (c.w.readS o.r).toNat)) ∧
    (o.sp = .l → c.g.die < 8 → c.g.phys < 64 → c.g.spadBase + c.g.tiles ≤ 512 → off + n ≤ 4096 * c.g.tiles →
      (∀ k, ownedByEngine s c.g.die c.g.phys k = false ∧ ownerFails s c.g.die c.g.phys k = false) →
      (∀ i, i < n → inCode s (spadPa c.g off + i) = false ∧ inTables s (spadPa c.g off + i) = false) →
      ∃ t, exec (.sts o) s = .next t ∧
        readRun t (spadPa c.g off) n = bytesOfNat n (c.w.readS o.r).toNat) ∧
    (o.sp = .c → n = 8 → c.g.die < 8 → c.g.phys < 64 → c.g.cset < 32 → c.g.common ≤ 64 → off % 8 = 0 →
      off + 8 ≤ 8 * c.g.common → ∃ t, exec (.sts o) s = .next t ∧
        t.commons = s.commons ++ [⟨c.g.die, c.g.phys, winCommon + 512 * c.g.cset + off, c.w.readS o.r, c.ref.gid,
          c.ref.wave, c.w.slot, issueCycle s⟩])) ∧
  (∀ (o : BlockMem) (s : State) (c : Issuer), issuer s = some c → s.regs.localGib ≤ 64 →
    allFree c c.all [.pr o.g.p.val] = true →
    allFree c (c.lanes o.g) ([.sr o.a, .sr o.c, .vr 0 o.r.val] ++
      (if o.t = .none then [] else scaleUses o.t o.r.val) ++ useS o.b) = true → c.w.cntS < 255 →
    (∀ l ∈ c.lanes o.g, ∀ m ∈ lanesAt (l / 4), m ∈ c.lanes o.g) →
    blockAligned o.t (waveAddr c o.a o.b) (c.w.readS o.c).toNat = true →
    let accs := blockAccs o.t (waveAddr c o.a o.b) (fullSlices (c.lanes o.g))
    let block (a : Acc) : Nat := ((accs.find? fun y => y.1 == a).map Prod.snd).getD 0 % o.t.blocks
    let x := resolveAll s c o.sp .write (accs.map Prod.fst)
    resolves s c o.sp .write (accs.map Prod.fst) = true → near x →
    ∃ t, exec (.stb o) s = .next t ∧ leavesBytes s t (data x fun a =>
      if o.t = .none then (List.range 32).map fun i => BitVec.ofNat 8 (sliceByte c.w o.r.val (a.lane / 4) i)
      else storeBlockBytes c.w o.t o.r.val (a.lane / 4) (block a))) ∧
  (∀ (o : AtomMem) (s : State) (c : Issuer), issuer s = some c → s.regs.localGib ≤ 64 →
    allFree c c.all [.pr o.g.p.val] = true →
    allFree c (c.lanes o.g) ([.vw 0 o.d.val, .vr 1 o.a.val, .vr 3 o.c.val] ++
      (if o.op = .cas then [.vr 3 (o.c.val + 1)] else []) ++ atomFf o.t ++ useS o.b) = true → c.w.cntL < 255 →
    let as := (c.lanes o.g).map fun l => (⟨l, (c.w.readV o.a.val l + c.w.srcS o.b).toNat, o.t.width / 8⟩ : Acc)
    let x := resolveAll s c o.sp .rmw as
    let el (r l : Nat) : Nat := (c.w.readV r l).toNat % 2 ^ o.t.width
    (∀ k ∈ as, k.addr % (o.t.width / 8) = 0) → resolves s c o.sp .rmw as = true →
    atomConds o.op o.t false x = [] → commonsIdle s c = true →
    roomBeyond x.s (x.oks.flatMap Prod.snd) = true → ∃ t, exec (.atom o) s = .next t ∧
      folded c x o.t o.op (el o.c.val) (el (o.c.val + 1)) t) ∧
  (∀ (o : RedMem) (s : State) (c : Issuer), issuer s = some c → s.regs.localGib ≤ 64 →
    allFree c c.all [.pr o.g.p.val] = true →
    allFree c (c.lanes o.g) ([.vr 1 o.a.val, .vr 3 o.c.val] ++ atomFf o.t ++ useS o.b) = true → c.w.cntS < 255 →
    let as := (c.lanes o.g).map fun l => (⟨l, (c.w.readV o.a.val l + c.w.srcS o.b).toNat, o.t.width / 8⟩ : Acc)
    let x := resolveAll s c o.sp .rmw as
    (∀ k ∈ as, k.addr % (o.t.width / 8) = 0) → resolves s c o.sp .rmw as = true →
    atomConds o.op o.t true x = [] → commonsIdle s c = true →
    roomBeyond x.s (x.oks.flatMap Prod.snd) = true → ∃ t, exec (.red o) s = .next t ∧
      folded c x o.t o.op (fun l => (c.w.readV o.c.val l).toNat % 2 ^ o.t.width) (fun _ => 0) t)

/-- A load, a prefetch and a tile load change no byte of memory, but that a translation may set A in a page-table entry
(R107); a store, an atomic, a cursor save and a tile store change no byte beside those that their addresses name, as the
address operands give them, and the A and D bits of page-table entries; a native block store may also zero the lines that
its blocks lie on, where those were poisoned (R92); they change no vector, scalar or predicate register of their wave until the data of a load comes
(R127): whatever the instruction ends in. -/
def Obligations.MemoryFrames : Prop :=
  (∀ (o : LaneMem) (s t : State) (c : Issuer), issuer s = some c → exec (.ld o) s = .next t →
    ∀ a, keptByte s t c.g.die a) ∧
  (∀ (o : WaveMem) (s t : State) (c : Issuer), issuer s = some c → exec (.lds o) s = .next t →
    ∀ a, keptByte s t c.g.die a) ∧
  (∀ (o : BlockMem) (s t : State) (c : Issuer), issuer s = some c → exec (.ldb o) s = .next t →
    ∀ a, keptByte s t c.g.die a) ∧
  (∀ (d : SReg) (n : Imm8) (s t : State) (c : Issuer), issuer s = some c → exec (.sarg d n) s = .next t →
    ∀ a, keptByte s t c.g.die a) ∧
  (∀ (d : QReg) (a : SReg) (b : SSrc) (sp : Space) (s t : State) (c : Issuer), issuer s = some c → exec (.cload d a b sp) s = .next t →
    ∀ a, keptByte s t c.g.die a) ∧
  (∀ (d : TReg) (a : SReg) (b : SSrc) (ty : Ty) (sp : Space) (s t : State) (c : Issuer), issuer s = some c → exec (.mload d a b ty sp) s = .next t →
    ∀ a, keptByte s t c.g.die a) ∧
  (∀ (a b : SReg) (ty : Ty) (slot : Fin 8) (s t : State) (c : Issuer), issuer s = some c → exec (.wbload a b ty slot) s = .next t →
    ∀ a, keptByte s t c.g.die a) ∧
  (∀ (g : Guard) (a : VReg) (b : SSrc) (l2 : Bool) (s t : State) (c : Issuer), issuer s = some c → exec (.pref g a b l2) s = .next t →
    ∀ a, keptByte s t c.g.die a) ∧
  (∀ (o : AtomMem) (s t : State) (c : Issuer), issuer s = some c → exec (.atom o) s = .next t →
    let as := (c.lanes o.g).map fun l => (⟨l, (c.w.readV o.a.val l + c.w.srcS o.b).toNat, o.t.width / 8⟩ : Acc)
    ∀ a, ¬ storedAt s ((resolveAll s c o.sp .rmw as).oks.flatMap Prod.snd) a →
      keptByte s t c.g.die a) ∧
  (∀ (o : RedMem) (s t : State) (c : Issuer), issuer s = some c → exec (.red o) s = .next t →
    let as := (c.lanes o.g).map fun l => (⟨l, (c.w.readV o.a.val l + c.w.srcS o.b).toNat, o.t.width / 8⟩ : Acc)
    ∀ a, ¬ storedAt s ((resolveAll s c o.sp .rmw as).oks.flatMap Prod.snd) a →
      keptByte s t c.g.die a) ∧
  (∀ (o : BlockMem) (s t : State) (c : Issuer), issuer s = some c → exec (.stb o) s = .next t →
    let as := (blockAccs o.t (waveAddr c o.a o.b) (fullSlices (c.lanes o.g))).map Prod.fst
    let ps := (resolveAll s c o.sp .write as).oks.flatMap Prod.snd
    ∀ a, ¬ storedAt s ps a → keptByte s t c.g.die a ∨ (o.t ≠ .none ∧ readPa t a = 0 ∧
      ∃ b ∈ pasOf ps, (lineAt s b).poison = true ∧
        ∃ i, i < 128 ∧ placeOf s (resolvePa s a) = placeOf s (resolvePa s b / 128 * 128 + i))) ∧
  (∀ (a : SReg) (b : SSrc) (k : QReg) (sp : Space) (s t : State) (c : Issuer), issuer s = some c →
    exec (.csave a b k sp) s = .next t →
    let as : List Acc := [⟨c.all.headD 0, (c.w.readS a + c.w.srcS b).toNat, 32⟩]
    ∀ a, ¬ storedAt s ((resolveAll s c sp .write as).oks.flatMap Prod.snd) a →
      keptByte s t c.g.die a) ∧
  (∀ (a : SReg) (b : SSrc) (m : TReg) (ty : Ty) (sp : Space) (rnd : Rnd) (s t : State) (c : Issuer),
    issuer s = some c → exec (.mstore a b m ty sp rnd) s = .next t →
    let as := tileRows c a (tilePitch c b (if ty = .n64 ∨ ty = .i64 then 512 else 256)) (64 * (ty.width / 8))
    ∀ a, ¬ storedAt s ((resolveAll s c sp .write as).oks.flatMap Prod.snd) a →
      keptByte s t c.g.die a) ∧
  (∀ (o : LaneMem) (s t : State) (c : Issuer), issuer s = some c → exec (.st o) s = .next t →
    let as := (c.lanes o.g).map fun l => (⟨l, (c.w.readV o.a.val l + c.w.srcS o.b).toNat, o.t.width / 8⟩ : Acc)
    ∀ a, ¬ storedAt s ((resolveAll s c o.sp .write as).oks.flatMap Prod.snd) a →
      keptByte s t c.g.die a) ∧
  (∀ (o : WaveMem) (s t : State) (c : Issuer), issuer s = some c → exec (.sts o) s = .next t →
    let as : List Acc := [⟨c.all.headD 0, (c.w.readS o.a + c.w.srcS o.b).toNat, o.t.width / 8⟩]
    ∀ a, ¬ storedAt s ((resolveAll s c o.sp .write as).oks.flatMap Prod.snd) a →
      keptByte s t c.g.die a) ∧
  (∀ (o : LaneMem) (s t : State) (c : Issuer), issuer s = some c →
    exec (.ld o) s = .next t ∨ exec (.st o) s = .next t →
    ∃ w, findWave t c.ref.gid c.ref.wave = some w ∧ (∀ r l, w.readV r l = c.w.readV r l) ∧
      (∀ r, w.readS r = c.w.readS r) ∧ (∀ p, w.readP p = c.w.readP p)) ∧
  (∀ (o : WaveMem) (s t : State) (c : Issuer), issuer s = some c →
    exec (.lds o) s = .next t ∨ exec (.sts o) s = .next t →
    ∃ w, findWave t c.ref.gid c.ref.wave = some w ∧ (∀ r l, w.readV r l = c.w.readV r l) ∧
      (∀ r, w.readS r = c.w.readS r) ∧ (∀ p, w.readP p = c.w.readP p)) ∧
  (∀ (x : AtomMem) (y : RedMem) (o : BlockMem) (m : TReg) (a : SReg) (b : SSrc) (k : QReg) (ty : Ty) (sp : Space) (rnd : Rnd)
    (s t : State) (c : Issuer), issuer s = some c →
    ∀ i ∈ [Instr.atom x, .red y, .ldb o, .stb o, .csave a b k sp, .mload m a b ty sp, .mstore a b m ty sp rnd],
      exec i s = .next t → ∃ w, findWave t c.ref.gid c.ref.wave = some w ∧ (∀ r l, w.readV r l = c.w.readV r l) ∧
        (∀ r, w.readS r = c.w.readS r) ∧ ∀ p, w.readP p = c.w.readP p)

/-- The data of the oldest load enters its registers, extended as the type says, and its pending bits clear; the oldest
store leaves the count (R127, R128, R134). -/
def Obligations.CountedCompletions : Prop :=
  (∀ (gid wave : Nat) (s : State) (w : Wave) (e : LEntry) (rest : List LEntry),
    findWave s gid wave = some w → w.lq = e :: rest → (∀ x ∈ e.elems, x.waits = []) →
    exec (.lCountedCompletion gid wave) s = .next
      (let s' := modWave s gid wave fun w => e.retire { w with lq := rest }
       if e.bad = [] then sweep s' gid else haltAndSweep s' gid wave 18 0)) ∧
  (∀ (w : Wave) (r l : Nat) (t : Ty) (bs : List Byte) (pc : Word) (pv : List Nat),
    r < 255 → l < 32 →
    let e := LEntry.plain [⟨.v r l, t, l, bs, []⟩] pv pc
    (e.retire w).readV r l = extendTy t (natOfBytes bs) ∧ ∀ k ∈ pv, (e.retire w).pv.get false k = false) ∧
  (∀ (gid wave : Nat) (s : State) (w : Wave) (e : SEntry) (rest : List SEntry),
    findWave s gid wave = some w → w.sq = e :: rest → e.waits = [] → commonsDone s gid wave = true →
    exec (.sCountedCompletion gid wave) s = .next
      (let s' := modWave s gid wave fun w => { w with sq := rest }
       if e.bad = [] then sweep s' gid else haltAndSweep s' gid wave 18 0))

/-- ATOM and RED in any space retire where their accesses are aligned and resolve and the storage takes the operation
(R130, R138-R140); ATOM counts on L, RED on S. -/
def Obligations.AtomicsComplete : Prop :=
  (∀ (o : AtomMem) (s : State) (c : Issuer), issuer s = some c → allFree c c.all [.pr o.g.p.val] = true →
    allFree c (c.lanes o.g) ([.vw 0 o.d.val, .vr 1 o.a.val, .vr 3 o.c.val] ++
      (if o.op = .cas then [.vr 3 (o.c.val + 1)] else []) ++ atomFf o.t ++ useS o.b) = true → c.w.cntL < 255 →
    let as := (c.lanes o.g).map fun l => (⟨l, (c.w.readV o.a.val l + c.w.srcS o.b).toNat, o.t.width / 8⟩ : Acc)
    let x := resolveAll s c o.sp .rmw as
    (∀ k ∈ as, k.addr % (o.t.width / 8) = 0) → resolves s c o.sp .rmw as = true →
    atomConds o.op o.t false x = [] → commonsIdle s c = true →
    roomBeyond x.s (x.oks.flatMap Prod.snd) = true → ∃ t w, exec (.atom o) s = .next t ∧
      Retired c (.atom o) t ∧ findWave t c.ref.gid c.ref.wave = some w ∧ w.cntL = c.w.cntL + 1) ∧
  (∀ (o : RedMem) (s : State) (c : Issuer), issuer s = some c → allFree c c.all [.pr o.g.p.val] = true →
    allFree c (c.lanes o.g) ([.vr 1 o.a.val, .vr 3 o.c.val] ++ atomFf o.t ++ useS o.b) = true → c.w.cntS < 255 →
    let as := (c.lanes o.g).map fun l => (⟨l, (c.w.readV o.a.val l + c.w.srcS o.b).toNat, o.t.width / 8⟩ : Acc)
    let x := resolveAll s c o.sp .rmw as
    (∀ k ∈ as, k.addr % (o.t.width / 8) = 0) → resolves s c o.sp .rmw as = true →
    atomConds o.op o.t true x = [] → commonsIdle s c = true →
    roomBeyond x.s (x.oks.flatMap Prod.snd) = true → ∃ t w, exec (.red o) s = .next t ∧
      Retired c (.red o) t ∧ findWave t c.ref.gid c.ref.wave = some w ∧ w.cntS = c.w.cntS + 1)

/-- What an atomic operation on one element leaves (R138, R139): integers wrap, comparisons go by the type, CAS
writes only where it finds what it expects. -/
def Obligations.AtomicResults : Prop :=
  ∀ (t : Ty) (old v cmp : Nat), (t = .i32 ∨ t = .n32 ∨ t = .i64 ∨ t = .n64) →
    let n := 2 ^ t.width
    old < n → v < n →
    atomNew t .add old v cmp = ((old + v) % n, 0) ∧
    atomNew t .min old v cmp = (if iv t v < iv t old then v else old, 0) ∧
    atomNew t .max old v cmp = (if iv t old < iv t v then v else old, 0) ∧
    atomNew t .and old v cmp = (old &&& v, 0) ∧ atomNew t .or old v cmp = (old ||| v, 0) ∧
    atomNew t .xor old v cmp = (old ^^^ v, 0) ∧ atomNew t .xchg old v cmp = (v, 0) ∧
    atomNew t .cas old v cmp = (if old = cmp then v else old, 0)

/-- QPUSH, QPOP and QSTEAL retire and count on L where their descriptors are aligned, local and readable and every
lane's operation is carried out (R141-R143). -/
def Obligations.DequesComplete : Prop :=
  let done (i : Instr) (o : DequeMem) (op : DequeOp) (src : List Use) (item : Issuer → Nat → Word) : Prop :=
    ∀ (s : State) (c : Issuer), issuer s = some c → allFree c c.all [.pr o.g.p.val] = true →
      allFree c (c.lanes o.g) ([.vw 0 o.d.val, .vr 1 o.a.val, .pw o.p.val] ++ src ++ useS o.b) = true →
      c.w.cntL < 255 →
      let as := (c.lanes o.g).map fun l => (⟨l, (c.w.readV o.a.val l + c.w.srcS o.b).toNat, 64⟩ : Acc)
      let x := resolveAll s c o.sp .rmw as
      let r := x.oks.foldl (fun (r : DequeAcc) e => match e.2 with
        | p :: _ => dequeOne c o.sp op (item c) r e.1.lane p
        | [] => r) ⟨x.s, x.s, [], [], [], []⟩
      (∀ k ∈ as, k.addr % 64 = 0) → resolves s c o.sp .rmw as = true → commonsIdle s c = true →
      (∀ e ∈ x.oks, poisonConds x.s e.1.lane e.2 = [] ∧ ∀ p ∈ e.2, isRemote x.s p = false) →
      r.pend = [] → r.bad = [] → ∃ t w, exec i s = .next t ∧ Retired c i t ∧
        findWave t c.ref.gid c.ref.wave = some w ∧ w.cntL = c.w.cntL + 1
  ∀ (o : DequeMem) (v : VReg),
    done (.qpush o v) o .push [.vr 3 v.val] (fun c l => c.w.readV v.val l) ∧
    done (.qpop o) o .pop [] (fun _ _ => 0) ∧ done (.qsteal o) o .steal [] (fun _ _ => 0)

/-- OWN.give hands tiles to the engines, OWN.take takes them back unless a command names one, OWNT reads their owners
(R123, R124, R144, R145). -/
def Obligations.Ownership : Prop :=
  (∀ (a : SReg) (b : SSrc) (s : State) (c : Issuer), issuer s = some c →
    allFree c c.all (.sr a :: useS b) = true →
    let first := (c.w.readS a).toNat
    let n := (c.w.srcS b).toNat
    n = 0 ∨ first + n ≤ c.g.tiles →
    (accessesDone s c.ref.gid c.ref.wave c.w = true → ∃ t, exec (.ownGive a b) s = .next t ∧
      Retired c (.ownGive a b) t ∧
      ∀ i, i < n → ownedByEngine t c.g.die c.g.phys (c.g.spadBase + first + i) = true) ∧
    (accessesDone s c.ref.gid c.ref.wave c.w = false → exec (.ownGive a b) s = .next (holdAt s c .give)) ∧
    ((∀ i, i < n → namedTile s c.g.die c.g.phys (c.g.spadBase + first + i) = false) →
      ∃ t, exec (.ownTake a b) s = .next t ∧ Retired c (.ownTake a b) t ∧
        ∀ i, i < n → ownedByEngine t c.g.die c.g.phys (c.g.spadBase + first + i) = false)) ∧
  (∀ (d a : SReg) (b : SSrc) (s : State) (c : Issuer), issuer s = some c →
    allFree c c.all (.sw d :: .sr a :: useS b) = true →
    let first := (c.w.readS a).toNat
    let n := min (c.w.srcS b).toNat 64
    n = 0 ∨ first + n ≤ c.g.tiles →
    (∀ i, i < n → ownerFails s c.g.die c.g.phys (c.g.spadBase + first + i) = false) → ∃ x : Word,
      exec (.ownt d a b) s = .next (retire s c (Instr.len (.ownt d a b)) (c.w.writeS d x)) ∧
      ∀ i, i < 64 → x.getLsbD i =
        (decide (i < n) && ownedByEngine s c.g.die c.g.phys (c.g.spadBase + first + i)))

/-- FENCE of a scope within the package goes on; one of pod or system scope waits until the wave's loads and stores
are performed, and at system scope sends a read of zero length behind the last write to the host (R311, R312). PREF goes
on whatever its addresses translate to (R146); SARG reads a word of the frame (R366). -/
def Obligations.FencesAndArguments : Prop :=
  (∀ (sc : Scope) (s : State) (c : Issuer), issuer s = some c →
      let far := sc = .pod ∨ sc = .sys
      let quiet := c.w.lq = [] ∧ c.w.sq = []
      (¬ far ∨ (quiet ∧ (sc = .sys → c.w.hostWrote = none)) → exec (.fence sc) s = .next (retire s c 8 c.w)) ∧
      (far → ¬ quiet → exec (.fence sc) s = .next (holdAt s c (.fence false))) ∧
      (∀ a, sc = .sys → quiet → c.w.hostWrote = some a → c.gang.hold ≠ .fence true →
        exec (.fence sc) s = .next (flushHost s c a))) ∧
  (∀ (g : Guard) (a : VReg) (b : SSrc) (l2 : Bool) (s : State) (c : Issuer), issuer s = some c →
    allFree c c.all [.pr g.p.val] = true → allFree c (c.lanes g) (.vr 1 a.val :: useS b) = true →
    ∃ t, exec (.pref g a b l2) s = .next t ∧ Retired c (.pref g a b l2) t) ∧
  (∀ (d : SReg) (n : Imm8) (s : State) (c : Issuer), issuer s = some c → allFree c c.all [.sw d] = true →
    c.all ≠ [] →
    let frame := c.g.record.getD 1 0
    let as : List Acc := [⟨c.all.headD 0, (frame + word (8 * n.val)).toNat, 8⟩]
    let x := resolveAll s c .g .read as
    frame.toNat % 8 = 0 → resolves s c .g .read as = true → commonsIdle s c = true → farHeld c x = true →
    (∀ e ∈ x.oks, directConds x.s c true e.1.lane e.2 = []) →
    ∃ t w, exec (.sarg d n) s = .next t ∧ Retired c (.sarg d n) t ∧
      findWave t c.ref.gid c.ref.wave = some w ∧
      (d ≠ .zero → w.readS d = wordOfBytes (readPieces x.s c.w.far (x.oks.flatMap Prod.snd))))

/-! ## Engines and trays (R151, R174, R180-R183) -/

/-- PUSH and TRAYPUT.drain (R151): where the queue, the tracker and the C counter have room and the descriptors can be
read, the command enters its queue; otherwise the result code says why, the predicate is clear and nothing is sent.
ENGST reads its status entry (R174); TRAYPUT appends where no walk is awaited and no header is poisoned (R180, R181). That
a descriptor address that is no multiple of 64 counts as an invalid descriptor is the model's (log entry 24). -/
def Obligations.EngineCommands : Prop :=
  let sends (i : Instr) (d : SReg) (p : PReg) (a : Fin 57) (b : SSrc) (limit : Nat) (place : Nat → Nat × Nat)
      (ready : State → Issuer → Nat → Nat → Prop) : Prop :=
    ∀ (s : State) (c : Issuer), issuer s = some c → allFree c c.all (sendUses d p a b) = true →
      let q := (c.w.srcS b).toNat
      let die := (place q).1
      let unit := (place q).2
      let code := if limit ≤ q then 3 else if 64 ≤ (unitQueue s die unit (q % 4)).length then 1
        else if 256 ≤ trackerCount s c.g.die c.g.phys then 2 else 0
      (code ≠ 0 → exec i s = .next (retire s c i.len
        ((c.w.writeS d (word code)).writeP p.val (List.range 32) fun _ => false))) ∧
      (code = 0 → c.w.cntC < 255 → accessesDone s c.ref.gid c.ref.wave c.w = true → ready s c die unit → ∃ t w k, exec i s = .next t ∧ Retired c i t ∧
        findWave t c.ref.gid c.ref.wave = some w ∧ (d ≠ .zero → w.readS d = 0) ∧
        w.readP p.val = BitVec.allOnes 32 ∧ k.words = cmdWords c.w a ∧
        unitQueue t die unit (q % 4) = unitQueue s die unit (q % 4) ++ [k] ∧
        w.cntC = c.w.cntC + if k.cntc then 1 else 0)
  (∀ (d : SReg) (p : PReg) (a : Fin 57) (b : SSrc),
    sends (.push d p a b) d p a b 1024 (fun q => (q / 128 % 8, q / 4 % 32))
      fun s c die unit => ∃ s' k, acceptCopy s c die unit (newCmd s c (cmdWords c.w a)) = (s', .inl k)) ∧
  (∀ (d : SReg) (p : PReg) (a : Fin 57) (b : SSrc),
    sends (.trayputDrain d p a b) d p a b 32 (fun q => (q / 4 % 8, 32))
      fun s c die _ => ∃ s' k, acceptDrain s c die (newCmd s c (cmdWords c.w a)) = (s', .inl k)) ∧
  (∀ (d : SReg) (b : SSrc) (fn : Fin 3) (s : State) (c : Issuer), issuer s = some c →
    allFree c c.all (.sw d :: useS b) = true →
    let tag := (c.w.srcS b).toNat % 65536
    let n := tag % 64
    let e := c.g.stat.get (0, 0) n
    let mine := e.1.getLsbD 39 = true ∧ e.1.toNat / 2 ^ 48 = tag
    c.g.marks.get false (gmStat (2 * n)) = false → c.g.marks.get false (gmStat (2 * n + 1)) = false →
    ∃ t w g, exec (.engst d b fn) s = .next t ∧ Retired c (.engst d b fn) t ∧
      findWave t c.ref.gid c.ref.wave = some w ∧ findGroup t c.ref.gid = some g ∧
      (mine → (d ≠ .zero → w.readS d = if fn.val = 1 then e.2 else e.1) ∧
        g.stat.get (0, 0) n = if fn.val = 2 then (0, 0) else e) ∧
      (¬ mine → (d ≠ .zero → w.readS d = 0) ∧ g.stat.get (0, 0) n = e)) ∧
  (∀ (g : Guard) (d a : VReg) (b : SSrc) (k : VReg) (t : Ty) (op : AtomOp) (p : PReg) (s : State) (c : Issuer),
    issuer s = some c → allFree c c.all [.pr g.p.val] = true →
    allFree c (c.lanes g) ([.vw 0 d.val, .vr 1 a.val, .vr 3 k.val, .pw p.val] ++ useS b) = true → c.all ≠ [] →
    let va := (c.w.srcS b).toNat
    let as : List Acc := [⟨c.all.headD 0, va, 64⟩]
    let x := resolveAll s c .g .read as
    let set := TraySet.ofBytes (readPieces x.s c.w.far (x.oks.flatMap Prod.snd))
    let r := (c.lanes g).foldl (fun r l => trayLane c { set with res := set.res || va % 64 != 0 } t op r l
      (c.w.readV a.val l).toNat (c.w.readV k.val l)) ⟨x.s, x.s, [], [], [], []⟩
    resolves s c .g .read as = true → commonsIdle s c = true → farHeld c x = true →
    (∀ e ∈ x.oks, directConds x.s c true e.1.lane e.2 = []) → r.pend = [] → r.bad = [] →
    ∃ u w, exec (.trayputAppend g d a b k t op p) s = .next u ∧ Retired c (.trayputAppend g d a b k t op p) u ∧
      findWave u c.ref.gid c.ref.wave = some w ∧ ∀ e ∈ r.res, (d.val ≠ 255 → w.readV d.val e.1 = e.2.1) ∧
        (p.val < 7 → (w.readP p.val).getLsbD e.1 = e.2.2))

/-! ## Coordinates (R189-R201) -/

/-- The coordinate instructions complete where what they name is free and their reads meet nothing: COPEN opens a cursor
on a valid descriptor (R197), CNEXT delivers the pairs of its walk, one to each of the first active lanes, whose predicate
bits it sets (R193), CSPLIT hands each lane the two positions of its diagonal (R195), CSEEK sets a cursor by the lists
(R196), CSTAT reads a cursor (R198), CCLOSE closes one (R197), CUNPK hands values to lanes (R199). A cursor that
CSAVE stores and CLOAD loads is the cursor it was (R198): the 256 bits of a cursor whose fields lie in their ranges give
it back, and bits that hold MODE 3 give the closed cursor. -/
def Obligations.Coordinates : Prop :=
  (∀ (d : QReg) (a k : SReg) (mode : CurMode) (s : State) (c : Issuer), issuer s = some c →
    allFree c c.all [.sr a, .sw k] = true →
    let off := (c.w.readS a).toNat
    off % 64 = 0 → off + 64 ≤ 4096 * c.g.tiles →
    let r := (Rd.start s).pair c off
    r.1.stopped = false → ∃ t w, exec (.copen d a k mode) s = .next t ∧
      Retired c (.copen d a k mode) t ∧ findWave t c.ref.gid c.ref.wave = some w ∧
      let bad := r.2.res || !r.2.a.valid || !r.2.b.valid
      w.cursor d.val = (if bad then Cursor.closed else
        { Cursor.closed with mode := modeCode mode, desc := off / 64, endd := 2 ^ 32 - 1, opened := true }) ∧
      (k ≠ .zero → w.readS k = if bad then 1 else 0)) ∧
  (∀ (g : Guard) (d : VReg) (a : QReg) (k : SReg) (p : PReg) (s : State) (c : Issuer), issuer s = some c →
    allFree c c.all [.pr g.p.val] = true →
    allFree c (c.lanes g) (runUse (.vw 0) d.val 3 ++ [.q a.val, .sw k, .pw p.val]) = true →
    let q := c.w.cursor a.val
    (q.opened = false → ∃ t w, exec (.cnext g d a k p) s = .next t ∧ Retired c (.cnext g d a k p) t ∧
      findWave t c.ref.gid c.ref.wave = some w ∧ (k ≠ .zero → w.readS k = word (2 ^ 62)) ∧
      ∀ l ∈ c.lanes g, p.val < 7 → (w.readP p.val).getLsbD l = false) ∧
    (q.opened = true →
      let r := pairWhere c s (!(c.lanes g).isEmpty && !q.done) (64 * q.desc)
      let v := walkLoop c r.2 (c.lanes g).length 4097 ⟨r.1, q, [], 0, none⟩
      v.x.stopped = false → v.bad = none → ∃ t w, exec (.cnext g d a k p) s = .next t ∧
        Retired c (.cnext g d a k p) t ∧ findWave t c.ref.gid c.ref.wave = some w ∧
        w.cursor a.val = v.q ∧
        (k ≠ .zero → w.readS k = word (v.pairs.length + if v.q.done then 2 ^ 63 else 0)) ∧
        (∀ e ∈ (c.lanes g).zip v.pairs, d.val < 253 → w.readV d.val e.1 = word e.2.1 ∧
          w.readV (d.val + 1) e.1 = word e.2.2.1 ∧ w.readV (d.val + 2) e.1 = word e.2.2.2) ∧
        (∀ l ∈ c.lanes g, p.val < 7 →
          (w.readP p.val).getLsbD l = decide (l ∈ (c.lanes g).take v.pairs.length)) ∧
        ∀ l, l < 32 → l ∉ (c.lanes g).take v.pairs.length → ∀ n, w.readV n l = c.w.readV n l)) ∧
  (∀ (g : Guard) (d a : VReg) (b : QReg) (s : State) (c : Issuer), issuer s = some c →
    allFree c c.all [.pr g.p.val] = true →
    allFree c (c.lanes g) (runUse (.vw 0) d.val 2 ++ [.vr 1 a.val, .q b.val]) = true →
    let q := c.w.cursor b.val
    let r := pairWhere c s (!(c.lanes g).isEmpty && q.opened) (64 * q.desc)
    let x := splitLanes c a q r.2 (c.lanes g) r.1
    x.1.stopped = false → ∃ t w, exec (.csplit g d a b) s = .next t ∧ Retired c (.csplit g d a b) t ∧
      findWave t c.ref.gid c.ref.wave = some w ∧ x.2.map Prod.fst = c.lanes g ∧
      ∀ e ∈ x.2, (d.val < 254 → w.readV d.val e.1 = word e.2.1 ∧ w.readV (d.val + 1) e.1 = word e.2.2) ∧
        (q.opened = false ∨ listsOnly q r.2 = false → e.2 = (2 ^ 32 - 1, 2 ^ 32 - 1)) ∧
        (q.opened = true → listsOnly q r.2 = true →
          let n := (c.w.readV a.val e.1).toNat % 2 ^ 32
          let m := min n (r.2.a.len + r.2.b.len)
          (q.mode = 2 → e.2 = (min n r.2.a.len, 0)) ∧
            (q.mode ≠ 2 → e.2.1 + e.2.2 = m ∨ e.2.1 + e.2.2 = m + 1))) ∧
  (∀ (d : QReg) (a b k : SReg) (s : State) (c : Issuer), issuer s = some c →
    allFree c c.all [.q d.val, .sr a, .sr b, .sr k] = true →
    let q := c.w.cursor d.val
    let r := pairWhere c s q.opened (64 * q.desc)
    let y := seekCursor c q r.2 (c.w.readS a).toNat (c.w.readS b).toNat ((c.w.readS k).toNat % 2 ^ 32) r.1
    y.1.stopped = false → ∃ t w, exec (.cseek d a b k) s = .next t ∧ Retired c (.cseek d a b k) t ∧
      findWave t c.ref.gid c.ref.wave = some w ∧ w.cursor d.val = y.2) ∧
  (∀ (d : SReg) (a : QReg) (k : Fin 4),
    let eff (c : Issuer) : Wave := c.w.writeS d (word ((c.w.cursor a.val).bits / 2 ^ (64 * k.val) % 2 ^ 64))
    WaveResult (.cstatH d a k) [.sw d, .qw a.val k.val] eff ∧ WaveResult (.cstatW d a k) [.sw d, .qw a.val k.val] eff) ∧
  (∀ d : QReg, WaveResult (.ccloseH d) [] (fun c => c.w.setCursor d.val Cursor.closed) ∧
    WaveResult (.ccloseW d) [] fun c => c.w.setCursor d.val Cursor.closed) ∧
  (∀ (g : Guard) (d : VReg) (k : SReg) (p : PReg) (o : UnpkOp) (s : State) (c : Issuer), issuer s = some c →
    allFree c c.all [.pr g.p.val] = true →
    allFree c (c.lanes g) ([.vw 0 d.val, .sr k, .sw k, .pw p.val] ++ unpackUses o) = true →
    ∃ t w, exec (.cunpk g d k p o) s = .next t ∧ Retired c (.cunpk g d k p o) t ∧
      findWave t c.ref.gid c.ref.wave = some w ∧
      ∀ e ∈ (c.lanes g).zip (unpack c.w o k (c.lanes g)).1, d.val ≠ 255 → w.readV d.val e.1 = word e.2) ∧
  (∀ q : Cursor, q.mode < 3 → q.desc < 2 ^ 15 → (∀ n ∈ [q.posa, q.offa, q.lasta, q.posb, q.offb, q.lastb, q.endd],
    n < 2 ^ 32) → Cursor.ofBits q.bits = q) ∧
  (∀ n : Nat, n / 2 ^ 15 % 4 = 3 → Cursor.ofBits n = Cursor.closed) ∧
  (∀ (a : SReg) (b : SSrc) (k : QReg) (sp : Space) (s : State) (c : Issuer), issuer s = some c →
    allFree c c.all (.q k.val :: .sr a :: useS b) = true → c.all ≠ [] →
    let addr := (c.w.readS a + c.w.srcS b).toNat
    let as : List Acc := [⟨c.all.headD 0, addr, 32⟩]
    let x := resolveAll s c sp .write as
    let bs := bytesOfNat 32 (c.w.cursor k.val).bits
    addr % 32 = 0 → resolves s c sp .write as = true →
    (∀ e ∈ x.oks, directConds x.s c false e.1.lane e.2 = []) → roomBeyond x.s (x.oks.flatMap Prod.snd) = true →
    hostClear c x = true → storesSent c x bs = true → ∃ t, exec (.csave a b k sp) s = .next t ∧ Retired c (.csave a b k sp) t ∧
      (s.regs.localGib ≤ 64 → (∀ e ∈ x.oks, ∀ p ∈ e.2, isRemote x.s p = false) →
        leavesBytes s t (writesOf (x.oks.flatMap Prod.snd) bs))) ∧
  (∀ (d : QReg) (a : SReg) (b : SSrc) (sp : Space) (s : State) (c : Issuer), issuer s = some c →
    allFree c c.all (.sr a :: useS b) = true → c.all ≠ [] →
    let addr := (c.w.readS a + c.w.srcS b).toNat
    let as : List Acc := [⟨c.all.headD 0, addr, 32⟩]
    let x := resolveAll s c sp .read as
    addr % 32 = 0 → resolves s c sp .read as = true → commonsIdle s c = true → farHeld c x = true →
    (∀ e ∈ x.oks, directConds x.s c true e.1.lane e.2 = []) →
    ∃ t w, exec (.cload d a b sp) s = .next t ∧ Retired c (.cload d a b sp) t ∧
      findWave t c.ref.gid c.ref.wave = some w ∧
      w.cursor d.val = Cursor.ofBits (natOfBytes (readPieces x.s c.w.far (x.oks.flatMap Prod.snd))))

/-! ## The matrix engine (R271-R295) -/

/-- ACCORD writes %accord where the value is valid and says so (R275). The first wave that issues MMA, QMMA or MMAX opens
the latch and waits; the last one listed brings the instruction to its acceptance (R274): MMA performs its k-blocks
and every wave goes on (R286), QMMA does where the other three cores of the quad have formed theirs (R287), MMAX joins
those in progress, or goes on where none of its steps is left (R288). That an MMAX in progress keeps its waves at the
instruction, its progress read at acceptance, is the model's reading (log entry 14), as are the order of arrivals at the
latch and the join of a quad (log entries 15 and 16). -/
def Obligations.Accords : Prop :=
  (∀ (d a : SReg) (s : State) (c : Issuer), issuer s = some c → allFree c c.all [.sw d, .sr a] = true →
    let ok := accordValid (c.w.readS a) c.g.waves.length
    ∃ t w g, exec (.accord d a) s = .next t ∧ Retired c (.accord d a) t ∧
      findWave t c.ref.gid c.ref.wave = some w ∧ findGroup t c.ref.gid = some g ∧
      g.accord = (if ok then c.w.readS a else c.g.accord) ∧ (d ≠ .zero → w.readS d = if ok then 0 else 1)) ∧
  (∀ (o : MmaOp) (k : SReg) (s : State) (c : Issuer) (i : Instr), issuer s = some c → accordReady c o k →
    (i = .mma o ∧ k = .zero) ∨ i = .qmma o k ∨ i = .mmax o k → c.g.latch = none →
    c.g.stop = none ∨ c.w.trap.tm = true →
    (∀ w ∈ accordWaves c.g.accord, ∃ v, c.g.waves[w]? = some v ∧ v.gone = false) →
    ∃ t c' e, exec i s = .next t ∧ issuerAt t c.ref = some c' ∧ c'.gang.hold = .latch ∧ c'.gang.pc = c.pc ∧
      c'.g.latch = some e ∧ e.arrivals = [⟨c.ref.wave, o.d.val, c.w.readS o.a, c.w.readS o.b⟩]) ∧
  (∀ (o : MmaOp) (s : State) (c : Issuer) (q : Latch), issuer s = some c → accordReady c o .zero →
    latchAwaits c 0xD1 o .zero q →
    let e := latchWith c o q
    accordConds s c.g e (latchNk e) (mmaSpan e) false false = [] →
    ∃ t w g, exec (.mma o) s = .next t ∧ Retired c (.mma o) t ∧ findWave t c.ref.gid c.ref.wave = some w ∧
      w.mq = c.w.mq + 1 ∧ findGroup t c.ref.gid = some g ∧ g.latch = none) ∧
  (∀ (o : MmaOp) (k : SReg) (s : State) (c : Issuer) (q : Latch), issuer s = some c → accordReady c o k →
    latchAwaits c 0xD2 o k q →
    let e := latchWith c o q
    let key := quadKey e
    (∀ g ∈ s.groups, g.gid = c.ref.gid → g = c.g) →
    (∀ g ∈ s.groups, g.die = c.g.die → g.core = c.g.core → ∀ x ∈ g.quads, quadKey x ≠ key) →
    accordConds s c.g e (latchNk e) (mmaSpan e) false false = [] → quadBusy s c.ref.gid e = false →
    (∀ n, n < 4 → n ≠ c.g.core % 4 → ∃ gid g x,
      oldestQuad s c.g.die (c.g.core / 4 * 4 + n) key = some (gid, x) ∧ gid ≠ c.ref.gid ∧
      findGroup s gid = some g ∧ quadBusy s gid x = false ∧ quadFields s gid x = quadFields s c.ref.gid e ∧
      accordConds s g x (latchNk x) (mmaSpan x) false false = []) →
    ∃ t w, exec (.qmma o k) s = .next t ∧ Retired c (.qmma o k) t ∧
      findWave t c.ref.gid c.ref.wave = some w ∧ w.mq = c.w.mq + 1) ∧
  (∀ (o : MmaOp) (k : SReg) (s : State) (c : Issuer) (q : Latch) (done : Nat), issuer s = some c →
    accordReady c o k → latchAwaits c 0xD3 o k q →
    let e := latchWith c o q
    let n := (c.w.readS k).toNat
    0 < n → n < 2 ^ 16 → c.g.stop = none ∨ c.w.trap.tm = true →
    (∀ r ∈ e.arrivals, mmaxDone (tileStat c.g r.d) = done) →
    ∃ t c', exec (.mmax o k) s = .next t ∧ issuerAt t c.ref = some c' ∧ c'.w.mq = c.w.mq + 1 ∧
      (n ≤ done → Retired c (.mmax o k) t) ∧
      (done < n → c'.gang.hold = .expand ∧ c'.gang.pc = c.pc ∧ c'.g.expansions = c.g.expansions ++ [⟨e, done, n⟩])) ∧
  (∀ (gid : Nat) (s : State) (g : Group) (p : Expansion) (rest : List Expansion), findGroup s gid = some g →
    g.expansions = p :: rest → g.quads = [] → accordConds s g p.latch p.total (mmaxSpan g p.latch p.done) true false = [] →
    ∃ t g', exec (.enlargerStep gid) s = .next t ∧ findGroup t gid = some g' ∧
      g'.expansions = if p.total ≤ p.done + 1 then rest.filter fun q => !sameAccord p.latch q
        else { p with done := p.done + 1 } :: rest)

/-- One k-block into a tile (R281, R282): cell by cell the sum of the products of its row of A and its column of B,
rounded into the half that KDONE names, or added modulo 2^64 at the shift of its scales; KDONE advances, DIRTY is set,
and the cells of the other tiles stay. -/
def Obligations.MatrixSteps : Prop :=
  ∀ (s : State) (t : Ty) (int : Bool) (a : Word) (slot : Nat) (h : SlotHeader) (qa qb row col m : Nat) (g : Group)
      (i j : Nat), i < 64 → j < 64 →
    let g' := stepTile s t int a slot h qa qb row col m g
    let x := fetchA s g a t (64 * row + i) qa
    let y := fetchB g slot h (64 * col + j) qb
    let ix := x.ints t
    let iy := y.ints (tyOf h.t)
    (int = true → cellAt g' m i j = word (natOf 64 ((cellAt g m i j).toInt +
      (List.zipWith (· * ·) ix.1 iy.1).sum * ((2 ^ (ix.2 + iy.2).toNat : Nat) : Int)))) ∧
    (int = false → cellAt g' m i j = (addPair ((tileStat g m).kdone % 2 == 0) (cellAt g m i j)
      (dotVals (x.vals t) (bVals g slot h (64 * col + j) qb).1).1).1) ∧
    (m < g.tstat.length → (tileStat g' m).kdone = ((tileStat g m).kdone + 1) % 65536 ∧
      (tileStat g' m).dirty = true) ∧
    ∀ n, n ≠ m → cellAt g' n i j = cellAt g n i j ∧ tileStat g' n = tileStat g n

/-- The tile instructions that touch no memory (R289, R292, R293, R295): MZERO, MFOLD, MSTAT, MSCALE, MREAD, MWRITE and MCK,
where the tile lies in the allotment, no MMAX in progress names it and its state is one the instruction takes. That MCK of
columns writes all 32 lanes of its two registers whatever the active masks is the model's reading (log entry 17). -/
def Obligations.TileInstructions : Prop :=
  let at_ (i : Instr) (m : Nat) (ok : Issuer → Prop) (eff : Issuer → Group → Wave → Prop) : Prop :=
    ∀ (s : State) (c : Issuer), issuer s = some c → m < c.g.tregs → m < c.g.tstat.length →
      matrixBusy c.g (some m) none = false → ok c → ∃ t g w, exec i s = .next t ∧ Retired c i t ∧
        findGroup t c.ref.gid = some g ∧ findWave t c.ref.gid c.ref.wave = some w ∧ eff c g w
  let held (m : Nat) (i64 : Bool) (c : Issuer) : Prop :=
    (tileStat c.g m).valid = true ∧ (tileStat c.g m).uce = false ∧ (tileStat c.g m).i64 = i64 ∧
      c.g.marked (gmTile m) = false
  let cells (m : Nat) (c : Issuer) (g : Group) (f : Word → Word) : Prop :=
    ∀ i j, i < 64 → j < 64 → cellAt g m i j = f (cellAt c.g m i j)
  (∀ (d : TReg) (i64 : Bool),
    let eff (c : Issuer) (g : Group) (_ : Wave) : Prop := cells d.val c g (fun _ => 0) ∧
      tileStat g d.val = ⟨0, false, 0, i64, 0, true, true, 0⟩
    at_ (.mzeroH d i64) d.val (fun _ => True) eff ∧ at_ (.mzeroW d i64) d.val (fun _ => True) eff) ∧
  (∀ d : TReg,
    let eff (c : Issuer) (g : Group) (_ : Wave) : Prop :=
      cells d.val c g fun x => pairCell (foldCell (x.toNat % 2 ^ 32) (x.toNat / 2 ^ 32)).1 0
    at_ (.mfoldH d) d.val (held d.val false) eff ∧ at_ (.mfoldW d) d.val (held d.val false) eff) ∧
  (∀ (d : SReg) (a : TReg) (clr : Bool),
    let eff (c : Issuer) (g : Group) (w : Wave) : Prop :=
      (d ≠ .zero → w.readS d = (tileStat c.g a.val).status) ∧ tileStat g a.val =
        (if clr then { tileStat c.g a.val with flags := 0 } else tileStat c.g a.val)
    let ok (c : Issuer) : Prop := allFree c c.all [.sw d] = true ∧ c.g.marked (gmTile a.val) = false
    at_ (.mstatH d a clr) a.val ok eff ∧ at_ (.mstatW d a clr) a.val ok eff) ∧
  (∀ (d : TReg) (b : SSrc),
    let n (c : Issuer) : Int := (c.w.srcS b).toInt
    at_ (.mscale d b) d.val (fun c => allFree c c.all (useS b) = true ∧ held d.val (tileStat c.g d.val).i64 c ∧
        -64 ≤ n c ∧ n c ≤ 64) fun c g _ => cells d.val c g fun x =>
      (scaleCell (tileStat c.g d.val).i64 (n c) x).1) ∧
  (∀ (g : Guard) (d : VReg) (a : TReg) (b : SReg) (t : Ty),
    let row (c : Issuer) : Nat := (c.w.readS b).toNat % 64
    at_ (.mread g d a b t) a.val (fun c => allFree c c.all [.pr g.p.val] = true ∧ allFree c c.all [.sr b] = true ∧
        allFree c (c.lanes g) (runUse (.vw 0) d.val (rowRegs t)) = true ∧
        (c.lanes g = [] ∨ held a.val (rowWide t) c) ∧ d.val < 254) fun c _ w => ∀ l ∈ c.lanes g, l < 32 →
      let fold (k : Nat) : Nat := (foldOf (cellAt c.g a.val (row c) (2 * l + k))).1
      if rowWide t then w.readV d.val l = cellAt c.g a.val (row c) l ∧
        w.readV (d.val + 1) l = cellAt c.g a.val (row c) (32 + l)
      else w.readV d.val l = pairCell (fold 0) (fold 1)) ∧
  (∀ (g : Guard) (d : TReg) (a : VReg) (b : SReg) (t : Ty),
    let row (c : Issuer) : Nat := (c.w.readS b).toNat % 64
    at_ (.mwrite g d a b t) d.val (fun c => allFree c c.all [.pr g.p.val] = true ∧ allFree c c.all [.sr b] = true ∧
        allFree c (c.lanes g) (runUse (.vr 1) a.val (rowRegs t)) = true ∧
        (c.lanes g = [] ∨ (c.g.marked (gmTile d.val) = false ∧
          ((tileStat c.g d.val).valid = true → (tileStat c.g d.val).i64 = rowWide t)))) fun c g' _ =>
      (∀ l ∈ c.lanes g, l < 32 →
        let half (k : Nat) : Word :=
          pairCell (quietF32 (subElem (c.w.readV a.val l) 32 k)).1 0
        if rowWide t then cellAt g' d.val (row c) l = c.w.readV a.val l ∧
          cellAt g' d.val (row c) (32 + l) = c.w.readV (a.val + 1) l
        else cellAt g' d.val (row c) (2 * l) = half 0 ∧ cellAt g' d.val (row c) (2 * l + 1) = half 1) ∧
      (tileStat g' d.val).dirty = true ∧ (tileStat g' d.val).valid = true) ∧
  (∀ (a : TReg) (d : VReg) (t : Ty), at_ (.mck a (.col d t)) a.val (fun c =>
    allFree c (List.range 32) (runUse (.vw 0) d.val 2) = true ∧ held a.val (t != .f64) c ∧ d.val < 254)
    fun c _ w => ∀ j, j < 64 → w.readV (d.val + j / 32) (j % 32) =
      word (columnSum (tileCells c.g a.val) (t != .f64) j).1) ∧
  (∀ (a : TReg) (n : Fin 4), at_ (.mck a (.ck n)) a.val (fun c =>
    allFree c c.all [.ck n.val] = true ∧ held a.val (tileStat c.g a.val).i64 c) fun _ _ _ => True)

/-- MLOAD, MSTORE and WBLOAD retire and count on M where their rows are aligned, resolve and can be read or written; what
MSTORE leaves in this package's memory is the tile, cell by cell, folded and converted (R290, R291, R294). -/
def Obligations.TileMemory : Prop :=
  (∀ (d : TReg) (a : SReg) (b : SSrc) (t : Ty) (sp : Space) (s : State) (c : Issuer), issuer s = some c →
    allFree c c.all (.sr a :: useS b) = true → d.val < c.g.tregs → d.val < c.g.tstat.length →
    matrixBusy c.g (some d.val) none = false → c.w.mq < 255 → c.all ≠ [] →
    let n := if t = .f32 then 256 else 512
    let pitch := tilePitch c b n
    let x := resolveAll s c sp .read (tileRows c a pitch n)
    (c.w.readS a).toNat % 8 = 0 → pitch % 8 = 0 → (n : Int) ≤ pitch →
    resolves s c sp .read (tileRows c a pitch n) = true → commonsIdle s c = true → farHeld c x = true →
    (∀ e ∈ x.oks, directConds x.s c true e.1.lane e.2 = []) →
    ∃ u g w, exec (.mload d a b t sp) s = .next u ∧ Retired c (.mload d a b t sp) u ∧
      findGroup u c.ref.gid = some g ∧ findWave u c.ref.gid c.ref.wave = some w ∧ w.mq = c.w.mq + 1 ∧
      tileStat g d.val = ⟨0, false, 0, t != .f32, 0, false, true, 0⟩) ∧
  (∀ (a : SReg) (b : SSrc) (m : TReg) (t : Ty) (sp : Space) (rnd : Rnd) (s : State) (c : Issuer),
    issuer s = some c →
    allFree c c.all ((if rnd = .dyn then [Use.spec 2] else []) ++ .sr a :: useS b) = true →
    m.val < c.g.tregs → m.val < c.g.tstat.length → matrixBusy c.g (some m.val) none = false → c.w.mq < 255 →
    c.all ≠ [] →
    let wide := t == .n64 || t == .i64
    let n := 64 * (t.width / 8)
    let pitch := tilePitch c b (if wide then 512 else 256)
    let x := resolveAll s c sp .write (tileRows c a pitch n)
    (tileStat c.g m.val).valid = true → (tileStat c.g m.val).i64 = wide → (tileStat c.g m.val).uce = false →
    c.g.marked (gmTile m.val) = false → (c.w.readS a).toNat % 8 = 0 → pitch % 8 = 0 → (n : Int) ≤ pitch →
    let val (i j : Nat) : Nat :=
      let r := (foldOf (cellAt c.g m.val i j)).1
      if wide then (cellAt c.g m.val i j).toNat else if t = .f32 then r
        else (encodeVal t (c.w.mode rnd) false 0 (decodeVal .f32 r)).1
    let rows : List (Nat × Byte) := x.oks.zipIdx.flatMap fun e => writesOf e.1.2
      ((List.range 64).flatMap fun j => bytesOfNat (t.width / 8) (val e.2 j))
    resolves s c sp .write (tileRows c a pitch n) = true → writeConds x = [] → hostClear c x = true →
    roomBeyond x.s (x.oks.flatMap Prod.snd) = true →
    ∃ u g w, exec (.mstore a b m t sp rnd) s = .next u ∧ Retired c (.mstore a b m t sp rnd) u ∧
      findGroup u c.ref.gid = some g ∧ findWave u c.ref.gid c.ref.wave = some w ∧ w.mq = c.w.mq + 1 ∧
      (tileStat g m.val).dirty = false ∧
      (s.regs.localGib ≤ 64 → (∀ e ∈ x.oks, ∀ p ∈ e.2, isRemote x.s p = false) → leavesBytes s u rows)) ∧
  (∀ (a b : SReg) (t : Ty) (slot : Fin 8) (s : State) (c : Issuer), issuer s = some c →
    allFree c c.all [.sr a, .sr b] = true → slot.val < c.g.wbslots →
    matrixBusy c.g none (some slot.val) = false → c.w.mq < 255 → c.all ≠ [] →
    let base := (c.w.readS a).toNat
    let n := wbN (c.w.readS b)
    let kb := wbKb (c.w.readS b)
    let size := aBlockBytes t
    let pitch := 128 * wbPitch (c.w.readS b)
    let no (col q : Nat) : Nat := col * (pitch / size) + q
    let blocks := (List.range n).flatMap fun col => (List.range kb).map fun q => (col, q)
    let accs : List Acc := (blocks.map fun e => ⟨c.all.headD 0, if fmtCode t ≠ 0 then base + no e.1 e.2 * size
        else base + pitch * e.1 + size * e.2, size⟩) ++
      if t = .aq8 then (List.range n).map fun col => ⟨c.all.headD 0, base - 8 * n + 8 * col, 8⟩ else []
    let x := resolveAll s c .l .read accs
    base % 128 = 0 → wbBadShape t (c.w.readS b) = false → wbBeyond c.g t base (c.w.readS b) = false →
    resolves s c .l .read accs = true → commonsIdle s c = true →
    (∀ e ∈ x.oks, poisonConds x.s e.1.lane e.2 = []) →
    (fmtCode t = 0 ∨ ∀ e ∈ x.oks.zip blocks,
      desyncCheck (lineAt s ((pasOf e.1.2).headD 0)) (fmtCode t) (no e.2.1 e.2.2) = none) →
    ∃ u w, exec (.wbload a b t slot) s = .next u ∧ Retired c (.wbload a b t slot) u ∧
      findWave u c.ref.gid c.ref.wave = some w ∧ w.mq = c.w.mq + 1)

/-! ## The package's own steps (R103-R187, R307-R335, R372-R417) -/

/-- The units of the package take their work: a head of a queue ages (R149); a copy engine whose descriptors were read runs
the command that is next, or the one it has started, and completes it with its status entry written and the command gone
from its queue, or keeps it while walks, or what it has sent beyond the package, are awaited (R150, R154, R164-R173, R306);
a tray engine reads a region or commits it, and completes a drain at a region's boundary (R183-R187); a unit that finds an
operation code nobody defines completes it; the matrix engine completes an instruction of a wave (R272); the oldest
common-register write of a core whose third cycle has come is performed (R305). It is the model's choice that an undefined
command of the tray engine has STAT1 0 and that a drain whose staging offset is no multiple of 4,096 is malformed (log entry
62), and when the third cycle of a common-register write has come and which of one cycle goes first (log entries 39 and
59). -/
def Obligations.UnitSteps : Prop :=
  let ended (i : Instr) (die unit prio : Nat) (k : Cmd) (s : State) (st0 st1 : Word) : Prop :=
    ∃ t g, exec i s = .next t ∧ findGroup t k.gid = some g ∧ g.stat.get (0, 0) (k.tag % 64) = (st0, st1) ∧
      ∀ x ∈ unitQueue t die unit prio, x.id ≠ k.id
  let reports (i : Instr) (die unit prio : Nat) (k : Cmd) (s : State) (st : Status) : Prop :=
    ended i die unit prio k s (st.stat0 k.tag) (word st.stat1)
  let copies (die eng : Nat) : List (Instr × Nat) :=
    [(.copyCmd die eng, 1), (.gatherCmd die eng, 2), (.importCmd die eng, 3), (.exportCmd die eng, 4),
      (.wbfillCmd die eng, 5), (.landCmd die eng, 6)]
  (∀ (die unit prio : Nat) (k : Cmd) (rest : List Cmd) (s : State), unitQueue s die unit prio = k :: rest →
    k.aged = none → ∃ t, exec (.engineHeadAging die unit prio) s = .next t ∧
      unitQueue t die unit prio = { k with aged := some s.nextReq } :: rest ∧ t.nextReq = s.nextReq + 1) ∧
  (∀ (die eng prio : Nat) (k : Cmd) (g : Group) (s : State),
    let unit := eng % 32
    nextCmd s die unit = some (prio, k) → findGroup s k.gid = some g → unitWalks s (64 * die + unit) = false →
    ∀ p ∈ copies die eng, k.op = p.2 →
    (∀ e more, k.fin = none → k.bad = e :: more →
      reports p.1 die unit prio k s (.error (e.1 % 256) e.2 (256 ≤ e.1))) ∧
    (∀ x y rest, k.fin = none → k.bad = [] → k.reads = x :: y :: rest →
      let c : Copy := ⟨k, Desc.ofBytes x.2.1, Desc.ofBytes y.2.1⟩
      let r := unitRunner s die unit k.asid g
      let named := r.tilesNow s c
      let u := modCmd (r.formPlaces c s) die unit prio k.id fun k => { k with started := true, tiles := named }
      (∀ v st, runCopy u r c = (v, .error (.status st)) → reports p.1 die unit prio k s st) ∧
      (∀ v z, runCopy u r c = (v, .ok z) →
        (z.out = [] → reports p.1 die unit prio k s z.st) ∧
        (z.out ≠ [] → ∃ t, exec p.1 s = .next t ∧ ∃ k' ∈ unitQueue t die unit prio, k'.id = k.id ∧
          k'.fin = some ⟨z.out, z.st.stat0 k.tag, word z.st.stat1, named⟩)) ∧
      (∀ v ks, runCopy u r c = (v, .error (.walks ks)) → ∃ t, exec p.1 s = .next t ∧ t.engq = v.engq ∧
        ∀ e ∈ ks, ∃ q ∈ t.walks, q.who = .unit (64 * die + unit) ∧ q.va / 4096 = e.2 / 4096)) ∧
    (∀ f, k.fin = some f → f.todo = [] →
      let mine := s.unitFar.get [] (64 * die + unit)
      farDone mine = true → (∀ q ∈ mine, q.res ≠ .bad 4) → ended p.1 die unit prio k s f.stat0 f.stat1)) ∧
  (∀ (die prio : Nat) (k : Cmd) (g : Group) (s : State),
    nextCmd s die 32 = some (prio, k) → k.op = 16 → findGroup s k.gid = some g → unitWalks s (64 * die + 32) = false →
    (drainMalformed k = true → reports (.trayDrain die) die 32 prio k s ((DrainPos.first k).status 1 false)) ∧
    (drainMalformed k = false →
      let r := unitRunner s die 32 k.asid g
      let u := modCmd s die 32 prio k.id fun k => { k with started := true }
      (∀ v st, drainDesc r u k = (v, .bad st) →
        reports (.trayDrain die) die 32 prio k s ((DrainPos.first k).failed st)) ∧
      ∀ v bs, drainDesc r u k = (v, .ok bs) →
        let z := modCmd v die 32 prio k.id fun q =>
          { q with reads := [(k.trayVa, bs, false)], tiles := drainTiles r k bs v }
        (∀ y st, drainStep r z k (TraySet.ofBytes bs) = (y, .ends st) →
          reports (.trayDrain die) die 32 prio k s st) ∧
        ∀ y x, drainStep r z k (TraySet.ofBytes bs) = (y, .at_ x) → ∃ t, exec (.trayDrain die) s = .next t ∧
          t.mem = y.mem ∧ ∃ k' ∈ unitQueue t die 32 prio, k'.id = k.id ∧ k'.drain = some x)) ∧
  (∀ (die unit prio : Nat) (k : Cmd) (g : Group) (s : State), unit ≤ 32 →
    nextCmd s die unit = some (prio, k) → findGroup s k.gid = some g →
    (unit = 32 → k.op ≠ 16) → (unit < 32 → k.op = 0 ∨ 6 < k.op) →
    reports (.malformedCommand die unit) die unit prio k s (.error 1 0 false)) ∧
  (∀ (gid wave : Nat) (s : State) (g : Group) (w : Wave), findGroup s gid = some g →
    findWave s gid wave = some w → expanding g wave < w.mq → g.quads = [] → (∀ r ∈ w.farM, r.res = .done) →
    ∃ t w', exec (.matrixCompletion gid wave) s = .next t ∧ findWave t gid wave = some w' ∧
      w'.mq = w.mq - 1) ∧
  (∀ (die core : Nat) (s : State) (k : CommonWrite),
    leastBy (fun x => 64 * x.cycle + x.slot) (s.commons.filter fun x =>
      x.die == die && x.phys == core && x.cycle + 3 ≤ cycleOf s) = some k →
    die < 8 → core < 64 → winRange k.addr = .common → k.addr % 8 = 0 →
    let pa := windowPa die core k.addr
    (∀ i, i < 8 → inCode s (pa + i) = false ∧ inTables s (pa + i) = false) →
    ∃ t, exec (.commonRegisterWrite die core) s = .next t ∧ readRun t pa 8 = wordBytes k.word ∧
      t.commons = s.commons.erase k)

/-- What the host answers (R118, R335, R395): a walk takes a slot of the ring and is signalled, its answer or its timeout
reaches whoever waits; a fault-service request takes a slot and is signalled, the host's answer resumes the wave, enters
its handler or halts it, and a timeout delivers; a completion ends the oldest request of the host port; a failed write
is logged and signalled. That a request takes the lowest free slot, and where its answer is written, is the model's
reading (log entry 30). -/
def Obligations.HostServices : Prop :=
  (∀ (die n : Nat) (s : State) (r : WalkReq), (s.walks.find? fun q => q.die == die && q.slot.isNone) = some r →
    freeSlot (s.walks.filterMap WalkReq.slot) = some n → ∃ t, exec (.hostWalkRequest die) s = .next t ∧
      t.walks = (s.walks.map fun q => if q = r then { q with slot := some n } else q) ∧
      HostMsg.msix 1 ∈ t.hostOut) ∧
  (let given (i : Instr) (s : State) (r : WalkReq) (a : Answer) : Prop :=
    ∃ t, exec i s = .next t ∧ t.walks = s.walks.filter (· != r) ∧
      (∀ n, r.who = .unit n → t.unitAns.get [] n = s.unitAns.get [] n ++ [a]) ∧
      ∀ gid k w, r.who = .wave gid k → findWave s gid k = some w →
        ∃ w', findWave t gid k = some w' ∧ w'.answers = w.answers ++ [a]
   (∀ (slot level : Nat) (leaf : Word) (s : State) (r : WalkReq),
      (s.walks.find? fun q => q.slot == some slot) = some r →
      given (.hostWalkAnswer slot level leaf) s r ⟨r.va, r.kind, level % 8, leaf, false⟩) ∧
    ∀ (n : Nat) (s : State) (r : WalkReq), s.walks[n]? = some r →
      given (.hostWalkTimeout n) s r ⟨r.va, r.kind, 0, 0, true⟩) ∧
  (∀ (gid wave n : Nat) (s : State) (g : Group) (w : Wave) (v : Service), findGroup s gid = some g →
    findWave s gid wave = some w → w.service = some v → v.slot = none → freeSlot (serviceSlots s) = some n →
    ∃ t w', exec (.faultServiceRequest gid wave) s = .next t ∧ findWave t gid wave = some w' ∧
      w'.service = some { v with slot := some n } ∧ HostMsg.msix 2 ∈ t.hostOut) ∧
  (∀ (slot gid wave : Nat) (s : State) (w : Wave) (v : Service), serviceAt s slot = some (gid, wave, v) →
    findWave s gid wave = some w →
    (∃ t, exec (.faultServiceAnswer slot 1) s = .next t ∧ findWave t gid wave = some w.resume) ∧
    (∃ t w', exec (.faultServiceAnswer slot 3) s = .next t ∧ findWave t gid wave = some w' ∧ w'.halted = true)) ∧
  (∀ (slot gid wave : Nat) (s : State) (c : Issuer) (v : Service),
    issuerAt s ⟨gid, wave, (slicesOf v.slices).headD 0⟩ = some c → c.w.service = some v →
    c.w.trap.tm = false → c.w.trap.tvec.getLsbD 0 = true →
    let entered (i : Instr) : Prop := ∃ t w', exec i s = .next t ∧ findWave t gid wave = some w' ∧
      w'.service = none ∧ w'.trap.tm = true ∧ w'.trap.cause = v.cause ∧ w'.trap.tinfo = v.info ∧
      w'.trap.tlanes = v.lanes
    (serviceAt s slot = some (gid, wave, v) → entered (.faultServiceAnswer slot 2)) ∧
    entered (.faultServiceTimeout gid wave)) ∧
  (∀ (q : HostReq) (rest : List HostReq) (r : HostResp) (s : State), s.hostq = q :: rest →
    (∃ t, exec (.hostCompletion r) s = .next t ∧ t.hostq = rest) ∧
    (∃ t, exec .completionTimeout s = .next t ∧ t.hostq = rest) ∧
    ∀ gid wave slice addr c, q = .flush gid wave slice addr → issuerAt s ⟨gid, wave, slice⟩ = some c →
      c.gang.hold = .fence true → ∃ t c', exec (.hostCompletion r) s = .next t ∧
        issuerAt t ⟨gid, wave, slice⟩ = some c' ∧ c'.gang.hold = .none ∧ c'.gang.pc = c.gang.pc + 8 ∧
        c'.w.hostWrote = none) ∧
  (∀ (addr : Nat) (s : State), ∃ t, exec (.hostWriteFailure addr) s = .next t ∧
    t.hostOut = s.hostOut ++ [.msix 0] ∧ t.regs.hostErr = Config.hostErr addr)

/-- The host's writes to the device registers (R87, R333, R334): a plain field reads back what was written within its bits,
an access that is not 4 or 8 aligned bytes is unsupported, and the registers whose write starts something start it: an
invalidation, which ends with BUSY cleared (R116), FABCFG while it is not locked (R317), a route advance (R322), vacates
(R384, R385), fencing (R401), a load (R407, R408), the aperture (R334) and SUBMIT (R374). It is the model's reading that MODE 0
takes an NPKG up to 1,024 and that an advance is one step (log entry 48), and its choice that a field which a rule takes as
another value reads back as it was written (log entry 53). -/
def Obligations.DeviceRegisters : Prop :=
  (∀ (off : Nat) (mask v : Word) (s : State), (off, mask) ∈ [(0x200, 0xFFFF0001), (0x208, 0x000FFFFFFFFFF000),
      (0x210, 0x000FFFFFFFE00000), (0x218, 0x000FFFFFFFE00000), (0x230, 0x000FFFFFFFFFF000),
      (0x600, 0x000FFFFFFFFFF000), (0x638, 0x000FFFFFFFFFF000), (0x700, 0x000000FFC0000000),
      (0xB00, 0xFFFF0000FFFF0007), (0xB08, 0x000FFFFFFFFFF000), (0xB10, 0x0000FFFFFFFFFFFF)] →
    ∃ t, exec (.registerWrite off 8 v) s = .next t ∧ readRegister t off = v &&& mask) ∧
  (∀ (off n : Nat) (v : Word) (s : State), ¬ ((n = 4 ∨ n = 8) ∧ off % n = 0) →
    exec (.registerWrite off n v) s = .next (toHost s .unsupported)) ∧
  (∀ (v : Word) (s : State),
    let taken (i : Instr) : Prop := (trinvScope (v &&& 0xFFFFFFFFFFFFFF00)).isSome = true →
      ∃ t, exec i s = .next t ∧ t.regs.trinv = v &&& 0xFFFFFFFFFFFFFF00 ∧
        (s.regs.trinvRun = none → t.regs.trinvRun = some (v &&& 0xFFFFFFFFFFFFFF00) ∧
          t.regs.trinvErr = s.regs.trinvErr) ∧
        (s.regs.trinvRun ≠ none → t.regs.trinvRun = s.regs.trinvRun ∧ t.regs.trinvErr = true)
    (v.toNat / 2 ^ 61 ≤ 3 → taken (.trinvRange v)) ∧ (v.toNat / 2 ^ 61 = 4 → taken (.trinvAsid v)) ∧
    (v.toNat / 2 ^ 61 = 5 → taken (.trinvAll v))) ∧
  (∀ (v : Word) (s : State) (scope : Nat × Nat × Option Nat), s.regs.trinvRun = some v →
    trinvScope v = some scope → ∃ t, exec .trinvDone s = .next t ∧ t.regs.trinvRun = none ∧
      t.trans = (invalidate s scope.1 scope.2.1 scope.2.2).trans ∧
      t.l1 = (invalidate s scope.1 scope.2.1 scope.2.2).l1) ∧
  (∀ (v : Word) (s : State) (i : Instr) (m : Nat),
    (i, m) ∈ [(Instr.fabcfgModeNone v, 0), (.fabcfgModeMesh v, 1), (.fabcfgModeSwitched v, 2)] →
    v.toNat / 2 ^ 40 % 4 = m → s.regs.lock = false → s.boot.skip7 = false →
    let npkg := v.toNat / 2 ^ 16 % 2 ^ 11
    let id := v.toNat % 2 ^ 10
    1 ≤ npkg → npkg ≤ (if m = 1 then 64 else 1024) → id < npkg → ∃ t, exec i s = .next t ∧
      t.regs.mode = m ∧ t.regs.npkg = npkg ∧ t.regs.pkgId = id ∧
      ∀ p ∈ t.ports, (m = 0 → p.state = 0) ∧ (m ≠ 0 → s.regs.mode ≠ m → p.state = 1)) ∧
  (∀ (v : Word) (s : State), v.getLsbD 0 = true → s.regs.mode = 1 → ∃ t, exec (.rtadv v) s = .next t ∧
    t.regs.ver = (s.regs.ver + 1) % 16 ∧ t.regs.rtCur = s.regs.rtStage ∧ HostMsg.msix 3 ∈ t.hostOut) ∧
  (∀ (v : Word) (s : State),
    let die := v.toNat / 2 ^ 8 % 8
    let x := v &&& 0xC000FFFFFFFF073F
    die < s.cores.length → s.regs.vacBusy = false →
    (v.toNat / 2 ^ 62 = 1 → s.regs.vacHost = false → v.toNat % 64 ≠ 0 →
      ∃ t, exec (.vacreqVacate v) s = .next t ∧ t.regs.vacReq = x ∧
        ∀ core ∈ vacateChoice s x, (core, v.toNat / 2 ^ 16 % 2 ^ 16) ∈ (coreMap t die).held) ∧
    (v.toNat / 2 ^ 62 = 2 → s.regs.vacHost = false ∨ s.regs.vacMask ≠ 0 → ∃ t, exec (.vacreqRelease v) s = .next t ∧
      t.regs.vacReq = x ∧ (coreMap t die).held = []) ∧
    (s.regs.vacHost = true → s.regs.vacMask = 0 → ∀ i ∈ [(Instr.vacreqVacate v, 1), (.vacreqRelease v, 2)],
      v.toNat / 2 ^ 62 = i.2 → ∃ t, exec i.1 s = .next t ∧ t.regs.vacErr = true ∧ t.cores = s.cores)) ∧
  (∀ (v : Word) (s : State) (p : Nat),
    let die := v.toNat / 2 ^ 6 % 8
    die < s.cores.length → p < 52 → physOf s die (v.toNat % 64) = some p → fencedCore s die p = false →
    (v.toNat / 2 ^ 61 = 5 → ∃ t, exec (.fencereqFence v) s = .next t ∧ fencedCore t die p = true) ∧
    (v.toNat / 2 ^ 61 = 6 → ∃ t, exec (.fencereqDiscard v) s = .next t ∧ fencedCore t die p = true ∧
      ∀ g ∈ groupsAt t die p, g.discard = true)) ∧
  (∀ (v : Word) (s : State), v.getLsbD 63 = true → s.regs.fixRun = none → ∃ t, exec (.loadreq v) s = .next t ∧
    t.regs.fixRun = none ∧ HostMsg.msix 5 ∈ t.hostOut ∧
    (imageKey s (v.toNat % 2 ^ 48) = none → t.regs.fixErr = 1)) ∧
  (∀ (off : Nat) (bytes : List Byte) (s : State) (a : Nat), apertureAt s off bytes.length = some a →
    exec (.bar4Read off bytes.length) s = .next (toHost s
      (.completion (readRun s a bytes.length) (poisonedRun s a bytes.length))) ∧
    ((∀ i, i < bytes.length → inCode s (a + i) = false ∧ inTables s (a + i) = false) → s.regs.localGib ≤ 64 →
      ∃ t, exec (.bar4Write off bytes) s = .next t ∧ readRun t a bytes.length = bytes)) ∧
  (∀ (die prio : Nat) (s : State), die < 8 → prio < 8 → s.queues.length = 64 →
    let q := queueOf s die prio
    ∃ t, exec (.submit die prio) s = .next t ∧
      (queueOf t die prio).last = (if q.cap = 0 then 2 else if q.cap ≤ q.count then 1 else 0) ∧
      (queueOf t die prio).count = q.count + if q.count < q.cap then 1 else 0)

/-- Ports, routes and flows (R315-R324): training brings a port up or fails it; on a port, and on a die-to-die link, whose
lanes are as many (log entry 63), the shadow lane takes a lane's place in rotation and where a lane is weak, and without a
good shadow the port is dead, the link goes on degraded; a notice advances the route; a packet of this version goes on by
the table; the next request of a flow is answered once and kept, its answer takes the request out of the retry buffer, and
timers send again, or end what is unanswered, which stays to be replayed with nobody waiting for it. It is the model's reading
that a weak shadow lane is only marked and that the far end of a port is known once it has trained (log entry 47), that a
notice without a link installs the staged table (log entry 48), and that a request which has timed out stays in its flow (log
entry 49). -/
def Obligations.FabricSteps : Prop :=
  let has (s : State) (n : Nat) : Prop := if n < 18 then n < s.ports.length else s.frozen = false
  (∀ (port pkg far : Nat) (s : State), port < s.ports.length → (portOf s port).state = 1 →
    (∃ t, exec (.portTrainingDone port true pkg far) s = .next t ∧ portOf t port =
      { portOf s port with state := 2, shadow := 4, serving := [0, 1, 2, 3], pkg := pkg, far := far }) ∧
    ∃ t, exec (.portTrainingDone port false pkg far) s = .next t ∧
      portOf t port = { portOf s port with state := 0 }) ∧
  (∀ (port lane : Nat) (rest : List Nat) (s : State), has s port →
    let p := portLanes s port
    p.state = 2 → p.weak.getLsbD p.shadow = false → p.serving = lane :: rest →
    ∃ t, exec (.shadowRotation port) s = .next t ∧ (portLanes t port).shadow = lane ∧
      (portLanes t port).serving = rest.filter (· != lane) ++ [p.shadow]) ∧
  (∀ (port lane : Nat) (s : State), has s port → lane < 5 →
    let p := portLanes s port
    p.shadow = lane → p.weak.getLsbD lane = true → ∃ t, exec (.laneRecalibrated port lane) s = .next t ∧
      portLanes t port = { p with weak := p.weak &&& ~~~(1#5 <<< lane) }) ∧
  (∀ (port lane : Nat) (s : State), has s port → lane < 5 →
    let p := portLanes s port
    p.state = 2 → ∃ t, exec (.weakLane port lane) s = .next t ∧
      (lane = p.shadow → portLanes t port = { p with weak := p.weak ||| (1#5 <<< lane) }) ∧
      (lane ≠ p.shadow → p.weak.getLsbD p.shadow = true → port < 18 → (portLanes t port).state = 3 ∧
        HostMsg.msix 3 ∈ t.hostOut) ∧
      (lane ≠ p.shadow → p.weak.getLsbD p.shadow = true → 18 ≤ port → (portLanes t port).state = 2 ∧
        (portLanes t port).serving = p.serving.filter (· != lane) ∧ HostMsg.msix 0 ∈ t.hostOut) ∧
      (lane ≠ p.shadow → p.weak.getLsbD p.shadow = false → (portLanes t port).shadow = lane ∧
        (portLanes t port).weak = p.weak ||| (1#5 <<< lane) ∧ (portLanes t port).state = 2)) ∧
  (∀ (port : Nat) (s : State), port < s.ports.length →
    let p := portOf s port
    p.state = 2 → p.weak.getLsbD p.shadow = true → ∃ t, exec (.portDead port) s = .next t ∧
      (portOf t port).state = 3 ∧ HostMsg.msix 3 ∈ t.hostOut) ∧
  (∀ (s : State), s.regs.mode = 1 →
    let ver := (s.regs.ver + 1) % 16
    (∃ t, exec (.advanceNotice ver none) s = .next t ∧ t.regs.ver = ver ∧ t.regs.rtCur = s.regs.rtStage) ∧
    ∀ l b, s.regs.assist = false → backupTable s l = some b →
      ∃ t, exec (.advanceNotice ver (some l)) s = .next t ∧ t.regs.ver = ver ∧ t.regs.rtCur = b) ∧
  (∀ (p : Packet) (d v : Nat) (s : State), packetDst p = some (d, v) → s.regs.mode = 1 → d ≠ s.regs.pkgId →
    (∀ k, v = s.regs.ver → routeOf s d = some k → (portOf s k).state = 2 →
      exec (.packetForward p) s = .next { s with wire := s.wire ++ [(k, p)] }) ∧
    (v ≠ s.regs.ver → exec (.packetForward p) s = .next s)) ∧
  (∀ (src seq : Nat) (r : PodReq) (s : State), s.regs.mode ≠ 0 → src ≠ s.regs.pkgId → remoteRoom s 1 = true →
    (∀ id m, r ≠ .collective id m) →
    let f := flowOf s src
    (seq = f.expect → ∀ ver, ver = stampVer s ∨ s.regs.mode = 2 →
      ∃ t, exec (.podRequestArrival src seq ver r) s = .next t ∧
        (flowOf t src).expect = seqNext seq ∧
        (flowOf t src).held = f.held ++ [(seq, (performRequest s r).2)] ∧ t.mem = (performRequest s r).1.mem) ∧
    (seq ≠ f.expect → ∀ ver, ∃ t, exec (.podRequestArrival src seq ver r) s = .next t ∧
      t = { s with wire := t.wire })) ∧
  (∀ (src : Nat) (a : PodResp) (s : State), s.regs.mode ≠ 0 → src ≠ s.regs.pkgId → s.collOut = [] →
    let f := flowOf s src
    ∃ t, exec (.podResponseArrival src f.rexpect (stampVer s) a) s = .next t ∧
      (flowOf t src).rexpect = seqNext f.rexpect ∧
      (flowOf t src).unacked = f.unacked.filter fun u => u.1 != f.rexpect) ∧
  (∀ (pkg port : Nat) (s : State), portFor s pkg = some port →
    let f := flowOf s pkg
    (∃ t, exec (.retryTimerExpiry pkg false) s = .next t ∧
      t.wire = s.wire ++ f.unacked.map fun u => (port, requestPacket s pkg u.1 u.2.2)) ∧
    ∃ t, exec (.retryTimerExpiry pkg true) s = .next t ∧
      t.wire = s.wire ++ f.held.map fun h => (port, .response s.regs.pkgId pkg h.1 (stampVer s) h.2)) ∧
  (∀ (pkg : Nat) (s : State), (∃ u ∈ (flowOf s pkg).unacked, u.2.1 ≠ 0) →
    ∃ t, exec (.fabtmoExpiry pkg) s = .next t ∧
      (flowOf t pkg).unacked.take (flowOf s pkg).unacked.length =
        (flowOf s pkg).unacked.map (fun u => (u.1, 0, u.2.2)) ∧
      ∀ (gid k : Nat) (w' : Wave), findWave t gid k = some w' → ∀ u ∈ (flowOf s pkg).unacked, u.2.1 ≠ 0 →
        ∀ r ∈ w'.far ++ w'.farM, r.req = u.2.1 → r.res ≠ .waiting) ∧
  (∀ (port : Nat) (s : State), exec (.dataLinkRetry port) s = .next s) ∧
  (∀ (die link : Nat) (s : State), die < 8 → link < 64 → s.regs.contst0.getLsbD 62 = false →
    let p := portLanes s (18 + 64 * die + link)
    (p.weak.getLsbD p.shadow = true → ∃ t, exec (.d2dLinkDegraded die link) s = .next t ∧
      t.regs.contst0.getLsbD 62 = true ∧
      t.regs.contst0.toNat / 2 ^ 58 % 16 = 4 ∧ t.hostOut = s.hostOut ++ [.msix 0]) ∧
    (p.weak.getLsbD p.shadow = false → exec (.d2dLinkDegraded die link) s = .next s))

/-- Collectives (R325-R331): the engine of a die takes the next command of the deque whose turn it is; one whose gate tile
cannot be found is counted and dropped, one that is malformed gives its gate tile back, one whose gate tile no engine owns
ends with ERR 6, and neither joins. A well-formed ALLREDUCE, REDUCE or BROADCAST whose gate tile is the engine's starts: its
list and source are read, and it is in progress with its part, its join sent to the root, or kept by the root, which waits for
the others. The root keeps the joins of an ID; where one differs, comes twice or is missing in time, everyone who joined gets
the end. The root's word makes a collective run. A final value ends it: the destination holds Encode(T, Decode(WIRE, final))
unless NF or the operation forbids, and the status entry, with NF in STAT1, and the gate tile are given back. A part for no
collective here, and a message that its flow has delivered before, change nothing. That a join comes before the root's own
command is log entry 50; the numbers of joins and runs, and the root's word, are the model's (log entry 69). -/
def Obligations.Collectives : Prop :=
  let open_ (s : State) (src : Nat) : Prop := s.regs.mode ≠ 0 ∧ src ≠ s.regs.pkgId ∧ remoteRoom s 1 = true
  let sent (t : State) (pkg id : Nat) (m : CollMsg) : Prop :=
    (pkg, id, m) ∈ t.collOut ∨ ∃ e ∈ (flowOf t pkg).unacked, e.2.2 = .collective id m
  let entry (y t : State) (gate : Nat × Nat × Nat) (ws : List Word) (stat0 stat1 : Word) : Prop :=
    ownedByEngine t gate.1 gate.2.1 gate.2.2 = false ∧ ∀ g, tileGroup y gate = some g →
      ∃ g', findGroup t g.gid = some g' ∧ g'.stat.get (0, 0) (cwTag ws % 64) = (stat0, stat1)
  let ended (s t : State) (id err : Nat) : Prop := joinsOf t id = [] ∧ ∀ k ∈ joinsOf s id,
    (k.1 = s.regs.pkgId → ∀ c ∈ collsOf t id k.1, c.uid = k.2.2 → c.fin ≠ none) ∧
    (k.1 ≠ s.regs.pkgId → sent t k.1 id (.stop k.2.2 err))
  (∀ (die asid desc top va : Nat) (s h v : State) (bs : List Byte) (poison : Bool) (i : Instr) (op : Nat),
    (i, op) ∈ [(Instr.allreduceCmd die asid, 0x21), (.reduceCmd die asid, 0x22), (.broadcastCmd die asid, 0x23)] →
    takenColl s die = none → unitWalks s (64 * die + 33) = false →
    (∀ c ∈ s.colls, c.fin = none) → collTurn s die = some asid → collHead s die asid = (h, .item desc top va) →
    let r := collRunner s die asid
    let ws := wordsOfBytes bs 16
    readColl (takeItem h die asid desc top) r ⟨false, va, 128⟩ = (v, .ok bs poison) → cwOp ws = op →
    ∃ u, exec i s = .next u ∧ u.collNext.get 0 die = (asid + 1) % 256 ∧
      (∀ x cause level, r.translate v (ws.getD 8 0).toNat .write = (x, .fail cause level) →
        u.regs.cdrop = (s.regs.cdrop + 1) % 2 ^ 64 ∧ takenColl u die = none) ∧
      ∀ x tr, r.translate v (ws.getD 8 0).toNat .write = (x, .ok tr) →
        ((tileOfPa x tr.pa).bind (fun k => (tileGroup x k).map fun _ => k) = none →
          u.regs.cdrop = (s.regs.cdrop + 1) % 2 ^ 64 ∧ takenColl u die = none) ∧
        ∀ gate, (tileOfPa x tr.pa).bind (fun k => (tileGroup x k).map fun _ => k) = some gate →
          (collBad s.regs.npkg ws = true → ownedByEngine u gate.1 gate.2.1 gate.2.2 = false ∧ takenColl u die = none) ∧
          (poison = false → collBad x.regs.npkg ws = false → ownerFails x gate.1 gate.2.1 gate.2.2 = false →
            (ownedByEngine x gate.1 gate.2.1 gate.2.2 = false → takenColl u die = none ∧ u.colls = x.colls ∧
              u.collIn = x.collIn ∧ u.collOut = x.collOut ∧ entry x u gate ws (word (cwTag ws * 2 ^ 48 + 6 * 2 ^ 40 + 2 ^ 39)) 0) ∧
            (ownedByEngine x gate.1 gate.2.1 gate.2.2 = true → ∀ y lbs, readColl x r (listSpan ws) = (y, .ok lbs false) →
              let l := listOf lbs (cwCount ws)
              let place := l.idxOf y.regs.pkgId
              let id := cwId ws
              listBad y.regs.npkg y.regs.pkgId l = false → collSkew ws place = false → collWalks y r ws l = [] →
              ∀ z src w dst, collPages r y .read (cwReads ws place) (srcSpan ws) = (z, .ok src) →
                collPages r z .write (cwWrites ws place) (dstSpan ws) = (w, .ok dst) →
                let started (n : Nat) : Prop := takenColl u die = none ∧ ∃ c ∈ u.colls, c.uid = n ∧ c.words = ws ∧
                  c.list = l ∧ c.place = place ∧ c.gate = gate ∧ c.running = false ∧ c.fin = none ∧
                  (cwReads ws place = true → c.own = (readSource w r src ws).1 ∧ c.flags = (readSource w r src ws).2)
                (place ≠ 0 → started w.nextReq ∧ sent u (l.headD 0) id (.join (collDigest ws l) w.nextReq)) ∧
                (place = 0 → l.length ≠ 1 → joinsOf w id = [] → collsOf w id w.regs.pkgId = [] →
                  started w.nextReq ∧ joinsOf u id = [(w.regs.pkgId, collDigest ws l, w.nextReq)])))) ∧
  (∀ (src id digest num : Nat) (s : State), open_ s src →
    let i (seq : Nat) : Instr := .collectiveJoin ⟨src, seq, stampVer s, num⟩ id digest
    let f := flowOf s src
    ((∃ k ∈ joinsOf s id, k.2.1 ≠ digest ∨ k.1 = src) → ∃ t, exec (i f.expect) s = .next t ∧ ended s t id 0x01 ∧
      sent t src id (.stop num 0x01)) ∧
    (joinsOf s id = [] → collsOf s id s.regs.pkgId = [] → ∃ t, exec (i f.expect) s = .next t ∧
      t.collIn = s.collIn ++ [(id, src, .join digest num)] ∧ (flowOf t src).expect = seqNext f.expect) ∧
    ∀ seq, seq ≠ f.expect → ∃ t, exec (i seq) s = .next t ∧ t = { s with wire := t.wire }) ∧
  (∀ (id : Nat) (s : State), joinsOf s id ≠ [] →
    (joinsRun s id = false → ∃ t, exec (.collectiveJoinTimeout id) s = .next t ∧ ended s t id 0x0A) ∧
    (joinsRun s id = true → exec (.collectiveJoinTimeout id) s = .next s)) ∧
  (∀ (src id : Nat) (s : State), open_ s src →
    let f := flowOf s src
    let i (m : CollMsg) : Instr := .collectivePayload ⟨src, f.expect, stampVer s, 0⟩ id m
    (∀ run bs nf, ∃ t, exec (i (.final run bs nf)) s = .next t ∧ (∀ c ∈ collsOf t id src, c.running = true → c.run = run →
        c.fin = some (bs, nf)) ∧
      ∀ c, (collsOf s id src).filter (fun k => k.running && k.run == run) = [c] →
        let z := setFlow s { f with expect := seqNext f.expect }
        let ws := c.words
        let status (p : Bool) (fl : Flags) : Word := word (cwTag ws * 2 ^ 48 + 2 ^ 39 + b2n p * 2 ^ 35 + fl.toNat)
        let done (y : State) (p : Bool) (fl : Flags) : Prop := (∀ k ∈ t.colls, k.uid ≠ c.uid) ∧
          entry y t c.gate ws (status p fl) (word (b2n nf))
        ((cwWrites ws c.place && !nf) = false → done z (c.own.any WireBlock.poison) c.flags) ∧
        ((cwWrites ws c.place && !nf) = true → finalWalks z c = [] →
          ∀ y pages, renewPages c (dstPages c) z = (y, .ok pages) →
          let n := cwSize ws
          let pa (va : Nat) : Nat := ((pages.find? fun p => p.page == va / 4096).map HeldPage.pa).getD 0 + va % 4096
          let vs := (wireVals ws bs).map fun x => (encodeVal (tyOf (cwTy ws)) .rne false 0 x.1)
          let bytes : List (Nat × Byte) := vs.zipIdx.flatMap fun e =>
            ((List.range n).map fun j => pa ((ws.getD 5 0).toNat + n * e.2 + j)).zip (bytesOfNat n e.1.1)
          done (writeFinal y c pages bs).1 (c.own.any WireBlock.poison || bs.any WireBlock.poison)
            (c.flags ||| vs.foldl (fun f e => f ||| e.2) 0) ∧
          (y.regs.localGib ≤ 64 → (∀ w ∈ bytes, isFarPa y w.1 = false) → leavesBytes y t bytes))) ∧
    (∀ num run, ∃ t, exec (i (.start num run)) s = .next t ∧ ∀ c ∈ collsOf t id src, c.uid = num → c.running = true) ∧
    (∀ num err, ∃ t, exec (i (.stop num err)) s = .next t ∧ ∀ c ∈ collsOf t id src, c.uid = num → c.fin ≠ none) ∧
    (∀ run lv bs, (∀ c ∈ s.colls, cwId c.words ≠ id) → ∃ t, exec (i (.part run lv bs)) s = .next t ∧
      t.collIn = s.collIn ∧ t.colls = s.colls) ∧
    ∀ seq m, seq ≠ f.expect → ∃ t, exec (.collectivePayload ⟨src, seq, stampVer s, 0⟩ id m) s = .next t ∧
      t = { s with wire := t.wire })

/-- The scheduler (R359, R369-R386, R396-R401): a waiting queue ages; a core pops the head of the queue it chooses, with
MEMCFG locked (R82), or takes an invalid record away where it could pop a group of the prologue allotment; the oldest waiter is admitted, or the youngest spilled; a die
reports its point stable; a group that has ended leaves its core, its join performed, the record behind a counter that
has come to 0 appended or kept until its queue has room; a stopped group is saved, its host writes flushed first, and
re-entered; a vacate's timeout halts what has not stopped; an uncorrectable core is fenced, or waits for the host. Where a
group is placed on its core is the model's choice (log entry 8), and its readings are which cores take an invalid record away
(log entry 27), that the host writes of a group are flushed before its image is written (log entry 25), and that under RECHOST
a core that failed waits for the host (log entry 26). -/
def Obligations.Scheduling : Prop :=
  (∀ (die prio : Nat) (s : State), die < 8 → prio < 8 → s.queues.length = 64 →
    (queueOf s die prio).busy = true → (queueOf s die prio).aged = none →
    ∃ t, exec (.queueAging die prio) s = .next t ∧ (queueOf t die prio).aged = some s.nextReq ∧
      t.nextReq = s.nextReq + 1) ∧
  (∀ (die core phys p : Nat) (s : State), s.boot.step = 8 → physOf s die core = some phys →
    chosenQueue s die core = some p →
    (∀ reason, headBad s die p = some reason →
      (takesBad s die core p = true → ∃ t, exec (.groupPop die core) s = .next t ∧
        t.groups = s.groups ∧ t.regs.schErr.getLsbD 62 = true ∧
        ((queueOf s die p).chain = [] → (queueOf t die p).spawned = (queueOf s die p).spawned.drop 1) ∧
        (die < 8 → s.regs.schErr.getLsbD 62 = false → field t.regs.schErr 39 32 = reason % 2 ^ 8)) ∧
      (takesBad s die core p = false → exec (.groupPop die core) s = .next s)) ∧
    (headBad s die p = none → takeHead s die core p = [] → exec (.groupPop die core) s = .next s) ∧
    (∀ x xs, headBad s die p = none → takeHead s die core p = x :: xs →
      ∃ t g, exec (.groupPop die core) s = .next t ∧ g ∈ t.groups ∧ g.gid = s.nextGid ∧ g.record = x.1 ∧
        g.die = die ∧ g.core = x.2.1 ∧ g.phys = x.2.2.1 ∧ t.nextGid = s.nextGid + (xs.length + 1) ∧
        t.regs.lock = true)) ∧
  (∀ (die core phys : Nat) (s : State) (g : Group), physOf s die core = some phys →
    oldestWaiter s die phys = some g →
    (∀ room, growth s g = some room → ∃ t g', exec (.acquireAdmission die core) s = .next t ∧
      findGroup t g.gid = some g' ∧ g'.acquired = true ∧ g'.order = none) ∧
    (∀ y, growth s g = none → (∀ o ∈ groupsAt s die phys, o.order ≠ none ∨ o.follow ≠ none) →
      leastBy (fun o => s.nextReq - o.order.getD 0) (waiters s die phys) = some y →
      ∃ t g', exec (.admissionSpill die core) s = .next t ∧ findGroup t y.gid = some g' ∧
        g'.stop ≠ none ∧ g'.order = none)) ∧
  (∀ (die : Nat) (s : State), die < s.cores.length → ∃ t, exec (.opPointStable die) s = .next t ∧
    (coreMap t die).op = (coreMap s die).target ∧ ∀ g ∈ t.groups, g.die = die → g.opWait = false) ∧
  (∀ (gid : Nat) (s : State) (g : Group), findGroup s gid = some g → groupOver s g = true → g.joined = false →
    waveWalks s gid 0 = false →
    let j := (g.record.getD 2 0).toNat
    (g.discard = true ∨ j = 0 → ∃ t, exec (.groupEnd gid) s = .next t ∧ findGroup t gid = none) ∧
    ∀ s', g.discard = false → j ≠ 0 →
      (joinDecrement s g g.first j = (s', .more) → ∃ t, exec (.groupEnd gid) s = .next t ∧ findGroup t gid = none ∧
        t.queues = s'.queues) ∧
      (joinDecrement s g g.first j = (s', .below) → ∃ t, exec (.groupEnd gid) s = .next t ∧ findGroup t gid = none ∧
        t.regs.schErr.getLsbD 62 = true) ∧
      (joinDecrement s g g.first j = (s', .zero) →
        let mine : Group := { g with joined := true, waves := g.waves.map Wave.served }
        let u := modGroup s' gid fun g => { g with joined := true, waves := g.waves.map Wave.served }
        ∀ v r, joinRecord u mine mine.first (j + 64) = (v, .follow r) → 8 * g.die + recPrio r < v.queues.length →
          let q := queueOf v g.die (recPrio r)
          ∃ t, exec (.groupEnd gid) s = .next t ∧
            (q.full = false → findGroup t gid = none ∧ (queueOf t g.die (recPrio r)).count = q.count + 1) ∧
            (q.full = true → ∃ g', findGroup t gid = some g' ∧ g'.follow = some r ∧ g'.joined = true))) ∧
  (∀ (gid : Nat) (s : State) (g : Group) (r : List Word), findGroup s gid = some g → g.follow = some r →
    (queueOf s g.die (recPrio r)).full = false → 8 * g.die + recPrio r < s.queues.length →
    ∃ t, exec (.joinEnqueueRetry gid) s = .next t ∧ findGroup t gid = none ∧
      (queueOf t g.die (recPrio r)).count = (queueOf s g.die (recPrio r)).count + 1) ∧
  (∀ (gid : Nat) (s : State) (g : Group), findGroup s gid = some g →
    let gs := savedWith s g
    let unflushed := gs.any fun o => o.waves.any fun w => w.hostWrote.isSome
    let pas := (freeImages s g.die).take gs.length
    saveReady s g = true →
    (unflushed = true → ∃ t, exec (.groupSave gid) s = .next t ∧ flushes t gs = true ∧ t.images = s.images) ∧
    (unflushed = false → flushes s gs = true → exec (.groupSave gid) s = .next s) ∧
    (unflushed = false → flushes s gs = false → gs.length ≤ (freeImages s g.die).length →
      8 * g.die + g.prio < s.queues.length → ∃ t, exec (.groupSave gid) s = .next t ∧ t.images = s.images ++ pas ∧
        (queueOf t g.die g.prio).chain = pas :: (queueOf s g.die g.prio).chain ∧
        ∀ o ∈ gs, findGroup t o.gid = none)) ∧
  (∀ (gid : Nat) (s : State) (g : Group), findGroup s gid = some g → g.stop ≠ none → g.stop ≠ some .fence →
    ∃ t, exec (.vacateTimeout gid) s = .next t ∧ ∀ i w, g.waves[i]? = some w → waveStopped s g w i = false →
      w.exited = false → ∃ w', findWave t gid i = some w' ∧ w'.halted = true) ∧
  (∀ (die core p : Nat) (s : State), die < s.cores.length → p < 52 → physOf s die core = some p →
    fencedCore s die p = false → core ∉ (coreMap s die).recover →
    ∃ t, exec (.coreUncorrectableError die core) s = .next t ∧
      (s.regs.recHost = false → fencedCore t die p = true) ∧
      (s.regs.recHost = true → core ∈ (coreMap t die).recover ∧ HostMsg.msix 0 ∈ t.hostOut))

/-- The system (R411-R417): a power-on whose steps all pass starts the module with its registers reset and its fuses kept;
a failed attempt is repeated, the fourth stops; power limits slow every die; freezing stops the clocks and drops the links;
the read-out of a stopped module sends every unit's bits behind its header; and a stopped module stays as it is whatever stands
on its agenda beside a reset. That the results of the steps are an argument is the
model's choice (log entry 20), as are the agenda (log entry 1), the form
in which the read-out keeps a unit's bits (log entries 37 and 65), the registers' values after a reset that the spec does not
state (log entry 4), what a power-on keeps (log entry 52), and PMIN as an argument or a free value (log entry 21). -/
def Obligations.SystemSteps : Prop :=
  (∀ s : State, ∃ t, exec (.powerOnReset (List.replicate 8 true)) s = .next t ∧ t.boot.step = 8 ∧
    t.boot.attempt = 1 ∧ t.boot.stop = false ∧ t.groups = [] ∧ t.regs = Regs.reset ∧ t.keys = s.keys ∧
    t.frozen = false ∧ t.cores = s.cores.map mapCores) ∧
  (∀ s : State, ∃ t, exec (.powerOnReset []) s = .next t ∧ t.boot.step = 0 ∧ t.boot.attempt = 1) ∧
  (∀ s : State, s.frozen = false → s.boot.attempt ≠ 0 → s.boot.step ≠ 8 → s.boot.stop = false →
    s.boot.attempt < 4 →
    (∃ t, exec (.bringupRetry (List.replicate 8 true)) s = .next t ∧ t.boot.step = 8 ∧
      t.boot.attempt = s.boot.attempt + 1) ∧
    ∃ t, exec (.bringupRetry []) s = .next t ∧ t.boot.attempt = s.boot.attempt + 1 ∧
      (t.boot.stop = true ↔ s.boot.attempt = 3)) ∧
  (∀ (n : Nat) (s : State), s.regs.limitW < s.power → s.regs.pmin < n → n < 16 →
    ∃ t, exec (.powerLimitExceeded n) s = .next t ∧ t.regs.pmin = n ∧
      ∀ d, d < 8 → d < t.cores.length → n ≤ (coreMap t d).target) ∧
  (∀ (watts : Nat) (s : State), ∃ t, exec (.measuredPowerUpdate watts) s = .next t ∧ t.power = watts ∧
    t.regs.pmin ≤ s.regs.pmin) ∧
  (∀ s : State, exec .freeze s = .next { s with frozen := true, ports := s.ports.map fun p => { p with state := 0 } } ∧
    exec .freezeNHigh s = .next s ∧ (s.frozen = false → exec .safelightReadout s = .next s) ∧
    (s.frozen = true → ∃ t, exec .safelightReadout s = .next t ∧ t = { s with debugOut := t.debugOut } ∧
      t.debugOut.map (fun u => (u.kind, u.die, u.index)) = readoutOrder ∧
      ∀ u ∈ t.debugOut, u.header.toNat / 2 ^ 32 % 2 ^ 16 = u.index % 2 ^ 16 ∧ u.bits = unitBits s u.kind u.die u.index ∧
        ∀ v ∈ t.debugOut, v.kind = u.kind → v.header.toNat / 2 ^ 48 = u.header.toNat / 2 ^ 48)) ∧
  (∀ s t : State, stopped s = true → Follows s t → stopped t = true ∧
    t = { s with agenda := t.agenda, ports := t.ports, debugOut := t.debugOut } ∧
    (t.ports = s.ports ∨ t.ports = s.ports.map fun p => { p with state := 0 }))

/-! ## Frames -/

/-- The frame of the scalar, integer-vector and cross-lane instructions that retire: beside the lanes of the registers they
name as destinations, nothing of the wave but the program counter of the issuing gang changes, and nothing of the package
(R55, R203, R205). What a wave holds from outside for an instruction that waited is the model's own (log entry 12), and goes
with it. -/
def Obligations.RegisterFrames : Prop :=
  let framed (i : Instr) (ls vs : Issuer → List Nat) (ss : List SReg) (ps : List Nat) : Prop :=
    ∀ (s t : State) (c : Issuer), issuer s = some c → c.w.halted = false → exec i s = .next t → Retired c i t →
      Framed s c i t (ls c) (vs c) ss ps
  let scalar (i : Instr) (d : SReg) : Prop := framed i Issuer.all (fun _ => []) [d] []
  let vector (i : Instr) (g : Guard) (d : Nat) : Prop := framed i (Issuer.lanes · g) (fun _ => [d]) [] []
  (∀ (o : SBin), ∀ i ∈ [Instr.sadd o, .ssub o, .smul o, .smulh o, .sdiv o, .srem o, .sand o, .sor o, .sxor o, .sshl o,
    .sshr o, .smin o, .smax o, .sbfx o], scalar i o.d) ∧
  (∀ (d a k : SReg) (b : SSrc) (t : Ty) (cond : Cond) (sh : Fin 8), scalar (.scmp d a b t cond) d ∧
    scalar (.ssel d a b k) d ∧ scalar (.smov d b t) d ∧ scalar (.slea d a b sh) d ∧ scalar (.sbfi d a b k t) d) ∧
  (∀ o : SUn, scalar (.spopc o) o.d ∧ scalar (.sclz o) o.d) ∧
  (∀ (d k : SReg) (a b : Fin 4) (trap : Bool) (r : SpecReg), scalar (.vcktst d a b k trap) d ∧
    scalar (.mfs (.wave d r)) d) ∧
  (∀ (o : VBin), ∀ i ∈ [Instr.vadd o, .vsub o, .vmul o, .vmulh o, .vdiv o, .vrem o, .vand o, .vor o, .vxor o, .vshl o,
    .vshr o, .vmin o, .vmax o, .vbfx o], vector i o.g o.d.val) ∧
  (∀ (o : VUn), ∀ i ∈ [Instr.vnot o, .vabs o, .vneg o, .vpopc o, .vclz o, .vfclass o], vector i o.g o.d.val) ∧
  (∀ (o : VTern), ∀ i ∈ [Instr.vmad o, .vbfi o, .vdot4 o], vector i o.g o.d.val) ∧
  (∀ o : VCvt, vector (.vcvti o) o.g o.d.val) ∧ (∀ o : ShflOp, vector (.xshfl o) o.g o.d.val) ∧
  (∀ (g : Guard) (d a b k : VReg) (v : VSrc) (u : SSrc) (p : PReg) (x : XReg) (r : SReg) (t src : Ty) (sat : Bool)
    (q : LaneSpec), ∀ i ∈ [Instr.vsel g d a v p, .vmov g d v t, .viota g d r t, .vrdx g d x, .vpack g d a b t src sat,
      .vpermb g d a b k, .scget g d a, .xmatch g d a t, .xbcast g d a u t, .mfs (.lane g d q)], vector i g d.val) ∧
  (∀ (g : Guard) (d a b : VReg) (t src : Ty) (sat : Bool) (stage : Fin 5), ∀ i ∈ [Instr.vunpk g d a t src sat,
    .xbfly g d a b stage], framed i (Issuer.lanes · g) (fun _ => [d.val, d.val + 1]) [] []) ∧
  (∀ (g : Guard) (d : XReg) (a : VReg), framed (.vwrx g d a) (Issuer.lanes · g)
    (fun c => (c.lanes g).map fun l => c.w.indexed d.val l) [] []) ∧
  (∀ o : VCmpOp, framed (.vcmp o) (Issuer.lanes · o.g) (fun _ => []) [] [o.d.val]) ∧
  (∀ (o : ShflOp) (p : PReg), framed (.xpush o p) (Issuer.lanes · o.g) (fun _ => [o.d.val]) [] [p.val]) ∧
  (∀ (g : Guard) (d : SReg) (a : PReg) (fn : VoteFn), framed (.xvote g d a fn) (Issuer.lanes · g) (fun _ => []) [d] []) ∧
  (∀ (g : Guard) (d a : VReg) (b : PReg) (k : SReg), framed (.xcompact g d a b k) (Issuer.lanes · g)
    (fun _ => [d.val]) [k] [])

/-- The frame of the instructions that round, sum or quantise and retire: their lanes' sticky flags may be raised,
%grainctr advances by one under stochastic rounding (R34), VCKADD changes the accumulator it names and the block
instructions the sidecar of their destination; nothing else changes beside the registers they name (R216, R240,
R243). What a wave holds from outside for an instruction that waited is the model's own (log entry 12), and goes. -/
def Obligations.FloatFrames : Prop :=
  let retired (i : Instr) (s t : State) (c : Issuer) : Prop :=
    issuer s = some c ∧ c.w.halted = false ∧ exec i s = .next t ∧ Retired c i t
  let framed (i : Instr) (g : Guard) (rnd : Rnd) (vs : List Nat) (ss : List SReg) (ps : List Nat) : Prop :=
    ∀ (s t : State) (c : Issuer), retired i s t c →
      FramedFlags s { c with w := c.w.tickGrain rnd } i t (c.lanes g) vs ss ps
  let sided (i : Instr) (g : Guard) (rnd : Rnd) (vs : List Nat) (r : Nat) : Prop :=
    ∀ (s t : State) (c : Issuer), retired i s t c → ∃ (side : Sparse (BitVec 16)) (marks : Sparse Bool),
      FramedFlags s { c with w := { c.w.tickGrain rnd with side := side, marks := marks } } i t (c.lanes g) vs [] [] ∧
      onlyCleared (c.w.tickGrain rnd).marks marks (fun k => ∃ j b, j < 8 ∧ b < 2 ∧ k = mkSide r j b) ∧
      ∀ q j, j < 8 → q ≠ r ∨ (∃ l ∈ lanesAt j, l ∉ c.lanes g) →
        side.get 0 (8 * q + j) = c.w.side.get 0 (8 * q + j)
  (∀ (o : VBin), ∀ i ∈ [Instr.vfadd o, .vfsub o, .vfmul o, .vfdiv o, .vfmin o, .vfmax o, .vfscale o],
    framed i o.g .rne [o.d.val] [] []) ∧
  (∀ (o : VUn), ∀ i ∈ [Instr.vfsqrt o, .vfrcp o, .vfrsq o, .vfexp2 o, .vflog2 o], framed i o.g .rne [o.d.val] [] []) ∧
  (∀ (o : VTern), ∀ i ∈ [Instr.vfma o, .vfjoin o], framed i o.g .rne [o.d.val] [] []) ∧
  (∀ (o : VCvt), ∀ i ∈ [Instr.vfcvt o, .vfcvti o, .vicvtf o], framed i o.g o.rnd [o.d.val] [] []) ∧
  (∀ o : VCmpOp, framed (.vfcmp o) o.g .rne [] [] [o.d.val]) ∧
  (∀ (g : Guard) (d a b k : VReg) (v : VSrc) (t : Ty) (rnd : Rnd) (sat exact : Bool) (j p : Fin 8),
    framed (.vfrnd g d a t rnd exact) g .rne [d.val] [] [] ∧ framed (.vfslice g d a v j p) g .rne [d.val] [] [] ∧
    framed (.vfdot2 g d a b k t rnd sat) g .rne [d.val] [] []) ∧
  (∀ (g : Guard) (d a : VReg) (k : Fin 62), framed (.voptm g d a k) g .rne [d.val, d.val + 1, d.val + 2] [] []) ∧
  (∀ (g : Guard) (n : Fin 4) (a : VReg) (ty : Ty) (neg : Bool) (s t : State) (c : Issuer),
    retired (.vckadd g n a ty neg) s t c → ∃ (ck : Sparse (BitVec 320)) (marks : Sparse Bool),
      FramedFlags s { c with w := { c.w with ck := ck, marks := marks } } (.vckadd g n a ty neg) t (c.lanes g) [] [] [] ∧
      onlyCleared c.w.marks marks (fun k => ∃ j, j < 5 ∧ k = mkCk n.val j) ∧
      ∀ m, m ≠ n.val → ck.get 0 m = c.w.ck.get 0 m) ∧
  (∀ (g : Guard) (d : SReg) (v a : VReg) (b : SSrc) (t : Ty) (rnd : Rnd) (op : RedOp) (excl : Bool),
    framed (.xred g d a t rnd op) g .rne [] [d] [] ∧ framed (.xscan g v a t rnd op excl) g .rne [v.val] [] [] ∧
    framed (.xsample g d a b t) g .rne [] [d] []) ∧
  (∀ (g : Guard) (d a b : VReg) (t src : Ty) (rnd : Rnd) (sat : Bool) (part : Fin 4),
    framed (.bamax g d a t) g .rne [d.val] [] [] ∧ framed (.aqparm g d a) g .rne [d.val] [] [] ∧
    framed (.aquant g d a b rnd part) g rnd [d.val] [] [] ∧
    framed (.adeq g d a b rnd sat part) g .rne [d.val] [] [] ∧
    framed (.bdeq g d a t src rnd sat) g rnd ((List.range (runRegs t src.blocks)).map (d.val + ·)) [] []) ∧
  (∀ o : QuantOp, sided (.bquant o) o.g o.rnd [o.d.val] o.d.val ∧ sided (.brescale o) o.g o.rnd [o.d.val] o.d.val) ∧
  (∀ (g : Guard) (d a : VReg) (b : VSrc) (t : Ty) (p : Policy) (lo hi : Bool),
    sided (.bscale g d a t p hi) g .rne [] d.val ∧ sided (.scset g d b lo hi) g .rne [] d.val)

/-- An instruction that is neither a memory instruction nor one of SARG, SPAWN, YIELD and RELEASE, however it ends, a trap
and a halt among them, changes no byte of memory, no line's metadata and no owner bit: opcodes below 0xA0, the owner and
status reads, and the cursor and tile instructions that name no address. -/
def Obligations.StorageUntouched : Prop :=
  ∀ (i : Instr) (n : Nat) (s t : State), i.opc = some n →
    (n < 0xA0 ∧ n ∉ [0x0B, 0x0E, 0x11, 0x35]) ∨ n ∈ [0xAA, 0xB1, 0xC6, 0xC7, 0xC8, 0xD0, 0xD4, 0xD7, 0xD8, 0xD9,
      0xDB, 0xDC, 0xDD] →
    exec i s = .next t → t.mem = s.mem ∧ t.hbm = s.hbm ∧ t.spad = s.spad ∧ t.owner = s.owner

/-! ## Instruction words and steps (R50-R62, R382) -/

/-- Words of the spec's own examples and tables decode to the instructions they stand for: PUSH (R151), TRAYPUT (R180),
CNEXT (R200), and one word of each other family from R340, R363, R219, R245, R132 and R284; LEN 0b11 and an opcode that
nothing assigns decode to the reserved word, and NOP with a destination to nothing. -/
def Obligations.DecodeWords : Prop :=
  decode [0xC1, 0x9E, 0x00, 0x02, 0x05, 0x00, 0x00, 0x01] = .ok (.push (.s 2) 1 8 (.reg (.s 20))) 8 ∧
  decode [0xC9, 0x5E, 0x02, 0x81, 0xC1, 0xC1, 0x02, 0x01] =
    .ok (.trayputAppend Guard.always 9 4 (.reg (.s 6)) 7 .f32 .add 1) 8 ∧
  decode [0x05, 0x1F, 0x45, 0x00, 0x40, 0x01, 0x00, 0x02] = .ok (.cnext Guard.always 20 1 (.s 5) 2) 8 ∧
  decodeTableWord 32 0x00001C00 = some .nopH ∧ decodeTableWord 32 0x00001C3C = some .exitH ∧
  decodeTableWord 96 0xFFFFFFF90041403FC0811C82 = some (.sadd ⟨.s 4, .s 2, .lit 0xFFFFFFF9, .i32, true⟩) ∧
  decodeTableWord 64 0x0001C000C0812D05 = some (.vsub ⟨⟨true, 3⟩, 4, 2, .reg 3, .i64, .rne, false⟩) ∧
  decodeTableWord 64 0x6B6B400000811DC1 =
    some (.vfcvt ⟨Guard.always, 4, 2, .e4m3, .f32, 3, .sr, true⟩) ∧
  decodeTableWord 64 0x6A2CC00002011E09 = some (.bquant ⟨Guard.always, 4, 8, .mxe4m3, .bf16, .sr, true, .fit⟩) ∧
  decodeTableWord 32 0x00005C00 = none ∧
  decodeTableWord 64 0x070201C181025E99 = some (.atom ⟨Guard.always, 9, 4, .reg (.s 6), 7, .n64, .g, .cas⟩) ∧
  decodeTableWord 32 0x40015F50 = some (.mzeroH 5 true) ∧
  decodeTableWord 32 0x00000003 = some (.reservedOpcode 3) ∧
  decodeTableWord 32 0x00001C5D = some (.reservedOpcode 0x1C5D)

/-- Every well-formed instruction that has a word is read back from it, with all its operands, and the decoder says its
length (R50-R62). -/
def Obligations.DecodeEncode : Prop :=
  ∀ i : Instr, i.wf = true → i.fields.isSome = true → decode (encode i) = .ok i i.len

/-- What the decoder reads is well-formed, and each word has one meaning: the bytes read are those the encoder gives
(R50-R62). -/
def Obligations.DecodeSound : Prop :=
  ∀ (bs : List Byte) (i : Instr) (n : Nat), decode bs = .ok i n →
    i.wf = true ∧ (i.fields.isSome = true → n = i.len ∧ encode i = bs.take n)

/-- A turn of a gang that can issue fetches its next instruction and performs exactly that one, as the issuing gang, its
issue numbered (R54, R382): the fetch reads the bytes at the program counter's translation, in the L1 or by the tables,
takes as many as the first word says, and decodes them. The agenda, and the rule by which a turn is chosen where it is
empty, are the model's (log entry 1). -/
def Obligations.StepRunsDecoded : Prop :=
  (∀ (s u : State) (r : GangRef) (c d : Issuer) (i : Instr) (opc : Nat), s.frozen = false → commonDue s = none →
    (∃ rest, s.agenda = .issue r :: rest ∧ u = { s with agenda := rest, ticks := s.ticks + 1 }) ∨
      (s.agenda = [] ∧ nextMove s = .issue r ∧ u = { s with ticks := s.ticks + 1 }) →
    issuerAt u r = some c → issuable u c = true → gangMarked c = false →
    let v := freshFar u c
    issuerAt v r = some d → (fetchInstr v d).2 = .instr i opc → isReserved i = true ∨ clauseRefuses d.gang opc = false →
    let z := firstIssue (fetchInstr v d).1 d (.instr i opc)
    step s = exec i (issueState z r) ∧ (c.w.far = [] → v = u ∧ d = c) ∧
    (d.w.refilled = false → z = (fetchInstr v d).1) ∧
    ∃ c', issuer (issueState z r) = some c' ∧ c'.ref = r ∧ c'.gang.pc = c.gang.pc ∧
      c'.gang.slices = c.gang.slices ∧ c'.gang.last = u.issueNo) ∧
  (∀ (u v : State) (c : Issuer) (bs : List Byte) (i : Instr) (n : Nat), fetchRun u c 4 = (v, .bytes bs) →
    decode bs = .ok i n → fetchInstr u c = (v, .instr i (opcodeOf bs))) ∧
  (∀ (u v w : State) (c : Issuer) (bs bs' : List Byte) (i : Instr) (m n : Nat), fetchRun u c 4 = (v, .bytes bs) →
    decode bs = .short m → fetchRun v c m = (w, .bytes bs') → decode bs' = .ok i n →
    fetchInstr u c = (w, .instr i (opcodeOf bs'))) ∧
  (∀ (u v : State) (c : Issuer) (n off : Nat) (tr : Trans), 0 < n → c.pc.toNat % 4096 + n ≤ 4096 →
    translateCore u c.g.die c.g.phys c.g.asid c.pc.toNat .fetch c.answers = (v, .ok tr) →
    regionOf (resolvePa v tr.pa) = .hbm off → poisonedRun v tr.pa n = false →
    ∃ w, fetchRun u c n = (w, .bytes (readRun v tr.pa n)) ∧ w.groups = u.groups)

/-! ## Every step -/

/-- A step keeps the canonical form of memory, of the metadata of its lines and of the owner bits. The form is the model's
own, for the sparse lists that hold them (log entries 2, 3 and 32 say what an unlisted byte or line reads as). -/
def Obligations.StorageKept : Prop :=
  ∀ s t : State, storageWf s = true → Follows s t → storageWf t = true

/-- Right after reset the storage stands in its canonical form, no group is resident, bring-up has passed no step, the
scheduling queues are empty and disabled, and the device registers read the reset values of their maps (R82, R113, R118,
R316, R317, R322, R373, R374, R394, R402, R413, R416). The canonical form is the model's own. -/
def Obligations.StateAtReset : Prop :=
  let s := State.reset
  storageWf s = true ∧ s.groups = [] ∧ s.boot.step = 0 ∧ s.frozen = false ∧
  (∀ die prio, (queueOf s die prio).count = 0 ∧ (queueOf s die prio).cap = 0 ∧
    (queueOf s die prio).full = true) ∧
  readRegister s 0x100 = 0 ∧ readRegister s 0x200 = 0x640000 ∧ readRegister s 0x228 = 0 ∧
  readRegister s 0x400 = 0x10000 ∧ (∀ p, p < 18 → readRegister s (0x440 + 8 * p) = 0x400) ∧
  readRegister s 0x500 = word (10000 * 2 ^ 32) ∧ readRegister s 0xA08 = 0 ∧ readRegister s 0xA10 = 0 ∧
  readRegister s 0xB00 = word (1000 * 2 ^ 48 + 100 * 2 ^ 16) ∧ readRegister s 0xB40 = 0 ∧
  readRegister s 0xB48 = 0 ∧ (∀ k, k < 4 → readRegister s (0xC30 + 8 * k) = 0) ∧ readRegister s 0xC50 = 0 ∧
  readRegister s 0xC80 = 0 ∧ readRegister s 0xD00 = 5400

/-- The machine never stops: an instruction or a step performed ends in a next state, but for an instruction word performed
where no gang issues, and every step of every state goes on. -/
def Obligations.StepGoesOn : Prop :=
  (∀ (i : Instr) (s : State), (∃ t, exec i s = .next t) ∨
    (issuer s = none ∧ isWord i = true ∧ exec i s = .fault .noIssuingGang)) ∧
  (∀ s : State, GoesOn s)
end

