-- ==== Sys2Proof/Laws/State.lean ====
section
/-!
SUPPORT. What the shared updates of the state leave as it is: one lemma for each field and update.
-/

namespace Sys2Proof.Machine

/-! ## modGroup -/

@[simp] theorem modGroup_mem {s : State} {n : Nat} {f : Group → Group} : (modGroup s n f).mem = s.mem := rfl
@[simp] theorem modGroup_hbm {s : State} {n : Nat} {f : Group → Group} : (modGroup s n f).hbm = s.hbm := rfl
@[simp] theorem modGroup_spad {s : State} {n : Nat} {f : Group → Group} : (modGroup s n f).spad = s.spad := rfl
@[simp] theorem modGroup_owner {s : State} {n : Nat} {f : Group → Group} : (modGroup s n f).owner = s.owner := rfl
@[simp] theorem modGroup_ownerBad {s : State} {n : Nat} {f : Group → Group} : (modGroup s n f).ownerBad = s.ownerBad := rfl
@[simp] theorem modGroup_engq {s : State} {n : Nat} {f : Group → Group} : (modGroup s n f).engq = s.engq := rfl
@[simp] theorem modGroup_colls {s : State} {n : Nat} {f : Group → Group} : (modGroup s n f).colls = s.colls := rfl
@[simp] theorem modGroup_collIn {s : State} {n : Nat} {f : Group → Group} : (modGroup s n f).collIn = s.collIn := rfl
@[simp] theorem modGroup_collCmd {s : State} {n : Nat} {f : Group → Group} : (modGroup s n f).collCmd = s.collCmd := rfl
@[simp] theorem modGroup_collOut {s : State} {n : Nat} {f : Group → Group} : (modGroup s n f).collOut = s.collOut := rfl
@[simp] theorem modGroup_collNext {s : State} {n : Nat} {f : Group → Group} : (modGroup s n f).collNext = s.collNext := rfl
@[simp] theorem modGroup_commons {s : State} {n : Nat} {f : Group → Group} : (modGroup s n f).commons = s.commons := rfl
@[simp] theorem modGroup_trans {s : State} {n : Nat} {f : Group → Group} : (modGroup s n f).trans = s.trans := rfl
@[simp] theorem modGroup_l1 {s : State} {n : Nat} {f : Group → Group} : (modGroup s n f).l1 = s.l1 := rfl
@[simp] theorem modGroup_l2 {s : State} {n : Nat} {f : Group → Group} : (modGroup s n f).l2 = s.l2 := rfl
@[simp] theorem modGroup_walks {s : State} {n : Nat} {f : Group → Group} : (modGroup s n f).walks = s.walks := rfl
@[simp] theorem modGroup_unitAns {s : State} {n : Nat} {f : Group → Group} : (modGroup s n f).unitAns = s.unitAns := rfl
@[simp] theorem modGroup_unitFar {s : State} {n : Nat} {f : Group → Group} : (modGroup s n f).unitFar = s.unitFar := rfl
@[simp] theorem modGroup_queues {s : State} {n : Nat} {f : Group → Group} : (modGroup s n f).queues = s.queues := rfl
@[simp] theorem modGroup_cores {s : State} {n : Nat} {f : Group → Group} : (modGroup s n f).cores = s.cores := rfl
@[simp] theorem modGroup_vacate {s : State} {n : Nat} {f : Group → Group} : (modGroup s n f).vacate = s.vacate := rfl
@[simp] theorem modGroup_images {s : State} {n : Nat} {f : Group → Group} : (modGroup s n f).images = s.images := rfl
@[simp] theorem modGroup_ports {s : State} {n : Nat} {f : Group → Group} : (modGroup s n f).ports = s.ports := rfl
@[simp] theorem modGroup_flows {s : State} {n : Nat} {f : Group → Group} : (modGroup s n f).flows = s.flows := rfl
@[simp] theorem modGroup_hostq {s : State} {n : Nat} {f : Group → Group} : (modGroup s n f).hostq = s.hostq := rfl
@[simp] theorem modGroup_hostOut {s : State} {n : Nat} {f : Group → Group} : (modGroup s n f).hostOut = s.hostOut := rfl
@[simp] theorem modGroup_d2d {s : State} {n : Nat} {f : Group → Group} : (modGroup s n f).d2d = s.d2d := rfl
@[simp] theorem modGroup_wire {s : State} {n : Nat} {f : Group → Group} : (modGroup s n f).wire = s.wire := rfl
@[simp] theorem modGroup_regs {s : State} {n : Nat} {f : Group → Group} : (modGroup s n f).regs = s.regs := rfl
@[simp] theorem modGroup_boot {s : State} {n : Nat} {f : Group → Group} : (modGroup s n f).boot = s.boot := rfl
@[simp] theorem modGroup_keys {s : State} {n : Nat} {f : Group → Group} : (modGroup s n f).keys = s.keys := rfl
@[simp] theorem modGroup_bar4Log {s : State} {n : Nat} {f : Group → Group} : (modGroup s n f).bar4Log = s.bar4Log := rfl
@[simp] theorem modGroup_power {s : State} {n : Nat} {f : Group → Group} : (modGroup s n f).power = s.power := rfl
@[simp] theorem modGroup_frozen {s : State} {n : Nat} {f : Group → Group} : (modGroup s n f).frozen = s.frozen := rfl
@[simp] theorem modGroup_debugOut {s : State} {n : Nat} {f : Group → Group} : (modGroup s n f).debugOut = s.debugOut := rfl
@[simp] theorem modGroup_outside {s : State} {n : Nat} {f : Group → Group} : (modGroup s n f).outside = s.outside := rfl
@[simp] theorem modGroup_agenda {s : State} {n : Nat} {f : Group → Group} : (modGroup s n f).agenda = s.agenda := rfl
@[simp] theorem modGroup_cur {s : State} {n : Nat} {f : Group → Group} : (modGroup s n f).cur = s.cur := rfl
@[simp] theorem modGroup_ticks {s : State} {n : Nat} {f : Group → Group} : (modGroup s n f).ticks = s.ticks := rfl
@[simp] theorem modGroup_issueNo {s : State} {n : Nat} {f : Group → Group} : (modGroup s n f).issueNo = s.issueNo := rfl
@[simp] theorem modGroup_nextGid {s : State} {n : Nat} {f : Group → Group} : (modGroup s n f).nextGid = s.nextGid := rfl
@[simp] theorem modGroup_nextReq {s : State} {n : Nat} {f : Group → Group} : (modGroup s n f).nextReq = s.nextReq := rfl

/-! ## modWave -/

@[simp] theorem modWave_mem {s : State} {n w : Nat} {f : Wave → Wave} : (modWave s n w f).mem = s.mem := rfl
@[simp] theorem modWave_hbm {s : State} {n w : Nat} {f : Wave → Wave} : (modWave s n w f).hbm = s.hbm := rfl
@[simp] theorem modWave_spad {s : State} {n w : Nat} {f : Wave → Wave} : (modWave s n w f).spad = s.spad := rfl
@[simp] theorem modWave_owner {s : State} {n w : Nat} {f : Wave → Wave} : (modWave s n w f).owner = s.owner := rfl
@[simp] theorem modWave_ownerBad {s : State} {n w : Nat} {f : Wave → Wave} : (modWave s n w f).ownerBad = s.ownerBad := rfl
@[simp] theorem modWave_engq {s : State} {n w : Nat} {f : Wave → Wave} : (modWave s n w f).engq = s.engq := rfl
@[simp] theorem modWave_colls {s : State} {n w : Nat} {f : Wave → Wave} : (modWave s n w f).colls = s.colls := rfl
@[simp] theorem modWave_collIn {s : State} {n w : Nat} {f : Wave → Wave} : (modWave s n w f).collIn = s.collIn := rfl
@[simp] theorem modWave_collCmd {s : State} {n w : Nat} {f : Wave → Wave} : (modWave s n w f).collCmd = s.collCmd := rfl
@[simp] theorem modWave_collOut {s : State} {n w : Nat} {f : Wave → Wave} : (modWave s n w f).collOut = s.collOut := rfl
@[simp] theorem modWave_collNext {s : State} {n w : Nat} {f : Wave → Wave} : (modWave s n w f).collNext = s.collNext := rfl
@[simp] theorem modWave_commons {s : State} {n w : Nat} {f : Wave → Wave} : (modWave s n w f).commons = s.commons := rfl
@[simp] theorem modWave_trans {s : State} {n w : Nat} {f : Wave → Wave} : (modWave s n w f).trans = s.trans := rfl
@[simp] theorem modWave_l1 {s : State} {n w : Nat} {f : Wave → Wave} : (modWave s n w f).l1 = s.l1 := rfl
@[simp] theorem modWave_l2 {s : State} {n w : Nat} {f : Wave → Wave} : (modWave s n w f).l2 = s.l2 := rfl
@[simp] theorem modWave_walks {s : State} {n w : Nat} {f : Wave → Wave} : (modWave s n w f).walks = s.walks := rfl
@[simp] theorem modWave_unitAns {s : State} {n w : Nat} {f : Wave → Wave} : (modWave s n w f).unitAns = s.unitAns := rfl
@[simp] theorem modWave_unitFar {s : State} {n w : Nat} {f : Wave → Wave} : (modWave s n w f).unitFar = s.unitFar := rfl
@[simp] theorem modWave_queues {s : State} {n w : Nat} {f : Wave → Wave} : (modWave s n w f).queues = s.queues := rfl
@[simp] theorem modWave_cores {s : State} {n w : Nat} {f : Wave → Wave} : (modWave s n w f).cores = s.cores := rfl
@[simp] theorem modWave_vacate {s : State} {n w : Nat} {f : Wave → Wave} : (modWave s n w f).vacate = s.vacate := rfl
@[simp] theorem modWave_images {s : State} {n w : Nat} {f : Wave → Wave} : (modWave s n w f).images = s.images := rfl
@[simp] theorem modWave_ports {s : State} {n w : Nat} {f : Wave → Wave} : (modWave s n w f).ports = s.ports := rfl
@[simp] theorem modWave_flows {s : State} {n w : Nat} {f : Wave → Wave} : (modWave s n w f).flows = s.flows := rfl
@[simp] theorem modWave_hostq {s : State} {n w : Nat} {f : Wave → Wave} : (modWave s n w f).hostq = s.hostq := rfl
@[simp] theorem modWave_hostOut {s : State} {n w : Nat} {f : Wave → Wave} : (modWave s n w f).hostOut = s.hostOut := rfl
@[simp] theorem modWave_d2d {s : State} {n w : Nat} {f : Wave → Wave} : (modWave s n w f).d2d = s.d2d := rfl
@[simp] theorem modWave_wire {s : State} {n w : Nat} {f : Wave → Wave} : (modWave s n w f).wire = s.wire := rfl
@[simp] theorem modWave_regs {s : State} {n w : Nat} {f : Wave → Wave} : (modWave s n w f).regs = s.regs := rfl
@[simp] theorem modWave_boot {s : State} {n w : Nat} {f : Wave → Wave} : (modWave s n w f).boot = s.boot := rfl
@[simp] theorem modWave_keys {s : State} {n w : Nat} {f : Wave → Wave} : (modWave s n w f).keys = s.keys := rfl
@[simp] theorem modWave_bar4Log {s : State} {n w : Nat} {f : Wave → Wave} : (modWave s n w f).bar4Log = s.bar4Log := rfl
@[simp] theorem modWave_power {s : State} {n w : Nat} {f : Wave → Wave} : (modWave s n w f).power = s.power := rfl
@[simp] theorem modWave_frozen {s : State} {n w : Nat} {f : Wave → Wave} : (modWave s n w f).frozen = s.frozen := rfl
@[simp] theorem modWave_debugOut {s : State} {n w : Nat} {f : Wave → Wave} : (modWave s n w f).debugOut = s.debugOut := rfl
@[simp] theorem modWave_outside {s : State} {n w : Nat} {f : Wave → Wave} : (modWave s n w f).outside = s.outside := rfl
@[simp] theorem modWave_agenda {s : State} {n w : Nat} {f : Wave → Wave} : (modWave s n w f).agenda = s.agenda := rfl
@[simp] theorem modWave_cur {s : State} {n w : Nat} {f : Wave → Wave} : (modWave s n w f).cur = s.cur := rfl
@[simp] theorem modWave_ticks {s : State} {n w : Nat} {f : Wave → Wave} : (modWave s n w f).ticks = s.ticks := rfl
@[simp] theorem modWave_issueNo {s : State} {n w : Nat} {f : Wave → Wave} : (modWave s n w f).issueNo = s.issueNo := rfl
@[simp] theorem modWave_nextGid {s : State} {n w : Nat} {f : Wave → Wave} : (modWave s n w f).nextGid = s.nextGid := rfl
@[simp] theorem modWave_nextReq {s : State} {n w : Nat} {f : Wave → Wave} : (modWave s n w f).nextReq = s.nextReq := rfl

/-! ## putWave -/

@[simp] theorem putWave_mem {s : State} {c : Issuer} {w : Wave} : (putWave s c w).mem = s.mem := rfl
@[simp] theorem putWave_hbm {s : State} {c : Issuer} {w : Wave} : (putWave s c w).hbm = s.hbm := rfl
@[simp] theorem putWave_spad {s : State} {c : Issuer} {w : Wave} : (putWave s c w).spad = s.spad := rfl
@[simp] theorem putWave_owner {s : State} {c : Issuer} {w : Wave} : (putWave s c w).owner = s.owner := rfl
@[simp] theorem putWave_ownerBad {s : State} {c : Issuer} {w : Wave} : (putWave s c w).ownerBad = s.ownerBad := rfl
@[simp] theorem putWave_engq {s : State} {c : Issuer} {w : Wave} : (putWave s c w).engq = s.engq := rfl
@[simp] theorem putWave_colls {s : State} {c : Issuer} {w : Wave} : (putWave s c w).colls = s.colls := rfl
@[simp] theorem putWave_collIn {s : State} {c : Issuer} {w : Wave} : (putWave s c w).collIn = s.collIn := rfl
@[simp] theorem putWave_collCmd {s : State} {c : Issuer} {w : Wave} : (putWave s c w).collCmd = s.collCmd := rfl
@[simp] theorem putWave_collOut {s : State} {c : Issuer} {w : Wave} : (putWave s c w).collOut = s.collOut := rfl
@[simp] theorem putWave_collNext {s : State} {c : Issuer} {w : Wave} : (putWave s c w).collNext = s.collNext := rfl
@[simp] theorem putWave_commons {s : State} {c : Issuer} {w : Wave} : (putWave s c w).commons = s.commons := rfl
@[simp] theorem putWave_trans {s : State} {c : Issuer} {w : Wave} : (putWave s c w).trans = s.trans := rfl
@[simp] theorem putWave_l1 {s : State} {c : Issuer} {w : Wave} : (putWave s c w).l1 = s.l1 := rfl
@[simp] theorem putWave_l2 {s : State} {c : Issuer} {w : Wave} : (putWave s c w).l2 = s.l2 := rfl
@[simp] theorem putWave_walks {s : State} {c : Issuer} {w : Wave} : (putWave s c w).walks = s.walks := rfl
@[simp] theorem putWave_unitAns {s : State} {c : Issuer} {w : Wave} : (putWave s c w).unitAns = s.unitAns := rfl
@[simp] theorem putWave_unitFar {s : State} {c : Issuer} {w : Wave} : (putWave s c w).unitFar = s.unitFar := rfl
@[simp] theorem putWave_queues {s : State} {c : Issuer} {w : Wave} : (putWave s c w).queues = s.queues := rfl
@[simp] theorem putWave_cores {s : State} {c : Issuer} {w : Wave} : (putWave s c w).cores = s.cores := rfl
@[simp] theorem putWave_vacate {s : State} {c : Issuer} {w : Wave} : (putWave s c w).vacate = s.vacate := rfl
@[simp] theorem putWave_images {s : State} {c : Issuer} {w : Wave} : (putWave s c w).images = s.images := rfl
@[simp] theorem putWave_ports {s : State} {c : Issuer} {w : Wave} : (putWave s c w).ports = s.ports := rfl
@[simp] theorem putWave_flows {s : State} {c : Issuer} {w : Wave} : (putWave s c w).flows = s.flows := rfl
@[simp] theorem putWave_hostq {s : State} {c : Issuer} {w : Wave} : (putWave s c w).hostq = s.hostq := rfl
@[simp] theorem putWave_hostOut {s : State} {c : Issuer} {w : Wave} : (putWave s c w).hostOut = s.hostOut := rfl
@[simp] theorem putWave_d2d {s : State} {c : Issuer} {w : Wave} : (putWave s c w).d2d = s.d2d := rfl
@[simp] theorem putWave_wire {s : State} {c : Issuer} {w : Wave} : (putWave s c w).wire = s.wire := rfl
@[simp] theorem putWave_regs {s : State} {c : Issuer} {w : Wave} : (putWave s c w).regs = s.regs := rfl
@[simp] theorem putWave_boot {s : State} {c : Issuer} {w : Wave} : (putWave s c w).boot = s.boot := rfl
@[simp] theorem putWave_keys {s : State} {c : Issuer} {w : Wave} : (putWave s c w).keys = s.keys := rfl
@[simp] theorem putWave_bar4Log {s : State} {c : Issuer} {w : Wave} : (putWave s c w).bar4Log = s.bar4Log := rfl
@[simp] theorem putWave_power {s : State} {c : Issuer} {w : Wave} : (putWave s c w).power = s.power := rfl
@[simp] theorem putWave_frozen {s : State} {c : Issuer} {w : Wave} : (putWave s c w).frozen = s.frozen := rfl
@[simp] theorem putWave_debugOut {s : State} {c : Issuer} {w : Wave} : (putWave s c w).debugOut = s.debugOut := rfl
@[simp] theorem putWave_outside {s : State} {c : Issuer} {w : Wave} : (putWave s c w).outside = s.outside := rfl
@[simp] theorem putWave_agenda {s : State} {c : Issuer} {w : Wave} : (putWave s c w).agenda = s.agenda := rfl
@[simp] theorem putWave_cur {s : State} {c : Issuer} {w : Wave} : (putWave s c w).cur = s.cur := rfl
@[simp] theorem putWave_ticks {s : State} {c : Issuer} {w : Wave} : (putWave s c w).ticks = s.ticks := rfl
@[simp] theorem putWave_issueNo {s : State} {c : Issuer} {w : Wave} : (putWave s c w).issueNo = s.issueNo := rfl
@[simp] theorem putWave_nextGid {s : State} {c : Issuer} {w : Wave} : (putWave s c w).nextGid = s.nextGid := rfl
@[simp] theorem putWave_nextReq {s : State} {c : Issuer} {w : Wave} : (putWave s c w).nextReq = s.nextReq := rfl

/-! ## retire -/

@[simp] theorem retire_mem {s : State} {c : Issuer} {n : Nat} {w : Wave} : (retire s c n w).mem = s.mem := rfl
@[simp] theorem retire_hbm {s : State} {c : Issuer} {n : Nat} {w : Wave} : (retire s c n w).hbm = s.hbm := rfl
@[simp] theorem retire_spad {s : State} {c : Issuer} {n : Nat} {w : Wave} : (retire s c n w).spad = s.spad := rfl
@[simp] theorem retire_owner {s : State} {c : Issuer} {n : Nat} {w : Wave} : (retire s c n w).owner = s.owner := rfl
@[simp] theorem retire_ownerBad {s : State} {c : Issuer} {n : Nat} {w : Wave} : (retire s c n w).ownerBad = s.ownerBad := rfl
@[simp] theorem retire_engq {s : State} {c : Issuer} {n : Nat} {w : Wave} : (retire s c n w).engq = s.engq := rfl
@[simp] theorem retire_colls {s : State} {c : Issuer} {n : Nat} {w : Wave} : (retire s c n w).colls = s.colls := rfl
@[simp] theorem retire_collIn {s : State} {c : Issuer} {n : Nat} {w : Wave} : (retire s c n w).collIn = s.collIn := rfl
@[simp] theorem retire_collCmd {s : State} {c : Issuer} {n : Nat} {w : Wave} : (retire s c n w).collCmd = s.collCmd := rfl
@[simp] theorem retire_collOut {s : State} {c : Issuer} {n : Nat} {w : Wave} : (retire s c n w).collOut = s.collOut := rfl
@[simp] theorem retire_collNext {s : State} {c : Issuer} {n : Nat} {w : Wave} : (retire s c n w).collNext = s.collNext := rfl
@[simp] theorem retire_commons {s : State} {c : Issuer} {n : Nat} {w : Wave} : (retire s c n w).commons = s.commons := rfl
@[simp] theorem retire_trans {s : State} {c : Issuer} {n : Nat} {w : Wave} : (retire s c n w).trans = s.trans := rfl
@[simp] theorem retire_l1 {s : State} {c : Issuer} {n : Nat} {w : Wave} : (retire s c n w).l1 = s.l1 := rfl
@[simp] theorem retire_l2 {s : State} {c : Issuer} {n : Nat} {w : Wave} : (retire s c n w).l2 = s.l2 := rfl
@[simp] theorem retire_walks {s : State} {c : Issuer} {n : Nat} {w : Wave} : (retire s c n w).walks = s.walks := rfl
@[simp] theorem retire_unitAns {s : State} {c : Issuer} {n : Nat} {w : Wave} : (retire s c n w).unitAns = s.unitAns := rfl
@[simp] theorem retire_unitFar {s : State} {c : Issuer} {n : Nat} {w : Wave} : (retire s c n w).unitFar = s.unitFar := rfl
@[simp] theorem retire_queues {s : State} {c : Issuer} {n : Nat} {w : Wave} : (retire s c n w).queues = s.queues := rfl
@[simp] theorem retire_cores {s : State} {c : Issuer} {n : Nat} {w : Wave} : (retire s c n w).cores = s.cores := rfl
@[simp] theorem retire_vacate {s : State} {c : Issuer} {n : Nat} {w : Wave} : (retire s c n w).vacate = s.vacate := rfl
@[simp] theorem retire_images {s : State} {c : Issuer} {n : Nat} {w : Wave} : (retire s c n w).images = s.images := rfl
@[simp] theorem retire_ports {s : State} {c : Issuer} {n : Nat} {w : Wave} : (retire s c n w).ports = s.ports := rfl
@[simp] theorem retire_flows {s : State} {c : Issuer} {n : Nat} {w : Wave} : (retire s c n w).flows = s.flows := rfl
@[simp] theorem retire_hostq {s : State} {c : Issuer} {n : Nat} {w : Wave} : (retire s c n w).hostq = s.hostq := rfl
@[simp] theorem retire_hostOut {s : State} {c : Issuer} {n : Nat} {w : Wave} : (retire s c n w).hostOut = s.hostOut := rfl
@[simp] theorem retire_d2d {s : State} {c : Issuer} {n : Nat} {w : Wave} : (retire s c n w).d2d = s.d2d := rfl
@[simp] theorem retire_wire {s : State} {c : Issuer} {n : Nat} {w : Wave} : (retire s c n w).wire = s.wire := rfl
@[simp] theorem retire_regs {s : State} {c : Issuer} {n : Nat} {w : Wave} : (retire s c n w).regs = s.regs := rfl
@[simp] theorem retire_boot {s : State} {c : Issuer} {n : Nat} {w : Wave} : (retire s c n w).boot = s.boot := rfl
@[simp] theorem retire_keys {s : State} {c : Issuer} {n : Nat} {w : Wave} : (retire s c n w).keys = s.keys := rfl
@[simp] theorem retire_bar4Log {s : State} {c : Issuer} {n : Nat} {w : Wave} : (retire s c n w).bar4Log = s.bar4Log := rfl
@[simp] theorem retire_power {s : State} {c : Issuer} {n : Nat} {w : Wave} : (retire s c n w).power = s.power := rfl
@[simp] theorem retire_frozen {s : State} {c : Issuer} {n : Nat} {w : Wave} : (retire s c n w).frozen = s.frozen := rfl
@[simp] theorem retire_debugOut {s : State} {c : Issuer} {n : Nat} {w : Wave} : (retire s c n w).debugOut = s.debugOut := rfl
@[simp] theorem retire_outside {s : State} {c : Issuer} {n : Nat} {w : Wave} : (retire s c n w).outside = s.outside := rfl
@[simp] theorem retire_agenda {s : State} {c : Issuer} {n : Nat} {w : Wave} : (retire s c n w).agenda = s.agenda := rfl
@[simp] theorem retire_cur {s : State} {c : Issuer} {n : Nat} {w : Wave} : (retire s c n w).cur = s.cur := rfl
@[simp] theorem retire_ticks {s : State} {c : Issuer} {n : Nat} {w : Wave} : (retire s c n w).ticks = s.ticks := rfl
@[simp] theorem retire_issueNo {s : State} {c : Issuer} {n : Nat} {w : Wave} : (retire s c n w).issueNo = s.issueNo := rfl
@[simp] theorem retire_nextGid {s : State} {c : Issuer} {n : Nat} {w : Wave} : (retire s c n w).nextGid = s.nextGid := rfl
@[simp] theorem retire_nextReq {s : State} {c : Issuer} {n : Nat} {w : Wave} : (retire s c n w).nextReq = s.nextReq := rfl

/-! ## holdAt -/

@[simp] theorem holdAt_mem {s : State} {c : Issuer} {h : Hold} : (holdAt s c h).mem = s.mem := rfl
@[simp] theorem holdAt_hbm {s : State} {c : Issuer} {h : Hold} : (holdAt s c h).hbm = s.hbm := rfl
@[simp] theorem holdAt_spad {s : State} {c : Issuer} {h : Hold} : (holdAt s c h).spad = s.spad := rfl
@[simp] theorem holdAt_owner {s : State} {c : Issuer} {h : Hold} : (holdAt s c h).owner = s.owner := rfl
@[simp] theorem holdAt_ownerBad {s : State} {c : Issuer} {h : Hold} : (holdAt s c h).ownerBad = s.ownerBad := rfl
@[simp] theorem holdAt_engq {s : State} {c : Issuer} {h : Hold} : (holdAt s c h).engq = s.engq := rfl
@[simp] theorem holdAt_colls {s : State} {c : Issuer} {h : Hold} : (holdAt s c h).colls = s.colls := rfl
@[simp] theorem holdAt_collIn {s : State} {c : Issuer} {h : Hold} : (holdAt s c h).collIn = s.collIn := rfl
@[simp] theorem holdAt_collCmd {s : State} {c : Issuer} {h : Hold} : (holdAt s c h).collCmd = s.collCmd := rfl
@[simp] theorem holdAt_collOut {s : State} {c : Issuer} {h : Hold} : (holdAt s c h).collOut = s.collOut := rfl
@[simp] theorem holdAt_collNext {s : State} {c : Issuer} {h : Hold} : (holdAt s c h).collNext = s.collNext := rfl
@[simp] theorem holdAt_commons {s : State} {c : Issuer} {h : Hold} : (holdAt s c h).commons = s.commons := rfl
@[simp] theorem holdAt_trans {s : State} {c : Issuer} {h : Hold} : (holdAt s c h).trans = s.trans := rfl
@[simp] theorem holdAt_l1 {s : State} {c : Issuer} {h : Hold} : (holdAt s c h).l1 = s.l1 := rfl
@[simp] theorem holdAt_l2 {s : State} {c : Issuer} {h : Hold} : (holdAt s c h).l2 = s.l2 := rfl
@[simp] theorem holdAt_walks {s : State} {c : Issuer} {h : Hold} : (holdAt s c h).walks = s.walks := rfl
@[simp] theorem holdAt_unitAns {s : State} {c : Issuer} {h : Hold} : (holdAt s c h).unitAns = s.unitAns := rfl
@[simp] theorem holdAt_unitFar {s : State} {c : Issuer} {h : Hold} : (holdAt s c h).unitFar = s.unitFar := rfl
@[simp] theorem holdAt_queues {s : State} {c : Issuer} {h : Hold} : (holdAt s c h).queues = s.queues := rfl
@[simp] theorem holdAt_cores {s : State} {c : Issuer} {h : Hold} : (holdAt s c h).cores = s.cores := rfl
@[simp] theorem holdAt_vacate {s : State} {c : Issuer} {h : Hold} : (holdAt s c h).vacate = s.vacate := rfl
@[simp] theorem holdAt_images {s : State} {c : Issuer} {h : Hold} : (holdAt s c h).images = s.images := rfl
@[simp] theorem holdAt_ports {s : State} {c : Issuer} {h : Hold} : (holdAt s c h).ports = s.ports := rfl
@[simp] theorem holdAt_flows {s : State} {c : Issuer} {h : Hold} : (holdAt s c h).flows = s.flows := rfl
@[simp] theorem holdAt_hostq {s : State} {c : Issuer} {h : Hold} : (holdAt s c h).hostq = s.hostq := rfl
@[simp] theorem holdAt_hostOut {s : State} {c : Issuer} {h : Hold} : (holdAt s c h).hostOut = s.hostOut := rfl
@[simp] theorem holdAt_d2d {s : State} {c : Issuer} {h : Hold} : (holdAt s c h).d2d = s.d2d := rfl
@[simp] theorem holdAt_wire {s : State} {c : Issuer} {h : Hold} : (holdAt s c h).wire = s.wire := rfl
@[simp] theorem holdAt_regs {s : State} {c : Issuer} {h : Hold} : (holdAt s c h).regs = s.regs := rfl
@[simp] theorem holdAt_boot {s : State} {c : Issuer} {h : Hold} : (holdAt s c h).boot = s.boot := rfl
@[simp] theorem holdAt_keys {s : State} {c : Issuer} {h : Hold} : (holdAt s c h).keys = s.keys := rfl
@[simp] theorem holdAt_bar4Log {s : State} {c : Issuer} {h : Hold} : (holdAt s c h).bar4Log = s.bar4Log := rfl
@[simp] theorem holdAt_power {s : State} {c : Issuer} {h : Hold} : (holdAt s c h).power = s.power := rfl
@[simp] theorem holdAt_frozen {s : State} {c : Issuer} {h : Hold} : (holdAt s c h).frozen = s.frozen := rfl
@[simp] theorem holdAt_debugOut {s : State} {c : Issuer} {h : Hold} : (holdAt s c h).debugOut = s.debugOut := rfl
@[simp] theorem holdAt_outside {s : State} {c : Issuer} {h : Hold} : (holdAt s c h).outside = s.outside := rfl
@[simp] theorem holdAt_agenda {s : State} {c : Issuer} {h : Hold} : (holdAt s c h).agenda = s.agenda := rfl
@[simp] theorem holdAt_cur {s : State} {c : Issuer} {h : Hold} : (holdAt s c h).cur = s.cur := rfl
@[simp] theorem holdAt_ticks {s : State} {c : Issuer} {h : Hold} : (holdAt s c h).ticks = s.ticks := rfl
@[simp] theorem holdAt_issueNo {s : State} {c : Issuer} {h : Hold} : (holdAt s c h).issueNo = s.issueNo := rfl
@[simp] theorem holdAt_nextGid {s : State} {c : Issuer} {h : Hold} : (holdAt s c h).nextGid = s.nextGid := rfl
@[simp] theorem holdAt_nextReq {s : State} {c : Issuer} {h : Hold} : (holdAt s c h).nextReq = s.nextReq := rfl

/-! ## toHost -/

@[simp] theorem toHost_mem {s : State} {m : HostMsg} : (toHost s m).mem = s.mem := rfl
@[simp] theorem toHost_hbm {s : State} {m : HostMsg} : (toHost s m).hbm = s.hbm := rfl
@[simp] theorem toHost_spad {s : State} {m : HostMsg} : (toHost s m).spad = s.spad := rfl
@[simp] theorem toHost_owner {s : State} {m : HostMsg} : (toHost s m).owner = s.owner := rfl
@[simp] theorem toHost_ownerBad {s : State} {m : HostMsg} : (toHost s m).ownerBad = s.ownerBad := rfl
@[simp] theorem toHost_groups {s : State} {m : HostMsg} : (toHost s m).groups = s.groups := rfl
@[simp] theorem toHost_engq {s : State} {m : HostMsg} : (toHost s m).engq = s.engq := rfl
@[simp] theorem toHost_colls {s : State} {m : HostMsg} : (toHost s m).colls = s.colls := rfl
@[simp] theorem toHost_collIn {s : State} {m : HostMsg} : (toHost s m).collIn = s.collIn := rfl
@[simp] theorem toHost_collCmd {s : State} {m : HostMsg} : (toHost s m).collCmd = s.collCmd := rfl
@[simp] theorem toHost_collOut {s : State} {m : HostMsg} : (toHost s m).collOut = s.collOut := rfl
@[simp] theorem toHost_collNext {s : State} {m : HostMsg} : (toHost s m).collNext = s.collNext := rfl
@[simp] theorem toHost_commons {s : State} {m : HostMsg} : (toHost s m).commons = s.commons := rfl
@[simp] theorem toHost_trans {s : State} {m : HostMsg} : (toHost s m).trans = s.trans := rfl
@[simp] theorem toHost_l1 {s : State} {m : HostMsg} : (toHost s m).l1 = s.l1 := rfl
@[simp] theorem toHost_l2 {s : State} {m : HostMsg} : (toHost s m).l2 = s.l2 := rfl
@[simp] theorem toHost_walks {s : State} {m : HostMsg} : (toHost s m).walks = s.walks := rfl
@[simp] theorem toHost_unitAns {s : State} {m : HostMsg} : (toHost s m).unitAns = s.unitAns := rfl
@[simp] theorem toHost_unitFar {s : State} {m : HostMsg} : (toHost s m).unitFar = s.unitFar := rfl
@[simp] theorem toHost_queues {s : State} {m : HostMsg} : (toHost s m).queues = s.queues := rfl
@[simp] theorem toHost_cores {s : State} {m : HostMsg} : (toHost s m).cores = s.cores := rfl
@[simp] theorem toHost_vacate {s : State} {m : HostMsg} : (toHost s m).vacate = s.vacate := rfl
@[simp] theorem toHost_images {s : State} {m : HostMsg} : (toHost s m).images = s.images := rfl
@[simp] theorem toHost_ports {s : State} {m : HostMsg} : (toHost s m).ports = s.ports := rfl
@[simp] theorem toHost_flows {s : State} {m : HostMsg} : (toHost s m).flows = s.flows := rfl
@[simp] theorem toHost_hostq {s : State} {m : HostMsg} : (toHost s m).hostq = s.hostq := rfl
@[simp] theorem toHost_d2d {s : State} {m : HostMsg} : (toHost s m).d2d = s.d2d := rfl
@[simp] theorem toHost_wire {s : State} {m : HostMsg} : (toHost s m).wire = s.wire := rfl
@[simp] theorem toHost_regs {s : State} {m : HostMsg} : (toHost s m).regs = s.regs := rfl
@[simp] theorem toHost_boot {s : State} {m : HostMsg} : (toHost s m).boot = s.boot := rfl
@[simp] theorem toHost_keys {s : State} {m : HostMsg} : (toHost s m).keys = s.keys := rfl
@[simp] theorem toHost_bar4Log {s : State} {m : HostMsg} : (toHost s m).bar4Log = s.bar4Log := rfl
@[simp] theorem toHost_power {s : State} {m : HostMsg} : (toHost s m).power = s.power := rfl
@[simp] theorem toHost_frozen {s : State} {m : HostMsg} : (toHost s m).frozen = s.frozen := rfl
@[simp] theorem toHost_debugOut {s : State} {m : HostMsg} : (toHost s m).debugOut = s.debugOut := rfl
@[simp] theorem toHost_outside {s : State} {m : HostMsg} : (toHost s m).outside = s.outside := rfl
@[simp] theorem toHost_agenda {s : State} {m : HostMsg} : (toHost s m).agenda = s.agenda := rfl
@[simp] theorem toHost_cur {s : State} {m : HostMsg} : (toHost s m).cur = s.cur := rfl
@[simp] theorem toHost_ticks {s : State} {m : HostMsg} : (toHost s m).ticks = s.ticks := rfl
@[simp] theorem toHost_issueNo {s : State} {m : HostMsg} : (toHost s m).issueNo = s.issueNo := rfl
@[simp] theorem toHost_nextGid {s : State} {m : HostMsg} : (toHost s m).nextGid = s.nextGid := rfl
@[simp] theorem toHost_nextReq {s : State} {m : HostMsg} : (toHost s m).nextReq = s.nextReq := rfl

/-! ## fillL2 -/

@[simp] theorem fillL2_mem {s : State} {pas : List Nat} : (fillL2 s pas).mem = s.mem := rfl
@[simp] theorem fillL2_hbm {s : State} {pas : List Nat} : (fillL2 s pas).hbm = s.hbm := rfl
@[simp] theorem fillL2_spad {s : State} {pas : List Nat} : (fillL2 s pas).spad = s.spad := rfl
@[simp] theorem fillL2_owner {s : State} {pas : List Nat} : (fillL2 s pas).owner = s.owner := rfl
@[simp] theorem fillL2_ownerBad {s : State} {pas : List Nat} : (fillL2 s pas).ownerBad = s.ownerBad := rfl
@[simp] theorem fillL2_groups {s : State} {pas : List Nat} : (fillL2 s pas).groups = s.groups := rfl
@[simp] theorem fillL2_engq {s : State} {pas : List Nat} : (fillL2 s pas).engq = s.engq := rfl
@[simp] theorem fillL2_colls {s : State} {pas : List Nat} : (fillL2 s pas).colls = s.colls := rfl
@[simp] theorem fillL2_collIn {s : State} {pas : List Nat} : (fillL2 s pas).collIn = s.collIn := rfl
@[simp] theorem fillL2_collCmd {s : State} {pas : List Nat} : (fillL2 s pas).collCmd = s.collCmd := rfl
@[simp] theorem fillL2_collOut {s : State} {pas : List Nat} : (fillL2 s pas).collOut = s.collOut := rfl
@[simp] theorem fillL2_collNext {s : State} {pas : List Nat} : (fillL2 s pas).collNext = s.collNext := rfl
@[simp] theorem fillL2_commons {s : State} {pas : List Nat} : (fillL2 s pas).commons = s.commons := rfl
@[simp] theorem fillL2_trans {s : State} {pas : List Nat} : (fillL2 s pas).trans = s.trans := rfl
@[simp] theorem fillL2_l1 {s : State} {pas : List Nat} : (fillL2 s pas).l1 = s.l1 := rfl
@[simp] theorem fillL2_walks {s : State} {pas : List Nat} : (fillL2 s pas).walks = s.walks := rfl
@[simp] theorem fillL2_unitAns {s : State} {pas : List Nat} : (fillL2 s pas).unitAns = s.unitAns := rfl
@[simp] theorem fillL2_unitFar {s : State} {pas : List Nat} : (fillL2 s pas).unitFar = s.unitFar := rfl
@[simp] theorem fillL2_queues {s : State} {pas : List Nat} : (fillL2 s pas).queues = s.queues := rfl
@[simp] theorem fillL2_cores {s : State} {pas : List Nat} : (fillL2 s pas).cores = s.cores := rfl
@[simp] theorem fillL2_vacate {s : State} {pas : List Nat} : (fillL2 s pas).vacate = s.vacate := rfl
@[simp] theorem fillL2_images {s : State} {pas : List Nat} : (fillL2 s pas).images = s.images := rfl
@[simp] theorem fillL2_ports {s : State} {pas : List Nat} : (fillL2 s pas).ports = s.ports := rfl
@[simp] theorem fillL2_flows {s : State} {pas : List Nat} : (fillL2 s pas).flows = s.flows := rfl
@[simp] theorem fillL2_hostq {s : State} {pas : List Nat} : (fillL2 s pas).hostq = s.hostq := rfl
@[simp] theorem fillL2_hostOut {s : State} {pas : List Nat} : (fillL2 s pas).hostOut = s.hostOut := rfl
@[simp] theorem fillL2_d2d {s : State} {pas : List Nat} : (fillL2 s pas).d2d = s.d2d := rfl
@[simp] theorem fillL2_wire {s : State} {pas : List Nat} : (fillL2 s pas).wire = s.wire := rfl
@[simp] theorem fillL2_regs {s : State} {pas : List Nat} : (fillL2 s pas).regs = s.regs := rfl
@[simp] theorem fillL2_boot {s : State} {pas : List Nat} : (fillL2 s pas).boot = s.boot := rfl
@[simp] theorem fillL2_keys {s : State} {pas : List Nat} : (fillL2 s pas).keys = s.keys := rfl
@[simp] theorem fillL2_bar4Log {s : State} {pas : List Nat} : (fillL2 s pas).bar4Log = s.bar4Log := rfl
@[simp] theorem fillL2_power {s : State} {pas : List Nat} : (fillL2 s pas).power = s.power := rfl
@[simp] theorem fillL2_frozen {s : State} {pas : List Nat} : (fillL2 s pas).frozen = s.frozen := rfl
@[simp] theorem fillL2_debugOut {s : State} {pas : List Nat} : (fillL2 s pas).debugOut = s.debugOut := rfl
@[simp] theorem fillL2_outside {s : State} {pas : List Nat} : (fillL2 s pas).outside = s.outside := rfl
@[simp] theorem fillL2_agenda {s : State} {pas : List Nat} : (fillL2 s pas).agenda = s.agenda := rfl
@[simp] theorem fillL2_cur {s : State} {pas : List Nat} : (fillL2 s pas).cur = s.cur := rfl
@[simp] theorem fillL2_ticks {s : State} {pas : List Nat} : (fillL2 s pas).ticks = s.ticks := rfl
@[simp] theorem fillL2_issueNo {s : State} {pas : List Nat} : (fillL2 s pas).issueNo = s.issueNo := rfl
@[simp] theorem fillL2_nextGid {s : State} {pas : List Nat} : (fillL2 s pas).nextGid = s.nextGid := rfl
@[simp] theorem fillL2_nextReq {s : State} {pas : List Nat} : (fillL2 s pas).nextReq = s.nextReq := rfl

/-! ## signal -/

@[simp] theorem signal_mem {s : State} {v : Nat} : (signal s v).mem = s.mem := rfl
@[simp] theorem signal_hbm {s : State} {v : Nat} : (signal s v).hbm = s.hbm := rfl
@[simp] theorem signal_spad {s : State} {v : Nat} : (signal s v).spad = s.spad := rfl
@[simp] theorem signal_owner {s : State} {v : Nat} : (signal s v).owner = s.owner := rfl
@[simp] theorem signal_ownerBad {s : State} {v : Nat} : (signal s v).ownerBad = s.ownerBad := rfl
@[simp] theorem signal_groups {s : State} {v : Nat} : (signal s v).groups = s.groups := rfl
@[simp] theorem signal_engq {s : State} {v : Nat} : (signal s v).engq = s.engq := rfl
@[simp] theorem signal_colls {s : State} {v : Nat} : (signal s v).colls = s.colls := rfl
@[simp] theorem signal_collIn {s : State} {v : Nat} : (signal s v).collIn = s.collIn := rfl
@[simp] theorem signal_collCmd {s : State} {v : Nat} : (signal s v).collCmd = s.collCmd := rfl
@[simp] theorem signal_collOut {s : State} {v : Nat} : (signal s v).collOut = s.collOut := rfl
@[simp] theorem signal_collNext {s : State} {v : Nat} : (signal s v).collNext = s.collNext := rfl
@[simp] theorem signal_commons {s : State} {v : Nat} : (signal s v).commons = s.commons := rfl
@[simp] theorem signal_trans {s : State} {v : Nat} : (signal s v).trans = s.trans := rfl
@[simp] theorem signal_l1 {s : State} {v : Nat} : (signal s v).l1 = s.l1 := rfl
@[simp] theorem signal_l2 {s : State} {v : Nat} : (signal s v).l2 = s.l2 := rfl
@[simp] theorem signal_walks {s : State} {v : Nat} : (signal s v).walks = s.walks := rfl
@[simp] theorem signal_unitAns {s : State} {v : Nat} : (signal s v).unitAns = s.unitAns := rfl
@[simp] theorem signal_unitFar {s : State} {v : Nat} : (signal s v).unitFar = s.unitFar := rfl
@[simp] theorem signal_queues {s : State} {v : Nat} : (signal s v).queues = s.queues := rfl
@[simp] theorem signal_cores {s : State} {v : Nat} : (signal s v).cores = s.cores := rfl
@[simp] theorem signal_vacate {s : State} {v : Nat} : (signal s v).vacate = s.vacate := rfl
@[simp] theorem signal_images {s : State} {v : Nat} : (signal s v).images = s.images := rfl
@[simp] theorem signal_ports {s : State} {v : Nat} : (signal s v).ports = s.ports := rfl
@[simp] theorem signal_flows {s : State} {v : Nat} : (signal s v).flows = s.flows := rfl
@[simp] theorem signal_hostq {s : State} {v : Nat} : (signal s v).hostq = s.hostq := rfl
@[simp] theorem signal_d2d {s : State} {v : Nat} : (signal s v).d2d = s.d2d := rfl
@[simp] theorem signal_wire {s : State} {v : Nat} : (signal s v).wire = s.wire := rfl
@[simp] theorem signal_regs {s : State} {v : Nat} : (signal s v).regs = s.regs := rfl
@[simp] theorem signal_boot {s : State} {v : Nat} : (signal s v).boot = s.boot := rfl
@[simp] theorem signal_keys {s : State} {v : Nat} : (signal s v).keys = s.keys := rfl
@[simp] theorem signal_bar4Log {s : State} {v : Nat} : (signal s v).bar4Log = s.bar4Log := rfl
@[simp] theorem signal_power {s : State} {v : Nat} : (signal s v).power = s.power := rfl
@[simp] theorem signal_frozen {s : State} {v : Nat} : (signal s v).frozen = s.frozen := rfl
@[simp] theorem signal_debugOut {s : State} {v : Nat} : (signal s v).debugOut = s.debugOut := rfl
@[simp] theorem signal_outside {s : State} {v : Nat} : (signal s v).outside = s.outside := rfl
@[simp] theorem signal_agenda {s : State} {v : Nat} : (signal s v).agenda = s.agenda := rfl
@[simp] theorem signal_cur {s : State} {v : Nat} : (signal s v).cur = s.cur := rfl
@[simp] theorem signal_ticks {s : State} {v : Nat} : (signal s v).ticks = s.ticks := rfl
@[simp] theorem signal_issueNo {s : State} {v : Nat} : (signal s v).issueNo = s.issueNo := rfl
@[simp] theorem signal_nextGid {s : State} {v : Nat} : (signal s v).nextGid = s.nextGid := rfl
@[simp] theorem signal_nextReq {s : State} {v : Nat} : (signal s v).nextReq = s.nextReq := rfl

/-! ## Waves -/

theorem find_map_key {α : Type} {key : α → Nat} {n k : Nat} {f : α → α} (hf : ∀ g, key (f g) = key g)
    {gs : List α} : (gs.map fun g => if key g == n then f g else g).find? (fun g => key g == k) =
      (gs.find? fun g => key g == k).map fun g => if key g == n then f g else g := by
  induction gs with
  | nil => rfl
  | cons g gs ih =>
    have hk : key (if key g == n then f g else g) = key g := by split <;> simp [hf]
    simp only [List.map_cons, List.find?_cons, hk]
    cases key g == k
    · exact ih
    · rfl

theorem findGroup_modGroup {s : State} {n k : Nat} {f : Group → Group} (hf : ∀ g, (f g).gid = g.gid) :
    findGroup (modGroup s n f) k = (findGroup s k).map fun g => if g.gid == n then f g else g :=
  find_map_key (key := Group.gid) hf

theorem findGroup_gid {s : State} {k : Nat} {g : Group} (h : findGroup s k = some g) : g.gid = k := by
  simpa using List.find?_some h

theorem findGroup_modGroup_same {s : State} {n : Nat} {f : Group → Group} {g : Group}
    (hf : ∀ g, (f g).gid = g.gid) (h : findGroup s n = some g) :
    findGroup (modGroup s n f) n = some (f g) := by
  rw [findGroup_modGroup hf, h]
  simp [findGroup_gid h]

theorem findGroup_modGroup_other {s : State} {n k : Nat} {f : Group → Group} (hf : ∀ g, (f g).gid = g.gid)
    (hk : k ≠ n) : findGroup (modGroup s n f) k = findGroup s k := by
  rw [findGroup_modGroup hf]
  cases h : findGroup s k with
  | none => rfl
  | some g =>
    have hn : g.gid ≠ n := by simpa [findGroup_gid h] using hk
    simp [hn]

theorem modifyAt_get {α : Type} {f : α → α} {i k : Nat} {xs : List α} :
    (modifyAt f i xs)[k]? = if k = i then xs[k]?.map f else xs[k]? := by
  induction xs generalizing i k with
  | nil => cases i <;> simp [modifyAt]
  | cons x xs ih =>
    cases i with
    | zero => cases k <;> simp [modifyAt]
    | succ i => cases k <;> simp [modifyAt, ih]

theorem findGroup_modWave {s : State} {n w : Nat} {f : Wave → Wave} {g : Group} (h : findGroup s n = some g) :
    findGroup (modWave s n w f) n = some { g with waves := modifyAt f w g.waves } :=
  findGroup_modGroup_same (f := fun g => { g with waves := modifyAt f w g.waves }) (fun _ => rfl) h

theorem findGroup_modWave_none {s : State} {n w : Nat} {f : Wave → Wave} (h : findGroup s n = none) :
    findGroup (modWave s n w f) n = none := by
  unfold modWave
  rw [findGroup_modGroup (f := fun g => { g with waves := modifyAt f w g.waves }) (fun _ => rfl), h]
  rfl

theorem findGroup_modWave_other {s : State} {n w k : Nat} {f : Wave → Wave} (hk : k ≠ n) :
    findGroup (modWave s n w f) k = findGroup s k :=
  findGroup_modGroup_other (f := fun g => { g with waves := modifyAt f w g.waves }) (fun _ => rfl) hk

theorem findWave_modWave {s : State} {n w : Nat} {f : Wave → Wave} :
    findWave (modWave s n w f) n w = (findWave s n w).map f := by
  unfold findWave
  cases h : findGroup s n with
  | none => rw [findGroup_modWave_none h]; rfl
  | some g => rw [findGroup_modWave h]; simp [modifyAt_get]

theorem findWave_modWave_other {s : State} {n w k j : Nat} {f : Wave → Wave} (h : k ≠ n ∨ j ≠ w) :
    findWave (modWave s n w f) k j = findWave s k j := by
  unfold findWave
  by_cases hk : k = n
  · subst hk
    have hj : j ≠ w := by simpa using h
    cases hg : findGroup s k with
    | none => rw [findGroup_modWave_none hg]
    | some g => rw [findGroup_modWave hg]; simp [modifyAt_get, hj]
  · rw [findGroup_modWave_other hk]

/-- The issuing gang, its wave and its group stand where its reference says. -/
theorem issuerAt_some {s : State} {r : GangRef} {c : Issuer} (h : issuerAt s r = some c) :
    c.ref = r ∧ findGroup s r.gid = some c.g ∧ findWave s r.gid r.wave = some c.w ∧
      c.w.gangs.find? (fun x => x.slices.getLsbD r.slice) = some c.gang := by
  unfold issuerAt at h
  unfold findWave
  split at h
  · cases h
  · next g hg =>
    split at h
    · cases h
    · next w hw =>
      split at h
      · cases h
      · next x hx =>
        cases h
        refine ⟨rfl, hg, ?_, hx⟩
        simp only [hg]
        exact hw

theorem issuer_some {s : State} {c : Issuer} (h : issuer s = some c) :
    s.cur = some c.ref ∧ issuerAt s c.ref = some c := by
  unfold issuer at h
  split at h
  · cases h
  · next r hr =>
    have := (issuerAt_some h).1
    exact ⟨by rw [hr, this], by rw [this]; exact h⟩

end Sys2Proof.Machine
end

