-- ==== Sys2Proof/Laws/Ops.lean ====
section
/-!
SUPPORT. What the shared operations can do: the report of causes, the shapes of the meanings, retiring.
-/

namespace Sys2Proof.Machine

/-! ## Reports (R389) -/

/-- Every condition of a list concerns no lane. -/
def Unmet (ks : List Cause) : Prop := ∀ k ∈ ks, k.lanes = []

theorem Unmet.nil : Unmet [] := by simp [Unmet]

theorem Unmet.append {xs ys : List Cause} (h : Unmet xs) (h' : Unmet ys) : Unmet (xs ++ ys) := by
  intro k hk
  rcases List.mem_append.1 hk with hk | hk
  · exact h k hk
  · exact h' k hk

theorem unmet_append {xs ys : List Cause} : Unmet (xs ++ ys) ↔ Unmet xs ∧ Unmet ys :=
  ⟨fun h => ⟨fun k hk => h k (List.mem_append_left _ hk), fun k hk => h k (List.mem_append_right _ hk)⟩,
    fun h => h.1.append h.2⟩

theorem Unmet.when {b : Bool} {k : Cause} (h : b = true → k.lanes = []) : Unmet (when b k) := by
  intro x hx
  unfold Machine.when at hx
  split at hx
  · next hb => cases List.mem_singleton.1 hx; exact h hb
  · cases hx

/-- Conditions that concern no lane are not reported. -/
theorem report_unmet {lanes : List Nat} {ks : List Cause} (h : Unmet ks) : report lanes ks = none := by
  have own (l : Nat) : ownCause ks l = none := by
    have : (ks.filter fun k => k.lanes.contains l) = [] := by
      rw [List.filter_eq_nil_iff]
      intro k hk
      simp [h k hk]
    unfold ownCause
    rw [this]
    rfl
  unfold report
  have : (lanes.filterMap fun l => (ownCause ks l).map fun k => (l, k)) = [] := by
    rw [List.filterMap_eq_nil_iff]
    intro l _
    simp [own l]
  rw [this]
  rfl

/-- A check without a condition that concerns a lane goes on. -/
theorem check_unmet {s : State} {c : Issuer} {lanes : List Nat} {ks : List Cause} {go : State} (h : Unmet ks) :
    check s c lanes ks go = go := by
  unfold check
  rw [report_unmet h]

/-! ## Registers that are named (R128, R207, R213) -/

theorem unmet_filter {f : Nat → Bool} {r i : Nat} {ls : List Nat} (h : ∀ l ∈ ls, f l = false) :
    Unmet [⟨r, i, ls.filter f⟩] := by
  intro k hk
  cases List.mem_singleton.1 hk
  rw [List.filter_eq_nil_iff]
  intro l hl
  simp [h l hl]

theorem boundCond_free {c : Issuer} {ls : List Nat} {f r : Nat} {b : Bool} (h : vectorFree c ls r b = true) :
    Unmet (boundCond c ls f r) := by
  apply Unmet.when
  intro hb
  simp [vectorFree] at h hb
  omega

theorem pendV_free {c : Issuer} {ls : List Nat} {r : Nat} {b : Bool} (h : vectorFree c ls r b = true) :
    Unmet (pendV c ls r) := by
  apply Unmet.when
  intro hr
  simp [vectorFree] at h hr
  rw [List.filter_eq_nil_iff]
  intro l hl
  rcases h with h | h
  · exact absurd h hr
  · simp [(h.2 l hl).1]

theorem markCond_free {src : Nat} {ls : List Nat} {f : Nat → Bool} (h : ∀ l ∈ ls, f l = false) :
    Unmet (markCond src ls f) := unmet_filter h

theorem pendS_free {c : Issuer} {ls ms : List Nat} {r : SReg} (h : Use.free c ls (.sw r) = true) :
    Unmet (pendS c ms r) := by
  cases r with
  | zero => exact Unmet.nil
  | s n =>
    simp only [pendS]
    apply Unmet.when
    intro hb
    simp [Use.free, hb] at h

theorem pendP_free {c : Issuer} {ls ms : List Nat} {p : Nat} (h : Use.free c ls (.pw p) = true) :
    Unmet (pendP c ms p) := by
  simp only [pendP]
  apply Unmet.when
  intro hb
  simp [Use.free] at h hb
  simp [hb.2] at h
  exact absurd h hb.1

/-- A register that is free meets no condition. -/
theorem useCond_free {c : Issuer} {ls : List Nat} {u : Use} (h : Use.free c ls u = true) :
    Unmet (useCond c ls u) := by
  cases u with
  | vr f r =>
    simp only [useCond, Use.free] at h ⊢
    refine ((boundCond_free h).append (pendV_free h)).append (markCond_free ?_)
    intro l hl
    simp [vectorFree] at h
    rcases h with h | h
    · simp [h]
    · simp [(h.2 l hl).2]
  | vw f r =>
    simp only [useCond, Use.free] at h ⊢
    exact (boundCond_free h).append (pendV_free h)
  | sr r =>
    cases r with
    | zero => exact Unmet.nil.append Unmet.nil
    | s n =>
      simp [Use.free] at h
      refine (pendS_free (ls := ls) (by simp [Use.free, h.1])).append (markCond_free fun _ _ => h.2)
  | sw r => exact pendS_free h
  | pr p =>
    simp [Use.free] at h
    refine (pendP_free (ls := ls) (by simp [Use.free]; exact h.imp id And.left)).append
      (markCond_free fun l hl => ?_)
    simp; intro hp; rcases h with h | h
    · exact absurd h hp
    · exact h.2 l hl
  | pw p => exact pendP_free h
  | prAll p =>
    simp [Use.free] at h
    refine (pendP_free (ls := ls) (by simp [Use.free]; exact h.imp id And.left)).append
      (markCond_free fun l hl => ?_)
    simp only [Bool.and_eq_false_imp, List.any_eq_false]
    intro hp k hk
    rcases h with h | h
    · simp [h] at hp
    · simpa using h.2 k (by simpa using hk)
  | lead f r =>
    simp only [useCond, Use.free, Bool.and_eq_true] at h ⊢
    refine ((boundCond_free h.1).append (pendV_free h.1)).append (markCond_free fun l hl => ?_)
    have h2 := h.2
    simp at h2 hl
    rcases h2 with h2 | h2
    · simp [h2]
    · simp [(h2 l hl.1).resolve_left (by simpa using hl.2)]
  | side r =>
    simp [Use.free] at h
    exact markCond_free fun l hl => by simp; intro hr; exact (h.resolve_left hr) l hl
  | sideB r k => simp [Use.free] at h; exact markCond_free fun l hl => by simp; intro hr; exact (h.resolve_left hr) l hl
  | xr n => simp [Use.free] at h; exact markCond_free h
  | base n => simp [Use.free] at h; exact markCond_free fun _ _ => h
  | q n => simp [Use.free] at h; exact markCond_free fun _ _ => by simpa using h
  | qw n k => simp [Use.free] at h; exact markCond_free fun _ _ => h
  | spec k => simp [Use.free] at h; exact markCond_free fun _ _ => h
  | ck n => simp [Use.free] at h; exact markCond_free fun _ _ => by simpa using h
  | ckw n k => simp [Use.free] at h; exact markCond_free fun _ _ => h
  | ff => simp [Use.free] at h; exact markCond_free h
  | accord => simp [Use.free] at h; exact markCond_free fun _ _ => h

theorem useConds_free {c : Issuer} {ls : List Nat} {us : List Use} (h : allFree c ls us = true) :
    Unmet (useConds c ls us) := by
  intro k hk
  obtain ⟨u, hu, hk⟩ := List.mem_flatMap.1 hk
  exact useCond_free (List.all_eq_true.1 h u hu) k hk

theorem guardConds_free {c : Issuer} {g : Guard} (h : allFree c c.all [.pr g.p.val] = true) :
    Unmet (guardConds c g) :=
  useCond_free (by simpa [allFree] using h)

/-- The FP Trap condition is not met where no lane meets an enabled one. -/
theorem fpCond_untrapped {w : Wave} {rs : List LaneRes} (h : untrapped w rs = true) : fpCond w rs = [] := by
  have met (code : Nat) (hc : code ∈ List.range 6) : (rs.filter fun r => fpMet w code r.fl r.snan) = [] := by
    rw [List.filter_eq_nil_iff]
    intro r hr
    have := List.all_eq_true.1 (List.all_eq_true.1 h r hr) code hc
    simpa using this
  unfold fpCond
  have : ((List.range 6).find? fun code => !(rs.filter fun r => fpMet w code r.fl r.snan).isEmpty) = none := by
    rw [List.find?_eq_none]
    intro code hc
    simp [met code hc]
  simp only [this]

/-! ## The shapes of the meanings -/

theorem issued_some {s : State} {c : Issuer} {f : Issuer → State} (h : issuer s = some c) :
    issued s f = .next (f c) := by
  unfold issued
  rw [h]

/-- An instruction of the wave goes on where its registers are free and nothing else is met. -/
theorem waveOp_free {s : State} {c : Issuer} {len : Nat} {us : List Use} {more : Issuer → List Cause}
    {eff : Issuer → Wave} (h : issuer s = some c) (hu : allFree c c.all us = true) (hm : Unmet (more c)) :
    waveOp s len us more eff = .next (retire s c len (eff c)) := by
  unfold waveOp
  rw [issued_some h, check_unmet ((useConds_free hu).append hm)]

/-- An instruction of the active lanes goes on where its registers are free and nothing else is met. -/
theorem laneOp_free {s : State} {c : Issuer} {len : Nat} {g : Guard} {us : List Use}
    {more : Issuer → List Nat → List Cause} {eff : Issuer → List Nat → Wave} (h : issuer s = some c)
    (hg : allFree c c.all [.pr g.p.val] = true) (hu : allFree c (c.lanes g) us = true)
    (hm : Unmet (more c (c.lanes g))) :
    laneOp s len g us more eff = .next (retire s c len (eff c (c.lanes g))) := by
  unfold laneOp
  rw [issued_some h]
  simp only
  rw [check_unmet (((guardConds_free hg).append (useConds_free hu)).append hm)]

/-- An instruction that rounds goes on where no enabled trap is met. -/
theorem fpOp_free {s : State} {c : Issuer} {len : Nat} {g : Guard} {us : List Use}
    {more : Issuer → List Nat → List Cause} {res : Issuer → Nat → LaneRes} {write : Wave → List LaneRes → Wave}
    (h : issuer s = some c) (hg : allFree c c.all [.pr g.p.val] = true)
    (hu : allFree c (c.lanes g) (.spec 2 :: .ff :: us) = true) (hm : Unmet (more c (c.lanes g)))
    (ht : untrapped c.w ((c.lanes g).map (res c)) = true) :
    fpOp s len g us more res write =
      .next (retire s c len ((write c.w ((c.lanes g).map (res c))).orRes ((c.lanes g).map (res c)))) := by
  unfold fpOp
  rw [issued_some h]
  simp only
  rw [fpCond_untrapped ht, List.append_nil,
    check_unmet (((guardConds_free hg).append (useConds_free hu)).append hm)]

/-! ## Retiring -/

theorem find_map_same {α : Type} {p : α → Bool} {f : α → α} (hf : ∀ x, p (f x) = p x) {xs : List α} :
    (xs.map fun x => if p x then f x else x).find? p = (xs.find? p).map f := by
  induction xs with
  | nil => rfl
  | cons x xs ih =>
    simp only [List.map_cons, List.find?_cons]
    cases h : p x
    · simp [h, ih]
    · simp [h, hf]

/-- The gang of a slice after a change of it. -/
theorem modGang_find {w : Wave} {j : Nat} {f : Gang → Gang} (hf : ∀ x, (f x).slices = x.slices) :
    (w.modGang j f).gangs.find? (fun x => x.slices.getLsbD j) =
      (w.gangs.find? fun x => x.slices.getLsbD j).map f :=
  find_map_same (p := fun x : Gang => x.slices.getLsbD j) (fun x => by simp [hf])

theorem issuerAt_of {s : State} {r : GangRef} {g : Group} {w : Wave} {x : Gang} (hg : findGroup s r.gid = some g)
    (hw : g.waves[r.wave]? = some w) (hx : w.gangs.find? (fun x => x.slices.getLsbD r.slice) = some x) :
    issuerAt s r = some ⟨r, g, w, x⟩ := by
  simp [issuerAt, hg, hw, hx]

/-- After a change of the issuing wave that leaves its gang at the end of the instruction, the instruction has
retired. -/
theorem retired_of {c : Issuer} {i : Instr} {t : State} {g : Group} {w v : Wave}
    (hg : findGroup t c.ref.gid = some g) (hw : g.waves[c.ref.wave]? = some v)
    (hv : v = w.step c i.len) (hx : w.gangs.find? (fun x => x.slices.getLsbD c.ref.slice) = some c.gang)
    (ht : w.trap.tm = c.w.trap.tm) (hh : w.halted = c.w.halted) : Retired c i t := by
  subst hv
  have hx' : (w.step c i.len).gangs.find? (fun x => x.slices.getLsbD c.ref.slice) =
      some (c.gang.advance i.len) := by
    have := modGang_find (w := w) (j := c.ref.slice) (f := fun g => g.advance i.len) (fun _ => rfl)
    rw [hx] at this
    exact this
  exact ⟨_, issuerAt_of hg hw hx', rfl, rfl, ht, hh⟩

/-- `retire` retires the instruction. -/
theorem retire_retired {s : State} {c : Issuer} {i : Instr} {w : Wave} (h : issuer s = some c)
    (hx : w.gangs = c.w.gangs) (ht : w.trap.tm = c.w.trap.tm) (hh : w.halted = c.w.halted) :
    Retired c i (retire s c i.len w) := by
  obtain ⟨-, h⟩ := issuer_some h
  obtain ⟨-, hg, hw, hf⟩ := issuerAt_some h
  have hw' : c.g.waves[c.ref.wave]? = some c.w := by
    unfold findWave at hw
    rw [hg] at hw
    exact hw
  refine retired_of (g := { c.g with waves := modifyAt (fun _ => w.step c i.len) c.ref.wave c.g.waves })
    (findGroup_modWave hg) ?_ rfl (by rw [hx]; exact hf) ht hh
  simp [modifyAt_get, hw']

/-- `retireNow` retires the instruction in a state whose groups are those of the issue. -/
theorem retireNow_retired {s t : State} {c : Issuer} {i : Instr} {f : Wave → Wave} (h : issuer s = some c)
    (hs : t.groups = s.groups) (hx : (f c.w).gangs = c.w.gangs) (ht : (f c.w).trap.tm = c.w.trap.tm)
    (hh : (f c.w).halted = c.w.halted) : Retired c i (retireNow t c i.len f) := by
  obtain ⟨-, h⟩ := issuer_some h
  obtain ⟨-, hg, hw, hf⟩ := issuerAt_some h
  have hg' : findGroup t c.ref.gid = some c.g := by
    unfold findGroup at hg ⊢
    rw [hs]
    exact hg
  have hw' : c.g.waves[c.ref.wave]? = some c.w := by
    unfold findWave at hw
    rw [hg] at hw
    exact hw
  refine retired_of (w := f c.w)
    (g := { c.g with waves := modifyAt (fun w => (f w).step c i.len) c.ref.wave c.g.waves })
    (findGroup_modWave hg') ?_ rfl (by rw [hx]; exact hf) ht hh
  simp [modifyAt_get, hw']

end Sys2Proof.Machine
end

