-- ==== Sys2Proof/Laws/Access.lean ====
section
/-!
SUPPORT. What a memory instruction does behind its register checks where nothing stands in its accesses' way.
-/

namespace Sys2Proof.Machine

/-- Accesses in the scratchpad and in the common registers change nothing as they are resolved: they take no
translation. -/
theorem resolveAcc_own {s : State} {c : Issuer} {sp : Space} {kind : AKind} {a : Acc} (h : sp ≠ .g) :
    (resolveAcc s c sp kind a).1 = s := by
  cases sp <;> first | exact absurd rfl h | rfl

/-- Where the registers are free, every access resolves and nothing else is met, a memory instruction performs. -/
theorem accessOp_free {s : State} {c : Issuer} {reach : Reach} {pre : List Cause} {sp : Space} {kind : AKind}
    {as : List Acc} {more : AccSum → List Cause} {go : AccSum → State} (hpre : Unmet pre)
    (hl : ∀ a ∈ as, a.lane ∈ c.all) (hr : resolves s c sp kind as = true) (hm : more (resolveAll s c sp kind as) = [])
    (hc : kind = .write ∨ commonWait (dropAnswers (resolveAll s c sp kind as).s c) c
      ((resolveAll s c sp kind as).oks.flatMap Prod.snd) = false) :
    accessOp s c reach pre sp kind as more go =
      go { resolveAll s c sp kind as with s := dropAnswers (resolveAll s c sp kind as).s c } := by
  obtain ⟨hp, hk⟩ : (resolveAll s c sp kind as).pend = [] ∧ (resolveAll s c sp kind as).lacks = [] := by
    simpa [resolves] using hr
  have hfree : freeLanes c.all pre = c.all := by
    unfold freeLanes
    rw [List.filter_eq_self]
    intro l _
    have : (pre.filter fun k => k.lanes.contains l) = [] := by
      rw [List.filter_eq_nil_iff]
      intro k hk
      simp [hpre k hk]
    unfold ownCause
    rw [this]
    rfl
  have hall : as.filter (fun a => (freeLanes c.all pre).contains a.lane) = as := by
    rw [List.filter_eq_self, hfree]
    intro a ha
    simpa using hl a ha
  have hpart : as.partition (fun a => (freeLanes c.all pre).contains a.lane) = (as, []) := by
    rw [List.partition_eq_filter_filter, hall]
    congr 1
    rw [List.filter_eq_nil_iff, hfree]
    intro a ha
    simpa using hl a ha
  have hw : widen c reach [] = [] := by cases reach <;> rfl
  unfold accessOp
  dsimp only
  rw [hpart]
  simp only [List.flatMap_nil, hw, List.append_nil, hp, hk, hm, List.isEmpty_nil, Bool.not_true]
  rw [report_unmet hpre]
  rcases hc with rfl | hc
  · simp
  · simp [hc]

end Sys2Proof.Machine
end

