-- ==== Sys2Proof/Laws/PerInstr.lean ====
section
/-!
SUPPORT. What holds of every instruction as syntax: the fields that the encoder puts into its word lie in their places
(R51, R52), so that no field runs into its neighbour.
-/

namespace Sys2Proof
set_option Elab.async false
set_option linter.unnecessarySeqFocus false
set_option linter.unreachableTactic false
set_option linter.unusedTactic false

/-! ## Codes and operands lie in their fields -/

theorem Guard.code_lt (g : Guard) : g.code < 16 := by
  have := g.p.isLt
  have := g.inv.toNat_lt
  unfold Guard.code
  omega

theorem SReg.code_lt (r : SReg) : r.code < 256 := by
  cases r with
  | s n => exact Nat.lt_trans n.isLt (by decide)
  | zero => decide

theorem Ty.code_lt (t : Ty) : t.code < 32 := by cases t <;> decide
theorem Rnd.code_lt (r : Rnd) : r.code < 8 := by cases r <;> decide
theorem Cond.code_lt (c : Cond) : c.code < 8 := by cases c <;> decide
theorem AtomOp.code_lt (o : AtomOp) : o.code < 8 := by cases o <;> decide
theorem RedOp.code_lt (o : RedOp) : o.code < 8 := by cases o <;> decide
theorem Space.code_lt (s : Space) : s.code < 3 := by cases s <;> decide
theorem Scope.code_lt (s : Scope) : s.code < 6 := by cases s <;> decide
theorem Policy.code_lt (p : Policy) : p.code < 2 := by cases p <;> decide
theorem CurMode.code_lt (m : CurMode) : m.code < 3 := by cases m <;> decide
theorem VoteFn.code_lt (f : VoteFn) : f.code < 3 := by cases f <;> decide
theorem ClauseClass.code_lt (c : ClauseClass) : c.code < 4 := by cases c <;> decide
theorem LaneSpec.code_lt (r : LaneSpec) : r.code < 256 := by cases r <;> decide

theorem SpecReg.code_lt (r : SpecReg) : r.code < 256 := by
  cases r with
  | ck n w =>
    have := n.isLt
    have := w.isLt
    simp only [SpecReg.code]
    omega
  | _ => decide

theorem modOf_lt (r : Rnd) (sat : Bool) : modOf r sat < 16 := by
  have := r.code_lt
  have := sat.toNat_lt
  unfold modOf
  omega

/-- Every field lies in its place, and is zero where the form has none for it (R51, R52). -/
def Fields.Fits (x : Fields) : Prop :=
  x.opc < 256 ∧ x.g < 16 ∧ x.d < 256 ∧ x.a < 256 ∧ x.b < 256 ∧ x.c < 256 ∧ x.t < 32 ∧ x.m < 32 ∧ x.f < 256 ∧
    x.k < 2 ^ 32 ∧ match x.form with
    | .h => x.b = 0 ∧ x.c = 0 ∧ x.t = 0 ∧ x.m = 0 ∧ x.k = 0 ∧ x.f < 4
    | .w => x.k = 0
    | .l => True

/-- A V source leaves the other fields where they are. -/
theorem Fields.withV_fits {x : Fields} (h : x.Fits) (b : VSrc) : (x.withV b).Fits := by
  obtain ⟨h1, h2, h3, h4, -, h6, h7, h8, h9, -, -⟩ := h
  cases b with
  | reg v => exact ⟨h1, h2, h3, h4, v.isLt, h6, h7, h8, h9, (by decide : 0 < 2 ^ 32), rfl⟩
  | lit k => exact ⟨h1, h2, h3, h4, (by decide : 255 < 256), h6, h7, h8, h9, k.isLt, trivial⟩

/-- An S source leaves the other fields where they are. -/
theorem Fields.withS_fits {x : Fields} (h : x.Fits) (b : SSrc) : (x.withS b).Fits := by
  obtain ⟨h1, h2, h3, h4, -, h6, h7, h8, h9, -, -⟩ := h
  cases b with
  | reg r => exact ⟨h1, h2, h3, h4, r.code_lt, h6, h7, h8, h9, (by decide : 0 < 2 ^ 32), rfl⟩
  | lit k => exact ⟨h1, h2, h3, h4, (by decide : 255 < 256), h6, h7, h8, h9, k.isLt, trivial⟩

/-! ## The shared operand forms -/

theorem VBin.fields_fits {opc : Nat} (o : VBin) (h : opc < 256) : (o.fields opc).Fits := by
  have := o.g.code_lt
  have := o.d.isLt
  have := o.a.isLt
  have := o.t.code_lt
  have := modOf_lt o.rnd o.sat
  cases hb : o.b <;> simp [VBin.fields, Fields.Fits, plainFields, hb, VSrc.form, VSrc.field, VSrc.k] <;> omega

theorem VTern.fields_fits {opc : Nat} (o : VTern) (h : opc < 256) : (o.fields opc).Fits := by
  have := o.g.code_lt
  have := o.d.isLt
  have := o.a.isLt
  have := o.c.isLt
  have := o.t.code_lt
  have := modOf_lt o.rnd o.sat
  cases hb : o.b <;> simp [VTern.fields, Fields.Fits, plainFields, hb, VSrc.form, VSrc.field, VSrc.k] <;> omega

theorem VUn.fields_fits {opc : Nat} (o : VUn) (h : opc < 256) : (o.fields opc).Fits := by
  have := o.g.code_lt
  have := o.d.isLt
  have := o.a.isLt
  have := o.t.code_lt
  have := modOf_lt o.rnd o.sat
  simp [VUn.fields, Fields.Fits, plainFields]
  omega

theorem VCmpOp.fields_fits {opc : Nat} (o : VCmpOp) (h : opc < 256) : (o.fields opc).Fits := by
  have := o.g.code_lt
  have := o.d.isLt
  have := o.a.isLt
  have := o.t.code_lt
  have := o.cond.code_lt
  have := o.any.toNat_lt
  cases hb : o.b <;> simp [VCmpOp.fields, Fields.Fits, plainFields, hb, VSrc.form, VSrc.field, VSrc.k] <;> omega

theorem VCvt.fields_fits {opc : Nat} (o : VCvt) (h : opc < 256) : (o.fields opc).Fits := by
  have := o.g.code_lt
  have := o.d.isLt
  have := o.a.isLt
  have := o.t.code_lt
  have := o.src.code_lt
  have := o.part.isLt
  have := modOf_lt o.rnd o.sat
  simp [VCvt.fields, Fields.Fits, plainFields]
  omega

theorem SBin.fields_fits {opc : Nat} (o : SBin) (h : opc < 256) : (o.fields opc).Fits := by
  have := o.d.code_lt
  have := o.a.code_lt
  have := o.t.code_lt
  have := o.sat.toNat_lt
  cases hb : o.b <;> simp [SBin.fields, Fields.Fits, plainFields, hb, SSrc.form, SSrc.field, SSrc.k] <;> (try have := SReg.code_lt ‹_›) <;> omega

theorem SUn.fields_fits {opc : Nat} (o : SUn) (h : opc < 256) : (o.fields opc).Fits := by
  have := o.d.code_lt
  have := o.a.code_lt
  have := o.t.code_lt
  simp [SUn.fields, Fields.Fits, plainFields]
  omega

theorem QuantOp.fields_fits {opc : Nat} (o : QuantOp) (h : opc < 256) : (o.fields opc).Fits := by
  have := o.g.code_lt
  have := o.d.isLt
  have := o.a.isLt
  have := o.t.code_lt
  have := o.rnd.code_lt
  have := o.src.code_lt
  have := o.auto.toNat_lt
  have := o.policy.code_lt
  simp [QuantOp.fields, Fields.Fits, plainFields]
  omega

theorem ShflOp.fields_fits {opc : Nat} (o : ShflOp) (h : opc < 256) : (o.fields opc).Fits := by
  have := o.g.code_lt
  have := o.d.isLt
  have := o.a.isLt
  have := o.t.code_lt
  have := o.rel.toNat_lt
  cases hb : o.b <;> simp [ShflOp.fields, Fields.Fits, plainFields, hb, VSrc.form, VSrc.field, VSrc.k] <;> omega

theorem WaveMem.fields_fits {opc : Nat} (o : WaveMem) (h : opc < 256) : (o.fields opc).Fits := by
  have := o.a.code_lt
  have := o.t.code_lt
  have := o.sp.code_lt
  cases hb : o.b <;> simp [WaveMem.fields, Fields.Fits, plainFields, hb, SSrc.form, SSrc.field, SSrc.k] <;> (try have := SReg.code_lt ‹_›) <;> omega

theorem LaneMem.fields_fits {opc : Nat} (o : LaneMem) (h : opc < 256) : (o.fields opc).Fits := by
  have := o.g.code_lt
  have := o.a.isLt
  have := o.t.code_lt
  have := o.sp.code_lt
  cases hb : o.b <;> simp [LaneMem.fields, Fields.Fits, plainFields, hb, SSrc.form, SSrc.field, SSrc.k] <;> (try have := SReg.code_lt ‹_›) <;> omega

theorem BlockMem.fields_fits {opc : Nat} (o : BlockMem) (h : opc < 256) : (o.fields opc).Fits := by
  have := o.g.code_lt
  have := o.r.isLt
  have := o.a.code_lt
  have := o.c.code_lt
  have := o.t.code_lt
  have := o.sp.code_lt
  cases hb : o.b <;> simp [BlockMem.fields, Fields.Fits, plainFields, hb, SSrc.form, SSrc.field, SSrc.k] <;> (try have := SReg.code_lt ‹_›) <;> omega

theorem DequeMem.fields_fits {opc : Nat} (o : DequeMem) (h : opc < 256) : (o.fields opc).Fits := by
  have := o.g.code_lt
  have := o.d.isLt
  have := o.a.isLt
  have := o.sp.code_lt
  have := o.p.isLt
  cases hb : o.b <;> simp [DequeMem.fields, Fields.Fits, plainFields, hb, SSrc.form, SSrc.field, SSrc.k] <;> (try have := SReg.code_lt ‹_›) <;> omega

theorem MmaOp.fields_fits {opc : Nat} (o : MmaOp) (h : opc < 256) : (o.fields opc).Fits := by
  have := o.d.isLt
  have := o.a.code_lt
  have := o.b.code_lt
  have := o.t.code_lt
  have := o.nk.isLt
  have := o.int.toNat_lt
  simp [MmaOp.fields, Fields.Fits, plainFields]
  omega

end Sys2Proof

namespace Sys2Proof.Laws.EncodingFits
open Sys2Proof
set_option Elab.async false
set_option linter.unnecessarySeqFocus false
set_option linter.unreachableTactic false
set_option linter.unusedTactic false

/-- The fields of an instruction's word lie in their places. -/
def Statement (i : Instr) : Prop := ∀ x, i.fields = some x → x.Fits

theorem bra (g : Guard) (all : Bool) (k : BitVec 32) : Statement (.bra g all k) := by
  have := g.code_lt
  have := all.toNat_lt
  have := k.isLt
  simp [Statement, Instr.fields, Fields.Fits, plainFields] <;> omega
theorem brs (g : Guard) (join : BitVec 16) (k : BitVec 32) : Statement (.brs g join k) := by
  have := g.code_lt
  have := join.isLt
  have := k.isLt
  simp [Statement, Instr.fields, Fields.Fits, plainFields] <;> omega
theorem brx (g : Guard) (all : Bool) (a : SReg) (b : SSrc) : Statement (.brx g all a b) := by
  have := g.code_lt
  have := all.toNat_lt
  have := a.code_lt
  exact fun _ h => Option.some.inj h ▸ Fields.withS_fits (by simp [Fields.Fits, plainFields]; omega) b
theorem call (d : VReg) (k : BitVec 32) : Statement (.call d k) := by
  have := d.isLt
  have := k.isLt
  simp [Statement, Instr.fields, Fields.Fits, plainFields] <;> omega
theorem calli (d : VReg) (a : SReg) (b : SSrc) : Statement (.calli d a b) := by
  have := d.isLt
  have := a.code_lt
  exact fun _ h => Option.some.inj h ▸ Fields.withS_fits (by simp [Fields.Fits, plainFields]; omega) b
theorem ret (a : VReg) : Statement (.ret a) := by
  have := a.isLt
  simp [Statement, Instr.fields, Fields.Fits, plainFields] <;> omega
theorem regang (b : SSrc) : Statement (.regang b) := by
  exact fun _ h => Option.some.inj h ▸ Fields.withS_fits (by simp [Fields.Fits, plainFields]) b
theorem clause (cls : ClauseClass) (len : Fin 16) (l : Imm8) (st : Imm8) (c : Imm8) (m : Imm8) : Statement (.clause cls len l st c m) := by
  have := cls.code_lt
  have := len.isLt
  have := l.isLt
  have := st.isLt
  have := c.isLt
  have := m.isLt
  simp [Statement, Instr.fields, Fields.Fits, plainFields] <;> omega
theorem wait (l : Imm8) (st : Imm8) (c : Imm8) (m : Imm8) : Statement (.wait l st c m) := by
  have := l.isLt
  have := st.isLt
  have := c.isLt
  have := m.isLt
  simp [Statement, Instr.fields, Fields.Fits, plainFields] <;> omega
theorem bar (n : Fin 4) (b : SSrc) : Statement (.bar n b) := by
  have := n.isLt
  exact fun _ h => Option.some.inj h ▸ Fields.withS_fits (by simp [Fields.Fits, plainFields]; omega) b
theorem arrive (n : Fin 4) (b : SSrc) : Statement (.arrive n b) := by
  have := n.isLt
  exact fun _ h => Option.some.inj h ▸ Fields.withS_fits (by simp [Fields.Fits, plainFields]; omega) b
theorem spawn (d : SReg) (p : PReg) (a : Fin 57) (b : SSrc) : Statement (.spawn d p a b) := by
  have := d.code_lt
  have := p.isLt
  have := a.isLt
  exact fun _ h => Option.some.inj h ▸ Fields.withS_fits (by simp [Fields.Fits, plainFields]; omega) b
theorem release (tiles : Bool) (spad : Bool) : Statement (.release tiles spad) := by
  have := tiles.toNat_lt
  have := spad.toNat_lt
  simp [Statement, Instr.fields, Fields.Fits, plainFields] <;> omega
theorem trap (code : Imm8) : Statement (.trap code) := by
  have := code.isLt
  simp [Statement, Instr.fields, Fields.Fits, plainFields] <;> omega
theorem mfs (o : MfsOp) : Statement (.mfs o) := by
  cases o with
  | lane g d r =>
    have := g.code_lt
    have := d.isLt
    have := r.code_lt
    simp [Statement, Instr.fields, Fields.Fits, plainFields]
    omega
  | wave d r =>
    have := d.code_lt
    have := r.code_lt
    simp [Statement, Instr.fields, Fields.Fits, plainFields]
    omega
theorem mts (o : MtsOp) : Statement (.mts o) := by
  cases o with
  | fflags g b =>
    have := g.code_lt
    exact fun _ h => Option.some.inj h ▸ Fields.withV_fits (by simp [Fields.Fits, plainFields]; omega) b
  | wave r b =>
    have := r.code_lt
    exact fun _ h => Option.some.inj h ▸ Fields.withS_fits (by simp [Fields.Fits, plainFields]; omega) b
theorem hint (o : HintOp) : Statement (.hint o) := by
  cases o with
  | spin => simp [Statement, Instr.fields, Fields.Fits, plainFields]
  | pace a =>
    have := a.code_lt
    simp [Statement, Instr.fields, Fields.Fits, plainFields]
    omega
theorem sadd (o : SBin) : Statement (.sadd o) := fun _ h => Option.some.inj h ▸ o.fields_fits (by decide)
theorem ssub (o : SBin) : Statement (.ssub o) := fun _ h => Option.some.inj h ▸ o.fields_fits (by decide)
theorem smul (o : SBin) : Statement (.smul o) := fun _ h => Option.some.inj h ▸ o.fields_fits (by decide)
theorem smulh (o : SBin) : Statement (.smulh o) := fun _ h => Option.some.inj h ▸ o.fields_fits (by decide)
theorem sdiv (o : SBin) : Statement (.sdiv o) := fun _ h => Option.some.inj h ▸ o.fields_fits (by decide)
theorem srem (o : SBin) : Statement (.srem o) := fun _ h => Option.some.inj h ▸ o.fields_fits (by decide)
theorem sand (o : SBin) : Statement (.sand o) := fun _ h => Option.some.inj h ▸ o.fields_fits (by decide)
theorem sor (o : SBin) : Statement (.sor o) := fun _ h => Option.some.inj h ▸ o.fields_fits (by decide)
theorem sxor (o : SBin) : Statement (.sxor o) := fun _ h => Option.some.inj h ▸ o.fields_fits (by decide)
theorem sshl (o : SBin) : Statement (.sshl o) := fun _ h => Option.some.inj h ▸ o.fields_fits (by decide)
theorem sshr (o : SBin) : Statement (.sshr o) := fun _ h => Option.some.inj h ▸ o.fields_fits (by decide)
theorem smin (o : SBin) : Statement (.smin o) := fun _ h => Option.some.inj h ▸ o.fields_fits (by decide)
theorem smax (o : SBin) : Statement (.smax o) := fun _ h => Option.some.inj h ▸ o.fields_fits (by decide)
theorem scmp (d : SReg) (a : SReg) (b : SSrc) (t : Ty) (cond : Cond) : Statement (.scmp d a b t cond) := by
  have := d.code_lt
  have := a.code_lt
  have := t.code_lt
  have := cond.code_lt
  exact fun _ h => Option.some.inj h ▸ Fields.withS_fits (by simp [Fields.Fits, plainFields]; omega) b
theorem ssel (d : SReg) (a : SReg) (b : SSrc) (c : SReg) : Statement (.ssel d a b c) := by
  have := d.code_lt
  have := a.code_lt
  have := c.code_lt
  exact fun _ h => Option.some.inj h ▸ Fields.withS_fits (by simp [Fields.Fits, plainFields]; omega) b
theorem smov (d : SReg) (b : SSrc) (t : Ty) : Statement (.smov d b t) := by
  have := d.code_lt
  have := t.code_lt
  exact fun _ h => Option.some.inj h ▸ Fields.withS_fits (by simp [Fields.Fits, plainFields]; omega) b
theorem slea (d : SReg) (a : SReg) (b : SSrc) (sh : Fin 8) : Statement (.slea d a b sh) := by
  have := d.code_lt
  have := a.code_lt
  have := sh.isLt
  exact fun _ h => Option.some.inj h ▸ Fields.withS_fits (by simp [Fields.Fits, plainFields]; omega) b
theorem sbfx (o : SBin) : Statement (.sbfx o) := fun _ h => Option.some.inj h ▸ o.fields_fits (by decide)
theorem sbfi (d : SReg) (a : SReg) (b : SSrc) (c : SReg) (t : Ty) : Statement (.sbfi d a b c t) := by
  have := d.code_lt
  have := a.code_lt
  have := c.code_lt
  have := t.code_lt
  exact fun _ h => Option.some.inj h ▸ Fields.withS_fits (by simp [Fields.Fits, plainFields]; omega) b
theorem spopc (o : SUn) : Statement (.spopc o) := fun _ h => Option.some.inj h ▸ o.fields_fits (by decide)
theorem sclz (o : SUn) : Statement (.sclz o) := fun _ h => Option.some.inj h ▸ o.fields_fits (by decide)
theorem sarg (d : SReg) (n : Imm8) : Statement (.sarg d n) := by
  have := d.code_lt
  have := n.isLt
  simp [Statement, Instr.fields, Fields.Fits, plainFields] <;> omega
theorem xsetb (d : XReg) (a : SReg) (b : SSrc) : Statement (.xsetb d a b) := by
  have := d.isLt
  have := a.code_lt
  exact fun _ h => Option.some.inj h ▸ Fields.withS_fits (by simp [Fields.Fits, plainFields]; omega) b
theorem xld (g : Guard) (d : XReg) (a : VReg) : Statement (.xld g d a) := by
  have := g.code_lt
  have := d.isLt
  have := a.isLt
  simp [Statement, Instr.fields, Fields.Fits, plainFields] <;> omega
theorem vadd (o : VBin) : Statement (.vadd o) := fun _ h => Option.some.inj h ▸ o.fields_fits (by decide)
theorem vsub (o : VBin) : Statement (.vsub o) := fun _ h => Option.some.inj h ▸ o.fields_fits (by decide)
theorem vmul (o : VBin) : Statement (.vmul o) := fun _ h => Option.some.inj h ▸ o.fields_fits (by decide)
theorem vmulh (o : VBin) : Statement (.vmulh o) := fun _ h => Option.some.inj h ▸ o.fields_fits (by decide)
theorem vmad (o : VTern) : Statement (.vmad o) := fun _ h => Option.some.inj h ▸ o.fields_fits (by decide)
theorem vdiv (o : VBin) : Statement (.vdiv o) := fun _ h => Option.some.inj h ▸ o.fields_fits (by decide)
theorem vrem (o : VBin) : Statement (.vrem o) := fun _ h => Option.some.inj h ▸ o.fields_fits (by decide)
theorem vand (o : VBin) : Statement (.vand o) := fun _ h => Option.some.inj h ▸ o.fields_fits (by decide)
theorem vor (o : VBin) : Statement (.vor o) := fun _ h => Option.some.inj h ▸ o.fields_fits (by decide)
theorem vxor (o : VBin) : Statement (.vxor o) := fun _ h => Option.some.inj h ▸ o.fields_fits (by decide)
theorem vnot (o : VUn) : Statement (.vnot o) := fun _ h => Option.some.inj h ▸ o.fields_fits (by decide)
theorem vshl (o : VBin) : Statement (.vshl o) := fun _ h => Option.some.inj h ▸ o.fields_fits (by decide)
theorem vshr (o : VBin) : Statement (.vshr o) := fun _ h => Option.some.inj h ▸ o.fields_fits (by decide)
theorem vmin (o : VBin) : Statement (.vmin o) := fun _ h => Option.some.inj h ▸ o.fields_fits (by decide)
theorem vmax (o : VBin) : Statement (.vmax o) := fun _ h => Option.some.inj h ▸ o.fields_fits (by decide)
theorem vabs (o : VUn) : Statement (.vabs o) := fun _ h => Option.some.inj h ▸ o.fields_fits (by decide)
theorem vneg (o : VUn) : Statement (.vneg o) := fun _ h => Option.some.inj h ▸ o.fields_fits (by decide)
theorem vcmp (o : VCmpOp) : Statement (.vcmp o) := fun _ h => Option.some.inj h ▸ o.fields_fits (by decide)
theorem vsel (g : Guard) (d : VReg) (a : VReg) (b : VSrc) (c : PReg) : Statement (.vsel g d a b c) := by
  have := g.code_lt
  have := d.isLt
  have := a.isLt
  have := c.isLt
  exact fun _ h => Option.some.inj h ▸ Fields.withV_fits (by simp [Fields.Fits, plainFields]; omega) b
theorem vmov (g : Guard) (d : VReg) (b : VSrc) (t : Ty) : Statement (.vmov g d b t) := by
  have := g.code_lt
  have := d.isLt
  have := t.code_lt
  exact fun _ h => Option.some.inj h ▸ Fields.withV_fits (by simp [Fields.Fits, plainFields]; omega) b
theorem vpopc (o : VUn) : Statement (.vpopc o) := fun _ h => Option.some.inj h ▸ o.fields_fits (by decide)
theorem vclz (o : VUn) : Statement (.vclz o) := fun _ h => Option.some.inj h ▸ o.fields_fits (by decide)
theorem vbfx (o : VBin) : Statement (.vbfx o) := fun _ h => Option.some.inj h ▸ o.fields_fits (by decide)
theorem vbfi (o : VTern) : Statement (.vbfi o) := fun _ h => Option.some.inj h ▸ o.fields_fits (by decide)
theorem vdot4 (o : VTern) : Statement (.vdot4 o) := fun _ h => Option.some.inj h ▸ o.fields_fits (by decide)
theorem viota (g : Guard) (d : VReg) (a : SReg) (t : Ty) : Statement (.viota g d a t) := by
  have := g.code_lt
  have := d.isLt
  have := a.code_lt
  have := t.code_lt
  simp [Statement, Instr.fields, Fields.Fits, plainFields] <;> omega
theorem vrdx (g : Guard) (d : VReg) (a : XReg) : Statement (.vrdx g d a) := by
  have := g.code_lt
  have := d.isLt
  have := a.isLt
  simp [Statement, Instr.fields, Fields.Fits, plainFields] <;> omega
theorem vwrx (g : Guard) (d : XReg) (a : VReg) : Statement (.vwrx g d a) := by
  have := g.code_lt
  have := d.isLt
  have := a.isLt
  simp [Statement, Instr.fields, Fields.Fits, plainFields] <;> omega
theorem vcvti (o : VCvt) : Statement (.vcvti o) := fun _ h => Option.some.inj h ▸ o.fields_fits (by decide)
theorem vpack (g : Guard) (d : VReg) (a : VReg) (b : VReg) (t : Ty) (src : Ty) (sat : Bool) : Statement (.vpack g d a b t src sat) := by
  have := g.code_lt
  have := d.isLt
  have := a.isLt
  have := b.isLt
  have := t.code_lt
  have := src.code_lt
  have := sat.toNat_lt
  simp [Statement, Instr.fields, Fields.Fits, plainFields] <;> omega
theorem vunpk (g : Guard) (d : VReg) (a : VReg) (t : Ty) (src : Ty) (sat : Bool) : Statement (.vunpk g d a t src sat) := by
  have := g.code_lt
  have := d.isLt
  have := a.isLt
  have := t.code_lt
  have := src.code_lt
  have := sat.toNat_lt
  simp [Statement, Instr.fields, Fields.Fits, plainFields] <;> omega
theorem vpermb (g : Guard) (d : VReg) (a : VReg) (b : VReg) (c : VReg) : Statement (.vpermb g d a b c) := by
  have := g.code_lt
  have := d.isLt
  have := a.isLt
  have := b.isLt
  have := c.isLt
  simp [Statement, Instr.fields, Fields.Fits, plainFields] <;> omega
theorem vfadd (o : VBin) : Statement (.vfadd o) := fun _ h => Option.some.inj h ▸ o.fields_fits (by decide)
theorem vfsub (o : VBin) : Statement (.vfsub o) := fun _ h => Option.some.inj h ▸ o.fields_fits (by decide)
theorem vfmul (o : VBin) : Statement (.vfmul o) := fun _ h => Option.some.inj h ▸ o.fields_fits (by decide)
theorem vfma (o : VTern) : Statement (.vfma o) := fun _ h => Option.some.inj h ▸ o.fields_fits (by decide)
theorem vfdiv (o : VBin) : Statement (.vfdiv o) := fun _ h => Option.some.inj h ▸ o.fields_fits (by decide)
theorem vfsqrt (o : VUn) : Statement (.vfsqrt o) := fun _ h => Option.some.inj h ▸ o.fields_fits (by decide)
theorem vfmin (o : VBin) : Statement (.vfmin o) := fun _ h => Option.some.inj h ▸ o.fields_fits (by decide)
theorem vfmax (o : VBin) : Statement (.vfmax o) := fun _ h => Option.some.inj h ▸ o.fields_fits (by decide)
theorem vfcmp (o : VCmpOp) : Statement (.vfcmp o) := fun _ h => Option.some.inj h ▸ o.fields_fits (by decide)
theorem vfclass (o : VUn) : Statement (.vfclass o) := fun _ h => Option.some.inj h ▸ o.fields_fits (by decide)
theorem vfrcp (o : VUn) : Statement (.vfrcp o) := fun _ h => Option.some.inj h ▸ o.fields_fits (by decide)
theorem vfrsq (o : VUn) : Statement (.vfrsq o) := fun _ h => Option.some.inj h ▸ o.fields_fits (by decide)
theorem vfexp2 (o : VUn) : Statement (.vfexp2 o) := fun _ h => Option.some.inj h ▸ o.fields_fits (by decide)
theorem vflog2 (o : VUn) : Statement (.vflog2 o) := fun _ h => Option.some.inj h ▸ o.fields_fits (by decide)
theorem vfscale (o : VBin) : Statement (.vfscale o) := fun _ h => Option.some.inj h ▸ o.fields_fits (by decide)
theorem vfrnd (g : Guard) (d : VReg) (a : VReg) (t : Ty) (rnd : Rnd) (exact : Bool) : Statement (.vfrnd g d a t rnd exact) := by
  have := g.code_lt
  have := d.isLt
  have := a.isLt
  have := t.code_lt
  have := rnd.code_lt
  have := exact.toNat_lt
  simp [Statement, Instr.fields, Fields.Fits, plainFields] <;> omega
theorem vfcvt (o : VCvt) : Statement (.vfcvt o) := fun _ h => Option.some.inj h ▸ o.fields_fits (by decide)
theorem vfcvti (o : VCvt) : Statement (.vfcvti o) := fun _ h => Option.some.inj h ▸ o.fields_fits (by decide)
theorem vicvtf (o : VCvt) : Statement (.vicvtf o) := fun _ h => Option.some.inj h ▸ o.fields_fits (by decide)
theorem vfslice (g : Guard) (d : VReg) (a : VReg) (b : VSrc) (j : Fin 8) (p : Fin 8) : Statement (.vfslice g d a b j p) := by
  have := g.code_lt
  have := d.isLt
  have := a.isLt
  have := j.isLt
  have := p.isLt
  exact fun _ h => Option.some.inj h ▸ Fields.withV_fits (by simp [Fields.Fits, plainFields]; omega) b
theorem vfjoin (o : VTern) : Statement (.vfjoin o) := fun _ h => Option.some.inj h ▸ o.fields_fits (by decide)
theorem voptm (g : Guard) (d : VReg) (a : VReg) (c : Fin 62) : Statement (.voptm g d a c) := by
  have := g.code_lt
  have := d.isLt
  have := a.isLt
  have := c.isLt
  simp [Statement, Instr.fields, Fields.Fits, plainFields] <;> omega
theorem vckadd (g : Guard) (ck : Fin 4) (a : VReg) (t : Ty) (neg : Bool) : Statement (.vckadd g ck a t neg) := by
  have := g.code_lt
  have := ck.isLt
  have := a.isLt
  have := t.code_lt
  have := neg.toNat_lt
  simp [Statement, Instr.fields, Fields.Fits, plainFields] <;> omega
theorem vcktst (d : SReg) (a : Fin 4) (b : Fin 4) (c : SReg) (trap : Bool) : Statement (.vcktst d a b c trap) := by
  have := d.code_lt
  have := a.isLt
  have := b.isLt
  have := c.code_lt
  have := trap.toNat_lt
  simp [Statement, Instr.fields, Fields.Fits, plainFields] <;> omega
theorem vfdot2 (g : Guard) (d : VReg) (a : VReg) (b : VReg) (c : VReg) (t : Ty) (rnd : Rnd) (sat : Bool) : Statement (.vfdot2 g d a b c t rnd sat) := by
  have := g.code_lt
  have := d.isLt
  have := a.isLt
  have := b.isLt
  have := c.isLt
  have := t.code_lt
  have := rnd.code_lt
  have := sat.toNat_lt
  simp [Statement, Instr.fields, Fields.Fits, plainFields, modOf] <;> omega
theorem bamax (g : Guard) (d : VReg) (a : VReg) (t : Ty) : Statement (.bamax g d a t) := by
  have := g.code_lt
  have := d.isLt
  have := a.isLt
  have := t.code_lt
  simp [Statement, Instr.fields, Fields.Fits, plainFields] <;> omega
theorem bscale (g : Guard) (d : VReg) (a : VReg) (t : Ty) (policy : Policy) (byte1 : Bool) : Statement (.bscale g d a t policy byte1) := by
  have := g.code_lt
  have := d.isLt
  have := a.isLt
  have := t.code_lt
  have := policy.code_lt
  have := byte1.toNat_lt
  simp [Statement, Instr.fields, Fields.Fits, plainFields] <;> omega
theorem bquant (o : QuantOp) : Statement (.bquant o) := fun _ h => Option.some.inj h ▸ o.fields_fits (by decide)
theorem bdeq (g : Guard) (d : VReg) (a : VReg) (t : Ty) (src : Ty) (rnd : Rnd) (sat : Bool) : Statement (.bdeq g d a t src rnd sat) := by
  have := g.code_lt
  have := d.isLt
  have := a.isLt
  have := t.code_lt
  have := src.code_lt
  have := rnd.code_lt
  have := sat.toNat_lt
  simp [Statement, Instr.fields, Fields.Fits, plainFields, modOf] <;> omega
theorem brescale (o : QuantOp) : Statement (.brescale o) := fun _ h => Option.some.inj h ▸ o.fields_fits (by decide)
theorem scget (g : Guard) (d : VReg) (a : VReg) : Statement (.scget g d a) := by
  have := g.code_lt
  have := d.isLt
  have := a.isLt
  simp [Statement, Instr.fields, Fields.Fits, plainFields] <;> omega
theorem scset (g : Guard) (d : VReg) (b : VSrc) (lo : Bool) (hi : Bool) : Statement (.scset g d b lo hi) := by
  have := g.code_lt
  have := d.isLt
  have := lo.toNat_lt
  have := hi.toNat_lt
  exact fun _ h => Option.some.inj h ▸ Fields.withV_fits (by simp [Fields.Fits, plainFields]; omega) b
theorem aqparm (g : Guard) (d : VReg) (a : VReg) : Statement (.aqparm g d a) := by
  have := g.code_lt
  have := d.isLt
  have := a.isLt
  simp [Statement, Instr.fields, Fields.Fits, plainFields] <;> omega
theorem aquant (g : Guard) (d : VReg) (a : VReg) (b : VReg) (rnd : Rnd) (part : Fin 4) : Statement (.aquant g d a b rnd part) := by
  have := g.code_lt
  have := d.isLt
  have := a.isLt
  have := b.isLt
  have := rnd.code_lt
  have := part.isLt
  simp [Statement, Instr.fields, Fields.Fits, plainFields] <;> omega
theorem adeq (g : Guard) (d : VReg) (a : VReg) (b : VReg) (rnd : Rnd) (sat : Bool) (part : Fin 4) : Statement (.adeq g d a b rnd sat part) := by
  have := g.code_lt
  have := d.isLt
  have := a.isLt
  have := b.isLt
  have := rnd.code_lt
  have := sat.toNat_lt
  have := part.isLt
  simp [Statement, Instr.fields, Fields.Fits, plainFields, modOf] <;> omega
theorem xshfl (o : ShflOp) : Statement (.xshfl o) := fun _ h => Option.some.inj h ▸ o.fields_fits (by decide)
theorem xpush (o : ShflOp) (p : PReg) : Statement (.xpush o p) := by
  have := p.isLt
  have := o.g.code_lt
  have := o.d.isLt
  have := o.a.isLt
  have := o.t.code_lt
  have := o.rel.toNat_lt
  cases hb : o.b <;> simp [Statement, Instr.fields, ShflOp.fields, Fields.Fits, plainFields, hb, VSrc.form, VSrc.field, VSrc.k] <;> omega
theorem xbfly (g : Guard) (d : VReg) (a : VReg) (b : VReg) (stage : Fin 5) : Statement (.xbfly g d a b stage) := by
  have := g.code_lt
  have := d.isLt
  have := a.isLt
  have := b.isLt
  have := stage.isLt
  simp [Statement, Instr.fields, Fields.Fits, plainFields] <;> omega
theorem xbcast (g : Guard) (d : VReg) (a : VReg) (b : SSrc) (t : Ty) : Statement (.xbcast g d a b t) := by
  have := g.code_lt
  have := d.isLt
  have := a.isLt
  have := t.code_lt
  exact fun _ h => Option.some.inj h ▸ Fields.withS_fits (by simp [Fields.Fits, plainFields]; omega) b
theorem xvote (g : Guard) (d : SReg) (a : PReg) (fn : VoteFn) : Statement (.xvote g d a fn) := by
  have := g.code_lt
  have := d.code_lt
  have := a.isLt
  have := fn.code_lt
  simp [Statement, Instr.fields, Fields.Fits, plainFields] <;> omega
theorem xred (g : Guard) (d : SReg) (a : VReg) (t : Ty) (rnd : Rnd) (op : RedOp) : Statement (.xred g d a t rnd op) := by
  have := g.code_lt
  have := d.code_lt
  have := a.isLt
  have := t.code_lt
  have := rnd.code_lt
  have := op.code_lt
  simp [Statement, Instr.fields, Fields.Fits, plainFields] <;> omega
theorem xscan (g : Guard) (d : VReg) (a : VReg) (t : Ty) (rnd : Rnd) (op : RedOp) (excl : Bool) : Statement (.xscan g d a t rnd op excl) := by
  have := g.code_lt
  have := d.isLt
  have := a.isLt
  have := t.code_lt
  have := rnd.code_lt
  have := op.code_lt
  have := excl.toNat_lt
  simp [Statement, Instr.fields, Fields.Fits, plainFields] <;> omega
theorem xcompact (g : Guard) (d : VReg) (a : VReg) (b : PReg) (c : SReg) : Statement (.xcompact g d a b c) := by
  have := g.code_lt
  have := d.isLt
  have := a.isLt
  have := b.isLt
  have := c.code_lt
  simp [Statement, Instr.fields, Fields.Fits, plainFields] <;> omega
theorem xsample (g : Guard) (d : SReg) (a : VReg) (b : SSrc) (t : Ty) : Statement (.xsample g d a b t) := by
  have := g.code_lt
  have := d.code_lt
  have := a.isLt
  have := t.code_lt
  exact fun _ h => Option.some.inj h ▸ Fields.withS_fits (by simp [Fields.Fits, plainFields]; omega) b
theorem xmatch (g : Guard) (d : VReg) (a : VReg) (t : Ty) : Statement (.xmatch g d a t) := by
  have := g.code_lt
  have := d.isLt
  have := a.isLt
  have := t.code_lt
  simp [Statement, Instr.fields, Fields.Fits, plainFields] <;> omega
theorem ld (o : LaneMem) : Statement (.ld o) := by
  intro x h
  obtain ⟨h1, h2, h3, h4, h5, h6, h7⟩ := o.fields_fits (opc := 0xA0) (by decide)
  exact Option.some.inj h ▸ ⟨h1, h2, o.r.isLt, h4, h5, h6, h7⟩
theorem st (o : LaneMem) : Statement (.st o) := by
  have := o.r.isLt
  have := o.g.code_lt
  have := o.a.isLt
  have := o.t.code_lt
  have := o.sp.code_lt
  cases hb : o.b <;> simp [Statement, Instr.fields, LaneMem.fields, Fields.Fits, plainFields, hb, SSrc.form, SSrc.field, SSrc.k] <;> (try have := SReg.code_lt ‹_›) <;> omega
theorem lds (o : WaveMem) : Statement (.lds o) := by
  intro x h
  obtain ⟨h1, h2, h3, h4, h5, h6, h7⟩ := o.fields_fits (opc := 0xA2) (by decide)
  exact Option.some.inj h ▸ ⟨h1, h2, o.r.code_lt, h4, h5, h6, h7⟩
theorem sts (o : WaveMem) : Statement (.sts o) := by
  have := o.r.code_lt
  have := o.a.code_lt
  have := o.t.code_lt
  have := o.sp.code_lt
  cases hb : o.b <;> simp [Statement, Instr.fields, WaveMem.fields, Fields.Fits, plainFields, hb, SSrc.form, SSrc.field, SSrc.k] <;> (try have := SReg.code_lt ‹_›) <;> omega
theorem ldb (o : BlockMem) : Statement (.ldb o) := fun _ h => Option.some.inj h ▸ o.fields_fits (by decide)
theorem stb (o : BlockMem) : Statement (.stb o) := fun _ h => Option.some.inj h ▸ o.fields_fits (by decide)
theorem atom (o : AtomMem) : Statement (.atom o) := by
  have := o.g.code_lt
  have := o.a.isLt
  have := o.c.isLt
  have := o.t.code_lt
  have := o.sp.code_lt
  have := o.op.code_lt
  have := o.d.isLt
  exact fun _ h => Option.some.inj h ▸ Fields.withS_fits (by simp [Fields.Fits, plainFields]; omega) o.b
theorem red (o : RedMem) : Statement (.red o) := by
  have := o.g.code_lt
  have := o.a.isLt
  have := o.c.isLt
  have := o.t.code_lt
  have := o.sp.code_lt
  have := o.op.code_lt
  exact fun _ h => Option.some.inj h ▸ Fields.withS_fits (by simp [Fields.Fits, plainFields]; omega) o.b
theorem fence (sc : Scope) : Statement (.fence sc) := by
  have := sc.code_lt
  simp [Statement, Instr.fields, Fields.Fits, plainFields] <;> omega
theorem ownGive (a : SReg) (b : SSrc) : Statement (.ownGive a b) := by
  have := a.code_lt
  exact fun _ h => Option.some.inj h ▸ Fields.withS_fits (by simp [Fields.Fits, plainFields]; omega) b
theorem ownTake (a : SReg) (b : SSrc) : Statement (.ownTake a b) := by
  have := a.code_lt
  exact fun _ h => Option.some.inj h ▸ Fields.withS_fits (by simp [Fields.Fits, plainFields]; omega) b
theorem ownt (d : SReg) (a : SReg) (b : SSrc) : Statement (.ownt d a b) := by
  have := d.code_lt
  have := a.code_lt
  exact fun _ h => Option.some.inj h ▸ Fields.withS_fits (by simp [Fields.Fits, plainFields]; omega) b
theorem qpush (o : DequeMem) (c : VReg) : Statement (.qpush o c) := by
  have := c.isLt
  have := o.g.code_lt
  have := o.d.isLt
  have := o.a.isLt
  have := o.sp.code_lt
  have := o.p.isLt
  cases hb : o.b <;> simp [Statement, Instr.fields, DequeMem.fields, Fields.Fits, plainFields, hb, SSrc.form, SSrc.field, SSrc.k] <;> (try have := SReg.code_lt ‹_›) <;> omega
theorem qpop (o : DequeMem) : Statement (.qpop o) := fun _ h => Option.some.inj h ▸ o.fields_fits (by decide)
theorem qsteal (o : DequeMem) : Statement (.qsteal o) := fun _ h => Option.some.inj h ▸ o.fields_fits (by decide)
theorem pref (g : Guard) (a : VReg) (b : SSrc) (l2 : Bool) : Statement (.pref g a b l2) := by
  have := g.code_lt
  have := a.isLt
  have := l2.toNat_lt
  exact fun _ h => Option.some.inj h ▸ Fields.withS_fits (by simp [Fields.Fits, plainFields]; omega) b
theorem push (d : SReg) (p : PReg) (a : Fin 57) (b : SSrc) : Statement (.push d p a b) := by
  have := d.code_lt
  have := p.isLt
  have := a.isLt
  exact fun _ h => Option.some.inj h ▸ Fields.withS_fits (by simp [Fields.Fits, plainFields]; omega) b
theorem engst (d : SReg) (b : SSrc) (fn : Fin 3) : Statement (.engst d b fn) := by
  have := d.code_lt
  have := fn.isLt
  exact fun _ h => Option.some.inj h ▸ Fields.withS_fits (by simp [Fields.Fits, plainFields]; omega) b
theorem trayputAppend (g : Guard) (d : VReg) (a : VReg) (b : SSrc) (c : VReg) (t : Ty) (op : AtomOp) (p : PReg) : Statement (.trayputAppend g d a b c t op p) := by
  have := g.code_lt
  have := d.isLt
  have := a.isLt
  have := c.isLt
  have := t.code_lt
  have := op.code_lt
  have := p.isLt
  exact fun _ h => Option.some.inj h ▸ Fields.withS_fits (by simp [Fields.Fits, plainFields]; omega) b
theorem trayputDrain (d : SReg) (p : PReg) (a : Fin 57) (b : SSrc) : Statement (.trayputDrain d p a b) := by
  have := d.code_lt
  have := p.isLt
  have := a.isLt
  exact fun _ h => Option.some.inj h ▸ Fields.withS_fits (by simp [Fields.Fits, plainFields]; omega) b
theorem copen (d : QReg) (a : SReg) (c : SReg) (mode : CurMode) : Statement (.copen d a c mode) := by
  have := d.isLt
  have := a.code_lt
  have := c.code_lt
  have := mode.code_lt
  simp [Statement, Instr.fields, Fields.Fits, plainFields] <;> omega
theorem cnext (g : Guard) (d : VReg) (a : QReg) (c : SReg) (p : PReg) : Statement (.cnext g d a c p) := by
  have := g.code_lt
  have := d.isLt
  have := a.isLt
  have := c.code_lt
  have := p.isLt
  simp [Statement, Instr.fields, Fields.Fits, plainFields] <;> omega
theorem csplit (g : Guard) (d : VReg) (a : VReg) (b : QReg) : Statement (.csplit g d a b) := by
  have := g.code_lt
  have := d.isLt
  have := a.isLt
  have := b.isLt
  simp [Statement, Instr.fields, Fields.Fits, plainFields] <;> omega
theorem cseek (d : QReg) (a : SReg) (b : SReg) (c : SReg) : Statement (.cseek d a b c) := by
  have := d.isLt
  have := a.code_lt
  have := b.code_lt
  have := c.code_lt
  simp [Statement, Instr.fields, Fields.Fits, plainFields] <;> omega
theorem csave (a : SReg) (b : SSrc) (c : QReg) (sp : Space) : Statement (.csave a b c sp) := by
  have := a.code_lt
  have := c.isLt
  have := sp.code_lt
  exact fun _ h => Option.some.inj h ▸ Fields.withS_fits (by simp [Fields.Fits, plainFields]; omega) b
theorem cload (d : QReg) (a : SReg) (b : SSrc) (sp : Space) : Statement (.cload d a b sp) := by
  have := d.isLt
  have := a.code_lt
  have := sp.code_lt
  exact fun _ h => Option.some.inj h ▸ Fields.withS_fits (by simp [Fields.Fits, plainFields]; omega) b
theorem cstatH (d : SReg) (a : QReg) (w : Fin 4) : Statement (.cstatH d a w) := by
  have := d.code_lt
  have := a.isLt
  have := w.isLt
  simp [Statement, Instr.fields, Fields.Fits, plainFields] <;> omega
theorem cstatW (d : SReg) (a : QReg) (w : Fin 4) : Statement (.cstatW d a w) := by
  have := d.code_lt
  have := a.isLt
  have := w.isLt
  simp [Statement, Instr.fields, Fields.Fits, plainFields] <;> omega
theorem ccloseH (d : QReg) : Statement (.ccloseH d) := by
  have := d.isLt
  simp [Statement, Instr.fields, Fields.Fits, plainFields] <;> omega
theorem ccloseW (d : QReg) : Statement (.ccloseW d) := by
  have := d.isLt
  simp [Statement, Instr.fields, Fields.Fits, plainFields] <;> omega
theorem cunpk (g : Guard) (d : VReg) (c : SReg) (p : PReg) (o : UnpkOp) : Statement (.cunpk g d c p o) := by
  have := g.code_lt
  have := d.isLt
  have := c.code_lt
  have := p.isLt
  cases o with
  | bm b =>
    have := b.code_lt
    simp [Statement, Instr.fields, Fields.Fits, plainFields]
    omega
  | rl =>
    simp [Statement, Instr.fields, Fields.Fits, plainFields]
    omega
  | d16 a b =>
    have := a.isLt
    have := b.code_lt
    simp [Statement, Instr.fields, Fields.Fits, plainFields]
    omega
theorem accord (d : SReg) (a : SReg) : Statement (.accord d a) := by
  have := d.code_lt
  have := a.code_lt
  simp [Statement, Instr.fields, Fields.Fits, plainFields] <;> omega
theorem mma (o : MmaOp) : Statement (.mma o) := fun _ h => Option.some.inj h ▸ o.fields_fits (by decide)
theorem qmma (o : MmaOp) (c : SReg) : Statement (.qmma o c) := by
  have := c.code_lt
  have := o.d.isLt
  have := o.a.code_lt
  have := o.b.code_lt
  have := o.t.code_lt
  have := o.nk.isLt
  have := o.int.toNat_lt
  simp [Statement, Instr.fields, MmaOp.fields, Fields.Fits, plainFields]
  omega
theorem mmax (o : MmaOp) (c : SReg) : Statement (.mmax o c) := by
  have := c.code_lt
  have := o.d.isLt
  have := o.a.code_lt
  have := o.b.code_lt
  have := o.t.code_lt
  have := o.nk.isLt
  have := o.int.toNat_lt
  simp [Statement, Instr.fields, MmaOp.fields, Fields.Fits, plainFields]
  omega
theorem mzeroH (d : TReg) (i64 : Bool) : Statement (.mzeroH d i64) := by
  have := d.isLt
  have := i64.toNat_lt
  simp [Statement, Instr.fields, Fields.Fits, plainFields] <;> omega
theorem mzeroW (d : TReg) (i64 : Bool) : Statement (.mzeroW d i64) := by
  have := d.isLt
  have := i64.toNat_lt
  simp [Statement, Instr.fields, Fields.Fits, plainFields] <;> omega
theorem mload (d : TReg) (a : SReg) (b : SSrc) (t : Ty) (sp : Space) : Statement (.mload d a b t sp) := by
  have := d.isLt
  have := a.code_lt
  have := t.code_lt
  have := sp.code_lt
  exact fun _ h => Option.some.inj h ▸ Fields.withS_fits (by simp [Fields.Fits, plainFields]; omega) b
theorem mstore (a : SReg) (b : SSrc) (c : TReg) (t : Ty) (sp : Space) (rnd : Rnd) : Statement (.mstore a b c t sp rnd) := by
  have := a.code_lt
  have := c.isLt
  have := t.code_lt
  have := sp.code_lt
  have := rnd.code_lt
  exact fun _ h => Option.some.inj h ▸ Fields.withS_fits (by simp [Fields.Fits, plainFields]; omega) b
theorem mread (g : Guard) (d : VReg) (a : TReg) (b : SReg) (t : Ty) : Statement (.mread g d a b t) := by
  have := g.code_lt
  have := d.isLt
  have := a.isLt
  have := b.code_lt
  have := t.code_lt
  simp [Statement, Instr.fields, Fields.Fits, plainFields] <;> omega
theorem mwrite (g : Guard) (d : TReg) (a : VReg) (b : SReg) (t : Ty) : Statement (.mwrite g d a b t) := by
  have := g.code_lt
  have := d.isLt
  have := a.isLt
  have := b.code_lt
  have := t.code_lt
  simp [Statement, Instr.fields, Fields.Fits, plainFields] <;> omega
theorem mstatH (d : SReg) (a : TReg) (clr : Bool) : Statement (.mstatH d a clr) := by
  have := d.code_lt
  have := a.isLt
  have := clr.toNat_lt
  simp [Statement, Instr.fields, Fields.Fits, plainFields] <;> omega
theorem mstatW (d : SReg) (a : TReg) (clr : Bool) : Statement (.mstatW d a clr) := by
  have := d.code_lt
  have := a.isLt
  have := clr.toNat_lt
  simp [Statement, Instr.fields, Fields.Fits, plainFields] <;> omega
theorem wbload (a : SReg) (b : SReg) (t : Ty) (slot : Fin 8) : Statement (.wbload a b t slot) := by
  have := a.code_lt
  have := b.code_lt
  have := t.code_lt
  have := slot.isLt
  simp [Statement, Instr.fields, Fields.Fits, plainFields] <;> omega
theorem mfoldH (d : TReg) : Statement (.mfoldH d) := by
  have := d.isLt
  simp [Statement, Instr.fields, Fields.Fits, plainFields] <;> omega
theorem mfoldW (d : TReg) : Statement (.mfoldW d) := by
  have := d.isLt
  simp [Statement, Instr.fields, Fields.Fits, plainFields] <;> omega
theorem mscale (d : TReg) (b : SSrc) : Statement (.mscale d b) := by
  have := d.isLt
  exact fun _ h => Option.some.inj h ▸ Fields.withS_fits (by simp [Fields.Fits, plainFields]; omega) b
theorem mck (a : TReg) (o : MckOp) : Statement (.mck a o) := by
  have := a.isLt
  cases o with
  | col d t =>
    have := d.isLt
    have := t.code_lt
    simp [Statement, Instr.fields, Fields.Fits, plainFields]
    omega
  | ck n =>
    have := n.isLt
    simp [Statement, Instr.fields, Fields.Fits, plainFields]
    omega
theorem hintExpiry (gid : Nat) (wave : Nat) (slice : Nat) : Statement (.hintExpiry gid wave slice) := nofun
theorem lCountedCompletion (gid : Nat) (wave : Nat) : Statement (.lCountedCompletion gid wave) := nofun
theorem sCountedCompletion (gid : Nat) (wave : Nat) : Statement (.sCountedCompletion gid wave) := nofun
theorem enlargerStep (gid : Nat) : Statement (.enlargerStep gid) := nofun
theorem matrixCompletion (gid : Nat) (wave : Nat) : Statement (.matrixCompletion gid wave) := nofun
theorem commonRegisterWrite (die : Nat) (core : Nat) : Statement (.commonRegisterWrite die core) := nofun
theorem engineHeadAging (die : Nat) (unit : Nat) (prio : Nat) : Statement (.engineHeadAging die unit prio) := nofun
theorem copyCmd (die : Nat) (eng : Nat) : Statement (.copyCmd die eng) := nofun
theorem gatherCmd (die : Nat) (eng : Nat) : Statement (.gatherCmd die eng) := nofun
theorem importCmd (die : Nat) (eng : Nat) : Statement (.importCmd die eng) := nofun
theorem exportCmd (die : Nat) (eng : Nat) : Statement (.exportCmd die eng) := nofun
theorem wbfillCmd (die : Nat) (eng : Nat) : Statement (.wbfillCmd die eng) := nofun
theorem landCmd (die : Nat) (eng : Nat) : Statement (.landCmd die eng) := nofun
theorem trayDrain (die : Nat) : Statement (.trayDrain die) := nofun
theorem malformedCommand (die : Nat) (unit : Nat) : Statement (.malformedCommand die unit) := nofun
theorem hostWalkRequest (die : Nat) : Statement (.hostWalkRequest die) := nofun
theorem hostWalkAnswer (slot : Nat) (level : Nat) (leaf : Word) : Statement (.hostWalkAnswer slot level leaf) := nofun
theorem hostWalkTimeout (n : Nat) : Statement (.hostWalkTimeout n) := nofun
theorem trinvRange (v : Word) : Statement (.trinvRange v) := nofun
theorem trinvAsid (v : Word) : Statement (.trinvAsid v) := nofun
theorem trinvAll (v : Word) : Statement (.trinvAll v) := nofun
theorem registerWrite (off : Nat) (bytes : Nat) (v : Word) : Statement (.registerWrite off bytes v) := nofun
theorem fabcfgModeNone (v : Word) : Statement (.fabcfgModeNone v) := nofun
theorem fabcfgModeMesh (v : Word) : Statement (.fabcfgModeMesh v) := nofun
theorem fabcfgModeSwitched (v : Word) : Statement (.fabcfgModeSwitched v) := nofun
theorem portTrainingDone (port : Nat) (up : Bool) (pkg : Nat) (far : Nat) : Statement (.portTrainingDone port up pkg far) := nofun
theorem shadowRotation (port : Nat) : Statement (.shadowRotation port) := nofun
theorem weakLane (port : Nat) (lane : Nat) : Statement (.weakLane port lane) := nofun
theorem laneRecalibrated (port : Nat) (lane : Nat) : Statement (.laneRecalibrated port lane) := nofun
theorem portDead (port : Nat) : Statement (.portDead port) := nofun
theorem advanceNotice (ver : Nat) (link : Option (Nat × Nat)) : Statement (.advanceNotice ver link) := nofun
theorem rtadv (v : Word) : Statement (.rtadv v) := nofun
theorem packetForward (p : Packet) : Statement (.packetForward p) := nofun
theorem podRequestArrival (src : Nat) (seq : Nat) (ver : Nat) (r : PodReq) : Statement (.podRequestArrival src seq ver r) := nofun
theorem podResponseArrival (src : Nat) (seq : Nat) (ver : Nat) (r : PodResp) : Statement (.podResponseArrival src seq ver r) := nofun
theorem retryTimerExpiry (pkg : Nat) (resp : Bool) : Statement (.retryTimerExpiry pkg resp) := nofun
theorem fabtmoExpiry (pkg : Nat) : Statement (.fabtmoExpiry pkg) := nofun
theorem dataLinkRetry (port : Nat) : Statement (.dataLinkRetry port) := nofun
theorem d2dLinkDegraded (die : Nat) (link : Nat) : Statement (.d2dLinkDegraded die link) := nofun
theorem allreduceCmd (die : Nat) (asid : Nat) : Statement (.allreduceCmd die asid) := nofun
theorem reduceCmd (die : Nat) (asid : Nat) : Statement (.reduceCmd die asid) := nofun
theorem broadcastCmd (die : Nat) (asid : Nat) : Statement (.broadcastCmd die asid) := nofun
theorem collectiveJoin (h : PacketHead) (id digest : Nat) : Statement (.collectiveJoin h id digest) := nofun
theorem collectiveJoinTimeout (id : Nat) : Statement (.collectiveJoinTimeout id) := nofun
theorem collectivePayload (h : PacketHead) (id : Nat) (m : CollMsg) : Statement (.collectivePayload h id m) := nofun
theorem bar4Read (off : Nat) (len : Nat) : Statement (.bar4Read off len) := nofun
theorem bar4Write (off : Nat) (bytes : List Byte) : Statement (.bar4Write off bytes) := nofun
theorem hostCompletion (r : HostResp) : Statement (.hostCompletion r) := nofun
theorem hostWriteFailure (addr : Nat) : Statement (.hostWriteFailure addr) := nofun
theorem submit (die : Nat) (prio : Nat) : Statement (.submit die prio) := nofun
theorem groupPop (die : Nat) (core : Nat) : Statement (.groupPop die core) := nofun
theorem queueAging (die : Nat) (prio : Nat) : Statement (.queueAging die prio) := nofun
theorem acquireAdmission (die : Nat) (core : Nat) : Statement (.acquireAdmission die core) := nofun
theorem admissionSpill (die : Nat) (core : Nat) : Statement (.admissionSpill die core) := nofun
theorem opPointStable (die : Nat) : Statement (.opPointStable die) := nofun
theorem groupEnd (gid : Nat) : Statement (.groupEnd gid) := nofun
theorem joinEnqueueRetry (gid : Nat) : Statement (.joinEnqueueRetry gid) := nofun
theorem vacreqVacate (v : Word) : Statement (.vacreqVacate v) := nofun
theorem vacreqRelease (v : Word) : Statement (.vacreqRelease v) := nofun
theorem groupSave (gid : Nat) : Statement (.groupSave gid) := nofun
theorem vacateTimeout (gid : Nat) : Statement (.vacateTimeout gid) := nofun
theorem faultServiceRequest (gid : Nat) (wave : Nat) : Statement (.faultServiceRequest gid wave) := nofun
theorem faultServiceAnswer (slot : Nat) (resp : Nat) : Statement (.faultServiceAnswer slot resp) := nofun
theorem faultServiceTimeout (gid : Nat) (wave : Nat) : Statement (.faultServiceTimeout gid wave) := nofun
theorem coreUncorrectableError (die : Nat) (core : Nat) : Statement (.coreUncorrectableError die core) := nofun
theorem fencereqFence (v : Word) : Statement (.fencereqFence v) := nofun
theorem fencereqDiscard (v : Word) : Statement (.fencereqDiscard v) := nofun
theorem reservedOpcode (w : BitVec 32) : Statement (.reservedOpcode w) := nofun
theorem fetchFault (kind : Nat) (level : Nat) (va : Word) : Statement (.fetchFault kind level va) := nofun
theorem loadreq (v : Word) : Statement (.loadreq v) := nofun
theorem powerOnReset (pass : List Bool) : Statement (.powerOnReset pass) := nofun
theorem bringupRetry (pass : List Bool) : Statement (.bringupRetry pass) := nofun
theorem powerLimitExceeded (pmin : Nat) : Statement (.powerLimitExceeded pmin) := nofun
theorem measuredPowerUpdate (watts : Nat) : Statement (.measuredPowerUpdate watts) := nofun
theorem nopH : Statement (.nopH) := by
  simp [Statement, Instr.fields, Fields.Fits, plainFields, Fields.short]
theorem nopW : Statement (.nopW) := by
  simp [Statement, Instr.fields, Fields.Fits, plainFields]
theorem joinH : Statement (.joinH) := by
  simp [Statement, Instr.fields, Fields.Fits, plainFields, Fields.short]
theorem joinW : Statement (.joinW) := by
  simp [Statement, Instr.fields, Fields.Fits, plainFields]
theorem yieldH : Statement (.yieldH) := by
  simp [Statement, Instr.fields, Fields.Fits, plainFields, Fields.short]
theorem yieldW : Statement (.yieldW) := by
  simp [Statement, Instr.fields, Fields.Fits, plainFields]
theorem exitH : Statement (.exitH) := by
  simp [Statement, Instr.fields, Fields.Fits, plainFields, Fields.short]
theorem exitW : Statement (.exitW) := by
  simp [Statement, Instr.fields, Fields.Fits, plainFields]
theorem acquireH : Statement (.acquireH) := by
  simp [Statement, Instr.fields, Fields.Fits, plainFields, Fields.short]
theorem acquireW : Statement (.acquireW) := by
  simp [Statement, Instr.fields, Fields.Fits, plainFields]
theorem tretH : Statement (.tretH) := by
  simp [Statement, Instr.fields, Fields.Fits, plainFields, Fields.short]
theorem tretW : Statement (.tretW) := by
  simp [Statement, Instr.fields, Fields.Fits, plainFields]
theorem trinvDone : Statement (.trinvDone) := nofun
theorem completionTimeout : Statement (.completionTimeout) := nofun
theorem freeze : Statement (.freeze) := nofun
theorem freezeNHigh : Statement (.freezeNHigh) := nofun
theorem safelightReadout : Statement (.safelightReadout) := nofun

end Sys2Proof.Laws.EncodingFits
end

