-- ==== Sys2Proof/Laws/Sparse.lean ====
section
/-!
SUPPORT. Maps held as lists: what a write leaves to be read, and that every operation keeps the canonical form.
-/

namespace Sys2Proof.Machine

variable {α : Type} [DecidableEq α] {d : α}

/-- What the canonical form above a bound says of a map that is not empty. -/
theorem Sparse.wfAbove_cons {lo : Option Nat} {j : Nat} {v : α} {m : Sparse α} :
    Sparse.wfAbove d lo ((j, v) :: m) = true ↔
      (∀ l, lo = some l → l < j) ∧ v ≠ d ∧ Sparse.wfAbove d (some j) m = true := by
  cases lo <;> simp [Sparse.wfAbove, and_assoc]

theorem Sparse.wfAbove_nil {lo : Option Nat} : Sparse.wfAbove d lo [] = true := by
  simp [Sparse.wfAbove]

/-- A smaller bound, or none, keeps the form. -/
theorem Sparse.wfAbove_weaken {m : Sparse α} {j : Nat} {lo : Option Nat} (hlo : ∀ l, lo = some l → l ≤ j)
    (h : Sparse.wfAbove d (some j) m = true) : Sparse.wfAbove d lo m = true := by
  cases m with
  | nil => exact Sparse.wfAbove_nil
  | cons e m =>
    obtain ⟨k, v⟩ := e
    rw [Sparse.wfAbove_cons] at h ⊢
    exact ⟨fun l hl => Nat.lt_of_le_of_lt (hlo l hl) (h.1 j rfl), h.2⟩

theorem Sparse.wfAbove_insert {m : Sparse α} {lo : Option Nat} {k : Nat} {v : α} (hv : v ≠ d)
    (hk : ∀ l, lo = some l → l < k) (h : Sparse.wfAbove d lo m = true) :
    Sparse.wfAbove d lo (Sparse.insert m k v) = true := by
  induction m generalizing lo with
  | nil => exact Sparse.wfAbove_cons.2 ⟨hk, hv, Sparse.wfAbove_nil⟩
  | cons e m ih =>
    obtain ⟨j, u⟩ := e
    have h' := Sparse.wfAbove_cons.1 h
    unfold Sparse.insert
    split
    · next hjk => exact Sparse.wfAbove_cons.2 ⟨hk, hv, hjk ▸ h'.2.2⟩
    · next hjk =>
      split
      · next hlt =>
        refine Sparse.wfAbove_cons.2 ⟨hk, hv, Sparse.wfAbove_cons.2 ⟨?_, h'.2.1, h'.2.2⟩⟩
        intro l hl
        cases hl
        exact hlt
      · next hlt =>
        refine Sparse.wfAbove_cons.2 ⟨h'.1, h'.2.1, ih ?_ h'.2.2⟩
        intro l hl
        cases hl
        omega

theorem Sparse.wfAbove_filter {m : Sparse α} {lo : Option Nat} {p : Nat × α → Bool}
    (h : Sparse.wfAbove d lo m = true) : Sparse.wfAbove d lo (m.filter p) = true := by
  induction m generalizing lo with
  | nil => exact Sparse.wfAbove_nil
  | cons e m ih =>
    obtain ⟨j, u⟩ := e
    have h' := Sparse.wfAbove_cons.1 h
    rw [List.filter_cons]
    split
    · exact Sparse.wfAbove_cons.2 ⟨h'.1, h'.2.1, ih h'.2.2⟩
    · exact ih (Sparse.wfAbove_weaken (fun l hl => Nat.le_of_lt (h'.1 l hl)) h'.2.2)

/-- A write keeps the canonical form. -/
theorem Sparse.wf_set {m : Sparse α} {k : Nat} {v : α} (h : Sparse.wf d m = true) :
    Sparse.wf d (Sparse.set d m k v) = true := by
  unfold Sparse.set
  split
  · exact Sparse.wfAbove_filter h
  · exact Sparse.wfAbove_insert ‹_› (by simp) h

/-- Dropping entries keeps the canonical form. -/
theorem Sparse.wf_filter {m : Sparse α} {p : Nat × α → Bool} (h : Sparse.wf d m = true) :
    Sparse.wf d (m.filter p) = true := Sparse.wfAbove_filter h

theorem Sparse.wf_erase {m : Sparse α} {lo hi : Nat} (h : Sparse.wf d m = true) :
    Sparse.wf d (Sparse.erase m lo hi) = true := Sparse.wfAbove_filter h

theorem Sparse.wf_fill {m : Sparse α} {k n : Nat} {v : α} (h : Sparse.wf d m = true) :
    Sparse.wf d (Sparse.fill d m k v n) = true := by
  induction n generalizing m k with
  | zero => exact h
  | succ n ih => exact ih (Sparse.wf_set h)

omit [DecidableEq α] in
theorem Sparse.get_insert {m : Sparse α} {k i : Nat} {v : α} :
    Sparse.get d (Sparse.insert m k v) i = if i = k then v else Sparse.get d m i := by
  induction m with
  | nil => simp only [Sparse.insert, Sparse.get, eq_comm]
  | cons e m ih =>
    obtain ⟨j, u⟩ := e
    simp only [Sparse.insert]
    split
    · next hjk =>
      subst hjk
      simp only [Sparse.get, eq_comm (a := i)]
      split <;> rfl
    · next hjk =>
      split
      · simp only [Sparse.get, eq_comm (a := i)]
      · simp only [Sparse.get, ih]
        split
        · next hji => rw [if_neg (by omega)]
        · rfl

omit [DecidableEq α] in
theorem Sparse.get_drop {m : Sparse α} {k i : Nat} :
    Sparse.get d (m.filter fun e => e.1 != k) i = if i = k then d else Sparse.get d m i := by
  induction m with
  | nil => simp [Sparse.get]
  | cons e m ih =>
    obtain ⟨j, u⟩ := e
    rw [List.filter_cons]
    split
    · next hj =>
      have hj : j ≠ k := by simpa using hj
      simp only [Sparse.get, ih]
      split
      · next hji => rw [if_neg (by omega)]
      · rfl
    · next hj =>
      have hj : j = k := by simpa using hj
      rw [ih]
      simp only [Sparse.get]
      split
      · rfl
      · rw [if_neg (by omega)]

/-- What is written is read; every other key reads as before. -/
theorem Sparse.get_set {m : Sparse α} {k i : Nat} {v : α} :
    Sparse.get d (Sparse.set d m k v) i = if i = k then v else Sparse.get d m i := by
  unfold Sparse.set
  split
  · next hv => rw [Sparse.get_drop, hv]
  · exact Sparse.get_insert

theorem Sparse.get_set_same {m : Sparse α} {k : Nat} {v : α} : Sparse.get d (Sparse.set d m k v) k = v := by
  rw [Sparse.get_set, if_pos rfl]

theorem Sparse.get_set_other {m : Sparse α} {k i : Nat} {v : α} (h : i ≠ k) :
    Sparse.get d (Sparse.set d m k v) i = Sparse.get d m i := by
  rw [Sparse.get_set, if_neg h]

/-! ## Memory -/

theorem Memory.wf_write {m : Memory} {a : Nat} {b : Byte} (h : Memory.wf m = true) :
    Memory.wf (m.write a b) = true := Sparse.wf_set h

theorem Memory.wf_writeBytes {bs : List Byte} {m : Memory} {a : Nat} (h : Memory.wf m = true) :
    Memory.wf (m.writeBytes a bs) = true := by
  induction bs generalizing m a with
  | nil => exact h
  | cons b bs ih => exact ih (Memory.wf_write h)

theorem Memory.read_write {m : Memory} {a i : Nat} {b : Byte} :
    (m.write a b).read i = if i = a then b else m.read i := Sparse.get_set

/-- A run of writes keeps the canonical form. -/
theorem Memory.wf_foldl {β : Type} {f : Memory → β → Memory}
    (hf : ∀ m x, Memory.wf m = true → Memory.wf (f m x) = true) {xs : List β} {m : Memory}
    (h : Memory.wf m = true) : Memory.wf (xs.foldl f m) = true := by
  induction xs generalizing m with
  | nil => exact h
  | cons x xs ih => exact ih (hf m x h)

end Sys2Proof.Machine
end

