-- ==== Sys2Proof/Laws/Storage.lean ====
section
/-!
SUPPORT. Storage: every operation on memory, on the metadata of its lines and on the owner bits keeps the canonical form,
and what a byte that was written reads.
-/

namespace Sys2Proof.Machine

/-- The maps of storage stand in their canonical form. -/
theorem storageWf_iff {s : State} : storageWf s = true ↔ Memory.wf s.mem = true ∧ Sparse.wf Line.unwritten s.hbm = true ∧
    Sparse.wf Line.plain s.spad = true ∧ Sparse.wf false s.owner = true ∧ Sparse.wf false s.ownerBad = true := by
  simp only [storageWf, Bool.and_eq_true, and_assoc]

/-- The storage right after reset lists nothing. -/
theorem storageWf_reset : storageWf State.reset = true := by decide

/-- Only the maps of storage matter. -/
theorem storageWf_of_eq {s t : State} (h : storageWf s = true) (hm : t.mem = s.mem) (hh : t.hbm = s.hbm)
    (hs : t.spad = s.spad) (ho : t.owner = s.owner) (hb : t.ownerBad = s.ownerBad) : storageWf t = true := by
  unfold storageWf
  rw [hm, hh, hs, ho, hb]
  exact h

/-- New memory in its canonical form. -/
theorem storageWf_mem {s : State} {m : Memory} (h : storageWf s = true) (hm : Memory.wf m = true) :
    storageWf { s with mem := m } = true :=
  storageWf_iff.2 ⟨hm, (storageWf_iff.1 h).2⟩

/-- Lines that enter an L2 change no storage. -/
theorem fillL2_wf {s : State} {pas : List Nat} (h : storageWf s = true) : storageWf (fillL2 s pas) = true :=
  storageWf_of_eq h rfl rfl rfl rfl rfl

/-- What entering a line does to the lines that an L2 holds: nothing where it is there or is no line of local HBM; else it
stands last, and at most one other line of its die has gone. -/
theorem mem_enterL2 {l2 : List Nat} {line n : Nat} (h : n ∈ enterL2 l2 line) : n ∈ l2 ∨ (n = line ∧ line < 2 ^ 33) := by
  unfold enterL2 at h
  split at h
  · exact .inl h
  · next hc =>
    simp only [Bool.or_eq_true, decide_eq_true_eq, not_or] at hc
    obtain h | h := List.mem_append.1 h
    · refine .inl ?_
      split at h
      · exact h
      · exact List.mem_of_mem_erase h
    · exact .inr ⟨List.mem_singleton.1 h, by omega⟩

/-- No L2 holds a line twice. -/
theorem enterL2_nodup {l2 : List Nat} {line : Nat} (h : l2.Nodup) : (enterL2 l2 line).Nodup := by
  unfold enterL2
  split
  · exact h
  · next hc =>
    have hn : line ∉ l2 := fun hm => hc (by simp [hm])
    refine List.nodup_append'.2 ⟨?_, List.nodup_singleton _, ?_⟩
    · split
      · exact h
      · exact h.erase _
    · refine List.disjoint_singleton.2 fun hm => hn ?_
      split at hm
      · exact hm
      · exact List.mem_of_mem_erase hm

theorem storeBytes_wf {s : State} {ws : List (Nat × Byte)} (h : storageWf s = true) :
    storageWf (storeBytes s ws) = true :=
  fillL2_wf (storageWf_mem h (Memory.wf_foldl (fun _ _ => Memory.wf_write) (storageWf_iff.1 h).1))

theorem clearF_wf {s : State} {ws : List (Nat × Byte)} (h : storageWf s = true) : storageWf (clearF s ws) = true := by
  refine storageWf_mem h (Memory.wf_foldl (fun m w hm => ?_) (storageWf_iff.1 h).1)
  dsimp only
  split
  · exact Memory.wf_write hm
  · exact hm

theorem setLine_wf {s : State} {pa : Nat} {l : Line} (h : storageWf s = true) : storageWf (setLine s pa l) = true := by
  obtain ⟨hm, hh, hs, ho⟩ := storageWf_iff.1 h
  unfold setLine
  dsimp only
  split
  · exact storageWf_iff.2 ⟨hm, Sparse.wf_set hh, hs, ho⟩
  · exact storageWf_iff.2 ⟨hm, hh, Sparse.wf_set hs, ho⟩
  · exact h

theorem setOwner_wf {s : State} {die phys tile : Nat} {b : Bool} (h : storageWf s = true) :
    storageWf (setOwner s die phys tile b) = true := by
  obtain ⟨hm, hh, hs, ho⟩ := storageWf_iff.1 h
  refine storageWf_iff.2 ⟨hm, hh, hs, Sparse.wf_set ho.1, ?_⟩
  exact Sparse.wf_set (d := false) (v := false) ho.2

theorem spoilOwner_wf {s : State} {die phys tile : Nat} (h : storageWf s = true) :
    storageWf (spoilOwner s die phys tile) = true := by
  obtain ⟨hm, hh, hs, ho⟩ := storageWf_iff.1 h
  refine storageWf_iff.2 ⟨hm, hh, hs, ho.1, ?_⟩
  exact Sparse.wf_set (d := false) (v := true) ho.2

theorem clearCommon_wf {s : State} {die phys cset first : Nat} (h : storageWf s = true) :
    storageWf (clearCommon s die phys cset first) = true := storageWf_mem h (Sparse.wf_erase (storageWf_iff.1 h).1)

/-- What keeps the form step by step keeps it over a list. -/
theorem storageWf_foldl {β : Type} {f : State → β → State} (hf : ∀ s x, storageWf s = true → storageWf (f s x) = true)
    {xs : List β} {s : State} (h : storageWf s = true) : storageWf (xs.foldl f s) = true := by
  induction xs generalizing s with
  | nil => exact h
  | cons x xs ih => exact ih (hf s x h)

theorem settleLine_wf {s : State} {ws : List (Nat × Byte)} {line : Nat} (h : storageWf s = true) :
    storageWf (settleLine ws s line) = true := by
  unfold settleLine
  dsimp only
  split
  · split
    · exact setLine_wf h
    · exact h
  · exact h

/-- A plain write keeps the form, whoever writes. -/
theorem plainWrite_wf {s : State} {fixer : Bool} {ws : List (Nat × Byte)} (h : storageWf s = true) :
    storageWf (plainWrite s fixer ws) = true := by
  exact storageWf_foldl (fun _ _ => settleLine_wf) (clearF_wf (storeBytes_wf h))

theorem zeroLine_wf {s : State} {line : Nat} (h : storageWf s = true) : storageWf (zeroLine s line) = true :=
  storeBytes_wf h

theorem poisonLine_wf {s : State} {pa : Nat} (h : storageWf s = true) : storageWf (poisonLine s pa) = true :=
  setLine_wf h

theorem orphanHead_wf {s : State} {fmt p : Nat} {prev : Option Nat} (h : storageWf s = true) :
    storageWf (orphanHead s fmt p prev) = true := by
  unfold orphanHead
  split
  · exact h
  · split
    · exact h
    · dsimp only
      split
      · exact setLine_wf h
      · exact h

theorem headLine_wf {s : State} {line fmt b scale : Nat} {prev : Option Nat} (h : storageWf s = true) :
    storageWf (headLine s line fmt b scale prev) = true := by
  have hz : ∀ c : Bool, storageWf (if c = true then zeroLine s line else s) = true := by
    intro c
    split
    · exact zeroLine_wf h
    · exact h
  unfold headLine
  dsimp only
  split
  · exact setLine_wf (hz _)
  · exact orphanHead_wf (setLine_wf (hz _))

theorem tailLine_wf {s : State} {line fmt p : Nat} (h : storageWf s = true) :
    storageWf (tailLine s line fmt p) = true := by
  unfold tailLine
  dsimp only
  split
  · exact h
  · refine setLine_wf ?_
    split
    · exact zeroLine_wf h
    · exact h

theorem formatFull_wf {s : State} {fmt : Nat} {bs : List (Nat × List Nat)} (h : storageWf s = true) :
    storageWf (formatFull s fmt bs) = true := by
  unfold formatFull formatLine
  refine storageWf_foldl (fun _ _ h => ?_) h
  dsimp only
  split
  · split
    · exact h
    · exact setLine_wf h
  · exact h

/-- A native write keeps the form. -/
theorem nativeWrite_wf {s : State} {fmt b scale : Nat} {ws : List (Nat × Byte)} {prev : Option Nat}
    (h : storageWf s = true) : storageWf (nativeWrite s fmt b scale ws prev) = true := by
  unfold nativeWrite
  dsimp only
  split
  · refine clearF_wf (storeBytes_wf ?_)
    split
    · split
      · exact h
      · exact tailLine_wf h
    · split
      · exact headLine_wf h
      · exact tailLine_wf (headLine_wf h)
  · exact h

/-- The last byte stored at a place is what is read there; every other place reads as before. -/
theorem storeBytes_read {s : State} {a i : Nat} {b : Byte} :
    (storeBytes s [(a, b)]).mem.read i = if i = placeOf s a then b else s.mem.read i := Memory.read_write

end Sys2Proof.Machine
end

