-- ==== Sys2Proof/Tests/Slice0.lean ====
section
/-!
SUPPORT. Tests: ill-formed terms that WellFormed refuses, words written out from the spec's encoding tables and what
they decode to, single steps whose results the spec's tables give, and for each statement a state and operands that meet
its hypotheses.
-/

namespace Sys2Proof.Tests
open Sys2Proof Sys2Proof.Machine

set_option Elab.async false

/-! ## A small machine -/

/-- One wave of one gang whose eight slices stand at 0x1000. -/
def wave0 : Wave := { Wave.blank with gangs := [⟨0xFF, 0x1000, .none, none, 0, false⟩] }

/-- A package with one group, of the largest allotment, whose waves are given; the first gang of its wave 0 issues. -/
def withWaves (ws : List Wave) : State :=
  { State.reset with groups := [{ placedGroup 1 with waves := ws }], cur := some ⟨1, 0, 0⟩ }

/-- The issuing gang of such a package: the first of its first wave. -/
def issuerOf (s : State) : Issuer :=
  (issuer s).getD ⟨⟨0, 0, 0⟩, placedGroup 0, Wave.blank, ⟨0, 0, .none, none, 0, false⟩⟩

def demo : State := withWaves [wave0]
def demoC : Issuer := issuerOf demo

/-- A gang issues. -/
def issues (s : State) : Bool := issuer s == some (issuerOf s)

/-- A gang issues, and nothing keeps it from some registers. -/
def ready (s : State) (us : List Use) : Bool := issues s && allFree (issuerOf s) (issuerOf s).all us

/-- The same for the lanes that a guard leaves active. -/
def laneReady (s : State) (g : Guard) (us : List Use) : Bool :=
  issues s && allFree (issuerOf s) (issuerOf s).all [.pr g.p.val] && allFree (issuerOf s) ((issuerOf s).lanes g) us

/-- Each row's word decodes to the row's instruction. -/
def decodesTo (rows : List (Nat × Nat × Instr)) : Bool :=
  rows.all fun r => decodeTableWord r.1 r.2.1 == some r.2.2

/-! ## WellFormed refuses -/

/-- Guards, literals, type ranges, rounding codes, register runs, parts and bounds that the encoding tables forbid
(R55, R71, R219, R228, R243, R245, R258, R132, R200, R284, R340, R367). -/
theorem test_illformed : ([.bra ⟨true, 7⟩ false 0, .regang (.lit 256), .bar 0 (.lit 65536), .arrive 0 (.lit 65536),
    .spawn .zero 0 0 (.lit 8), .release false false, .mts (.wave .clock (.reg .zero)), .mts (.wave .tlanes (.lit 0x80000000)),
    .sadd ⟨.zero, .zero, .lit 256, .i8, false⟩, .smulh ⟨.zero, .zero, .reg .zero, .i8, true⟩,
    .sand ⟨.zero, .zero, .reg .zero, .f16, false⟩, .scmp .zero .zero (.reg .zero) .i8 .un, .smov .zero (.reg .zero) .f32,
    .sbfx ⟨.zero, .zero, .reg .zero, .i16, false⟩, .xsetb 0 .zero (.lit 257)] : List Instr).all (fun i => !i.wf) = true := by
  decide

theorem test_illformed_vector : ([.vadd ⟨⟨true, 7⟩, 0, 0, .reg 0, .i8, .rne, false⟩,
    .vadd ⟨Guard.always, 0, 0, .reg 0, .f32, .rne, false⟩, .vmin ⟨Guard.always, 0, 0, .reg 0, .i8, .rne, true⟩,
    .vadd ⟨Guard.always, 0, 0, .reg 0, .i8, .rtz, false⟩, .vdot4 ⟨Guard.always, 0, 0, .reg 0, 0, .i64, .rne, false⟩,
    .vmov Guard.always 0 (.reg 0) .i8, .vcvti ⟨Guard.always, 0, 0, .i8, .i8, 0, .rne, false⟩,
    .vcvti ⟨Guard.always, 0, 0, .i32, .i8, 4, .rne, false⟩,
    .vpack Guard.always 0 0 0 .i8 .i32 false, .vunpk Guard.always 254 0 .i16 .i8 false,
    .vfadd ⟨Guard.always, 0, 0, .reg 0, .f32, .rna, false⟩, .vfsqrt ⟨Guard.always, 0, 0, .f32, .rne, true⟩,
    .vfrcp ⟨Guard.always, 0, 0, .f64, .rne, false⟩, .vfcvt ⟨Guard.always, 0, 0, .f32, .f16, 0, .sr, false⟩,
    .vfcvti ⟨Guard.always, 0, 0, .i32, .f16, 0, .sr, false⟩, .vfjoin ⟨Guard.always, 0, 0, .reg 0, 0, .f32, .rne, false⟩,
    .voptm Guard.always 253 0 0, .vckadd Guard.always 0 0 .i16 false,
    .vfdot2 Guard.always 0 0 0 0 .f32 .rne false] : List Instr).all (fun i => !i.wf) = true := by decide

theorem test_illformed_block : ([.bamax Guard.always 0 252 .f32, .bscale Guard.always 0 0 .mxe4m3 .floor true,
    .bquant ⟨Guard.always, 0, 0, .mxe4m3, .f32, .rne, false, .fit⟩, .bdeq Guard.always 0 0 .f32 .mxe4m3 .sr false,
    .brescale ⟨Guard.always, 0, 0, .mxe2m1, .mxe4m3, .rne, true, .floor⟩, .scset Guard.always 0 (.reg 0) false false,
    .scset Guard.always 0 (.lit 0x10000) true true, .adeq Guard.always 0 0 0 .sr false 0,
    .xshfl ⟨Guard.always, 0, 0, .lit 256, .i8, false⟩, .xbfly Guard.always 254 0 0 0,
    .xred Guard.always .zero 0 .f32 .rne .and, .xred Guard.always .zero 0 .i32 .rtz .add,
    .xsample Guard.always .zero 0 (.reg .zero) .f16, .xmatch Guard.always 0 0 .i8] : List Instr).all
    (fun i => !i.wf) = true := by decide

theorem test_illformed_memory : ([.ld ⟨Guard.always, 0, 0, .reg .zero, .none, .g⟩, .ld ⟨Guard.always, 0, 0, .reg .zero, .i32, .c⟩,
    .ldb ⟨Guard.always, 0, .zero, .reg .zero, .zero, .mxe4m3, .c⟩, .ldb ⟨Guard.always, 0, .zero, .reg .zero, .zero, .f32, .g⟩,
    .atom ⟨Guard.always, 0, 0, .reg .zero, 0, .f32, .g, .and⟩, .atom ⟨Guard.always, 0, 0, .reg .zero, 254, .i32, .g, .cas⟩,
    .red ⟨Guard.always, 0, .reg .zero, 0, .i32, .g, .cas⟩, .ownGive .zero (.lit 513), .ownTake .zero (.lit 513),
    .ownt .zero .zero (.lit 65), .qpush ⟨Guard.always, 0, 0, .reg .zero, .c, 0⟩ 0, .push .zero 0 0 (.lit 1024),
    .engst .zero (.lit 65536) 0, .trayputAppend Guard.always 0 0 (.reg .zero) 0 .i32 .cas 0,
    .trayputDrain .zero 0 0 (.lit 32), .cnext Guard.always 253 0 .zero 0, .csplit Guard.always 254 0 0,
    .csave .zero (.reg .zero) 0 .c, .mma ⟨0, .zero, .zero, .f32, 0, false⟩, .mmax ⟨0, .zero, .zero, .f16, 1, false⟩ .zero,
    .mload 0 .zero (.reg .zero) .f64 .g, .mstore .zero (.reg .zero) 0 .f32 .g .rtz, .mread Guard.always 254 0 .zero .i64,
    .wbload .zero .zero .i8 0, .mck 0 (.col 254 .i64)] : List Instr).all (fun i => !i.wf) = true := by decide

/-! ## Words (R50, R51 and the encoding tables) -/

theorem test_decode_control : decodesTo [
    (32, 0x1C00, .nopH), (64, 0x1C01, .nopW), (96, 0x10000100003FC0000806, .bra ⟨false, 2⟩ true 0x1000),
    (96, 0xFFFFFFF00000003FC48D2C0A, .brs ⟨true, 3⟩ 0x1234 0xFFFFFFF0), (32, 0x1C0C, .joinH), (64, 0x1C0D, .joinW),
    (64, 0x181400811, .brx ⟨false, 2⟩ false (.s 5) (.reg (.s 6))), (96, 0x400000003FC0025C16, .call 9 0x40),
    (96, 0x80000003FC1425C1A, .calli 9 (.s 5) (.lit 8)), (64, 0x2401C1D, .ret 9),
    (64, 0x100001C21, .regang (.reg (.s 4))), (64, 0x1F0000C080411C25, .clause .memory 15 1 2 3 4),
    (64, 0xC080411C29, .wait 1 2 3 4), (32, 0x1C2C, .yieldH), (64, 0x1C2D, .yieldW),
    (96, 0x30200003FC0001C32, .bar 2 (.lit 3)), (64, 0x300000200001C35, .arrive 3 (.reg (.s 8))),
    (64, 0x10000050200DC39, .spawn (.s 3) 1 8 (.reg (.s 20))), (32, 0x1C3C, .exitH), (64, 0x1C3D, .exitW),
    (32, 0x1C40, .acquireH), (64, 0x1C41, .acquireW), (64, 0x200000000001C45, .release false true),
    (64, 0xC800000000001C49, .trap 200), (32, 0x1C4C, .tretH), (64, 0x1C4D, .tretW),
    (64, 0x1200000000024851, .mfs (.lane ⟨false, 2⟩ 9 .fflags)), (64, 0x1800000000025C51, .mfs (.wave (.s 9) .tvec)),
    (96, 0x201200003FC0000856, .mts (.fflags ⟨false, 2⟩ (.lit 0x20))),
    (64, 0x43000001C0001C55, .mts (.wave (.ck 3 4) (.reg (.s 7)))), (64, 0x1C59, .hint .spin),
    (64, 0x100000001401C59, .hint (.pace (.s 5)))] = true := by decide

theorem test_decode_scalar : decodesTo [
    (96, 0xFFFFFFF90041403FC0811C82, .sadd ⟨.s 4, .s 2, .lit 0xFFFFFFF9, .i32, true⟩),
    (64, 0x1C000C0811C85, .ssub ⟨.s 4, .s 2, .reg (.s 3), .i64, false⟩),
    (64, 0x41C000C0811C89, .smul ⟨.s 4, .s 2, .reg (.s 3), .i64, true⟩),
    (64, 0x20000C0811C8D, .smulh ⟨.s 4, .s 2, .reg (.s 3), .n64, false⟩),
    (64, 0x414000C0811C91, .sdiv ⟨.s 4, .s 2, .reg (.s 3), .i32, true⟩),
    (64, 0x1C000C0811C95, .srem ⟨.s 4, .s 2, .reg (.s 3), .i64, false⟩),
    (64, 0xC0811C99, .sand ⟨.s 4, .s 2, .reg (.s 3), .none, false⟩),
    (64, 0x1C000C0811C9D, .sor ⟨.s 4, .s 2, .reg (.s 3), .i64, false⟩),
    (64, 0x1C000C0811CA1, .sxor ⟨.s 4, .s 2, .reg (.s 3), .i64, false⟩),
    (64, 0x404000C0811CA5, .sshl ⟨.s 4, .s 2, .reg (.s 3), .i8, true⟩),
    (64, 0x1C000C0811CA9, .sshr ⟨.s 4, .s 2, .reg (.s 3), .i64, false⟩),
    (64, 0x1C000C0811CAD, .smin ⟨.s 4, .s 2, .reg (.s 3), .i64, false⟩),
    (64, 0x1C000C0811CB1, .smax ⟨.s 4, .s 2, .reg (.s 3), .i64, false⟩),
    (64, 0x202000080415CB5, .scmp (.s 5) (.s 1) (.reg (.s 2)) .n64 .lt),
    (64, 0x14080419CB9, .ssel (.s 6) (.s 1) (.reg (.s 2)) (.s 5)),
    (64, 0x1C03FC0019CBD, .smov (.s 6) (.reg .zero) .i64),
    (64, 0x30000024201DCC1, .slea (.s 7) (.s 8) (.reg (.s 9)) 3),
    (64, 0x18000C0811CC5, .sbfx ⟨.s 4, .s 2, .reg (.s 3), .n32, false⟩),
    (64, 0x1414080419CC9, .sbfi (.s 6) (.s 1) (.reg (.s 2)) (.s 5) .i32),
    (64, 0x20000007FDCCD, .spopc ⟨.zero, .s 1, .n64⟩), (64, 0xC00000419CD1, .sclz ⟨.s 6, .s 1, .i16⟩),
    (64, 0x200000000029CD5, .sarg (.s 10) 2), (96, 0x1000000003FC040DCDA, .xsetb 3 (.s 1) (.lit 256)),
    (64, 0xA00ACDD, .xld ⟨true, 3⟩ 2 40)] = true := by decide

theorem test_decode_vector : decodesTo [
    (96, 0x7F0040403FC0811D02, .vadd ⟨Guard.always, 4, 2, .lit 0x7F, .i8, .rne, true⟩),
    (64, 0x1C000C0812D05, .vsub ⟨⟨true, 3⟩, 4, 2, .reg 3, .i64, .rne, false⟩),
    (64, 0x414000C0811D09, .vmul ⟨Guard.always, 4, 2, .reg 3, .i32, .rne, true⟩),
    (64, 0x10000C0811D0D, .vmulh ⟨Guard.always, 4, 2, .reg 3, .n16, .rne, false⟩),
    (64, 0x40C240C0810911, .vmad ⟨⟨false, 2⟩, 4, 2, .reg 3, 9, .i16, .rne, true⟩),
    (64, 0x1C000C0811D15, .vdiv ⟨Guard.always, 4, 2, .reg 3, .i64, .rne, false⟩),
    (64, 0x1C000C0811D19, .vrem ⟨Guard.always, 4, 2, .reg 3, .i64, .rne, false⟩),
    (64, 0xC0811D1D, .vand ⟨Guard.always, 4, 2, .reg 3, .none, .rne, false⟩),
    (64, 0x1C000C0811D21, .vor ⟨Guard.always, 4, 2, .reg 3, .i64, .rne, false⟩),
    (64, 0x1C000C0811D25, .vxor ⟨Guard.always, 4, 2, .reg 3, .i64, .rne, false⟩),
    (64, 0x810929, .vnot ⟨⟨false, 2⟩, 4, 2, .none, .rne, false⟩),
    (64, 0x1C000C0811D2D, .vshl ⟨Guard.always, 4, 2, .reg 3, .i64, .rne, false⟩),
    (64, 0x1C000C0811D31, .vshr ⟨Guard.always, 4, 2, .reg 3, .i64, .rne, false⟩),
    (64, 0x1C000C0811D35, .vmin ⟨Guard.always, 4, 2, .reg 3, .i64, .rne, false⟩),
    (64, 0x1C000C0811D39, .vmax ⟨Guard.always, 4, 2, .reg 3, .i64, .rne, false⟩),
    (64, 0x41C0000081093D, .vabs ⟨⟨false, 2⟩, 4, 2, .i64, .rne, true⟩),
    (64, 0x1C00000810941, .vneg ⟨⟨false, 2⟩, 4, 2, .i64, .rne, false⟩),
    (64, 0xB020000C0814945, .vcmp ⟨⟨false, 2⟩, 5, 2, .reg 3, .n64, .le, true⟩),
    (64, 0x180C0811D49, .vsel Guard.always 4 2 (.reg 3) 6),
    (96, 0x3C000002403FC0011D4E, .vmov Guard.always 4 (.lit 0x3C00) .f16),
    (64, 0x1C00000810951, .vpopc ⟨⟨false, 2⟩, 4, 2, .i64, .rne, false⟩),
    (64, 0x1C00000810955, .vclz ⟨⟨false, 2⟩, 4, 2, .i64, .rne, false⟩),
    (64, 0x18000C0811D59, .vbfx ⟨Guard.always, 4, 2, .reg 3, .n32, .rne, false⟩),
    (64, 0x14240C081095D, .vbfi ⟨⟨false, 2⟩, 4, 2, .reg 3, 9, .i32, .rne, false⟩),
    (64, 0x18240C0810961, .vdot4 ⟨⟨false, 2⟩, 4, 2, .reg 3, 9, .n32, .rne, false⟩),
    (64, 0xC0003FC11D65, .viota Guard.always 4 .zero .i16), (64, 0xC11D69, .vrdx Guard.always 4 3),
    (64, 0x100DD6D, .vwrx Guard.always 3 4),
    (64, 0xA101C00000811D71, .vcvti ⟨Guard.always, 4, 2, .i64, .i8, 5, .rne, false⟩),
    (64, 0x3404000C0811D75, .vpack Guard.always 4 2 3 .i8 .i16 true),
    (64, 0x501C00000BF5D79, .vunpk Guard.always 253 2 .i64 .i32 false), (64, 0x240C0811D7D, .vpermb Guard.always 4 2 3 9)] = true := by decide

theorem test_decode_floating : decodesTo [
    (64, 0x4AC000C0811D81, .vfadd ⟨Guard.always, 4, 2, .reg 3, .f32, .rtz, true⟩),
    (64, 0x130000C0811D85, .vfsub ⟨Guard.always, 4, 2, .reg 3, .f64, .rup, false⟩),
    (64, 0x1A4000C0811D89, .vfmul ⟨Guard.always, 4, 2, .reg 3, .f16, .rdn, false⟩),
    (64, 0x328240C081098D, .vfma ⟨⟨false, 2⟩, 4, 2, .reg 3, 9, .bf16, .dyn, false⟩),
    (64, 0x2C000C0811D91, .vfdiv ⟨Guard.always, 4, 2, .reg 3, .f32, .rne, false⟩),
    (64, 0xB000000810995, .vfsqrt ⟨⟨false, 2⟩, 4, 2, .f64, .rtz, false⟩),
    (64, 0x2C000C0811D99, .vfmin ⟨Guard.always, 4, 2, .reg 3, .f32, .rne, false⟩),
    (64, 0x2C000C0811D9D, .vfmax ⟨Guard.always, 4, 2, .reg 3, .f32, .rne, false⟩),
    (64, 0x602C000C0815DA1, .vfcmp ⟨Guard.always, 5, 2, .reg 3, .f32, .un, false⟩),
    (64, 0x30000008109A5, .vfclass ⟨⟨false, 2⟩, 4, 2, .f64, .rne, false⟩),
    (64, 0x2C000008109A9, .vfrcp ⟨⟨false, 2⟩, 4, 2, .f32, .rne, false⟩),
    (64, 0x24000008109AD, .vfrsq ⟨⟨false, 2⟩, 4, 2, .f16, .rne, false⟩),
    (64, 0x28000008109B1, .vfexp2 ⟨⟨false, 2⟩, 4, 2, .bf16, .rne, false⟩),
    (64, 0x2C000008109B5, .vflog2 ⟨⟨false, 2⟩, 4, 2, .f32, .rne, false⟩),
    (64, 0x2C000C0811DB9, .vfscale ⟨Guard.always, 4, 2, .reg 3, .f32, .rne, false⟩),
    (64, 0x11AC00000811DBD, .vfrnd Guard.always 4 2 .f32 .rdn true),
    (64, 0x6B6B400000811DC1, .vfcvt ⟨Guard.always, 4, 2, .e4m3, .f32, 3, .sr, true⟩),
    (64, 0xB21400000811DC5, .vfcvti ⟨Guard.always, 4, 2, .i32, .f32, 0, .rna, false⟩),
    (64, 0x2603000000811DC9, .vicvtf ⟨Guard.always, 4, 2, .f64, .n32, 1, .rne, false⟩),
    (96, 0x52A00403FC0811DCE, .vfslice Guard.always 4 2 (.lit 5) 2 5),
    (64, 0x430240C08109D1, .vfjoin ⟨⟨false, 2⟩, 4, 2, .reg 3, 9, .f64, .rne, true⟩),
    (64, 0x2CF4000BF1DD5, .voptm Guard.always 252 2 61), (64, 0x10300000080DDD9, .vckadd Guard.always 3 2 .f64 true),
    (64, 0x100024080411DDD, .vcktst (.s 4) 1 2 (.s 9) true),
    (64, 0x424240C0811DE1, .vfdot2 Guard.always 4 2 3 9 .f16 .rne true)] = true := by decide

theorem test_decode_block : decodesTo [
    (64, 0x2C00002011E01, .bamax Guard.always 4 8 .f32),
    (64, 0x10DC00000811E05, .bscale Guard.always 4 2 .mxe2m1 .fit true),
    (64, 0x6A2CC00002011E09, .bquant ⟨Guard.always, 4, 8, .mxe4m3, .bf16, .sr, true, .fit⟩),
    (64, 0x184A400000821E0D, .bdeq Guard.always 8 2 .f16 .mxint8 .rtz true),
    (64, 0x1625400000811E11, .brescale ⟨Guard.always, 4, 2, .mxe3m2, .mxe2m3, .rna, false, .floor⟩),
    (64, 0x811E15, .scget Guard.always 4 2), (96, 0xABCD0200003FC0011E1A, .scset Guard.always 4 (.lit 0xABCD) false true),
    (64, 0x6400000811E1D, .aqparm Guard.always 4 2), (64, 0x4B2E4000C0811E21, .aquant Guard.always 4 2 3 .sr 2),
    (64, 0x7942C000C0811E25, .adeq Guard.always 4 2 3 .rne true 3),
    (64, 0x102C000C0811E41, .xshfl ⟨Guard.always, 4, 2, .reg 3, .f32, true⟩),
    (96, 0x9000100FFC0811E46, .xpush ⟨Guard.always, 4, 2, .lit 9, .n16, false⟩ 3),
    (64, 0x200000100019E49, .xbfly Guard.always 6 0 4 2),
    (64, 0x30001C0815E4D, .xbcast Guard.always 5 2 (.reg (.s 7)) .f64),
    (64, 0x200000000811E51, .xvote Guard.always (.s 4) 2 .ballot),
    (64, 0x12C00002419E55, .xred Guard.always (.s 6) 9 .f32 .rup .add),
    (64, 0xD01400002429E59, .xscan Guard.always 10 9 .i32 .rne .xor true),
    (64, 0x2010242DE5D, .xcompact Guard.always 11 9 4 (.s 8)),
    (64, 0x2C00283025E61, .xsample Guard.always (.s 9) 12 (.reg (.s 10)) .f32),
    (64, 0x1800002435E65, .xmatch Guard.always 13 9 .n32)] = true := by decide

theorem test_decode_memory : decodesTo [
    (64, 0x16800181024A81, .ld ⟨⟨false, 2⟩, 9, 4, .reg (.s 6), .x2f32, .c⟩),
    (96, 0xFFFFFFF80008427FC1001E86, .st ⟨Guard.always, 9, 4, .lit 0xFFFFFFF8, .i8, .l⟩),
    (64, 0x4803FC1025E89, .lds ⟨.s 9, .s 4, .reg .zero, .e8m0, .g⟩),
    (64, 0xB024181001E8D, .sts ⟨.s 9, .s 4, .reg (.s 6), .f64, .l⟩),
    (64, 0xD41C181025E91, .ldb ⟨Guard.always, 9, .s 4, .reg (.s 6), .s 7, .mxe3m2, .l⟩),
    (64, 0x1C181025E95, .stb ⟨Guard.always, 9, .s 4, .reg (.s 6), .s 7, .none, .g⟩),
    (64, 0x70201C181025E99, .atom ⟨Guard.always, 9, 4, .reg (.s 6), 7, .n64, .g, .cas⟩),
    (64, 0x102C1C181001E9D, .red ⟨Guard.always, 4, .reg (.s 6), 7, .f32, .g, .min⟩),
    (64, 0x20000000001EA1, .fence .pod), (96, 0x2000000003FC1001EA6, .ownGive (.s 4) (.lit 512)),
    (64, 0x100000181001EA5, .ownTake (.s 4) (.reg (.s 6))), (64, 0x181025EA9, .ownt (.s 9) (.s 4) (.reg (.s 6))),
    (64, 0x30801C181025EAD, .qpush ⟨Guard.always, 9, 4, .reg (.s 6), .l, 3⟩ 7),
    (64, 0x300000181025EB1, .qpop ⟨Guard.always, 9, 4, .reg (.s 6), .g, 3⟩),
    (64, 0x8000181025EB5, .qsteal ⟨Guard.always, 9, 4, .reg (.s 6), .l, 0⟩),
    (64, 0x100000181001EB9, .pref Guard.always 4 (.reg (.s 6)) true),
    (64, 0x100000502009EC1, .push (.s 2) 1 8 (.reg (.s 20))),
    (96, 0xFFFF0200003FC0025EC6, .engst (.s 9) (.lit 65535) 2),
    (64, 0x102C1C181025EC9, .trayputAppend Guard.always 9 4 (.reg (.s 6)) 7 .f32 .add 1),
    (96, 0x1F8100003FC2009ECA, .trayputDrain (.s 2) 1 8 (.lit 31)),
    (64, 0x10000C000805F01, .copen 1 (.s 2) (.s 3) .merge), (64, 0x200014000451F05, .cnext Guard.always 20 1 (.s 5) 2),
    (64, 0xC0811F09, .csplit Guard.always 4 2 3), (64, 0x100C0805F0D, .cseek 1 (.s 2) (.s 3) (.s 4)),
    (64, 0x80040C0801F11, .csave (.s 2) (.reg (.s 3)) 1 .l), (96, 0x200000003FC0805F16, .cload 1 (.s 2) (.lit 32) .g),
    (32, 0xC0811F18, .cstatH (.s 4) 2 3), (64, 0x300000000811F19, .cstatW (.s 4) 2 3), (32, 0xDF1C, .ccloseH 3),
    (64, 0xDF1D, .ccloseW 3), (64, 0x11000140C0811F21, .cunpk Guard.always 4 (.s 5) 1 (.d16 2 (.s 3)))] = true := by decide

theorem test_decode_matrix : decodesTo [
    (64, 0x811F41, .accord (.s 4) (.s 2)), (64, 0x1F064000C083DF45, .mma ⟨15, .s 2, .s 3, .aq8, 15, true⟩),
    (64, 0x3024100C0805F49, .qmma ⟨1, .s 2, .s 3, .f16, 3, false⟩ (.s 4)),
    (64, 0x10060100C0805F4D, .mmax ⟨1, .s 2, .s 3, .mxint8, 0, true⟩ (.s 4)), (32, 0x40015F50, .mzeroH 5 true),
    (64, 0x15F51, .mzeroW 5 false), (64, 0x9C000C0815F55, .mload 5 (.s 2) (.reg (.s 3)) .i64 .l),
    (96, 0x2000602817FC0801F5A, .mstore (.s 2) (.lit 512) 5 .bf16 .g .dyn),
    (64, 0x1C000C17F5F5D, .mread Guard.always 253 5 (.s 3) .i64),
    (64, 0x2C000C2414B61, .mwrite ⟨false, 2⟩ 5 9 (.s 3) .f32), (32, 0x41411F64, .mstatH (.s 4) 5 true),
    (64, 0x1411F65, .mstatW (.s 4) 5 false), (64, 0x7050000C0801F69, .wbload (.s 2) (.s 3) .mxe5m2 7),
    (32, 0x15F6C, .mfoldH 5), (64, 0x15F6D, .mfoldW 5), (96, 0xFFFFFFC00000003FC0015F72, .mscale 5 (.lit 0xFFFFFFC0)),
    (64, 0x30000017F5F75, .mck 5 (.col 253 .f64)), (64, 0x10000C001401F75, .mck 5 (.ck 3))] = true := by decide

theorem test_decode_reserved : decodesTo [
    (32, 0x3, .reservedOpcode 3), (32, 0x1C5D, .reservedOpcode 0x1C5D)] = true := by decide

/-! ## Witnesses: registers -/

theorem witness_ScalarArithmetic : (ready demo (.sw (.s 4) :: .sr (.s 2) :: useS (.reg (.s 3))) &&
    ready demo (.sw .zero :: .sr (.s 63) :: useS (.lit 5))) = true := by decide

theorem witness_ScalarOther : (ready demo (.sw (.s 0) :: .sr (.s 1) :: .sr (.s 2) :: useS (.reg .zero)) &&
    ready demo [.sw .zero, .sr .zero]) = true := by decide

theorem witness_RegistersReadBack : 31 < 32 ∧ 0 < 32 := by decide

/-- Index register 0 with BASE 247 and LIMIT 8, and 7 in lane 0: the last index that LIMIT and R206 admit. -/
def indexed : State := withWaves [{ wave0 with xbase := [(0, 247)], xlimit := [(0, 8)], x := [(0, 7)] }]

theorem witness_IndexRegisters : (ready demo (.sr (.s 1) :: useS (.lit 256)) &&
    laneReady demo Guard.always [.vr 1 254] && laneReady indexed Guard.always [.vw 0 255, .xr 0, .base 0] &&
    laneReady indexed Guard.always [.vr 1 3, .xr 0, .base 0] &&
    ((issuerOf indexed).lanes Guard.always).all fun l => decide ((issuerOf indexed).w.readX 0 l <
      (issuerOf indexed).w.xlimit.get 0 0 ∧ (issuerOf indexed).w.indexed 0 l ≤ 254) &&
      Use.free (issuerOf indexed) [l] (.vr 1 ((issuerOf indexed).w.indexed 0 l)) &&
      Use.free (issuerOf indexed) [l] (.vw 0 ((issuerOf indexed).w.indexed 0 l))) = true := by decide

/-- Lane 0 has index 8 under LIMIT 8 and lanes 1 to 31 index 7 under BASE 248: Register Index, and Register Bound of v255. -/
def overIndexed : State := withWaves [{ wave0 with
  xbase := [(0, 248)], xlimit := [(0, 8)], x := (List.range 32).map fun l => (l, if l = 0 then 8 else 7)
  trap := ⟨0x2001, false, 0, 0, 0, 0, 0⟩ }]

theorem witness_IndexRegisters_beyond : (laneReady overIndexed Guard.always [.vw 0 4, .vr 1 4, .xr 0, .base 0] &&
    (match exec (.vrdx Guard.always 4 0) overIndexed with
      | .next t => (findWave t 1 0).map (fun w => (w.trap.cause, w.trap.tlanes, w.trap.tinfo)) ==
          some (3, 0xFFFFFFFE, 0x600000000000001)
      | _ => false)) = true := by decide +kernel

theorem witness_VectorInteger : (laneReady demo Guard.always (.vw 0 4 :: .vr 1 2 :: .vr 3 9 :: useV 2 (.reg 3)) &&
    laneReady demo ⟨true, 0⟩ (.vw 0 255 :: .vr 1 254 :: useV 2 (.lit 1))) = true := by decide

theorem witness_VectorMoves : (laneReady demo Guard.always [.pw 7, .vr 1 2, .vw 0 254, .vw 0 255, .pr 6, .sr (.s 3), .side 2] &&
    laneReady demo Guard.always (cvtUses ⟨Guard.always, 4, 2, .i64, .i8, 7, .rne, true⟩)) = true := by decide

/-- Where %fmode is 0 no trap of R39 is met, whatever a lane produces. -/
theorem witness_untrapped (rs : List LaneRes) : untrapped demoC.w rs = true := by
  have h : demoC.w.fmode = 0 := by decide
  simp [untrapped, fpMet, h]

theorem witness_VectorFloat : laneReady demo Guard.always (.spec 2 :: .vw 0 4 :: .vr 1 2 :: .vr 3 9 :: useV 2 (.reg 3)) = true := by
  decide

/-- %fmode with a rounding mode and no trap enabled. -/
def rounding : State := withWaves [{ wave0 with fmode := 3 }]

theorem witness_FloatOthersComplete : (laneReady rounding Guard.always ([.spec 2, .ff, .pw 3, .vw 0 4, .vr 1 2, .vr 0 4, .ck 3] ++
    srUse .sr ++ runUse (.vr 0) 252 3 ++ ((List.range 3).map fun i => Use.sr (Machine.sregOf (61 + i)))) &&
    decide ((issuerOf rounding).w.fmode.toNat < 4)) = true := by decide

/-- %ck1 holds 1 and the others 0. -/
def sums : State := withWaves [{ wave0 with ck := [(1, 1)] }]

theorem witness_ChecksumTest : (ready sums [.sw (.s 1), .sr (.s 2), .ck 0, .ck 1] &&
    decide (ckCount ((issuerOf sums).w.readCk 0) ((issuerOf sums).w.readCk 0) ≤ ((issuerOf sums).w.readS (.s 2)).toNat) &&
    decide (((issuerOf sums).w.readS (.s 2)).toNat < ckCount ((issuerOf sums).w.readCk 0) ((issuerOf sums).w.readCk 1)) &&
    !(issuerOf sums).all.isEmpty) = true := by decide +kernel

/-- The slices of some lanes are wholly among them. -/
def wholeSlices (ls : List Nat) : Bool := ls.all fun l => (lanesAt (l / 4)).all fun m => ls.contains m

theorem witness_BlockInstructionsComplete :
    (let o : QuantOp := ⟨Guard.always, 4, 8, .mxe2m1, .f32, .sr, false, .floor⟩
     laneReady rounding Guard.always (quantUses o ++ runUse (.vr 1) 8 (runRegs .f32 2) ++ [.ff, .vr 1 2, .lead 1 2, .vr 0 4] ++
       scaleUses .mxe2m1 2) &&
     wholeSlices ((issuerOf rounding).lanes Guard.always) && decide ((issuerOf rounding).w.fmode.toNat < 4)) = true := by
  decide

/-- p0 leaves lane 0 alone active. -/
def oneLane : State := withWaves [{ wave0 with p := [(0, 1)] }]

theorem witness_MisalignedBlocks :
    (let g : Guard := ⟨false, 0⟩
     let o : QuantOp := ⟨g, 4, 8, .mxe2m1, .f32, .sr, false, .floor⟩
     let bad := ((issuerOf oneLane).lanes g).filter fun l => !(lanesAt (l / 4)).all fun m => ((issuerOf oneLane).lanes g).contains m
     [.vw 0 4 :: runUse (.vr 1) 8 (runRegs .f32 1), [.vw 0 4, .lead 1 8], quantUses o ++ runUse (.vr 1) 8 (runRegs .f32 2),
       quantUses o ++ .vr 1 8 :: scaleUses .mxe2m1 8,
       [.spec 2, .ff, .vr 1 8] ++ scaleUses .mxe2m1 8 ++ runUse (.vw 0) 4 (runRegs .f32 2), .vw 0 4 :: leadV 2 (.reg 8)].all (laneReady oneLane g) && bad == [0] &&
     decide ((issuerOf oneLane).w.fmode.toNat < 4)) = true := by decide

theorem witness_CrossLaneMoves : (laneReady demo Guard.always [.vw 0 4, .vw 0 5, .vr 0 4, .pw 3, .prAll 4, .sw (.s 8), .vr 1 2] &&
    wholeFree demoC 2 && wholeFree demoC 3 && (demoC.lanes Guard.always).all fun l => decide (l < 32)) = true := by decide

theorem witness_VotesAndReductions : (laneReady rounding Guard.always ([.sw (.s 4), .pr 2, .spec 2, .ff, .vr 1 2, .vw 0 4] ++
    useS (.reg (.s 10))) && decide ((issuerOf rounding).w.fmode.toNat < 4)) = true := by decide

/-- A wave in its handler, whose slices all took part. -/
def handling : State := withWaves [{ wave0 with
  trap := ⟨0x2001, true, 0, 20, 0x1008, 0, 0⟩
  slices := List.replicate 8 ⟨false, 15, [], 3, 0⟩ }]

theorem witness_SpecialRegisters : (issues demo && laneReady demo Guard.always [.vw 0 4, .ff] &&
    laneReady demo Guard.always (useV 2 (.lit 63)) && ready demo (.sw (.s 4) :: specUse (.ck 3 4)) &&
    ready demo (useS (.reg (.s 1))) && !SpecReg.masked .tvec &&
    ready handling (.spec 4 :: useS (.reg (.s 1))) && (issuerOf handling).w.trap.tm) = true := by decide

theorem witness_SpecialReadBack : (ready demo (useS (.lit 5)) && ready handling (.spec 4 :: useS (.lit 5)) &&
    (issuerOf handling).w.trap.tm) = true := by decide

/-! ## Witnesses: control -/

/-- A wave parted in two gangs of four slices. -/
def parted : State := withWaves [{ wave0 with
  gangs := [⟨0x0F, 0x1000, .none, none, 0, false⟩, ⟨0xF0, 0x2000, .none, none, 1, false⟩] }]

/-- Where an instruction goes on some state, and what it reports: the program counters of the wave's gangs, and %tlanes and
%tinfo where it traps. -/
def ends (i : Instr) (s : State) : Option (List (BitVec 8 × Word) × Bool × BitVec 32 × Word) :=
  match exec i s with
  | .next t => (findWave t 1 0).map fun w => (w.gangs.map fun g => (g.slices, g.pc), w.trap.tm, w.trap.tlanes, w.trap.tinfo)
  | _ => none

/-- Lane 5 alone has its bit of p2, and a handler stands at 0x2000. -/
def fiveSet : State := withWaves [{ wave0 with p := [(2, 32)], trap := ⟨0x2001, false, 0, 0, 0, 0, 0⟩ }]

/-- Slice 1 takes the branch, unless `.all` asks for every lane; where it would go to 0x1042 it is named, and where no slice
goes there nothing is amiss. -/
theorem witness_Branches : (ready fiveSet [.pr 2, .sr (.s 5), .sr (.s 6)] &&
    ends (.bra ⟨false, 2⟩ false 0x40) fiveSet == some ([(0xFD, 0x100C), (0x02, 0x1040)], false, 0, 0) &&
    ends (.bra ⟨false, 2⟩ true 0x42) fiveSet == some ([(0xFF, 0x100C)], false, 0, 0) &&
    ends (.bra ⟨false, 2⟩ false 0x42) fiveSet == some ([(0xFF, 0x2000)], true, 0xF0, 0x200000000000000) &&
    ends (.brx ⟨false, 2⟩ false (.s 5) (.lit 6)) fiveSet == some ([(0xFF, 0x2000)], true, 0xF0, 0x200000000000000)) = true := by
  decide

theorem witness_GangsRegroup : (issues parted && ((issuerOf parted).w.gangs.all fun x => x == (issuerOf parted).gang ||
    x.slices &&& (issuerOf parted).gang.slices == 0) && (issuerOf parted).gang.slices.getLsbD 3) = true := by decide

/-- Seven entries on every stack: room for one more. -/
def stacked : State := withWaves [{ wave0 with
  slices := List.replicate 8 ⟨false, 1, List.replicate 7 ⟨0x1000, 0x3000, 2, 3⟩, 0, 0⟩ }]

/-- Two lanes of every slice are active, and slices 0 to 3 have eight entries. -/
def brimming : State := withWaves [{ wave0 with
  p := [(2, 0x11111111)], trap := ⟨0x2001, false, 0, 0, 0, 0, 0⟩
  slices := List.replicate 4 ⟨false, 3, List.replicate 8 ⟨0x1000, 0x3000, 2, 3⟩, 0, 0⟩ ++
    List.replicate 4 ⟨false, 3, [], 0, 0⟩ }]

theorem witness_DivergenceStack : (ready stacked [.pr 2] && ((List.range 8).all fun j =>
    decide ((sliceAt (issuerOf stacked).w j).stack.length < 8)) && (demoC.pc + (8#32).signExtend 64).toNat % 4 == 0 &&
    (demoC.pc + (0xFFFC#16).signExtend 64).toNat % 4 == 0) = true ∧ (2#4 : BitVec 4) ≠ 0 := by decide

/-- What BRS reports where a target, a join address or a stack stands in its way. -/
theorem witness_DivergenceStack_traps : (ready brimming [.pr 2] &&
    ends (.brs ⟨false, 2⟩ 8 0x42) brimming == some ([(0xFF, 0x2000)], true, 0x33333333, 0x200000000000000) &&
    ends (.brs ⟨false, 2⟩ 6 0x40) brimming == some ([(0xFF, 0x2000)], true, 0x33330000, 0x200000000000100) &&
    ends (.brs ⟨false, 2⟩ 8 0x40) brimming == some ([(0xFF, 0x2000)], true, 0x3333, 0)) = true := by decide

theorem witness_DivergenceStack_join : (⟨0x1000, 0x3000, 2, 3⟩ : StackEntry).joinPc = 0x1000 ∧
    (⟨0x1000, 0x3000, 0, 3⟩ : StackEntry).pend = 0 ∧ (⟨0x1004, 0x3000, 0, 3⟩ : StackEntry).joinPc ≠ 0x1000 := by decide

/-- Every vector register of every lane links to 0x2000. -/
def linked : State := withWaves [{ wave0 with v := (List.range 32).map fun l => (32 * 9 + l, 0x2000) }]

theorem witness_Calls : (ready demo [.vw 0 9, .sr (.s 1), .sr (.s 2)] && (demoC.pc + (4#32).signExtend 64).toNat % 4 == 0 &&
    ready linked [.vr 1 9] && (List.range 8).all fun j =>
      ((issuerOf linked).w.readV 9 ((sliceLanes (issuerOf linked).w j).headD (4 * j))).toNat % 4 == 0) = true := by decide

/-- Slice 1 links to 0x2002; a handler stands at 0x2000. -/
def linkedOff : State := withWaves [{ wave0 with
  v := (List.range 32).map fun l => (32 * 9 + l, if l / 4 = 1 then 0x2002 else 0x2000), trap := ⟨0x2001, false, 0, 0, 0, 0, 0⟩ }]

theorem witness_Calls_misaligned : (ready linkedOff [.vr 1 9, .vw 0 9, .sr (.s 1)] && !(issuerOf linkedOff).all.isEmpty &&
    ends (.ret 9) linkedOff == some ([(0xFF, 0x2000)], true, 0xF0, 0x200000000000000) &&
    ends (.call 9 2) linkedOff == some ([(0xFF, 0x2000)], true, 0xFFFFFFFF, 0x200000000000000) &&
    ends (.calli 9 (.s 1) (.lit 6)) linkedOff == some ([(0xFF, 0x2000)], true, 0xFFFFFFFF, 0x200000000000000)) = true := by
  decide +kernel

/-- One load is outstanding. -/
def loading : State := withWaves [{ wave0 with lq := [LEntry.plain [] [] 0] }]

theorem witness_WaitsAndClauses : (issues loading && decide ((issuerOf loading).w.lq.length ≤ 1) &&
    !decide ((issuerOf loading).w.lq.length ≤ 0) && ready demo [.sr (.s 5)]) = true := by decide

/-- A gang at its hint. -/
def hinting : State := withWaves [{ wave0 with gangs := [⟨0xFF, 0x1000, .hint, none, 0, false⟩] }]

theorem witness_WaitsAndClauses_hint : (issuerAt hinting ⟨1, 0, 7⟩).map (fun c => c.gang.hold) = some .hint := by decide

/-- Two waves, of which wave 1 has arrived at barrier 3. -/
def meeting : State :=
  let s := withWaves [wave0, wave0]
  { s with groups := s.groups.map fun g => { g with bars := [⟨none, 0, 0⟩, ⟨none, 0, 0⟩, ⟨none, 0, 0⟩, ⟨some 3, 2, 5⟩] } }

theorem witness_Barriers : (ready meeting (useS (.lit 0)) && (issuerOf meeting).whole &&
    (issuerOf meeting).g.bars[3]? == some ⟨some 3, 2, 5⟩ && (issuerOf meeting).g.waves.length == 2 &&
    namedWaves 2 0 == 3 && (3#16).getLsbD 0 && (3#16 &&& ~~~(2#16 ||| (1#16 <<< 0))) == 0 &&
    ((issuerOf meeting).w.gangs.all fun x => x.hold == .none) && (issuerOf meeting).g.waves.all fun w => !w.refilled) = true := by
  decide

/-- The set is not complete where wave 1 has not come, as at barrier 0; a mask without the wave itself is amiss, as one is
that names a wave the group has not. -/
theorem witness_Barriers_waits : (let c := issuerOf meeting
    c.g.bars[0]? == some ⟨none, 0, 0⟩ && !c.g.marked (gmBar 0) && (namedWaves 2 0).getLsbD 0 &&
      (namedWaves 2 0 &&& ~~~((0#16 ||| (1#16 <<< 0)) ||| waveMask c.g.waves fun w => w.halted || w.ended)) != 0 &&
      !(namedWaves 2 2).getLsbD 0 && (namedWaves 2 4 &&& ~~~(BitVec.ofNat 16 (2 ^ 2 - 1))) != 0 && !c.all.isEmpty) = true := by
  decide

/-- The other four slices have arrived at the merge. -/
def merging : State := withWaves [{ wave0 with
  merge := some ⟨0xFF, 0x1000, 0xF0⟩
  gangs := [⟨0x0F, 0x1000, .none, none, 0, false⟩, ⟨0xF0, 0x1000, .regang 8, none, 1, false⟩] }]

theorem witness_Regang : (ready merging (useS (.reg .zero)) && namedSlices 0 == 0xFF &&
    ((issuerOf merging).gang.slices &&& ~~~namedSlices 0) == 0 && (issuerOf merging).gang.slices != 0 &&
    (issuerOf merging).w.merge == some ⟨namedSlices 0, (issuerOf merging).pc, 0xF0⟩ &&
    ((issuerOf merging).w.gangs.all fun x => x == (issuerOf merging).gang ||
      (x.hold == .regang (Instr.len (.regang (.reg .zero))) && !x.slices.getLsbD (issuerOf merging).ref.slice)) &&
    (namedSlices 0 &&& ~~~(0xF0 ||| (issuerOf merging).gang.slices ||| exitedSlices (issuerOf merging).w)) == 0) = true := by
  decide

/-- On a parted wave the first gang waits for the others, and may not name a merge that leaves it out. -/
theorem witness_Regang_waits : (ready parted (useS (.lit 0)) && (issuerOf parted).w.merge.isNone &&
    ((issuerOf parted).gang.slices &&& ~~~namedSlices 0) == 0 &&
    (namedSlices 0 &&& ~~~((0 ||| (issuerOf parted).gang.slices) ||| exitedSlices (issuerOf parted).w)) != 0 &&
    ((issuerOf parted).gang.slices &&& ~~~namedSlices 0xF0) != 0 && !(issuerOf parted).all.isEmpty) = true := by decide

/-! ## Witnesses: traps -/

/-- A handler is installed. -/
def ware : State := withWaves [{ wave0 with trap := ⟨0x2001, false, 0, 0, 0, 0, 0⟩ }]

theorem witness_TrapEntry : (issues ware && !(issuerOf ware).w.trap.tm && (issuerOf ware).w.trap.tvec.getLsbD 0 &&
    !(issuerOf ware).w.marked (mkSpec 3) && !(issuerOf ware).w.marked (mkSpec 4) && (issuerOf ware).w.service.isNone && demoC.w.service.isNone &&
    (issuerOf handling).w.service.isNone && issues demo &&
    !demoC.w.trap.tvec.getLsbD 0 && issues handling && (issuerOf handling).w.trap.tm) = true := by decide

theorem witness_TrapReturn : (ready handling [.spec 4, .spec 5] && (issuerOf handling).w.trap.tm && (List.range 8).all fun j =>
    decide ((sliceAt (issuerOf handling).w j).stack.length ≤ (sliceAt (issuerOf handling).w j).tdepth)) = true := by decide

/-- A handler that has left an entry on the stack of slice 7. -/
def deeper : State := withWaves [{ wave0 with
  trap := ⟨0x2001, true, 0, 20, 0x1008, 0, 0⟩
  slices := List.replicate 7 ⟨false, 15, [], 3, 0⟩ ++ [⟨false, 15, [⟨0x1000, 0x3000, 2, 3⟩], 3, 0⟩] }]

theorem witness_TrapReturn_deep : (issues deeper && (issuerOf deeper).w.trap.tm && !(issuerOf deeper).all.isEmpty &&
    decide ((sliceAt (issuerOf deeper).w 7).tdepth < (sliceAt (issuerOf deeper).w 7).stack.length)) = true := by decide

theorem witness_IllegalAndMaskedTraps : (issues ware && (3#32).toNat % 4 == 3 && (0x1C5D#32).toNat % 4 != 3 &&
    !opcAssigned ((0x1C5D#32).toNat / 4 % 256) && ready ware (useS (.lit 0) ++ [.spec 4, .spec 5]) && !(issuerOf ware).all.isEmpty &&
    !(issuerOf ware).w.trap.tm && (List.range 8).all fun j =>
      decide ((sliceAt (issuerOf ware).w j).stack.length ≤ (sliceAt (issuerOf ware).w j).tdepth)) = true := by decide

/-- The fields of a good SADD and of a good VADD, and of such words with one field changed: each check refuses one. -/
theorem witness_IllegalAndMaskedTraps_checks :
    (let s : Fields := ⟨.w, 0x20, 7, 4, 2, 3, 0, 1, 0, 0, 0⟩
     let v : Fields := ⟨.l, 0x40, 3, 4, 2, 255, 0, 1, 8, 0, 0x7F⟩
     (decodeFields s == .ok (.sadd ⟨.s 4, .s 2, .reg (.s 3), .i8, false⟩) 8 &&
       decodeFields v == .ok (.vadd ⟨⟨false, 3⟩, 4, 2, .lit 0x7F, .i8, .rne, true⟩) 12 &&
       [({ s with g := 3 }, 3), ({ v with g := 15 }, 3), ({ v with form := .h }, 4), ({ v with b := 3 }, 5), ({ v with t := 9 }, 6),
        ({ v with m := 1 }, 7), ({ v with f := 1 }, 8), ({ v with c := 1 }, 9), ({ s with d := 64 }, 9), ({ v with k := 0x100 }, 9)].all
        fun x => decodeFields x.1 == .illegal x.2)) = true := by decide +kernel

/-- A word that no opcode has, and one that a clause does not admit, are fetched by a gang that can issue. -/
def badPlaced : State := State.reset.withFetchWord 32 0x00005C00
def inClause : State :=
  let s := State.reset.withFetchWord 64 0x1C000C0811D05
  { s with groups := s.groups.map fun g => { g with waves := g.waves.map fun w => { w with
    gangs := w.gangs.map fun x => { x with clause := some ⟨.memory, 1⟩ } } } }

theorem witness_IllegalAndMaskedTraps_steps :
    (let turn (s : State) : Option (Issuer × Fetched) :=
      let u := { s with agenda := [], ticks := 1 }
      (issuerAt u ⟨1, 0, 0⟩).bind fun d => (issuerAt (freshFar u d) ⟨1, 0, 0⟩).bind fun c =>
        if issuable u d && !gangMarked d then some (c, (fetchInstr (freshFar u d) c).2) else none
     badPlaced.agenda == [.issue ⟨1, 0, 0⟩] && (commonDue badPlaced).isNone && !badPlaced.frozen &&
     (turn badPlaced).any (fun x => x.2 == .illegal 9) && (turn inClause).any fun x => clauseRefuses x.1.gang 0x41 && match x.2 with
      | .instr i opc => !isReserved i && opc == 0x41
      | _ => false) = true := by decide +kernel

/-! ## Witnesses: waves, groups and queues -/

/-- The group has its prologue allotment only. -/
def prologue : State :=
  let s := withWaves [wave0]
  { s with groups := s.groups.map fun g => { g with acquired := false } }

/-- A store of the wave is not yet performed. -/
def storing : State := withWaves [{ wave0 with sq := [⟨[(7, 0)], [], 0, 0⟩], mq := 1 }]

theorem witness_WavesAndGroups : (issues demo && (List.range 8).all fun j => (sliceAt demoC.w j).stack.isEmpty) = true ∧
    demoC.g.acquired = true ∧ releaseClear demo demoC.g true true = true ∧
    releaseClear storing (issuerOf storing).g true true = false ∧ (issuerOf prologue).g.acquired = false ∧
    issues prologue = true ∧ issues storing = true := by decide

/-- Slices 0 and 1 have a divergence stack, the others none. -/
theorem witness_WavesAndGroups_stack : (issues stacked && !(issuerOf stacked).all.isEmpty &&
    (issuerOf stacked).gang.slices.getLsbD 7 && !(sliceAt (issuerOf stacked).w 7).stack.isEmpty &&
    (let s := setQueue { demo with
       cores := demo.cores.map fun m => { m with recover := List.range 48 }
       groups := demo.groups.map fun g => { g with record := g.record.set 3 (word (4 * 2 ^ 49)) } } 0 1
         fun q => { q with logcap := 6, spawned := [false] }
     issues s && yieldTaken s (issuerOf s).g) && !yieldTaken demo demoC.g) = true := by decide +kernel

theorem witness_Spawn : (ready demo (sendUses (.s 3) 1 56 (.reg (.s 20))) && ready demo (sendUses .zero 7 0 (.lit 8)) &&
    ready demo (sendUses (.s 3) 1 0 (.lit 7)) &&
    (let s := setQueue demo 7 0 fun q => { q with logcap := 6 }
     ready s (sendUses (.s 3) 1 0 (.lit 7)) && !(queueOf s 7 (recPrio (cmdWords (issuerOf s).w 0))).full &&
       decide (s.regs.localGib ≤ 64))) = true := by decide


/-! ## Witnesses: accesses -/

/-- An instruction retires in a state. -/
def retires (i : Instr) (s : State) : Bool :=
  match exec i s with
  | .next t => match issuerAt t (issuerOf s).ref with
    | some c => c.gang.pc == (issuerOf s).pc + word i.len && c.gang.hold == .none &&
      c.w.trap.tm == (issuerOf s).w.trap.tm && c.w.halted == (issuerOf s).w.halted
    | none => false
  | _ => false

/-- Some accesses of the demonstration wave resolve, meet no poison and no missing room. -/
def reached (sp : Space) (kind : AKind) (as : List Acc) : Bool :=
  let x := resolveAll demo demoC sp kind as
  resolves demo demoC sp kind as && (readConds x).isEmpty && (writeConds x).isEmpty && commonsIdle demo demoC &&
    roomBeyond x.s (x.oks.flatMap Prod.snd) && hostClear demoC x && as.length == x.oks.length &&
    x.oks.all fun e => (directConds x.s demoC true e.1.lane e.2).isEmpty && e.2.all fun p => !isRemote x.s p

/-- 32 lanes at address 0, and the wave at the last doubleword of its 512 tiles. -/
def lanesAtZero (n : Nat) : List Acc := (List.range 32).map fun l => ⟨l, 0, n⟩

theorem witness_LoadsComplete : (laneReady demo Guard.always (.vw 0 4 :: .vr 1 2 :: useS (.lit 0)) &&
    decide (demoC.w.cntL < 255) && reached .l .read (lanesAtZero 4) &&
    reached .l .read [⟨demoC.all.headD 0, 4096 * 512 - 8, 8⟩] && ready demo (.sw (.s 1) :: .sr (.s 2) :: useS (.lit 0)) &&
    laneReady demo Guard.always ([.sr (.s 1), .sr (.s 2), .vw 0 4] ++ useS (.lit 0)) && wholeSlices (demoC.lanes Guard.always) &&
    blockAligned .none (waveAddr demoC .zero (.lit 0)) 0 &&
    reached .l .read ((blockAccs .none 0 (fullSlices (demoC.lanes Guard.always))).map Prod.fst)) = true := by decide +kernel

/-- `.c` takes whole registers only. -/
theorem witness_StoresComplete : (laneReady demo Guard.always (.vr 3 4 :: .vr 1 2 :: useS (.lit 0)) &&
    decide (demoC.w.cntS < 255) && reached .c .write (lanesAtZero 8) && reached .c .write [⟨demoC.all.headD 0, 504, 8⟩] &&
    laneReady demo Guard.always ([.sr (.s 1), .sr (.s 2), .vr 0 4] ++ scaleUses .mxe2m1 4 ++ useS (.lit 0)) &&
    reached .l .write ((blockAccs .none 0 (fullSlices (demoC.lanes Guard.always))).map Prod.fst)) = true := by decide +kernel

/-- Accesses of the demonstration wave whose bytes lie in this package, open to a program's stores, and in no common
register. -/
def nearBy (sp : Space) (kind : AKind) (as : List Acc) : Bool :=
  let x := resolveAll demo demoC sp kind as
  reached sp kind as && (x.oks.all fun e => e.2.all fun p => !isCommon p) && !(pasOf (x.oks.flatMap Prod.snd)).isEmpty &&
    (pasOf (x.oks.flatMap Prod.snd)).all fun a => !inCode demo (resolvePa x.s a) &&
      (List.range 8).all fun i => !inTables demo (resolvePa x.s a / 8 * 8 + i)

theorem witness_StoresReadBack : (ready demo (.sr (.s 1) :: .sr .zero :: useS (.lit 0)) && !demoC.all.isEmpty &&
    decide (demo.regs.localGib ≤ 64 ∧ demoC.w.cntS < 255 ∧ demoC.g.die < 8 ∧ demoC.g.phys < 64 ∧ demoC.g.cset < 32 ∧
      demoC.g.common ≤ 64 ∧ demoC.g.spadBase + demoC.g.tiles ≤ 512 ∧ 504 + 8 ≤ 8 * demoC.g.common ∧
      8 ≤ 4096 * demoC.g.tiles) && (List.range 512).all (fun k => !ownedByEngine demo demoC.g.die demoC.g.phys k &&
      !ownerFails demo demoC.g.die demoC.g.phys k) &&
    ((List.range 8).all fun i => !inCode demo (spadPa demoC.g i) && !inTables demo (spadPa demoC.g i)) &&
    laneReady demo Guard.always (.vr 3 4 :: .vr 1 2 :: useS (.lit 0)) && nearBy .l .write (lanesAtZero 8) &&
    nearBy .l .write [⟨demoC.all.headD 0, 4096 * 512 - 8, 8⟩]) = true := by decide +kernel

theorem witness_StoresReadBack_others : (laneReady demo Guard.always ([.sr (.s 1), .sr (.s 2), .vr 0 4] ++ scaleUses .mxe2m1 4 ++ useS (.lit 0)) &&
    wholeSlices (demoC.lanes Guard.always) && blockAligned .mxe4m3 (waveAddr demoC .zero (.lit 0)) 0 &&
    nearBy .l .write ((blockAccs .mxe4m3 0 (fullSlices (demoC.lanes Guard.always))).map Prod.fst) &&
    nearBy .l .write ((blockAccs .none 0 (fullSlices (demoC.lanes Guard.always))).map Prod.fst) &&
    laneReady demo Guard.always ([.vw 0 4, .vr 1 2, .vr 3 9, .vr 3 10, .ff] ++ useS (.lit 0)) && nearBy .l .rmw (lanesAtZero 8) &&
    (atomConds .add .i64 true (resolveAll demo demoC .l .rmw (lanesAtZero 8))).isEmpty) = true := by decide +kernel

/-- R138 and R139: lanes that meet at one address act after each other, and the last store to it stays. -/
theorem test_atoms_meet :
    let at_ (i : Instr) : Option Nat := match exec i demo with
      | .next t => some (natOfBytes (readRun t (spadPa demoC.g 0) 8))
      | _ => none
    at_ (.red ⟨Guard.always, 2, .lit 0, 9, .i64, .l, .add⟩) = some 0 ∧
    (match exec (.red ⟨Guard.always, 2, .lit 0, 9, .i64, .l, .add⟩)
        (withWaves [{ wave0 with v := (List.range 32).map fun l => (32 * 9 + l, word (l + 1)) }]) with
      | .next t => some (natOfBytes (readRun t (spadPa demoC.g 0) 8))
      | _ => none) = some 528 := by decide +kernel

/-- Loads, stores, CLOAD and LDB end in a next state here. -/
theorem witness_MemoryFrames : (retires (.ld ⟨Guard.always, 4, 2, .lit 0, .i32, .l⟩) demo &&
    retires (.st ⟨Guard.always, 4, 2, .lit 0, .i32, .l⟩) demo && retires (.lds ⟨.s 1, .zero, .lit 0, .i32, .l⟩) demo &&
    retires (.sts ⟨.s 1, .zero, .lit 0, .i32, .l⟩) demo && retires (.cload 0 .zero (.lit 0) .l) demo &&
    retires (.ldb ⟨Guard.always, 4, .zero, .lit 0, .zero, .none, .l⟩) demo) = true := by decide +kernel

/-- So do the other forms; what MLOAD and MSTORE need stands under `witness_TileMemory`. -/
theorem witness_MemoryFrames_others : (retires (.atom ⟨Guard.always, 4, 2, .lit 0, 9, .i32, .l, .add⟩) demo &&
    retires (.red ⟨Guard.always, 2, .lit 0, 9, .i32, .l, .add⟩) demo && retires (.pref Guard.always 2 (.lit 0) false) demo &&
    retires (.stb ⟨Guard.always, 4, .zero, .lit 0, .zero, .mxe4m3, .l⟩) demo &&
    retires (.csave .zero (.lit 0) 0 .l) demo) = true := by decide +kernel

/-- A load has all its data, and a store is performed. -/
def answered : State := withWaves [{ wave0 with
  lq := [LEntry.plain [⟨.v 3 31, .i8, 31, [0x80], []⟩] [8 * 3 + 7] 0], sq := [⟨[], [], 0, 0⟩] }]

theorem witness_CountedCompletions : (match findWave answered 1 0 with
    | some w => (w.lq.map fun e => e.elems.map Elem.waits) == [[[]]] && (w.sq.map SEntry.waits) == [[]]
    | none => false) = true ∧ 3 < 255 ∧ 31 < 32 ∧ commonsDone answered 1 0 = true := by decide

theorem witness_AtomicsComplete : (laneReady demo Guard.always ([.vw 0 4, .vr 1 2, .vr 3 9, .vr 3 10, .ff] ++ useS (.lit 0)) &&
    reached .l .rmw (lanesAtZero 8) && (lanesAtZero 8).all (fun k => k.addr % 8 == 0) &&
    (atomConds .cas .i64 false (resolveAll demo demoC .l .rmw (lanesAtZero 8))).isEmpty &&
    (atomConds .add .i64 true (resolveAll demo demoC .l .rmw (lanesAtZero 8))).isEmpty) = true := by decide +kernel

theorem witness_AtomicResults : 2 ^ 32 - 1 < 2 ^ Ty.width .i32 ∧ 2 ^ 63 < 2 ^ Ty.width .i64 := by decide +kernel

/-- One lane is active, and its deque descriptor in the scratchpad names 2 entries in the scratchpad itself. -/
def dequeState : State := oneLane

theorem witness_DequesComplete : (laneReady dequeState ⟨false, 0⟩ ([.vw 0 4, .vr 1 2, .pw 3, .vr 3 9] ++ useS (.lit 0)) &&
    (let c := issuerOf dequeState
     let x := resolveAll dequeState c .l .rmw [⟨0, 0, 64⟩]
     let r := x.oks.foldl (fun r e => match e.2 with
        | p :: _ => dequeOne c .l .pop (fun _ => 0) r e.1.lane p
        | [] => r) (⟨x.s, x.s, [], [], [], []⟩ : DequeAcc)
     c.lanes ⟨false, 0⟩ == [0] && resolves dequeState c .l .rmw [⟨0, 0, 64⟩] && r.pend.isEmpty && r.bad.isEmpty)) = true := by
  decide +kernel

/-! ## Witnesses: ownership, engines, coordinates -/

/-- Tile 0 of core 0 belongs to the engines. -/
def given : State := { demo with owner := [(0, true)] }

theorem witness_Ownership : (ready demo (.sr .zero :: useS (.lit 512)) && decide (demoC.g.tiles = 512) &&
    accessesDone demo 1 0 demoC.w && !accessesDone storing 1 0 (issuerOf storing).w && ready storing (.sr .zero :: useS (.lit 0)) &&
    (List.range 512).all (fun i => !namedTile demo demoC.g.die demoC.g.phys (demoC.g.spadBase + i) &&
      !ownerFails given demoC.g.die demoC.g.phys (demoC.g.spadBase + i)) &&
    ready given (.sw (.s 1) :: .sr .zero :: useS (.lit 64))) = true := by decide +kernel

/-- A wave that has written host memory. -/
def wroteHost : State := withWaves [{ wave0 with hostWrote := some 100 }]

/-- The demonstration machine with pages 0 and 1 readable, writable and executable through its L1, lines 0 and 1
defined; the frame of its group is at 0. -/
def paged : State :=
  let line (n : Nat) : L1Line := ⟨0, 0, 0, n, n, true, true, true, true, true, 5, true⟩
  { demo with hbm := [(0, ⟨0, false⟩), (1, ⟨0, false⟩)], l1 := [line 0, line 1] }
def pagedC : Issuer := issuerOf paged

/-- Accesses of the wave on the first lines of memory resolve and meet nothing. -/
def readable (kind : AKind) (as : List Acc) : Bool :=
  let x := resolveAll paged pagedC .g kind as
  issues paged && resolves paged pagedC .g kind as && commonsIdle paged pagedC && x.oks.length == as.length &&
    x.oks.all fun e => (directConds x.s pagedC (kind == .read) e.1.lane e.2).isEmpty && farHeld pagedC x

theorem witness_FencesAndArguments : (issues demo && demoC.w.lq.isEmpty && demoC.w.sq.isEmpty && demoC.w.hostWrote.isNone &&
    issues storing && !(issuerOf storing).w.sq.isEmpty && issues wroteHost && (issuerOf wroteHost).w.sq.isEmpty &&
    (issuerOf wroteHost).w.hostWrote == some 100 && (issuerOf wroteHost).gang.hold != .fence true &&
    laneReady demo Guard.always (.vr 1 2 :: useS (.lit 0)) && ready paged [.sw (.s 1)] && !pagedC.all.isEmpty &&
    pagedC.g.record.getD 1 0 == 0 && readable .read [⟨0, 8 * 15, 8⟩]) = true := by decide +kernel

/-- A wave whose s2 names descriptors at 0 and 64 of the pages: a copy command without operation bits. -/
def pushing : State := { paged with groups := (withWaves [{ wave0 with s := [(2, 1), (4, 64)] }]).groups }
def pushingC : Issuer := issuerOf pushing

/-- The group's status entry 5 holds what the command of tag 5 left. -/
def reported : State :=
  { demo with groups := demo.groups.map fun g => { g with stat := [(5, (word (5 * 2 ^ 48 + 2 ^ 39), 7))] } }

theorem witness_EngineCommands : (ready demo (sendUses (.s 1) 1 56 (.lit 1023)) && ready demo (sendUses (.s 1) 1 56 (.lit 31)) &&
    ready demo (sendUses (.s 1) 1 56 (.reg (.s 63))) && ready pushing (sendUses (.s 1) 1 2 (.lit 0)) &&
    decide (pushingC.w.cntC < 255) && accessesDone pushing pushingC.ref.gid pushingC.ref.wave pushingC.w && (match acceptCopy pushing pushingC 0 0 (newCmd pushing pushingC (cmdWords pushingC.w 2)) with
      | (_, .inl _) => true
      | _ => false) &&
    trackerCount pushing 0 0 == 0 && ready reported (.sw (.s 1) :: useS (.lit 5)) &&
    ((issuerOf reported).g.stat.get (0, 0) 5).1.getLsbD 39 &&
    ((issuerOf reported).g.stat.get (0, 0) 5).1.toNat / 2 ^ 48 == 5 && !(issuerOf reported).g.marks.get false (gmStat 10) &&
    !(issuerOf reported).g.marks.get false (gmStat 11) &&
    (let x := resolveAll paged pagedC .g .read [⟨0, 0, 64⟩]
     let r := (pagedC.lanes Guard.always).foldl (fun r l => trayLane pagedC
       (TraySet.ofBytes (readPieces x.s pagedC.w.far (x.oks.flatMap Prod.snd))) .i32 .add r l 0 0)
       ⟨x.s, x.s, [], [], [], []⟩
     laneReady paged Guard.always ([.vw 0 4, .vr 1 2, .vr 3 9, .pw 3] ++ useS (.lit 0)) && readable .read [⟨0, 0, 64⟩] &&
       r.pend.isEmpty && r.bad.isEmpty)) = true := by decide +kernel

/-- A pair descriptor at offset 0 of the scratchpad: two lists of one unit each, in the scratchpad at 128 and 256. -/
def listed : State :=
  let bytes := bytesOfNat 64 (128 + 1 * 2 ^ 64 + 256 * 2 ^ 128 + 1 * 2 ^ 192 + 8 * 2 ^ 256 + 8 * 2 ^ 260)
  let s := withWaves [{ wave0 with q0 := { Cursor.closed with opened := true, endd := 2 ^ 32 - 1 } }]
  storeBytes s (atRun (spadPa (issuerOf s).g 0) bytes)
def listedC : Issuer := issuerOf listed

/-- The opened cursor's walk through the lists finds nothing amiss; CSAVE and CLOAD reach 32 aligned bytes. -/
theorem witness_Coordinates : (ready listed [.sr (.s 1), .sw (.s 2), .q 0, .sr (.s 3)] &&
    (let r := (Rd.start listed).pair listedC 0
     !r.1.stopped && r.2.a.valid && r.2.b.valid && !r.2.res && r.2.a.len == 1 && r.2.b.base == 256) &&
    laneReady listed Guard.always (runUse (.vw 0) 252 3 ++ [.q 0, .sw (.s 1), .pw 3, .vr 1 2, .sr (.s 1)]) &&
    (listedC.w.cursor 0).opened && !(listedC.w.cursor 1).opened &&
    (let r := pairWhere listedC listed true 0
     let v := walkLoop listedC r.2 32 4097 ⟨r.1, listedC.w.cursor 0, [], 0, none⟩
     let x := (splitLanes listedC 2 (listedC.w.cursor 0) r.2 (listedC.lanes Guard.always) r.1).1
     let y := seekCursor listedC (listedC.w.cursor 0) r.2 0 0 1 r.1
     !v.x.stopped && v.bad.isNone && v.pairs.length == 1 && !x.stopped && !y.1.stopped) &&
    ready demo (.q 3 :: .sr (.s 1) :: useS (.lit 32)) && readable .write [⟨0, 32, 32⟩] && readable .read [⟨0, 96, 32⟩] &&
    (let x := resolveAll paged pagedC .g .write [⟨0, 32, 32⟩]
     hostClear pagedC x && storesSent pagedC x (bytesOfNat 32 (pagedC.w.cursor 3).bits) && roomBeyond x.s (x.oks.flatMap Prod.snd) &&
       decide (paged.regs.localGib ≤ 64) && x.oks.all fun e => e.2.all fun p => !isRemote x.s p) &&
    (let p := (pairWhere listedC listed true 0).2
     listsOnly (listedC.w.cursor 0) p && !listsOnly (listedC.w.cursor 0) { p with a := { p.a with enc := 1 } } &&
       decide ((listedC.w.cursor 0).mode ≠ 2))) = true ∧
    (Cursor.closed.mode < 3 ∧ 3 * 2 ^ 15 / 2 ^ 15 % 4 = 3) := by decide +kernel

/-! ## Witnesses: the matrix engine -/

/-- Slot 0 holds one k-block of 128 columns of F16; the accord lists wave 0 at column 0 and wave 1 at column 1; the
tiles are valid; s1 is an A descriptor of pitch 128, s3 counts one k-block. -/
def accordGroup (g : Group) : Group := { g with
  waves := List.replicate 2 { wave0 with s := [(1, 2 ^ 24), (3, 1)] }
  wb := [(0, 9), (2, 128), (4, 1)], accord := 0xA180
  tstat := g.tstat.map fun t => { t with valid := true } }
def accorded : State := { demo with groups := demo.groups.map accordGroup }

/-- The operands of wave 0. -/
def mmaOp : MmaOp := ⟨0, .s 1, .s 2, .f16, 0, false⟩

/-- The latch entry that wave 1 has opened, into tile 1. -/
def opened (opc : Nat) (c : Word) : Latch := ⟨opc, .f16, 0, c, 0xA180, 0x1000, 8, [⟨1, 1, 2 ^ 24, 0⟩], none⟩
def latched (q : Latch) : State := { accorded with groups := accorded.groups.map fun g => { g with latch := some q } }

/-- Wave 0 is what the open entry of an instruction waits for, and no check fails. -/
def awaited (opc : Nat) (k : SReg) (c : Word) : Bool :=
  let q := opened opc c
  let s := latched q
  let i := issuerOf s
  let e := latchWith i mmaOp q
  i.g.latch == some q && i.w.readS k == c && q.accord == i.g.accord && q.a == i.w.readS mmaOp.a && q.b == i.w.readS mmaOp.b &&
    accordWaves i.g.accord == [0, 1] && i.ref.wave == 0 && (accordConds s i.g e (latchNk e) (mmaSpan e) false false).isEmpty &&
    allFree i i.all [.sr mmaOp.a, .sr mmaOp.b, .sr k, .accord] && decide (mmaOp.d.val < i.g.tregs ∧ i.w.mq < 255) &&
    !matrixBusy i.g (some 0) (some (bSlot (i.w.readS mmaOp.b))) && accordValid i.g.accord i.g.waves.length &&
    i.gang.slices == 255

/-- The other cores of the quad have formed their accords with the key of s3. -/
def quadded : State :=
  let q := opened 0xD2 1
  let s := latched q
  { s with groups := s.groups ++ [1, 2, 3].map fun n => { accordGroup (placedGroup (n + 1)) with
      core := n, phys := n, quads := [{ latchWith (issuerOf s) mmaOp q with quad := some n }] } }

theorem witness_Accords : (ready accorded [.sw (.s 5), .sr (.s 6)] && (issuerOf accorded).g.latch.isNone &&
    ((issuerOf accorded).g.waves.all fun v => !v.gone) && (issuerOf accorded).g.stop.isNone && awaited 0xD1 .zero 0 && awaited 0xD2 (.s 3) 1 &&
    awaited 0xD3 (.s 3) 1 && issues quadded &&
    (let c := issuerOf quadded
     let e := latchWith c mmaOp (opened 0xD2 1)
     quadKey e == 1 && (c.g.quads.isEmpty) && !quadBusy quadded c.ref.gid e && [1, 2, 3].all fun n => match oldestQuad quadded 0 n 1 with
      | some (gid, x) => gid == n + 1 && !quadBusy quadded gid x && quadFields quadded gid x == quadFields quadded 1 e && match findGroup quadded gid with
        | some g => (accordConds quadded g x (latchNk x) (mmaSpan x) false false).isEmpty
        | none => false
      | none => false) &&
    mmaxDone (tileStat (issuerOf accorded).g 0) == 0) = true := by decide +kernel

/-- An MMAX of one step is in progress. -/
theorem witness_Accords_step :
    (let e := latchWith (issuerOf accorded) mmaOp (opened 0xD3 1)
     let g := { (issuerOf accorded).g with expansions := [⟨e, 0, 1⟩] }
     accordConds accorded g e 1 (mmaxSpan g e 0) true false) = [] := by decide +kernel

theorem witness_MatrixSteps : 63 < 64 ∧ 1 < (issuerOf accorded).g.tstat.length ∧ 0 ≠ 1 := by decide +kernel

theorem witness_TileInstructions : (issues accorded && decide (15 < (issuerOf accorded).g.tregs) &&
    decide (15 < (issuerOf accorded).g.tstat.length) && !matrixBusy (issuerOf accorded).g (some 15) none &&
    (tileStat (issuerOf accorded).g 15).valid && !(tileStat (issuerOf accorded).g 15).uce &&
    !(tileStat (issuerOf accorded).g 15).i64 && ready accorded [.sw (.s 5), .sr (.s 6), .ck 3] &&
    laneReady accorded Guard.always (runUse (.vw 0) 253 2 ++ runUse (.vr 1) 4 2) &&
    allFree (issuerOf accorded) (List.range 32) (runUse (.vw 0) 253 2) &&
    decide (-64 ≤ (demoC.w.srcS (.lit 64)).toInt ∧ (demoC.w.srcS (.lit 64)).toInt ≤ 64)) = true := by decide +kernel

/-- The wave with a pitch of 512 bytes for its tile rows, and with a weight descriptor of 64 columns and one k-block. -/
def tiled : State := { accorded with groups := accorded.groups.map fun g => { g with
  waves := [{ wave0 with s := [(2, 512), (3, 64 + 1 * 2 ^ 16 + 1 * 2 ^ 32)] }] } }

theorem witness_TileMemory : (ready tiled (.sr (.s 1) :: useS (.reg (.s 2)) ++ [.sr (.s 3), .spec 2]) &&
    (let c := issuerOf tiled
     let y := resolveAll tiled c .l .write (tileRows c (.s 1) 512 256)
     (tileStat c.g 15).valid && !(tileStat c.g 15).uce && !(tileStat c.g 15).i64 && !c.g.marked (gmTile 15) &&
       (writeConds y).isEmpty && hostClear c y && roomBeyond y.s (y.oks.flatMap Prod.snd) && decide (tiled.regs.localGib ≤ 64) &&
       y.oks.all fun e => e.2.all fun p => !isRemote y.s p) &&
    (let c := issuerOf tiled
     let b := c.w.readS (.s 3)
     let rows (t : AKind) := resolves tiled c .l t (tileRows c (.s 1) (tilePitch c (.reg (.s 2)) 256) 512)
     let x := resolveAll tiled c .l .read (tileRows c (.s 1) 512 512)
     let accs : List Acc := (List.range 64).map fun n => ⟨c.all.headD 0, 64 * n, 64⟩
     tilePitch c (.reg (.s 2)) 256 == 512 && rows .read && rows .write && commonsIdle tiled c && !c.all.isEmpty &&
       (x.oks.all fun e => (directConds x.s c true e.1.lane e.2).isEmpty) && x.oks.length == 64 && farHeld c x &&
       decide (7 < c.g.wbslots ∧ c.w.mq < 255) && !matrixBusy c.g none (some 7) && !wbBeyond c.g .f16 0 b && wbN b == 64 && wbKb b == 1 &&
       wbPitch b == 1 && !wbBadShape .f16 b && aBlockBytes .f16 == 64 && resolves tiled c .l .read accs)) = true := by
  decide +kernel

/-! ## Witnesses: units, host, registers -/

/-- A command of the demonstration group for unit `unit` of die 0. -/
def cmd (op : Nat) : Cmd := ⟨7, [word (op + 5 * 2 ^ 48)], 1, 0, 0, 0, 0, [], [], [], [], none, false, false, none, none⟩
def queued (unit : Nat) (k : Cmd) : State := { demo with engq := [(4 * unit, [k])] }

/-- The command of a unit of die 0 is next, its group is resident, and it stands in its queue. -/
def nextIs (unit : Nat) (k : Cmd) : Bool :=
  nextCmd (queued unit k) 0 unit == some (0, k) && unitQueue (queued unit k) 0 unit 0 == [k] && k.aged.isNone &&
    (findGroup (queued unit k) k.gid).isSome

/-- A common-register write of wave 0 to the last common register of its set. -/
def commonQueued : State := 
  { demo with commons := [⟨0, 0, winCommon + 504, 5, 1, 0, 0, 0⟩], ticks := 12 }

theorem witness_UnitSteps : (nextIs 31 { cmd 1 with bad := [(9, 4)] } && nextIs 31 { cmd 6 with reads := [(0, [], false), (64, [], false)] } &&
    ([1, 2, 3, 4, 5, 6].all fun op => (cmd op).op == op) && demo.regs.walkHost == false && nextIs 32 (cmd 16) && (cmd 16).op == 16 &&
nextIs 0 (cmd 7) && nextIs 32 (cmd 0) && (issuerOf storing).g.expansions.isEmpty &&
    (issuerOf storing).g.quads.isEmpty && !unitWalks demo 31 && !unitWalks demo 32 && decide (0 < (issuerOf storing).w.mq) &&
    (leastBy (fun x : CommonWrite => 64 * x.cycle + x.slot) (commonQueued.commons.filter fun x =>
      x.die == 0 && x.phys == 0 && x.cycle + 3 ≤ cycleOf commonQueued)).isSome && winRange (winCommon + 504) == .common &&
    (List.range 8).all fun i => !inCode commonQueued (windowPa 0 0 (winCommon + 504) + i) &&
      !inTables commonQueued (windowPa 0 0 (winCommon + 504) + i)) = true := by decide +kernel

/-- The descriptor of four bytes at a base, in the scratchpad where `l` is 1. -/
def byteDesc (base l : Nat) : List Byte := bytesOfNat 128 (base + 2 ^ 69 + l * 2 ^ 72 + 4 * 2 ^ 128 + 4 * 2 ^ 640)

/-- A COPY of four bytes at the scratchpad's start, whose descriptors have been read. -/
def copying (dst : List Byte) : Cmd := { cmd 1 with reads := [(0, byteDesc 0 1, false), (128, dst, false)] }

/-- How such a command runs on engine 31 of die 0: 0 ends with an error, 1 is done, 2 has something to send, 3 waits for walks. -/
def copyRuns (base : State) (k : Cmd) : Nat :=
  let s := { base with engq := [(4 * 31, [k])] }
  match k.reads with
  | x :: y :: _ =>
    let c : Copy := ⟨k, Desc.ofBytes x.2.1, Desc.ofBytes y.2.1⟩
    let r := unitRunner s 0 31 k.asid demoC.g
    let named := r.tilesNow s c
    match (runCopy (modCmd (r.formPlaces c s) 0 31 0 k.id fun k => { k with started := true, tiles := named }) r c).2 with
    | .error (.status _) => 0
    | .ok z => if z.out.isEmpty then 1 else 2
    | .error _ => 3
  | _ => 4

/-- Tile 0 belongs to the engines, and page 0 is the start of package 1's HBM, which a port reaches. -/
def faraway : State := { given with
  regs := { Regs.reset with mode := 1, npkg := 4, rtCur := [(1, 2)] }
  ports := Port.reset :: Port.reset :: { Port.reset with state := 2, pkg := 1 } :: List.replicate 15 Port.reset
  trans := modifyAt (fun u => { u with leaves := [⟨0, 0, 4, [word (2 ^ 50 + 2 ^ 40 + 0x4EF)], [2 ^ 30]⟩] }) 0 given.trans }

theorem witness_UnitSteps_copy : copyRuns demo (copying (byteDesc 64 1)) = 0 ∧ copyRuns given (copying (byteDesc 64 1)) = 1 ∧
    copyRuns faraway (copying (byteDesc 64 0)) = 2 ∧
    copyRuns { given with regs := { Regs.reset with walkHost := true } } (copying (byteDesc 64 0)) = 3 ∧
    nextIs 31 { cmd 1 with started := true, fin := some ⟨[], 0, 0, []⟩ } = true ∧ farDone [] = true := by decide +kernel

/-- A drain of region 0 of a tray set of one region of 4,096 bytes of i32, its staging area at 0 of the scratchpad. -/
def draining : Cmd := { cmd 16 with
  words := [word (16 + 5 * 2 ^ 48), 0, word (2 ^ 32), 0]
  reads := [(0, bytesOfNat 64 (5 + 12 * 2 ^ 8 + 4 * 2 ^ 16 + 2 ^ 24), false)] }

/-- It starts where the staging tile belongs to the engines, ends with an error where it does not, and is done behind its last
region. -/
theorem witness_UnitSteps_drain :
    (let at_ (base : State) (k : Cmd) : Nat :=
      let s := { base with engq := [(4 * 32, [k])] }
      let r := unitRunner s 0 32 k.asid demoC.g
      let u := modCmd s 0 32 0 k.id fun k => { k with started := true }
      match drainDesc r u k with
      | (v, .ok bs) =>
        let z := modCmd v 0 32 0 k.id fun q => { q with reads := [(k.trayVa, bs, false)], tiles := drainTiles r k bs v }
        match (drainStep r z k (TraySet.ofBytes bs)).2 with
        | .ends st => st.err
        | .at_ _ => 100
        | .walks _ => 101
      | _ => 102
     (at_ given draining, at_ demo draining, at_ given { draining with drain := some { DrainPos.first draining with next := 1 } })) =
      (100, 6, 0) ∧ drainMalformed draining = false ∧ drainMalformed (cmd 16) = true ∧ nextIs 32 draining = true ∧
    (match (drainDesc (unitRunner demo 0 32 0 demoC.g) demo (cmd 16)).2 with
      | .bad _ => true
      | _ => false) = true := by decide +kernel

/-- A wave's walk is asked for, another has the last free slot; fault service is requested at slot 3. -/
def serviced : State := { withWaves [{ wave0 with
    trap := ⟨0x2001, false, 0, 0, 0, 0, 0⟩, service := some ⟨7, 0, 1, 0x1000, 0xFF, some 3⟩ }] with
  walks := [⟨0, .wave 1 0, 0, 0x3000, 0, none⟩, ⟨0, .unit 5, 0, 0x4000, 1, some 0⟩]
  hostq := [.flush 1 0 0 100, .read 9 8 8 []] }

/-- The gang waits for the flush that it has sent. -/
def flushing : State := { withWaves [{ wave0 with gangs := [⟨0xFF, 0x1000, .fence true, none, 0, false⟩] }] with
  hostq := [.flush 1 0 0 100] }

theorem witness_HostServices : (serviced.walks.find? (fun q => q.die == 0 && q.slot.isNone)).isSome = true ∧
    freeSlot (serviced.walks.filterMap WalkReq.slot) = some 1 ∧ (serviced.walks.find? fun q => q.slot == some 0).isSome = true ∧
    serviceAt serviced 3 = some (1, 0, ⟨7, 0, 1, 0x1000, 0xFF, some 3⟩) ∧ freeSlot (serviceSlots serviced) = some 0 ∧
    (findWave (withWaves [{ wave0 with service := some ⟨7, 0, 1, 0x1000, 0xFF, none⟩ }]) 1 0).isSome = true ∧
    (issuerAt serviced ⟨1, 0, (slicesOf 0xFF).headD 0⟩).isSome = true ∧ (issuerOf serviced).w.trap.tm = false ∧
    (issuerOf serviced).w.trap.tvec.getLsbD 0 = true ∧
    ((issuerAt flushing ⟨1, 0, 0⟩).map fun c => c.gang.hold) = some (.fence true) := by decide +kernel

/-- A module that is up, without its route lock, in mesh mode of four packages. -/
def meshed : State := { demo with regs := { Regs.reset with mode := 1, npkg := 4, rtStage := [(0, 0), (1, 1)], ver := 15 } }

/-- An aperture of the host at 0, its window covering the first lines. -/
theorem witness_DeviceRegisters : (trinvScope (2#64 <<< 61 &&& 0xFFFFFFFFFFFFFF00)).isSome = true ∧
    (trinvScope (4#64 <<< 61 &&& 0xFFFFFFFFFFFFFF00)).isSome = true ∧ (trinvScope (5#64 <<< 61)).isSome = true ∧
    demo.regs.trinvRun = none ∧ demo.regs.lock = false ∧ demo.boot.skip7 = false ∧ ¬ ((8 = 4 ∨ 8 = 8) ∧ 4 % 8 = 0) ∧
    (((1#64 <<< 40) ||| (64#64 <<< 16) ||| 63#64).toNat / 2 ^ 40 % 4 = 1 ∧
      ((1#64 <<< 40) ||| (64#64 <<< 16) ||| 63#64).toNat / 2 ^ 16 % 2 ^ 11 = 64) ∧ meshed.regs.mode = 1 ∧
    demo.regs.vacBusy = false ∧ demo.regs.vacHost = false ∧ ((1#64 <<< 62) ||| 48#64).toNat / 2 ^ 62 = 1 ∧
    ((1#64 <<< 62) ||| 48#64).toNat % 64 ≠ 0 ∧ physOf demo 7 47 = some 47 ∧ fencedCore demo 7 47 = false ∧
    demo.regs.fixRun = none ∧ imageKey demo 0 = none ∧ (apertureAt demo 0 8).isSome = true ∧ demo.regs.localGib ≤ 64 ∧
    ((apertureAt demo 0 8).any fun a => (List.range 8).all fun i => !inCode demo (a + i) && !inTables demo (a + i)) = true ∧
    demo.queues.length = 64 ∧ Regs.reset.vacMask = 0 ∧ 0 < demo.cores.length ∧
    ((2#64 <<< 62).toNat / 2 ^ 62 = 2 ∧ ({ Regs.reset with vacHost := true }).vacHost = true) := by decide +kernel

/-! ## Witnesses: fabric, collectives, scheduler, system -/

/-- The mesh with port 0 training, port 1 up with a weak shadow, port 2 up, a flow to package 2 with a request of number 9 to
answer, and routes to packages 0 and 1. -/
def wired : State :=
  let up (weak : BitVec 5) : Port := { Port.reset with state := 2, weak := weak }
  { meshed with
    ports := { Port.reset with state := 1 } :: up 0x10 :: up 0 :: List.replicate 15 Port.reset
    flows := [⟨2, 10, [(9, 1, .lineRead 0)], 0, [(4, .written)], 9⟩] }

theorem witness_FabricSteps : (portOf wired 0).state = 1 ∧ (portOf wired 1).state = 2 ∧ (portOf wired 2).state = 2 ∧
    (portOf wired 1).weak.getLsbD (portOf wired 1).shadow = true ∧ (portOf wired 2).weak.getLsbD (portOf wired 2).shadow = false ∧
    (portOf wired 2).serving = 0 :: [1, 2, 3] ∧ 2 < wired.ports.length ∧ wired.regs.mode = 1 ∧
    (backupTable { wired with regs := { wired.regs with rtBackup := (List.range 64).map fun i => (64 * 19 + i, 2) } } (1, 1)).isSome = true ∧
    wired.regs.assist = false ∧ packetDst (.ack 0 1 5 15) = some (1, wired.regs.ver) ∧ 1 ≠ wired.regs.pkgId ∧
    reachable { wired with regs := { wired.regs with rtCur := [(1, 2)] } } 1 = true ∧ wired.regs.contst0.getLsbD 62 = false ∧
    (∃ u ∈ (flowOf wired 2).unacked, u.2.1 ≠ 0) ∧ (flowOf wired 2).expect = 0 := by decide +kernel

/-- A die-to-die link of a module that runs has five lanes of which one is the shadow, here good, and here weak. -/
theorem witness_FabricSteps_links :
    (let p := portLanes wired 18
     let worn : State := { wired with d2d := wired.d2d.set Port.link 511 { Port.link with weak := 1#5 <<< Port.link.shadow } }
     let q := portLanes worn (18 + 64 * 7 + 63)
     wired.frozen = false ∧ p.state = 2 ∧ p.weak.getLsbD p.shadow = false ∧ p.serving = 0 :: [1, 2, 3] ∧ q.state = 2 ∧
       q.weak.getLsbD q.shadow = true ∧ q.shadow < 5 ∧ 0 ≠ q.shadow) ∧
    remoteRoom wired 1 = true ∧ wired.collOut = [] ∧ (portFor { wired with regs := { wired.regs with rtCur := [(1, 2)] } } 1).isSome = true ∧
    2 ≠ wired.regs.pkgId ∧ 5 ≠ (flowOf wired 2).expect := by decide +kernel

/-- Package 1 has joined the collective of ID 5, whose root this package is. -/
def joined : State := { meshed with collIn := [(5, 1, .join 77 3)] }

theorem witness_Collectives : joined.regs.mode ≠ 0 ∧ remoteRoom joined 1 = true ∧ 3 ≠ (flowOf joined 2).expect ∧ 2 ≠ joined.regs.pkgId ∧ (∃ k ∈ joinsOf joined 5, k.2.1 ≠ 78 ∨ k.1 = 2) ∧
    (∃ k ∈ joinsOf joined 5, k.2.1 ≠ 77 ∨ k.1 = 1) ∧ joinsOf joined 6 = [] ∧ collsOf joined 6 0 = [] ∧ joinsOf joined 5 ≠ [] ∧ joinsRun joined 5 = false ∧
    (∀ c ∈ joined.colls, cwId c.words ≠ 5) := by
  refine ⟨by decide, by decide, by decide, by decide, ⟨(1, 77, 3), by decide, by decide⟩, ⟨(1, 77, 3), by decide, by decide⟩, by decide, by decide, by decide, by decide, ?_⟩
  intro c h
  exact absurd h List.not_mem_nil

/-- Die 0's queue root at 0 names the deque at 128, whose one item, in the array at 256, is the block at 384: an ALLREDUCE
of no participants, its gate in the scratchpad of core 0. -/
def collecting : State :=
  let s := storeBytes demo (atRun 0 (bytesOfNat 8 128) ++ atRun 128 (bytesOfNat 64 (256 + 2 ^ 192)) ++
    atRun 256 (bytesOfNat 8 384) ++ atRun 384 (bytesOfNat 128 (0x21 + 0x300000 * 2 ^ 512)))
  { s with
    hbm := (List.range 4).map fun n => (n, ⟨0, false⟩)
    trans := modifyAt (fun u => { u with leaves :=
      [⟨0, 0, 4, [0xEF], [2 ^ 30]⟩, ⟨0, 1, 4, [word (windowPa 0 0 0 + 0x6EF)], [2 ^ 30]⟩] }) 0 s.trans }

theorem witness_Collectives_command : ((takenColl collecting 0).isNone && !unitWalks collecting 33 && collecting.colls.isEmpty && collTurn collecting 0 == some 0 &&
    (let h := (collHead collecting 0 0).1
     let r := collRunner collecting 0 0
     let z := readColl (takeItem h 0 0 128 0) r ⟨false, 384, 128⟩
     (collHead collecting 0 0).2 == .item 128 0 384 && match z.2 with
      | .ok bs p =>
        let ws := wordsOfBytes bs 16
        let t := r.translate z.1 (ws.getD 8 0).toNat .write
        !p && cwOp ws == 0x21 && collBad collecting.regs.npkg ws && match t.2 with
          | .ok tr => (tileOfPa t.1 tr.pa).any (fun k => (tileGroup t.1 k).isSome && (tileGroup { t.1 with groups := [] } k).isNone &&
            k == (0, 0, 0))
          | _ => false
      | _ => false)) = true := by decide +kernel

/-- The block of an operation on one f32 at 640 for packages 0 and 1, its list at 512, its destination at 768, its TAG 5. -/
def collBlock (op : Nat) : Nat :=
  op + 11 * 2 ^ 24 + 11 * 2 ^ 32 + 5 * 2 ^ 48 + 5 * 2 ^ 64 + 512 * 2 ^ 128 + 2 * 2 ^ 192 + 640 * 2 ^ 256 +
    768 * 2 ^ 320 + 2 ^ 384 + 0x300000 * 2 ^ 512

/-- The same deque with that block, on package `me`, which may have given the gate tile to the engines. -/
def collStarting (op me : Nat) (gave : Bool) : State :=
  let s := storeBytes collecting (atRun 384 (bytesOfNat 128 (collBlock op)) ++ atRun 512 (bytesOfNat 4 (2 ^ 16)))
  { s with
    owner := if gave then [(0, true)] else []
    hbm := (List.range 8).map fun n => (n, ⟨0, false⟩)
    regs := { s.regs with npkg := 2, pkgId := me } }

/-- Which branch of the command clause the state reaches: 6 for the gate tile, 1 where it starts. -/
def collOutcome (op me : Nat) (gave : Bool) : Nat :=
  let s := collStarting op me gave
  let r := collRunner s 0 0
  if collTurn s 0 != some 0 || (collHead s 0 0).2 != .item 128 0 384 then 0
  else match readColl (takeItem (collHead s 0 0).1 0 0 128 0) r ⟨false, 384, 128⟩ with
    | (v, .ok bs false) =>
      let ws := wordsOfBytes bs 16
      match r.translate v (ws.getD 8 0).toNat .write with
      | (x, .ok tr) => match (tileOfPa x tr.pa).bind (fun k => (tileGroup x k).map fun _ => k) with
        | some gate =>
          if cwOp ws != op || collBad x.regs.npkg ws || ownerFails x gate.1 gate.2.1 gate.2.2 then 0
          else if !ownedByEngine x gate.1 gate.2.1 gate.2.2 then 6
          else match readColl x r (listSpan ws) with
            | (y, .ok lbs false) =>
              let l := listOf lbs (cwCount ws)
              let place := l.idxOf y.regs.pkgId
              if listBad y.regs.npkg y.regs.pkgId l || collSkew ws place || collWalks y r ws l != [] || place != me then 0
              else match collPages r y .read (cwReads ws place) (srcSpan ws) with
                | (z, .ok _) => match collPages r z .write (cwWrites ws place) (dstSpan ws) with
                  | (w, .ok _) => if joinsOf w (cwId ws) == [] && collsOf w (cwId ws) w.regs.pkgId == [] then 1 else 0
                  | _ => 0
                | _ => 0
            | _ => 0
        | none => 0
      | _ => 0
    | _ => 0

theorem witness_Collectives_start : ((List.range 3).all fun k => collOutcome (0x21 + k) 0 true == 1 &&
    collOutcome (0x21 + k) 1 true == 1 && collOutcome (0x21 + k) 1 false == 6) = true := by decide +kernel

/-- Run 7 of a collective of ID 5 whose root is package 2 waits for its final value. -/
def concluding : State := { collecting with
  regs := { meshed.regs with pkgId := 0 }
  colls := [⟨9, 0, 0, wordsOfBytes (bytesOfNat 128 (collBlock 0x21)) 16, [2, 0], 1, (0, 0, 0), [⟨0, 0, 4, 0xEF, some (2 ^ 30)⟩], [], 0,
    true, true, 7, none, 0⟩] }

theorem witness_Collectives_final :
    (let z := setFlow concluding { flowOf concluding 2 with expect := seqNext (flowOf concluding 2).expect }
     let final : List WireBlock := [⟨0, [0x3F800000], false⟩]
     concluding.regs.mode != 0 && remoteRoom concluding 1 && decide (z.regs.localGib ≤ 64) &&
     match (collsOf concluding 5 2).filter fun k => k.running && k.run == 7 with
     | [c] => cwWrites c.words c.place && finalWalks z c == [] && wireVals c.words final != [] &&
        match renewPages c (dstPages c) z with
        | (y, .ok pages) => !isFarPa y 768 && pages != [] && (tileGroup (writeFinal y c pages final).1 c.gate).isSome &&
            (tileGroup z c.gate).isSome
        | _ => false
     | _ => false) = true := by decide +kernel

/-- Bring-up has passed, and queue 0 of die 0 holds one record of 64: of one group of one wave. -/
def scheduled (r : List Word) : State :=
  let s := { State.reset with boot := { Boot.reset with step := 8 }, hbm := [(0, ⟨0, false⟩)] }
  setQueue (storeBytes s (atRun 0 (r.flatMap wordBytes))) 0 0 fun q => { q with logcap := 6, spawned := [false] }

/-- The record of the placed group, with its count in word 5. -/
def goodRecord : List Word := placedRecord.set 5 (2#64 ^ 32)

/-- A group that waits at ACQUIRE on core 0, with the prologue allotment. -/
def waiting : State := { prologue with groups := prologue.groups.map fun g => { g with
  order := some 1, waves := [{ wave0 with gangs := [⟨0xFF, 0x1000, .acquire, none, 0, false⟩] }] } }

/-- Another group of core 0 holds every tile register. -/
def crowded : State := { waiting with groups := waiting.groups ++ [{ placedGroup 2 with acquired := true, order := some 0 }] }

/-- The group has ended. -/
def past (j : Word) : State := { demo with groups := demo.groups.map fun g => { g with
  record := g.record.set 2 j, waves := [{ Wave.blank with slices := List.replicate 8 ⟨true, 0, [], 0, 0⟩, gangs := [] }] } }

/-- A join counter of n at 64, which the group's core may read and write, and a record behind it at 128. -/
def countingAt (n : Nat) : State := { past 64 with
  mem := (storeBytes demo (atRun 64 (bytesOfNat 8 n))).mem, hbm := paged.hbm, l1 := paged.l1 }
def counting : State := countingAt 2

/-- The group is being stopped, and its pool has two slots at 2 ^ 22. -/
def stopping : State := { demo with
  groups := demo.groups.map fun g => { g with stop := some .vacate }
  regs := { Regs.reset with imgBase := [(0, 2 ^ 22)], imgCount := [(0, 2)] } }

theorem witness_Scheduling : ((queueOf (scheduled goodRecord) 0 0).busy && (queueOf (scheduled goodRecord) 0 0).aged.isNone &&
    (scheduled goodRecord).boot.step == 8 && chosenQueue (scheduled goodRecord) 0 5 == some 0 &&
    headBad (scheduled goodRecord) 0 0 == none && !(takeHead (scheduled goodRecord) 0 5 0).isEmpty &&
    (headBad (scheduled placedRecord) 0 0).isSome && chosenQueue (scheduled placedRecord) 0 5 == some 0 &&
    takesBad (scheduled placedRecord) 0 5 0 && (queueOf (scheduled placedRecord) 0 0).chain.isEmpty &&
    !(scheduled placedRecord).regs.schErr.getLsbD 62 &&
    (let full (r : List Word) : State := { scheduled r with groups := [{ placedGroup 2 with phys := 5, core := 5, acquired := false, order := some 0 }] }
     chosenQueue (full placedRecord) 0 5 == some 0 && !takesBad (full placedRecord) 0 5 0 &&
       chosenQueue (full goodRecord) 0 5 == some 0 && headBad (full goodRecord) 0 0 == none &&
       (takeHead (full goodRecord) 0 5 0).isEmpty) &&
    physOf demo 0 5 == some 5) = true := by decide +kernel

theorem witness_Scheduling_groups : ((oldestWaiter waiting 0 0).any fun g => (growth waiting g).isSome) = true ∧
    ((oldestWaiter crowded 0 0).any fun g => (growth crowded g).isNone &&
      (groupsAt crowded 0 0).all fun o => o.order.isSome) = true ∧
    ((findGroup (past 0) 1).any fun g => groupOver (past 0) g && !g.joined && !waveWalks (past 0) 1 0) = true ∧
    ((findGroup counting 1).any fun g => groupOver counting g && !g.joined && !g.discard && !waveWalks counting 1 0 &&
      match (joinDecrement counting g g.first 64).2 with
      | .more => true
      | _ => false) = true ∧
    ((findGroup stopping 1).any fun g => saveReady stopping g && decide (8 * g.die + g.prio < stopping.queues.length) &&
      !((savedWith stopping g).any fun o => o.waves.any fun w => w.hostWrote.isSome) && !flushes stopping (savedWith stopping g) &&
      decide ((savedWith stopping g).length ≤ (freeImages stopping g.die).length)) = true ∧
    (queueOf (scheduled goodRecord) 0 0).full = false ∧ 8 * 7 + 7 < (scheduled goodRecord).queues.length ∧
    47 ∉ (coreMap demo 0).recover ∧ (StopKind.vacate ≠ .fence) := by decide +kernel

/-- The counter comes to 0 with a record to follow, for which the queue has room or not; or it falls below. -/
theorem witness_Scheduling_joins :
    (let joins (s : State) : Option (State × JoinRes × Group) :=
      (findGroup s 1).map fun g => ((joinDecrement s g g.first 64).1, (joinDecrement s g g.first 64).2, g)
     let follows (s : State) : Bool := (joins s).any fun x =>
      let mine : Group := { x.2.2 with joined := true, waves := x.2.2.waves.map Wave.served }
      let u := modGroup x.1 1 fun g => { g with joined := true, waves := g.waves.map Wave.served }
      groupOver s x.2.2 && !waveWalks s 1 0 && x.2.1 == .zero && match (joinRecord u mine mine.first (64 + 64)).2 with
        | .follow r => decide (8 * x.2.2.die + recPrio r < u.queues.length)
        | _ => false
     follows (countingAt 1) && (queueOf (countingAt 1) 0 0).full &&
       (let s := setQueue (countingAt 1) 0 0 fun q => { q with logcap := 6 }
        follows s && !(queueOf s 0 0).full) && (joins (countingAt 0)).any fun x => x.2.1 == .below) = true := by decide +kernel

/-- A stopped wave has written host memory; its flush is sent, or is not. -/
def flushed (q : List HostReq) (a : Option Nat) : State := { stopping with
  hostq := q, groups := stopping.groups.map fun g => { g with waves := g.waves.map fun w => { w with hostWrote := a } } }

theorem witness_Scheduling_saves :
    ((findGroup (flushed [] (some 100)) 1).any fun g => saveReady (flushed [] (some 100)) g &&
      (savedWith (flushed [] (some 100)) g).any fun o => o.waves.any fun w => w.hostWrote.isSome) = true ∧
    ((findGroup (flushed [.saved 1 100] none) 1).any fun g => saveReady (flushed [.saved 1 100] none) g &&
      flushes (flushed [.saved 1 100] none) (savedWith (flushed [.saved 1 100] none) g)) = true ∧
    (let s : State := { loading with groups := loading.groups.map fun g => { g with stop := some .vacate } }
     (findGroup s 1).any fun g => g.stop.isSome && g.stop != some .fence && g.waves.any fun w =>
       !waveStopped s g w 0 && !w.exited) = true := by decide +kernel

theorem witness_SystemSteps : Boot.reset.attempt < 4 ∧ ({ Boot.reset with attempt := 3 }).attempt ≠ 0 ∧ Boot.reset.step ≠ 8 ∧
    (let s := { State.reset with power := 5401 }
     s.regs.limitW < s.power ∧ s.regs.pmin < 15 ∧ 7 < s.cores.length) ∧
    stopped { State.reset with frozen := true, agenda := [.event .freeze] } = true := by decide

/-! ## Witnesses: frames, words and steps -/

/-- Instructions of each group of the frames retire here. -/
theorem witness_RegisterFrames : ([Instr.sadd ⟨.s 4, .s 1, .lit 3, .i32, false⟩, .spopc ⟨.s 4, .s 1, .i32⟩, .smov (.s 4) (.lit 3) .i64,
    .vcktst (.s 4) 0 1 (.s 2) false, .mfs (.wave (.s 4) .grain), .vadd ⟨Guard.always, 4, 2, .reg 3, .i8, .rne, false⟩,
    .vnot ⟨Guard.always, 4, 2, .i8, .rne, false⟩, .vmad ⟨Guard.always, 4, 2, .reg 3, 9, .i8, .rne, false⟩,
    .vcvti ⟨Guard.always, 4, 2, .i64, .i8, 7, .rne, true⟩, .xmatch Guard.always 4 2 .i32,
    .vunpk Guard.always 4 2 .i16 .i8 false, .vcmp ⟨Guard.always, 3, 2, .reg 9, .i8, .lt, false⟩,
    .xvote Guard.always (.s 4) 3 .ballot, .xcompact Guard.always 4 2 3 (.s 8)].all fun i => retires i demo) = true ∧
    retires (.vwrx Guard.always 0 4) indexed = true ∧ demoC.w.halted = false := by decide +kernel

theorem witness_FloatFrames : ([Instr.vfadd ⟨Guard.always, 4, 2, .reg 3, .f32, .rne, false⟩, .vfcmp ⟨Guard.always, 3, 2, .reg 9, .f32, .lt, false⟩,
    .vfcvt ⟨Guard.always, 4, 2, .e4m3, .f32, 3, .sr, true⟩, .vckadd Guard.always 1 2 .f32 false,
    .scset Guard.always 4 (.lit 5) true true, .bscale Guard.always 4 2 .mxe4m3 .floor false].all fun i => retires i demo) = true := by
  decide +kernel

theorem witness_StorageUntouched : Instr.opc (.sadd ⟨.s 4, .s 1, .lit 3, .i32, false⟩) = some 0x20 ∧
    retires (.sadd ⟨.s 4, .s 1, .lit 3, .i32, false⟩) demo = true := by decide +kernel

theorem witness_DecodeEncode : Instr.wf (.sadd ⟨.zero, .s 63, .lit 0xFFFFFFFF, .i32, true⟩) = true ∧
    (Instr.fields (.sadd ⟨.zero, .s 63, .lit 0xFFFFFFFF, .i32, true⟩)).isSome = true := by decide

theorem witness_DecodeSound : decode [0x00, 0x1C, 0x00, 0x00] = .ok .nopH 4 := by decide

/-- A placed instruction is what the next step fetches from the L1. -/
def nopPlaced : State := State.reset.withFetchWord 32 0x00001C00

theorem witness_StepRunsDecoded : nopPlaced.frozen = false ∧ nopPlaced.agenda = .issue ⟨1, 0, 0⟩ :: [] ∧
    ((issuerAt { nopPlaced with agenda := [], ticks := 1 } ⟨1, 0, 0⟩).any fun c =>
      let u := { nopPlaced with agenda := [], ticks := 1 }
      issuable u c && !gangMarked c && (commonDue nopPlaced).isNone && c.w.far.isEmpty && (fetchInstr u c).2 == .instr .nopH 0 && !clauseRefuses c.gang 0 &&
        (match (fetchRun u c 4).2 with
          | .bytes bs => decode bs == .ok .nopH 4
          | _ => false) && decide (c.pc.toNat % 4096 + 4 ≤ 4096)) = true := by decide +kernel

/-- The placed NOP is performed: the gang stands four bytes further. -/
theorem test_placed_step : (match step nopPlaced with
    | .next t => (issuerAt t ⟨1, 0, 0⟩).map fun c => c.gang.pc
    | _ => none) = some (word (placedVa + 4)) := by decide +kernel

theorem witness_StorageKept : storageWf State.reset = true ∧ (match step State.reset with
    | .next _ => true
    | _ => false) = true := by decide +kernel

/-! ## Results that the spec's tables and worked examples give -/

/-- The wave of a package after an instruction of the demonstration group's first gang. -/
def after (i : Instr) (s : State) : Wave :=
  match exec i s with
  | .next t => (findWave t 1 0).getD Wave.blank
  | _ => Wave.blank

/-- R222's table: division by zero, and the most negative value by −1, wrapped and under SAT. -/
theorem test_division_corners :
    let w := { wave0 with v := [(32 * 2, 0xFFFFFFFF80000000), (32 * 3, 0xFFFFFFFFFFFFFFFF)] }
    let s := withWaves [w]
    let b : VBin := ⟨Guard.always, 4, 2, .reg 3, .i32, .rne, false⟩
    ((after (.vdiv b) s).readV 4 0).toNat % 2 ^ 32 = 0x80000000 ∧
    ((after (.vdiv { b with sat := true }) s).readV 4 0).toNat % 2 ^ 32 = 0x7FFFFFFF ∧
    (after (.vrem b) s).readV 4 0 = 0 ∧ (after (.vdiv { b with b := .reg 9 }) s).readV 4 0 = 0xFFFFFFFFFFFFFFFF ∧
    (after (.vrem { b with b := .reg 9 }) s).readV 4 0 = 0xFFFFFFFF80000000 := by decide +kernel

/-- R261's table: lanes 3, 7 and 10 are active; 3 and 7 push to lane 10, where 7's value stays. -/
theorem test_push :
    let w := { wave0 with p := [(0, 0x488)], v := [(32 * 2 + 3, 33), (32 * 2 + 7, 77), (32 * 2 + 10, 10),
      (32 * 3 + 3, 80), (32 * 3 + 7, 80), (32 * 3 + 10, 96)] }
    let t := after (.xpush ⟨⟨false, 0⟩, 4, 2, .reg 3, .n64, false⟩ 1) (withWaves [w])
    t.readV 4 10 = 77 ∧ t.readP 1 = 0x400 ∧ t.readV 4 12 = 0 := by decide +kernel

/-- The worked example of 11_block_and_crosslane.md: an auto-scaled FP4 slice under `.fit`. -/
theorem test_quantise :
    let w := { wave0 with p := [(0, 0xF)], v := [(0, 0x3E99999A40E00000), (1, 0x3F800000C0200000)] }
    let t := after (.bquant ⟨⟨false, 0⟩, 8, 0, .mxe2m1, .f32, .rne, true, .fit⟩) (withWaves [w])
    t.readV 8 0 = 0x1A06 ∧ t.readV 8 1 = 0 ∧ t.readV 8 3 = 0 ∧ t.readSide 8 0 = 0x80 ∧ t.readFf 3 = t.readFf 0 ∧
    t.readFf 0 ≠ 0 ∧ t.readFf 4 = 0 := by decide +kernel

/-- The worked example of 09_registers.md: lane 1's index is not below LIMIT, cause 4 with its bit alone. -/
theorem test_index_bound :
    let w := { wave0 with p := [(0, 7)], xbase := [(0, 32)], xlimit := [(0, 8)], x := [(0, 2), (1, 8), (2, 7)]
                          trap := ⟨0x2001, false, 0, 0, 0, 0, 0⟩ }
    let t := after (.vrdx ⟨false, 0⟩ 4 0) (withWaves [w])
    t.trap.cause = 4 ∧ t.trap.tlanes = 2 ∧ t.trap.tm = true := by decide +kernel

/-- The tables of the worked example of 05_translation.md, below its level 1 the ones of load 1. -/
def tables : State :=
  let put (e : Nat × Nat) : List (Nat × Byte) := atRun e.1 (bytesOfNat 8 e.2)
  let es : List (Nat × Nat) := [(0x10F108, 0x100001), (0x100008, 0x101001), (0x101000, 0x102001), (0x102010, 0x103001),
    (0x102018, 0x0010000000106001), (0x103028, 0x104001), (0x103030, 0x0000004000600067), (0x104018, 0x23456067)]
  let s := es.foldl (fun s e => setLine s e.1 Line.plain) (storeBytes demo (es.flatMap put))
  { s with regs := { Regs.reset with rootBase := 0x10F000, ptBase := 0x100000, ptLimit := 0x110000 } }

/-- The PA of a translation, or what it fails with. -/
def outcome : State × TransRes → Nat × Nat
  | (_, .ok t) => (0, t.pa)
  | (_, .fail c l) => (c, l)
  | _ => (99, 0)

/-- The worked example of 05_translation.md: loads 1, 4 and 6, and an entry that is
not valid. -/
theorem test_walk : outcome (translateCore tables 0 0 0x21 0x0001000080A03123 .read []) = (0, 0x23456123) ∧
    outcome (translateCore tables 0 0 0x21 0x0001000080C12345 .read []) = (0, 0x4000612345) ∧
    outcome (translateCore tables 0 0 0x21 0x00010000C0000400 .read []) = (9, 3) ∧
    outcome (translateCore tables 0 0 0x21 0x0001000080400000 .read []) = (7, 4) := by decide +kernel

/-- The worked example of 15_steering_instructions.md: lanes 0 and 2 go to the target with the others stacked. -/
theorem test_branch_with_stack :
    let t := after (.brs ⟨false, 1⟩ 0x30 0x24) (withWaves [{ wave0 with p := [(1, 5)] }])
    (sliceAt t 0).amask = 5 ∧ (sliceAt t 0).stack = [⟨0x1030, 0x100C, 10, 15⟩] ∧
    (sliceLanes t 0) = [0, 2] ∧ (t.gangs.any fun g => g.slices.getLsbD 0 && g.pc == 0x1024) = true := by decide +kernel

/-- R364: the operands at the type's width, the result extended by the sign of an i type. -/
theorem test_scalar_extension :
    let s := withWaves [{ wave0 with s := [(1, 0x7F), (2, 0x180)] }]
    (after (.sadd ⟨.s 4, .s 1, .lit 1, .i8, false⟩) s).readS (.s 4) = 0xFFFFFFFFFFFFFF80 ∧
    (after (.sadd ⟨.s 4, .s 1, .lit 1, .i8, true⟩) s).readS (.s 4) = 0x7F ∧
    (after (.smov (.s 4) (.reg (.s 2)) .i8) s).readS (.s 4) = 0xFFFFFFFFFFFFFF80 ∧
    (after (.smov (.s 4) (.reg (.s 2)) .n8) s).readS (.s 4) = 0x80 := by decide +kernel

/-- R327: a second join of one package for the ID of a collective that runs ends it at everyone who joined. -/
theorem test_second_join : (match exec (.collectiveJoin ⟨2, 0, 15, 8⟩ 5 77) { concluding with
      collIn := [(5, 0, .join 77 9), (5, 2, .join 77 3)]
      colls := concluding.colls.map fun c => { c with list := [0, 2], place := 0 } } with
    | .next t => t.colls == [] && joinsOf t 5 == [] && [3, 8].all fun n => (flowOf t 2).unacked.any fun e =>
        e.2.2 == .collective 5 (.stop n 1)
    | _ => false) = true := by decide +kernel

/-- R16: an L2 keeps the lines of its own die that came last. -/
theorem test_l2 : enterL2 [1, 2 ^ 30] 7 = [1, 2 ^ 30, 7] ∧ enterL2 [1, 7] 1 = [1, 7] ∧ enterL2 [1] (2 ^ 33) = [1] ∧
    (storeBytes { demo with regs := { demo.regs with localGib := 64 } } [(0x1000, 5), (0x1001, 6)]).l2 = [0x20] := by decide +kernel

/-- The two lists of R332: 1.0, 2⁻²⁴ and 2⁻²⁴ of the packages 5, 2 and 9, combined level by level. -/
theorem test_collective_lists :
    (let v := decodeVal .f32
     let bits := fun x => (encodeVal .f32 .rne false 0 x).1
     let pair := fun x y => (collOp 0 x y).1
     (bits (pair (pair (v 0x3F800000) (v 0x33800000)) (v 0x33800000)),
      bits (pair (pair (v 0x33800000) (v 0x33800000)) (v 0x3F800000)))) = (0x3F800000, 0x3F800001) := by decide +kernel

end Sys2Proof.Tests
end

section
/-!
PROOFS. What an instruction reports where its lanes meet conditions of their own (R389), and the statement about the
index registers (R206, R227, R367).
-/

namespace Sys2Proof.Machine

/-! ## The least element of a list -/

theorem leastBy_eq_none {α : Type} {key : α → Nat} {xs : List α} : leastBy key xs = none ↔ xs = [] := by
  cases xs with
  | nil => exact ⟨fun _ => rfl, fun _ => rfl⟩
  | cons x xs =>
    simp only [leastBy, reduceCtorEq, iff_false]
    split
    · simp
    · split <;> simp

theorem leastBy_spec {α : Type} {key : α → Nat} {xs : List α} {y : α} (h : leastBy key xs = some y) :
    y ∈ xs ∧ ∀ x ∈ xs, key y ≤ key x := by
  induction xs generalizing y with
  | nil => cases h
  | cons x xs ih =>
    simp only [leastBy] at h
    split at h
    · next hn =>
      cases h
      simp [leastBy_eq_none.1 hn]
    · next z hz =>
      obtain ⟨hmem, hle⟩ := ih hz
      split at h
      · next hlt =>
        cases h
        exact ⟨.tail _ hmem, List.forall_mem_cons.2 ⟨Nat.le_of_lt hlt, hle⟩⟩
      · next hge =>
        cases h
        exact ⟨.head _, List.forall_mem_cons.2 ⟨Nat.le_refl _, fun u hu => by have := hle u hu; omega⟩⟩

/-! ## A lane's own cause, and the cause that leads (R389) -/

/-- A lane's own cause is a condition that concerns the lane. -/
theorem ownCause_mem {ks : List Cause} {l : Nat} {k : Cause} (h : ownCause ks l = some k) :
    k ∈ ks ∧ l ∈ k.lanes := by
  simpa using (leastBy_spec h).1

/-- Where one condition alone concerns a lane, it is the lane's own cause. -/
theorem ownCause_unique {ks : List Cause} {l : Nat} {k : Cause}
    (h : ∀ k', (k' ∈ ks ∧ l ∈ k'.lanes) ↔ k' = k) : ownCause ks l = some k := by
  obtain ⟨hmem, hl⟩ := (h k).2 rfl
  cases hk : ownCause ks l with
  | none =>
    have hmet : k ∈ ks.filter fun k => k.lanes.contains l := List.mem_filter.2 ⟨hmem, by simpa using hl⟩
    rw [leastBy_eq_none.1 hk] at hmet
    cases hmet
  | some k' => rw [(h k').1 (ownCause_mem hk)]

/-- The lanes that meet a condition, each with its own cause. -/
def ownCauses (ks : List Cause) (lanes : List Nat) : List (Nat × Cause) :=
  lanes.filterMap fun l => (ownCause ks l).map fun k => (l, k)

theorem mem_ownCauses {ks : List Cause} {lanes : List Nat} {l : Nat} {k : Cause} :
    (l, k) ∈ ownCauses ks lanes ↔ l ∈ lanes ∧ ownCause ks l = some k := by
  simp only [ownCauses, List.mem_filterMap, Option.map_eq_some_iff, Prod.mk.injEq]
  exact ⟨fun ⟨_, hl, _, hk, rfl, rfl⟩ => ⟨hl, hk⟩, fun ⟨hl, hk⟩ => ⟨l, hl, k, hk, rfl, rfl⟩⟩

/-- The numbers of the causes that lanes meet. -/
def ownRanks (ks : List Cause) (lanes : List Nat) : List Nat := (ownCauses ks lanes).map fun e => e.2.rank

theorem mem_ownRanks {ks : List Cause} {lanes : List Nat} {r : Nat} :
    r ∈ ownRanks ks lanes ↔ ∃ l ∈ lanes, ∃ k, ownCause ks l = some k ∧ k.rank = r := by
  simp [ownRanks, mem_ownCauses, and_assoc]

/-- The lanes whose own cause has some number. -/
def causeLanes (ks : List Cause) (lanes : List Nat) (r : Nat) : List Nat :=
  lanes.filter fun l => (ownCause ks l).any fun k => k.rank == r

theorem causeLanes_ne_nil {ks : List Cause} {lanes : List Nat} {r : Nat} :
    causeLanes ks lanes r ≠ [] ↔ r ∈ ownRanks ks lanes := by
  simp [causeLanes, mem_ownRanks, Option.any_eq_true]

theorem causeLanes_eq {ks : List Cause} {lanes : List Nat} {r : Nat} :
    ((ownCauses ks lanes).filter fun e => e.2.rank == r).map Prod.fst = causeLanes ks lanes r := by
  rw [ownCauses, causeLanes, List.filter_filterMap, List.map_filterMap, ← List.filterMap_eq_filter]
  refine List.filterMap_congr fun m _ => ?_
  cases hm : ownCause ks m with
  | none => simp [Option.guard, hm]
  | some k => cases hr : k.rank == r <;> simp [Option.guard, Option.filter, hm, hr]

/-- The report where the cause of one lane leads: every other lane's has a higher number, or the same number and the
same words of %tinfo. Left out are causes 1 and 16, whose reports R389 and R39 form in their own way. -/
theorem report_leading {ks : List Cause} {lanes : List Nat} {l : Nat} {k : Cause} (hl : l ∈ lanes)
    (hk : ownCause ks l = some k) (h1 : k.rank ≠ 1) (h16 : k.rank ≠ 16)
    (hlead : ∀ m ∈ lanes, ∀ k', ownCause ks m = some k' →
      k.rank < k'.rank ∨ (k'.rank = k.rank ∧ k'.info = k.info)) :
    report lanes ks = some ⟨k.rank, 0, maskOf (causeLanes ks lanes k.rank),
      word (k.info + (ownRanks ks lanes).foldl (fun a r => a ||| summaryBit k.rank r) 0)⟩ := by
  have hmet : (l, k) ∈ ownCauses ks lanes := mem_ownCauses.2 ⟨hl, hk⟩
  unfold report
  dsimp only
  rw [← ownCauses]
  split
  · next hn => simp [leastBy_eq_none.1 hn] at hmet
  · next m k' hm =>
    obtain ⟨hmem, hle⟩ := leastBy_spec hm
    obtain ⟨hm, hk'⟩ := mem_ownCauses.1 hmem
    have hle : k'.rank ≤ k.rank := hle _ hmet
    obtain hlt | ⟨hr, hi⟩ := hlead m hm k' hk'
    · omega
    · simp only [hr, hi, h1, h16, beq_iff_eq, if_false, causeLanes_eq, ownRanks, List.foldl_map]

theorem summaryBit_self {r : Nat} : summaryBit r r = 0 := if_pos (Nat.le_refl r)

/-- The summary of a cause beside lanes that meet it or one other (R389). -/
theorem summary_of_two {r r' : Nat} {rs : List Nat} (h : ∀ x ∈ rs, x = r ∨ x = r') :
    rs.foldl (fun a x => a ||| summaryBit r x) 0 = if r' ∈ rs then summaryBit r r' else 0 := by
  induction rs using List.reverseRecOn with
  | nil => rfl
  | append_singleton rs x ih =>
    rw [List.foldl_append, ih fun y hy => h y (List.mem_append_left _ hy)]
    obtain rfl | rfl := h x (by simp)
    · by_cases hx : r' = x
      · subst hx
        simp [summaryBit_self]
      · simp [summaryBit_self, hx]
    · by_cases hx : x ∈ rs <;> simp [hx]

/-- The report where every lane meets the leading cause, with the same words of %tinfo, or one that it outranks, or
none: the summary tells whether the outranked one was met. -/
theorem report_of_two {ks : List Cause} {lanes : List Nat} {l r' : Nat} {k : Cause} (hl : l ∈ lanes)
    (hk : ownCause ks l = some k) (h1 : k.rank ≠ 1) (h16 : k.rank ≠ 16)
    (h : ∀ m ∈ lanes, ∀ k', ownCause ks m = some k' →
      (k.rank < k'.rank ∧ k'.rank = r') ∨ (k'.rank = k.rank ∧ k'.info = k.info)) :
    report lanes ks = some ⟨k.rank, 0, maskOf (causeLanes ks lanes k.rank),
      word (k.info + if causeLanes ks lanes r' = [] then 0 else summaryBit k.rank r')⟩ := by
  have hranks : ∀ r ∈ ownRanks ks lanes, r = k.rank ∨ r = r' := by
    intro r hr
    obtain ⟨m, hm, k', hk', rfl⟩ := mem_ownRanks.1 hr
    exact (h m hm k' hk').symm.imp And.left And.right
  rw [report_leading hl hk h1 h16 fun m hm k' hk' => (h m hm k' hk').imp_left And.left, summary_of_two hranks]
  simp only [← causeLanes_ne_nil, ite_not]

/-- Lanes that meet no condition leave the report as it is. -/
theorem report_filter {ks : List Cause} {lanes : List Nat} {p : Nat → Bool}
    (h : ∀ l ∈ lanes, p l = false → ownCause ks l = none) : report (lanes.filter p) ks = report lanes ks := by
  have hown : ownCauses ks (lanes.filter p) = ownCauses ks lanes := by
    rw [ownCauses, List.filterMap_filter]
    refine List.filterMap_congr fun l hl => ?_
    cases hp : p l
    · simp [h l hl hp]
    · rfl
  unfold report
  rw [← ownCauses, hown, ownCauses]

/-- An instruction of the active lanes traps with what it reports. -/
theorem laneOp_report {s : State} {c : Issuer} {len : Nat} {g : Guard} {us : List Use}
    {more : Issuer → List Nat → List Cause} {eff : Issuer → List Nat → Wave} {r : Report} (h : issuer s = some c)
    (hr : report c.all (guardConds c g ++ useConds c (c.lanes g) us ++ more c (c.lanes g)) = some r) :
    laneOp s len g us more eff = .next (takeTrap s c r c.pc) := by
  unfold laneOp
  rw [issued_some h]
  simp only [check, hr]

/-! ## The conditions of an index (R206, R227) -/

/-- What the register named by an index is used for. -/
def indexUse (write : Bool) (r : Nat) : Use := if write then .vw 0 r else .vr 1 r

/-- A register that may be read may be named by an index. -/
theorem indexUse_free {c : Issuer} {ls : List Nat} {write : Bool} {r : Nat} (h : Use.free c ls (.vr 1 r) = true) :
    Use.free c ls (indexUse write r) = true := by
  cases write with
  | false => exact h
  | true =>
    simp only [indexUse, if_true, Use.free, vectorFree, Bool.or_eq_true, Bool.and_eq_true, List.all_eq_true] at h ⊢
    exact h.imp_right fun h => ⟨h.1, fun l hl => ⟨(h.2 l hl).1, rfl⟩⟩

/-- The index of a lane is not below LIMIT. -/
def indexLow (c : Issuer) (x l : Nat) : Bool := decide (c.w.xlimit.get 0 x ≤ c.w.readX x l)

/-- The index of a lane is below LIMIT and names a register above 254 or outside the allotment. -/
def indexOut (c : Issuer) (x l : Nat) : Bool :=
  decide (c.w.readX x l < c.w.xlimit.get 0 x ∧ (254 < c.w.indexed x l ∨ c.g.vregs ≤ c.w.indexed x l))

/-- The lanes whose index meets no condition name a register that may be used. -/
def OthersFree (c : Issuer) (x : Nat) (write : Bool) (ls : List Nat) : Prop :=
  ∀ l ∈ ls, indexLow c x l = false → indexOut c x l = false →
    Use.free c [l] (indexUse write (c.w.indexed x l)) = true

section Conditions

variable {c : Issuer} {x l : Nat} {write : Bool} {ls : List Nat} {ks : List Cause} {k : Cause}

theorem indexConds_flatMap : indexConds c x write ls = ls.flatMap fun l => indexConds c x write [l] := by
  simp [indexConds]

theorem indexConds_low (h : indexLow c x l = true) : indexConds c x write [l] = [⟨4, x * 2 ^ 56, [l]⟩] := by
  simp [indexConds, of_decide_eq_true h]

theorem indexConds_out (h : indexOut c x l = true) : indexConds c x write [l] = [⟨3, 6 * 2 ^ 56, [l]⟩] := by
  obtain ⟨hlim, hreg⟩ := of_decide_eq_true h
  simp [indexConds, hlim, hreg]

theorem indexConds_other (hlow : indexLow c x l = false) (hout : indexOut c x l = false) :
    indexConds c x write [l] = useCond c [l] (indexUse write (c.w.indexed x l)) := by
  have hlim : c.w.readX x l < c.w.xlimit.get 0 x := Nat.not_le.1 (of_decide_eq_false hlow)
  have hreg : ¬ (254 < c.w.indexed x l ∨ c.g.vregs ≤ c.w.indexed x l) :=
    fun hr => of_decide_eq_false hout ⟨hlim, hr⟩
  simp [indexConds, hlim, hreg, indexUse]

theorem indexLow_out (h : indexOut c x l = true) : indexLow c x l = false :=
  decide_eq_false (Nat.not_le.2 (of_decide_eq_true h).1)

/-- Where every index lies below LIMIT and names a free register up to 254, no condition is met. -/
theorem indexConds_unmet (h : ∀ l ∈ ls, c.w.readX x l < c.w.xlimit.get 0 x ∧ c.w.indexed x l ≤ 254 ∧
    Use.free c [l] (indexUse write (c.w.indexed x l)) = true) : Unmet (indexConds c x write ls) := by
  intro k hk
  rw [indexConds_flatMap] at hk
  obtain ⟨l, hl, hk⟩ := List.mem_flatMap.1 hk
  obtain ⟨hlim, hreg, hfree⟩ := h l hl
  have hin : c.w.indexed x l < c.g.vregs := by
    have hv : vectorFree c [l] (c.w.indexed x l) (!write) = true := by cases write <;> exact hfree
    simp [vectorFree] at hv
    omega
  have hlow : indexLow c x l = false := decide_eq_false (Nat.not_le.2 hlim)
  have hout : indexOut c x l = false := decide_eq_false fun ho => by omega
  rw [indexConds_other hlow hout] at hk
  exact useCond_free hfree k hk

/-- A condition of an index concerns the lane that met it, and no other. -/
theorem indexConds_concern (hfree : OthersFree c x write ls) : (k ∈ indexConds c x write ls ∧ l ∈ k.lanes) ↔
    l ∈ ls ∧ (indexLow c x l ∧ k = ⟨4, x * 2 ^ 56, [l]⟩ ∨ indexOut c x l ∧ k = ⟨3, 6 * 2 ^ 56, [l]⟩) := by
  rw [indexConds_flatMap]
  constructor
  · rintro ⟨hk, hlk⟩
    obtain ⟨m, hm, hk⟩ := List.mem_flatMap.1 hk
    cases hlow : indexLow c x m
    · cases hout : indexOut c x m
      · rw [indexConds_other hlow hout] at hk
        rw [useCond_free (hfree m hm hlow hout) k hk] at hlk
        cases hlk
      · rw [indexConds_out hout] at hk
        cases List.mem_singleton.1 hk
        cases List.mem_singleton.1 hlk
        exact ⟨hm, .inr ⟨hout, rfl⟩⟩
    · rw [indexConds_low hlow] at hk
      cases List.mem_singleton.1 hk
      cases List.mem_singleton.1 hlk
      exact ⟨hm, .inl ⟨hlow, rfl⟩⟩
  · rintro ⟨hl, ⟨hlow, rfl⟩ | ⟨hout, rfl⟩⟩
    · exact ⟨List.mem_flatMap.2 ⟨l, hl, by simp [indexConds_low hlow]⟩, List.mem_singleton.2 rfl⟩
    · exact ⟨List.mem_flatMap.2 ⟨l, hl, by simp [indexConds_out hout]⟩, List.mem_singleton.2 rfl⟩

/-- A lane's own cause, behind checks that concern no lane: Register Index or Register Bound (R206). -/
theorem ownCause_index_iff (hks : Unmet ks) (hfree : OthersFree c x write ls) :
    ownCause (ks ++ indexConds c x write ls) l = some k ↔
      l ∈ ls ∧ (indexLow c x l ∧ k = ⟨4, x * 2 ^ 56, [l]⟩ ∨ indexOut c x l ∧ k = ⟨3, 6 * 2 ^ 56, [l]⟩) := by
  have hconcern (k : Cause) : (k ∈ ks ++ indexConds c x write ls ∧ l ∈ k.lanes) ↔
      (k ∈ indexConds c x write ls ∧ l ∈ k.lanes) := by
    rw [List.mem_append, or_and_right, or_iff_right]
    rintro ⟨hk, hl⟩
    rw [hks k hk] at hl
    cases hl
  constructor
  · exact fun h => (indexConds_concern hfree).1 ((hconcern k).1 (ownCause_mem h))
  · rintro ⟨hl, ⟨hlow, rfl⟩ | ⟨hout, rfl⟩⟩
    · have hout : indexOut c x l = false := Bool.eq_false_iff.2 fun ho => by simp [indexLow_out ho] at hlow
      exact ownCause_unique fun k' => by rw [hconcern, indexConds_concern hfree]; simp [hl, hlow, hout]
    · exact ownCause_unique fun k' => by rw [hconcern, indexConds_concern hfree]; simp [hl, hout, indexLow_out hout]

theorem causeLanes_index (hks : Unmet ks) (hfree : OthersFree c x write ls) :
    causeLanes (ks ++ indexConds c x write ls) ls 3 = ls.filter (indexOut c x) ∧
      causeLanes (ks ++ indexConds c x write ls) ls 4 = ls.filter (indexLow c x) := by
  constructor
  all_goals
    refine List.filter_congr fun l hl => Bool.eq_iff_iff.2 ?_
    simp only [Option.any_eq_true, ownCause_index_iff hks hfree, hl, true_and]
  · constructor
    · rintro ⟨k, ⟨-, rfl⟩ | ⟨h, -⟩, hr⟩
      · cases hr
      · exact h
    · exact fun h => ⟨_, .inr ⟨h, rfl⟩, rfl⟩
  · constructor
    · rintro ⟨k, ⟨h, -⟩ | ⟨-, rfl⟩, hr⟩
      · exact h
      · cases hr
    · exact fun h => ⟨_, .inl ⟨h, rfl⟩, rfl⟩

/-- Register Bound is reported, where a lane meets it, with the summary bit of Register Index where another meets
that (R206, R389). -/
theorem report_indexOut (hks : Unmet ks) (hfree : OthersFree c x write ls) (hout : ls.filter (indexOut c x) ≠ []) :
    report ls (ks ++ indexConds c x write ls) = some ⟨3, 0, maskOf (ls.filter (indexOut c x)),
      word (6 * 2 ^ 56 + if ls.filter (indexLow c x) = [] then 0 else 1)⟩ := by
  obtain ⟨l, hl⟩ := List.exists_mem_of_ne_nil _ hout
  obtain ⟨hl, ho⟩ := List.mem_filter.1 hl
  obtain ⟨h3, h4⟩ := causeLanes_index hks hfree
  have hown := (ownCause_index_iff hks hfree).2 ⟨hl, .inr ⟨ho, rfl⟩⟩
  have hbit : summaryBit 3 4 = 1 := by decide
  rw [report_of_two (r' := 4) hl hown (by simp) (by simp), h3, h4, hbit]
  · intro m _ k hk
    obtain ⟨-, ⟨-, rfl⟩ | ⟨-, rfl⟩⟩ := (ownCause_index_iff hks hfree).1 hk
    · exact .inl ⟨(by decide : 3 < 4), rfl⟩
    · exact .inr ⟨rfl, rfl⟩

/-- Register Index is reported where lanes meet it and none meets Register Bound (R206). -/
theorem report_indexLow (hks : Unmet ks) (hfree : OthersFree c x write ls) (hout : ls.filter (indexOut c x) = [])
    (hlow : ls.filter (indexLow c x) ≠ []) :
    report ls (ks ++ indexConds c x write ls) =
      some ⟨4, 0, maskOf (ls.filter (indexLow c x)), word (x * 2 ^ 56)⟩ := by
  obtain ⟨l, hl⟩ := List.exists_mem_of_ne_nil _ hlow
  obtain ⟨hl, ho⟩ := List.mem_filter.1 hl
  obtain ⟨-, h4⟩ := causeLanes_index hks hfree
  have hown := (ownCause_index_iff hks hfree).2 ⟨hl, .inl ⟨ho, rfl⟩⟩
  rw [report_of_two (r' := 4) hl hown (by simp) (by simp), h4, if_neg hlow, summaryBit_self, Nat.add_zero]
  · intro m hm k hk
    obtain ⟨-, ⟨-, rfl⟩ | ⟨h, -⟩⟩ := (ownCause_index_iff hks hfree).1 hk
    · exact .inr ⟨rfl, rfl⟩
    · exact absurd h (List.filter_eq_nil_iff.1 hout m hm)

end Conditions

/-! ## The instructions (R206, R227, R367) -/

theorem xsetb_len {d : XReg} {a : SReg} {b : SSrc} : (Instr.xsetb d a b).len = slen b := by
  cases b <;> rfl

theorem exec_xld {g : Guard} {d : XReg} {a : VReg} {s : State} : exec (.xld g d a) s =
    laneOp s 8 g [.vr 1 a.val] (fun _ _ => []) fun c ls =>
      ls.foldl (fun w l => w.writeX d.val l (field (c.w.readV a.val l) 7 0)) c.w := rfl

theorem field_low_byte {x : Word} : field x 7 0 = x.toNat % 256 := by
  simp [field, bitsOf]

/-- The issuing wave stands where `retire` puts it. -/
theorem findWave_retire {s : State} {c : Issuer} {len : Nat} {w : Wave} (h : issuer s = some c) :
    findWave (retire s c len w) c.ref.gid c.ref.wave = some (w.step c len) := by
  obtain ⟨-, -, hw, -⟩ := issuerAt_some (issuer_some h).2
  unfold retire putWave
  rw [findWave_modWave, hw]
  rfl

@[simp] theorem readX_step {w : Wave} {c : Issuer} {len r l : Nat} : (w.step c len).readX r l = w.readX r l := rfl

theorem readX_writeX {w : Wave} {r l m n : Nat} :
    (w.writeX r l n).readX r m = if m = l then n % 256 else w.readX r m := by
  simp only [Wave.readX, Wave.writeX, Sparse.get_set, Nat.add_left_cancel_iff]
  split <;> simp

/-- What a run of writes to the lanes of an index register leaves to be read. -/
theorem readX_writeX_lanes {w : Wave} {r m : Nat} {ls : List Nat} {f : Nat → Nat} :
    (ls.foldl (fun w l => w.writeX r l (f l)) w).readX r m = if m ∈ ls then f m % 256 else w.readX r m := by
  induction ls generalizing w with
  | nil => rfl
  | cons l ls ih =>
    rw [List.foldl_cons, ih, readX_writeX]
    by_cases hm : m ∈ ls
    · simp [hm]
    · by_cases hl : m = l <;> simp [hm, hl]

/-- Writes to an index register leave the gangs, the traps and the halt of the wave. -/
theorem writeX_lanes_frame {w : Wave} {r : Nat} {ls : List Nat} {f : Nat → Nat} :
    let w' := ls.foldl (fun w l => w.writeX r l (f l)) w
    w'.gangs = w.gangs ∧ w'.trap = w.trap ∧ w'.halted = w.halted := by
  induction ls generalizing w with
  | nil => exact ⟨rfl, rfl, rfl⟩
  | cons l ls ih => exact ih

/-- XSETB: BASE takes the low byte of A, LIMIT takes B up to 256; the other index registers keep theirs (R367). -/
theorem exec_xsetb_free {d : XReg} {a : SReg} {b : SSrc} {s : State} {c : Issuer} (h : issuer s = some c)
    (hu : allFree c c.all (.sr a :: useS b) = true) : ∃ t w, exec (.xsetb d a b) s = .next t ∧
      Retired c (.xsetb d a b) t ∧ findWave t c.ref.gid c.ref.wave = some w ∧
      w.xbase.get 0 d.val = (c.w.readS a).toNat % 256 ∧ w.xlimit.get 0 d.val = min (c.w.srcS b).toNat 256 ∧
      ∀ n, n ≠ d.val → w.xbase.get 0 n = c.w.xbase.get 0 n ∧ w.xlimit.get 0 n = c.w.xlimit.get 0 n := by
  have hexec : exec (.xsetb d a b) s = .next (retire s c (slen b) _) := waveOp_free h hu Unmet.nil
  refine ⟨_, _, hexec, ?_, findWave_retire h, ?_, Sparse.get_set_same, fun n hn => ⟨?_, ?_⟩⟩
  · rw [← xsetb_len (d := d) (a := a)]
    exact retire_retired h rfl rfl rfl
  · rw [← field_low_byte]
    exact Sparse.get_set_same
  · exact Sparse.get_set_other hn
  · exact Sparse.get_set_other hn

/-- XLD: the index of each active lane takes the low byte of A (R367). -/
theorem exec_xld_free {g : Guard} {d : XReg} {a : VReg} {s : State} {c : Issuer} (h : issuer s = some c)
    (hg : allFree c c.all [.pr g.p.val] = true) (hu : allFree c (c.lanes g) [.vr 1 a.val] = true) :
    ∃ t w, exec (.xld g d a) s = .next t ∧ Retired c (.xld g d a) t ∧
      findWave t c.ref.gid c.ref.wave = some w ∧
      (∀ l ∈ c.lanes g, w.readX d.val l = (c.w.readV a.val l).toNat % 256) := by
  have hexec := (exec_xld (d := d)).trans (laneOp_free h hg hu Unmet.nil)
  refine ⟨_, _, hexec, ?_, findWave_retire h, fun l hl => ?_⟩
  · obtain ⟨hgangs, htrap, hhalted⟩ := writeX_lanes_frame (w := c.w) (r := d.val) (ls := c.lanes g)
      (f := fun l => field (c.w.readV a.val l) 7 0)
    exact retire_retired h hgangs (by rw [htrap]) hhalted
  · rw [readX_step, readX_writeX_lanes, if_pos hl, field_low_byte, Nat.mod_mod]

/-! ## An instruction that names registers by an index -/

section Indexed

variable {s : State} {c : Issuer} {g : Guard} {us : List Use} {len x : Nat} {write : Bool}
  {eff : Issuer → List Nat → Wave}

/-- Where the checks ahead of the indices concern no lane, what the active lanes meet by their indices is reported. -/
theorem indexed_report (h : issuer s = some c) (hg : allFree c c.all [.pr g.p.val] = true)
    (hu : allFree c (c.lanes g) us = true) (hfree : OthersFree c x write (c.lanes g)) {r : Report}
    (hr : ∀ ks, Unmet ks → report (c.lanes g) (ks ++ indexConds c x write (c.lanes g)) = some r) :
    laneOp s len g us (fun c ls => indexConds c x write ls) eff = .next (takeTrap s c r c.pc) := by
  have hks : Unmet (guardConds c g ++ useConds c (c.lanes g) us) := (guardConds_free hg).append (useConds_free hu)
  refine laneOp_report h ((report_filter (p := guardBit c.w g) fun l hl hp => ?_).symm.trans (hr _ hks))
  refine Option.eq_none_iff_forall_ne_some.2 fun k hk => ?_
  obtain ⟨hin, -⟩ := (ownCause_index_iff hks hfree).1 hk
  simp [(List.mem_filter.1 hin).2] at hp

theorem indexed_out (h : issuer s = some c) (hg : allFree c c.all [.pr g.p.val] = true)
    (hu : allFree c (c.lanes g) us = true) (hfree : OthersFree c x write (c.lanes g))
    (hout : (c.lanes g).filter (indexOut c x) ≠ []) :
    laneOp s len g us (fun c ls => indexConds c x write ls) eff = .next (takeTrap s c
      ⟨3, 0, maskOf ((c.lanes g).filter (indexOut c x)),
        word (6 * 2 ^ 56 + if (c.lanes g).filter (indexLow c x) = [] then 0 else 1)⟩ c.pc) :=
  indexed_report h hg hu hfree fun _ hks => report_indexOut hks hfree hout

theorem indexed_low (h : issuer s = some c) (hg : allFree c c.all [.pr g.p.val] = true)
    (hu : allFree c (c.lanes g) us = true) (hfree : OthersFree c x write (c.lanes g))
    (hout : (c.lanes g).filter (indexOut c x) = []) (hlow : (c.lanes g).filter (indexLow c x) ≠ []) :
    laneOp s len g us (fun c ls => indexConds c x write ls) eff = .next (takeTrap s c
      ⟨4, 0, maskOf ((c.lanes g).filter (indexLow c x)), word (x * 2 ^ 56)⟩ c.pc) :=
  indexed_report h hg hu hfree fun _ hks => report_indexLow hks hfree hout hlow

end Indexed

/-- VRDX and VWRX are instructions of the active lanes whose further conditions are those of their indices. -/
theorem exec_indexed {i : Instr} {g : Guard} {x : XReg} {us : List Use} {s : State}
    (hi : (∃ d : VReg, i = .vrdx g d x ∧ us = [.vw 0 d.val, .xr x.val, .base x.val]) ∨
      ∃ a : VReg, i = .vwrx g x a ∧ us = [.vr 1 a.val, .xr x.val, .base x.val]) :
    ∃ write eff, exec i s = laneOp s 8 g us (fun c ls => indexConds c x.val write ls) eff := by
  obtain ⟨d, rfl, rfl⟩ | ⟨a, rfl, rfl⟩ := hi
  · exact ⟨false, _, rfl⟩
  · exact ⟨true, _, rfl⟩

/-- Settles O4: each instruction where nothing stands in its way, and the two faults of an index by what the lanes
report. -/
theorem indexRegisters : Obligations.IndexRegisters := by
  refine ⟨fun d a b s c => exec_xsetb_free, fun g d a s c => exec_xld_free, fun g d a s c h hg hu hin => ?_,
    fun g d a s c h hg hu hin => ?_, fun i g x us s c h hi hg hu => ?_⟩
  · exact laneOp_free h hg hu (indexConds_unmet hin)
  · exact laneOp_free h hg hu (indexConds_unmet hin)
  · intro low out hothers
    obtain ⟨write, eff, hexec⟩ := exec_indexed (s := s) hi
    have hfree : OthersFree c x.val write (c.lanes g) := by
      intro l hl hlow hout
      obtain hl | hl | hl := hothers l hl
      · exact absurd (List.mem_filter.1 hl).2 (ne_true_of_eq_false hlow)
      · exact absurd (List.mem_filter.1 hl).2 (ne_true_of_eq_false hout)
      · exact indexUse_free hl
    rw [hexec]
    exact ⟨indexed_out h hg hu hfree, indexed_low h hg hu hfree⟩

end Sys2Proof.Machine
end

section
/-!
PROOFS. The statements about the vector integer instructions (R214-R229, R253): where the registers they name are free,
each writes in every active lane what the rule of its operation says.
-/

namespace Sys2Proof.Machine

/-! ## Operations on elements, as the rules write them -/

theorem bitOf_eq_testBit {n i : Nat} : bitOf n i = n.testBit i := by
  rw [Nat.testBit_eq_decide_div_mod_eq]
  rfl

theorem iDiv_eq_ite {t : Ty} {sat : Bool} {a b : Nat} : iDiv t sat a b =
    if b % 2 ^ t.width = 0 then 2 ^ t.width - 1 else wrapClamp t sat ((iv t a).tdiv (iv t b)) := by
  simp only [iDiv, beq_iff_eq]

theorem iRem_eq_ite {t : Ty} {a b : Nat} : iRem t a b =
    if b % 2 ^ t.width = 0 then a % 2 ^ t.width else natOf t.width ((iv t a).tmod (iv t b)) := by
  simp only [iRem, beq_iff_eq]

theorem iPopc_eq_countP {t : Ty} {a : Nat} : iPopc t a = (List.range t.width).countP fun i => a.testBit i := by
  simp only [iPopc, List.countP_eq_length_filter, ← bitOf_eq_testBit]

/-- A result byte of VPERMB: 0 under bit 7 of the control byte, else a byte of C or of A by its bit 3 (R226). -/
theorem permByte_eq_ite {a k : Word} {e : Nat} : permByte a k e =
    if e.testBit 7 then 0 else subElem (if e.testBit 3 then k else a) 8 (e % 8) := by
  simp only [permByte, bitOf_eq_testBit]

/-! ## Instructions of the active lanes -/

/-- The length of an instruction with a V source is the one that its word's form gives (R50). -/
theorem form_bytes_eq_vlen {b : VSrc} : b.form.bytes = vlen b := by
  cases b <;> rfl

/-- An instruction whose meaning is `laneOp` without a further condition has the effect it names. -/
theorem laneResult_of_laneOp {i : Instr} {len : Nat} {g : Guard} {us : List Use} {eff : Issuer → List Nat → Wave}
    (hlen : i.len = len) (hexec : ∀ s, exec i s = laneOp s len g us noMore eff) : LaneResult i g us eff := by
  subst hlen
  exact fun s _ h hg hu => (hexec s).trans (laneOp_free h hg hu Unmet.nil)

/-- An instruction with the shape D ← op(A, B) writes that to every sub-element of the active lanes (R216). -/
theorem laneResult_of_vintBin {i : Instr} {o : VBin} (op : Nat → Nat → Nat) (hlen : i.len = vlen o.b)
    (hexec : ∀ s, exec i s = vintBin s o op) :
    LaneResult i o.g (.vw 0 o.d.val :: .vr 1 o.a.val :: useV 2 o.b) fun c ls =>
      c.w.writeLanes o.d.val ls fun l => packSubs o.t.width ((List.range (64 / o.t.width)).map fun k =>
        op (subElem (c.w.readV o.a.val l) o.t.width k) (c.w.subV o.t l k o.b)) :=
  laneResult_of_laneOp hlen hexec

/-- The same of D ← op(A). -/
theorem laneResult_of_vintUn {i : Instr} {o : VUn} (op : Nat → Nat) (hlen : i.len = 8)
    (hexec : ∀ s, exec i s = vintUn s o op) :
    LaneResult i o.g [.vw 0 o.d.val, .vr 1 o.a.val] fun c ls =>
      c.w.writeLanes o.d.val ls fun l => packSubs o.t.width ((List.range (64 / o.t.width)).map fun k =>
        op (subElem (c.w.readV o.a.val l) o.t.width k)) :=
  laneResult_of_laneOp hlen hexec

/-- The same of D ← op(A, B, C). -/
theorem laneResult_of_vintTern {i : Instr} {o : VTern} (op : Nat → Nat → Nat → Nat) (hlen : i.len = vlen o.b)
    (hexec : ∀ s, exec i s = vintTern s o op) :
    LaneResult i o.g (.vw 0 o.d.val :: .vr 1 o.a.val :: .vr 3 o.c.val :: useV 2 o.b) fun c ls =>
      c.w.writeLanes o.d.val ls fun l => packSubs o.t.width ((List.range (64 / o.t.width)).map fun k =>
        op (subElem (c.w.readV o.a.val l) o.t.width k) (c.w.subV o.t l k o.b)
          (subElem (c.w.readV o.c.val l) o.t.width k)) :=
  laneResult_of_laneOp hlen hexec

/-! ## Arithmetic and logic (R216, R217, R221-R224) -/

/-- Settles O5: each instruction is its shape with one operation on elements; the operations of VDIV, VREM and VPOPC
are brought to the words of R222 and R223. -/
theorem vectorInteger : Obligations.VectorInteger := by
  refine ⟨fun o => ?_, fun o => ?_, fun o => ?_⟩
  · have hlen : o.b.form.bytes = vlen o.b := form_bytes_eq_vlen
    refine ⟨?vadd, ?vsub, ?vmul, ?vmulh, ?vdiv, ?vrem, ?vand, ?vor, ?vxor, ?vshl, ?vshr, ?vmin, ?vmax, ?vbfx⟩
    case vadd => exact laneResult_of_vintBin (iAdd o.t o.sat) hlen fun _ => rfl
    case vsub => exact laneResult_of_vintBin (iSub o.t o.sat) hlen fun _ => rfl
    case vmul => exact laneResult_of_vintBin (iMul o.t o.sat) hlen fun _ => rfl
    case vmulh => exact laneResult_of_vintBin (iMulh o.t) hlen fun _ => rfl
    case vdiv =>
      simpa only [iDiv_eq_ite] using laneResult_of_vintBin (i := .vdiv o) (iDiv o.t o.sat) hlen fun _ => rfl
    case vrem =>
      simpa only [iRem_eq_ite] using laneResult_of_vintBin (i := .vrem o) (iRem o.t) hlen fun _ => rfl
    case vand => exact laneResult_of_vintBin (iAnd o.t) hlen fun _ => rfl
    case vor => exact laneResult_of_vintBin (iOr o.t) hlen fun _ => rfl
    case vxor => exact laneResult_of_vintBin (iXor o.t) hlen fun _ => rfl
    case vshl => exact laneResult_of_vintBin (iShl o.t o.sat) hlen fun _ => rfl
    case vshr => exact laneResult_of_vintBin (iShr o.t) hlen fun _ => rfl
    case vmin => exact laneResult_of_vintBin (iMin o.t) hlen fun _ => rfl
    case vmax => exact laneResult_of_vintBin (iMax o.t) hlen fun _ => rfl
    case vbfx => exact laneResult_of_vintBin (iBfx o.t) hlen fun _ => rfl
  · refine ⟨?vnot, ?vabs, ?vneg, ?vpopc, ?vclz⟩
    case vnot => exact laneResult_of_vintUn (iNot o.t) rfl fun _ => rfl
    case vabs => exact laneResult_of_vintUn (iAbs o.t o.sat) rfl fun _ => rfl
    case vneg => exact laneResult_of_vintUn (iNeg o.t o.sat) rfl fun _ => rfl
    case vpopc => simpa only [iPopc_eq_countP] using laneResult_of_vintUn (iPopc o.t) rfl fun _ => rfl
    case vclz => exact laneResult_of_vintUn (iClz o.t) rfl fun _ => rfl
  · have hlen : o.b.form.bytes = vlen o.b := form_bytes_eq_vlen
    exact ⟨laneResult_of_vintTern (iMad o.t o.sat) hlen fun _ => rfl,
      laneResult_of_vintTern (iBfi o.t) hlen fun _ => rfl,
      laneResult_of_vintTern (iDot4 o.t o.sat) hlen fun _ => rfl⟩

/-! ## Compares, selection, moves and conversions (R215, R224-R229, R253) -/

/-- VPERMB with the control byte's bits named as R226 names them. -/
theorem laneResult_vpermb {g : Guard} {d a b k : VReg} : LaneResult (.vpermb g d a b k) g
    [.vw 0 d.val, .vr 1 a.val, .vr 2 b.val, .vr 3 k.val] fun c ls => c.w.writeLanes d.val ls fun l =>
      packSubs 8 ((List.range 8).map fun j =>
        let e := subElem (c.w.readV b.val l) 8 j
        if e.testBit 7 then 0
        else subElem (if e.testBit 3 then c.w.readV k.val l else c.w.readV a.val l) 8 (e % 8)) := by
  have h : LaneResult (.vpermb g d a b k) g [.vw 0 d.val, .vr 1 a.val, .vr 2 b.val, .vr 3 k.val] fun c ls =>
      c.w.writeLanes d.val ls fun l => packSubs 8 ((List.range 8).map fun j =>
        permByte (c.w.readV a.val l) (c.w.readV k.val l) (subElem (c.w.readV b.val l) 8 j)) :=
    laneResult_of_laneOp rfl fun _ => rfl
  simpa only [permByte_eq_ite] using h

/-- Settles O6: each instruction acts on the active lanes, with the effect that its rule names. -/
theorem vectorMoves : Obligations.VectorMoves := by
  refine ⟨fun o => ?vcmp, fun g d a b p => ?vsel, fun g d b t => ?vmov, fun g d a t => ?viota, fun o => ?vcvti,
    fun g d a b t src sat => ?vpack, fun g d a t src sat => ?vunpk, fun g d a b k => ?vpermb, fun g d a => ?scget⟩
  case vcmp => exact laneResult_of_laneOp form_bytes_eq_vlen fun _ => rfl
  case vsel => exact laneResult_of_laneOp form_bytes_eq_vlen fun _ => rfl
  case vmov => exact laneResult_of_laneOp form_bytes_eq_vlen fun _ => rfl
  case viota => exact laneResult_of_laneOp rfl fun _ => rfl
  case vcvti => exact laneResult_of_laneOp rfl fun _ => rfl
  case vpack => exact laneResult_of_laneOp rfl fun _ => rfl
  case vunpk => exact laneResult_of_laneOp rfl fun _ => rfl
  case vpermb => exact laneResult_vpermb
  case scget => exact laneResult_of_laneOp rfl fun _ => rfl

end Sys2Proof.Machine
end

section
/-!
PROOFS. The statements about the cross-lane instructions (R257-R269): what each active lane takes from which lane, the
three results of a vote, and that reductions, scans and sampling complete.
-/

namespace Sys2Proof.Machine

/-! ## Conditions gathered over lanes, and lists without repeats -/

theorem Unmet.flatMap {α : Type} {xs : List α} {f : α → List Cause} (h : ∀ x ∈ xs, Unmet (f x)) :
    Unmet (xs.flatMap f) := by
  intro k hk
  obtain ⟨x, hx, hk⟩ := List.mem_flatMap.1 hk
  exact h x hx k hk

@[simp] theorem mem_dedup {α : Type} [DecidableEq α] {xs : List α} {x : α} : x ∈ dedup xs ↔ x ∈ xs := by
  unfold dedup
  induction xs using List.reverseRecOn with
  | nil => rfl
  | append_singleton xs y ih =>
    rw [List.foldl_append, List.foldl_cons, List.foldl_nil, List.mem_append, List.mem_singleton, ← ih]
    split
    · next hy =>
      rw [iff_self_or]
      rintro rfl
      exact List.contains_iff_mem.1 hy
    · rw [List.mem_append, List.mem_singleton]

/-- Fewer than n numbers leave out one of the first n. -/
theorem exists_lt_notMem {n : Nat} {xs : List Nat} (h : xs.length < n) : ∃ k, k < n ∧ k ∉ xs := by
  by_contra hall
  push Not at hall
  have hsub : List.range n ⊆ xs := fun k hk => hall k (List.mem_range.1 hk)
  have hle := (List.nodup_range.subperm hsub).length_le
  rw [List.length_range] at hle
  omega

/-! ## The lanes of a wave, and a register that is free in all of them -/

/-- A wave has the lanes 0 to 31 (R337). -/
theorem all_lt {c : Issuer} {l : Nat} (h : l ∈ c.all) : l < 32 := by
  obtain ⟨j, hj, hl⟩ := List.mem_flatMap.1 h
  have hj : j < 8 := List.mem_range.1 (List.mem_filter.1 hj).1
  unfold sliceLanes at hl
  dsimp only at hl
  split at hl
  · cases hl
  · obtain ⟨k, hk, rfl⟩ := List.mem_map.1 hl
    have hk : k < 4 := List.mem_range.1 (List.mem_filter.1 hk).1
    omega

theorem lanes_lt {c : Issuer} {g : Guard} {l : Nat} (h : l ∈ c.lanes g) : l < 32 := all_lt (List.mem_filter.1 h).1

section WholeFree

variable {c : Issuer} {r : Nat} (h : wholeFree c r = true)
include h

/-- A register that may be read in every lane of the wave is free in any of them. -/
theorem vectorFree_of_wholeFree {ls : List Nat} (hls : ∀ l ∈ ls, l < 32) : vectorFree c ls r true = true := by
  simp only [wholeFree, vectorFree, Bool.or_eq_true, Bool.and_eq_true, List.all_eq_true, List.mem_range] at h ⊢
  exact h.imp_right fun ⟨hr, hfree⟩ => ⟨hr, fun l hl => hfree l (hls l hl)⟩

theorem use_vw_free_of_wholeFree {f : Nat} {ls : List Nat} (hls : ∀ l ∈ ls, l < 32) :
    Use.free c ls (.vw f r) = true := by
  have hr := vectorFree_of_wholeFree h hls
  simp only [Use.free, vectorFree, Bool.or_eq_true, Bool.and_eq_true, List.all_eq_true] at hr ⊢
  exact hr.imp_right fun ⟨hr, hfree⟩ => ⟨hr, fun l hl => ⟨(hfree l hl).1, rfl⟩⟩

/-- A lane that reads such a register in a lane of the wave meets no condition (R257). -/
theorem crossCond_free {f l src : Nat} (hl : l < 32) (hsrc : src < 32) : Unmet (crossCond c f r l src) := by
  have hown : vectorFree c [l] r true = true := vectorFree_of_wholeFree h (by simpa using hl)
  have hread : vectorFree c [src] r true = true := vectorFree_of_wholeFree h (by simpa using hsrc)
  simp only [vectorFree, Bool.or_eq_true, beq_iff_eq, Bool.and_eq_true, List.all_cons, List.all_nil, Bool.true_and,
    Bool.and_true, Bool.not_eq_true'] at hread
  refine ((boundCond_free hown).append (Unmet.when fun hb => ?_)).append (Unmet.when fun hb => ?_)
  all_goals
    obtain ⟨hr, hb⟩ := Bool.and_eq_true_iff.1 hb
    obtain rfl | ⟨-, hpend, hmark⟩ := hread
    · cases hr
  · exact absurd hb (by simp [hpend])
  · exact absurd hb (by simp [hmark])

/-- An instruction that reads this register across lanes goes on where the others that it names are free. -/
theorem crossOp_free {s : State} {len f : Nat} {g : Guard} {u : Use} {us : List Use}
    {more : Issuer → List Nat → List Cause} {eff : Issuer → List Nat → Wave} (hc : issuer s = some c)
    (hg : allFree c c.all [.pr g.p.val] = true) (hu : allFree c (c.lanes g) (u :: us) = true)
    (hm : Unmet (more c (c.lanes g))) :
    laneOp s len g (u :: .vw f r :: us) more eff = .next (retire s c len (eff c (c.lanes g))) := by
  obtain ⟨hu, hus⟩ := Bool.and_eq_true_iff.1 hu
  refine laneOp_free hc hg (Bool.and_eq_true_iff.2 ⟨hu, Bool.and_eq_true_iff.2 ⟨?_, hus⟩⟩) hm
  exact use_vw_free_of_wholeFree h fun l => lanes_lt

end WholeFree

/-! ## Shuffles and pushes (R260, R261) -/

/-- An address of a shuffle is one of the 256 bytes of a row of the wave. -/
theorem shflAddr_lt {w : Wave} {o : ShflOp} {l k : Nat} : shflAddr w o l k < 256 := by
  have hmod (n : Nat) : n % 256 < 256 := Nat.mod_lt n (by decide)
  unfold shflAddr
  dsimp only
  split
  · exact hmod _
  · split
    · exact hmod _
    · exact hmod _

theorem exec_xshfl_free {o : ShflOp} {s : State} {c : Issuer} (h : issuer s = some c)
    (hg : allFree c c.all [.pr o.g.p.val] = true) (hu : allFree c (c.lanes o.g) (.vw 0 o.d.val :: useV 2 o.b) = true)
    (ha : wholeFree c o.a.val = true) :
    exec (.xshfl o) s = .next (retire s c (Instr.len (.xshfl o)) (c.w.writeLanes o.d.val (c.lanes o.g) fun l =>
      mapSubs o.t fun k => subElem (c.w.readV o.a.val (shflAddr c.w o l k / 8)) o.t.width
        (addrSub (shflAddr c.w o l k) (64 / o.t.width)))) := by
  have hlen : Instr.len (.xshfl o) = vlen o.b := form_bytes_eq_vlen
  rw [hlen]
  refine crossOp_free ha h hg hu (Unmet.flatMap fun l hl => Unmet.flatMap fun k _ => ?_)
  exact crossCond_free ha (lanes_lt hl) (Nat.div_lt_of_lt_mul shflAddr_lt)

/-- A lane of which XPUSH keeps a part receives a push, and has a sub-element that receives none. -/
theorem keptLanes_spec {ps : List (Nat × Nat × Nat)} {n l : Nat} (h : l ∈ keptLanes ps n) :
    (∃ q ∈ ps, q.1 = l) ∧ ∃ k, k < n ∧ ∀ q ∈ ps, q.1 = l → q.2.1 ≠ k := by
  obtain ⟨hrec, hpart⟩ := List.mem_filter.1 h
  obtain ⟨k, hk, hnot⟩ := exists_lt_notMem (of_decide_eq_true hpart)
  refine ⟨by simpa using hrec, k, hk, fun q hq hl hqk => hnot ?_⟩
  rw [mem_dedup]
  exact List.mem_map.2 ⟨q, List.mem_filter.2 ⟨hq, beq_iff_eq.2 hl⟩, hqk⟩

/-- The lanes that receive a push are active (R261). -/
theorem pushes_active {w : Wave} {o : ShflOp} {ls : List Nat} {q : Nat × Nat × Nat} (h : q ∈ pushes w o ls) :
    q.1 ∈ ls := by
  simpa using (List.mem_filter.1 h).2

theorem exec_xpush {o : ShflOp} {p : PReg} {s : State} : exec (.xpush o p) s =
    laneOp s (vlen o.b) o.g ([.vw 0 o.d.val, .vr 1 o.a.val, .pw p.val] ++ useV 2 o.b)
      (fun c ls => [⟨18, 2 ^ 60, (keptLanes (pushes c.w o ls) (64 / o.t.width)).filter fun l =>
        o.d.val != 255 && c.w.marked (mkV o.d.val l)⟩])
      fun c ls => ((pushes c.w o ls).foldl (fun w q =>
        w.writeV o.d.val q.1 (setSub (w.readV o.d.val q.1) o.t.width q.2.1 q.2.2)) c.w).writeP
        p.val ls fun l => (pushes c.w o ls).any fun q => q.1 == l := rfl

theorem exec_xpush_free {o : ShflOp} {p : PReg} {s : State} {c : Issuer} (h : issuer s = some c)
    (hg : allFree c c.all [.pr o.g.p.val] = true)
    (hu : allFree c (c.lanes o.g) ([.vw 0 o.d.val, .vr 1 o.a.val, .pw p.val] ++ useV 2 o.b) = true)
    (hkept : ∀ l ∈ c.lanes o.g, (∃ k, k < 64 / o.t.width ∧ ∀ q ∈ pushes c.w o (c.lanes o.g), q.1 = l → q.2.1 ≠ k) →
      (∃ q ∈ pushes c.w o (c.lanes o.g), q.1 = l) → o.d.val ≠ 255 → c.w.marked (mkV o.d.val l) = false) :
    exec (.xpush o p) s = .next (retire s c (Instr.len (.xpush o p))
      (((pushes c.w o (c.lanes o.g)).foldl (fun w q =>
        w.writeV o.d.val q.1 (setSub (w.readV o.d.val q.1) o.t.width q.2.1 q.2.2)) c.w).writeP
        p.val (c.lanes o.g) fun l => (pushes c.w o (c.lanes o.g)).any fun q => q.1 == l)) := by
  have hlen : Instr.len (.xpush o p) = vlen o.b := form_bytes_eq_vlen
  rw [hlen, exec_xpush]
  refine laneOp_free h hg hu (unmet_filter fun l hl => ?_)
  obtain ⟨⟨q, hq, rfl⟩, hpart⟩ := keptLanes_spec hl
  rw [Bool.and_eq_false_imp]
  exact fun hd => hkept q.1 (pushes_active hq) hpart ⟨q, hq, rfl⟩ (by simpa using hd)

/-! ## Butterflies, broadcasts and compaction (R262, R263, R267) -/

/-- The partner of a lane at a stage of a butterfly is a lane of the wave. -/
theorem partner_lt {l : Nat} {stage : Fin 5} (h : l < 32) : l ^^^ 2 ^ stage.val < 32 :=
  Nat.xor_lt_two_pow (n := 5) h (Nat.pow_lt_pow_right (by decide) stage.isLt)

theorem exec_xbfly_free {g : Guard} {d a b : VReg} {stage : Fin 5} {s : State} {c : Issuer} (h : issuer s = some c)
    (hg : allFree c c.all [.pr g.p.val] = true)
    (hu : allFree c (c.lanes g) [.vw 0 d.val, .vw 0 (d.val + 1)] = true) (ha : wholeFree c a.val = true)
    (hb : wholeFree c b.val = true) : exec (.xbfly g d a b stage) s = .next (retire s c 8
      ((c.w.writeLanes d.val (c.lanes g) fun l =>
        if bitOf l stage.val then c.w.readV b.val (l ^^^ 2 ^ stage.val) else c.w.readV a.val l).writeLanes
        (d.val + 1) (c.lanes g) fun l =>
          if bitOf l stage.val then c.w.readV b.val l else c.w.readV a.val (l ^^^ 2 ^ stage.val))) := by
  have hnamed : allFree c (c.lanes g) ([.vw 0 d.val, .vw 0 (d.val + 1)] ++ [.vw 1 a.val, .vw 2 b.val]) = true := by
    have hab : allFree c (c.lanes g) [.vw 1 a.val, .vw 2 b.val] = true := by
      simp [allFree, use_vw_free_of_wholeFree ha fun l => lanes_lt, use_vw_free_of_wholeFree hb fun l => lanes_lt]
    rw [allFree, List.all_append]
    exact Bool.and_eq_true_iff.2 ⟨hu, hab⟩
  refine laneOp_free h hg hnamed (Unmet.flatMap fun l hl => ?_)
  have hl : l < 32 := lanes_lt hl
  split
  · exact (crossCond_free hb hl (partner_lt hl)).append (crossCond_free hb hl hl)
  · exact (crossCond_free ha hl hl).append (crossCond_free ha hl (partner_lt hl))

theorem form_bytes_eq_slen {b : SSrc} : b.form.bytes = slen b := by
  cases b <;> rfl

theorem exec_xbcast_free {g : Guard} {d a : VReg} {b : SSrc} {t : Ty} {s : State} {c : Issuer}
    (h : issuer s = some c) (hg : allFree c c.all [.pr g.p.val] = true)
    (hu : allFree c (c.lanes g) (.vw 0 d.val :: useS b) = true) (ha : wholeFree c a.val = true) :
    exec (.xbcast g d a b t) s = .next (retire s c (Instr.len (.xbcast g d a b t))
      (c.w.writeLanes d.val (c.lanes g) fun _ => mapSubs t fun _ =>
        subElem (c.w.readV a.val ((c.w.srcS b).toNat % 256 / 8)) t.width
          (addrSub ((c.w.srcS b).toNat % 256) (64 / t.width)))) := by
  have hlen : Instr.len (.xbcast g d a b t) = slen b := form_bytes_eq_slen
  rw [hlen, ← field_low_byte]
  refine crossOp_free ha h hg hu (Unmet.flatMap fun l hl => crossCond_free ha (lanes_lt hl) ?_)
  rw [field_low_byte]
  omega

theorem lanesOf_lt {m : BitVec 32} {l : Nat} (h : l ∈ lanesOf m) : l < 32 :=
  List.mem_range.1 (List.mem_filter.1 h).1

theorem exec_xcompact {g : Guard} {d a : VReg} {b : PReg} {k : SReg} {s : State} : exec (.xcompact g d a b k) s =
    laneOp s 8 g [.vw 0 d.val, .vw 1 a.val, .prAll b.val, .sw k]
      (fun c ls => (ls.zip (lanesOf (c.w.readP b.val))).flatMap fun q => crossCond c 1 a.val q.1 q.2)
      fun c ls => ((ls.zip (lanesOf (c.w.readP b.val))).foldl
        (fun w q => w.writeV d.val q.1 (c.w.readV a.val q.2)) c.w).writeS k
        (word (lanesOf (c.w.readP b.val)).length) := rfl

theorem exec_xcompact_free {g : Guard} {d a : VReg} {b : PReg} {k : SReg} {s : State} {c : Issuer}
    (h : issuer s = some c) (hg : allFree c c.all [.pr g.p.val] = true)
    (hu : allFree c (c.lanes g) [.vw 0 d.val, .prAll b.val, .sw k] = true) (ha : wholeFree c a.val = true) :
    exec (.xcompact g d a b k) s = .next (retire s c 8
      ((((c.lanes g).zip (lanesOf (c.w.readP b.val))).foldl
        (fun w q => w.writeV d.val q.1 (c.w.readV a.val q.2)) c.w).writeS k
        (word (lanesOf (c.w.readP b.val)).length))) := by
  rw [exec_xcompact]
  refine crossOp_free ha h hg hu (Unmet.flatMap fun q hq => ?_)
  obtain ⟨hl, hsrc⟩ := List.of_mem_zip hq
  exact crossCond_free ha (lanes_lt hl) (lanesOf_lt hsrc)

/-- Settles O12: each instruction where the registers it names are free and those it reads across lanes are free in
every lane; its effect is brought to the words of its rule. -/
theorem crossLaneMoves : Obligations.CrossLaneMoves := by
  refine ⟨fun o s c h hg hu ha => ?xshfl, fun o p s c h hg hu hkept => ?xpush,
    fun g d a b stage s c h hg hu ha hb _ => ?xbfly, fun g d a b t s c h hg hu ha => ?xbcast,
    fun g d a b k s c h hg hu ha => ?xcompact, fun g d a t => ?xmatch⟩
  case xshfl => exact exec_xshfl_free h hg hu ha
  case xpush => exact exec_xpush_free h hg hu hkept
  case xbfly => simpa only [bitOf_eq_testBit] using exec_xbfly_free (stage := stage) h hg hu ha hb
  case xbcast => exact exec_xbcast_free h hg hu ha
  case xcompact => exact exec_xcompact_free h hg hu ha
  case xmatch => exact laneResult_of_laneOp rfl fun _ => rfl

/-! ## Writes that leave the course of a wave -/

/-- A wave keeps its gangs, its traps and whether it has halted. -/
def KeepsCourse (w w' : Wave) : Prop := w'.gangs = w.gangs ∧ w'.trap = w.trap ∧ w'.halted = w.halted

theorem KeepsCourse.refl {w : Wave} : KeepsCourse w w := ⟨rfl, rfl, rfl⟩

theorem KeepsCourse.trans {u v w : Wave} (h : KeepsCourse u v) (h' : KeepsCourse v w) : KeepsCourse u w := by
  obtain ⟨hgangs, htrap, hhalted⟩ := h
  obtain ⟨hgangs', htrap', hhalted'⟩ := h'
  exact ⟨hgangs'.trans hgangs, htrap'.trans htrap, hhalted'.trans hhalted⟩

/-- A run of writes keeps the course where each of them does. -/
theorem KeepsCourse.foldl {α : Type} {f : Wave → α → Wave} (h : ∀ w x, KeepsCourse w (f w x)) {xs : List α}
    {w : Wave} : KeepsCourse w (xs.foldl f w) := by
  induction xs generalizing w with
  | nil => exact .refl
  | cons x xs ih => exact (h w x).trans ih

theorem writeV_keepsCourse {w : Wave} {r l : Nat} {x : Word} : KeepsCourse w (w.writeV r l x) := by
  unfold Wave.writeV
  split <;> exact ⟨rfl, rfl, rfl⟩

theorem writeS_keepsCourse {w : Wave} {d : SReg} {x : Word} : KeepsCourse w (w.writeS d x) := by
  cases d <;> exact ⟨rfl, rfl, rfl⟩

theorem orRes_keepsCourse {w : Wave} {rs : List LaneRes} : KeepsCourse w (w.orRes rs) :=
  .foldl (f := fun w (r : LaneRes) => w.orFf r.lane r.fl) fun _ _ => ⟨rfl, rfl, rfl⟩

theorem writeRes_keepsCourse {w : Wave} {d : Nat} {rs : List LaneRes} : KeepsCourse w (w.writeRes d rs) :=
  .foldl (f := fun w (r : LaneRes) => w.writeV d r.lane r.x) fun _ _ => writeV_keepsCourse

theorem retired_of_keepsCourse {s : State} {c : Issuer} {i : Instr} {w : Wave} (h : issuer s = some c)
    (hw : KeepsCourse c.w w) : Retired c i (retire s c i.len w) := by
  obtain ⟨hgangs, htrap, hhalted⟩ := hw
  exact retire_retired h hgangs (by rw [htrap]) hhalted

/-! ## Instructions whose lanes raise flags -/

/-- With every enable of %fmode clear no lane meets a trap condition (R37, R39). -/
theorem untrapped_of_fmode_lt {w : Wave} {rs : List LaneRes} (h : w.fmode.toNat < 4) : untrapped w rs = true := by
  have hclear (i : Nat) (hi : 2 ≤ i) : w.fmode.getLsbD i = false :=
    Nat.testBit_lt_two_pow (h.trans_le (Nat.pow_le_pow_right (n := 2) (by decide) hi))
  simp only [untrapped, List.all_eq_true, Bool.not_eq_true']
  intro r _ code _
  unfold fpMet
  split
  · rw [hclear 7 (by decide), Bool.false_and]
  · next hcode =>
    have hcode : code ≠ 0 := by simpa using hcode
    rw [hclear (code + 1) (by omega), Bool.false_and]

/-- An instruction that checks its registers, then the trap condition of what its lanes raise, completes. -/
theorem laneCompletes_of_flags {i : Instr} {len : Nat} {g : Guard} {us us' : List Use} {res : Issuer → List LaneRes}
    {eff : Issuer → Wave} (hlen : i.len = len)
    (hexec : ∀ s, exec i s = issued s fun c => check s c c.all
      (guardConds c g ++ useConds c (c.lanes g) us' ++ fpCond c.w (res c)) (retire s c len ((eff c).orRes (res c))))
    (hus : us' ⊆ us) (heff : ∀ c, KeepsCourse c.w (eff c)) : LaneCompletes i g us := by
  subst hlen
  intro s c h hg hu hfmode
  have hu' : allFree c (c.lanes g) us' = true :=
    List.all_eq_true.2 fun u hmem => List.all_eq_true.1 hu u (hus hmem)
  refine ⟨_, ?_, retired_of_keepsCourse h ((heff c).trans (orRes_keepsCourse (rs := res c)))⟩
  rw [hexec, issued_some h, fpCond_untrapped (untrapped_of_fmode_lt hfmode), List.append_nil,
    check_unmet ((guardConds_free hg).append (useConds_free hu'))]

/-- What a reduction reads of %fmode is read by every instruction that rounds. -/
theorem fmodeUse_subset {t : Ty} : fmodeUse t ⊆ [.spec 2, .ff] := by
  unfold fmodeUse
  split
  · exact List.Subset.refl _
  · exact List.nil_subset _

theorem append_fmodeUse_subset {t : Ty} {us : List Use} : us ++ fmodeUse t ⊆ [.spec 2, .ff] ++ us :=
  List.append_subset.2 ⟨List.subset_append_right [.spec 2, .ff] us,
    List.Subset.trans fmodeUse_subset (List.subset_append_left [.spec 2, .ff] us)⟩

/-! ## Votes, reductions, scans and sampling (R264-R266, R268) -/

theorem word_toNat_eq_ite {b : Bool} : word b.toNat = if b then 1 else 0 := by
  cases b <;> rfl

/-- A vote writes the word that R264 gives for its function. -/
theorem laneResult_xvote {g : Guard} {d : SReg} {a : PReg} {fn : VoteFn} :
    LaneResult (.xvote g d a fn) g [.sw d, .pr a.val] fun c ls =>
      let yes := ls.filter fun l => (c.w.readP a.val).getLsbD l
      c.w.writeS d (match fn with
        | .ballot => (maskOf yes).setWidth 64
        | .any => if yes = [] then 0 else 1
        | .all => if yes.length = ls.length then 1 else 0) := by
  cases fn with
  | ballot => exact laneResult_of_laneOp rfl fun _ => rfl
  | any =>
    have h : LaneResult (.xvote g d a .any) g [.sw d, .pr a.val] fun c ls =>
        c.w.writeS d (word (!(ls.filter fun l => (c.w.readP a.val).getLsbD l).isEmpty).toNat) :=
      laneResult_of_laneOp rfl fun _ => rfl
    simpa only [word_toNat_eq_ite, Bool.not_eq_true', List.isEmpty_eq_false_iff, ne_eq, ite_not] using h
  | all =>
    have h : LaneResult (.xvote g d a .all) g [.sw d, .pr a.val] fun c ls =>
        c.w.writeS d (word ((ls.filter fun l => (c.w.readP a.val).getLsbD l).length == ls.length).toNat) :=
      laneResult_of_laneOp rfl fun _ => rfl
    simpa only [word_toNat_eq_ite, beq_iff_eq] using h

/-- Settles O13: a vote writes its function's word; the others check their registers and what their lanes raise, and
write registers only. -/
theorem votesAndReductions : Obligations.VotesAndReductions := by
  refine ⟨fun g d a fn => ?xvote, fun g d a t rnd op => ?xred, fun g d a t rnd op excl => ?xscan,
    fun g d a b t => ?xsample⟩
  case xvote => exact laneResult_xvote
  case xred =>
    exact laneCompletes_of_flags rfl (fun _ => rfl) append_fmodeUse_subset fun _ => writeS_keepsCourse
  case xscan =>
    exact laneCompletes_of_flags rfl (fun _ => rfl) append_fmodeUse_subset fun _ => writeRes_keepsCourse
  case xsample =>
    exact laneCompletes_of_flags form_bytes_eq_slen (fun _ => rfl) (List.Subset.refl _) fun _ => writeS_keepsCourse

end Sys2Proof.Machine
end

section
/-!
PROOFS. The statements about branches, the divergence stack and calls (R342-R346): where each slice goes, and what is
reported where a target, a join address or a full stack stands in its way.
-/

namespace Sys2Proof.Machine

/-! ## The report of a condition behind which the others stand (R389) -/

section Reports

variable {ks ks' : List Cause} {k : Cause} {lanes : List Nat} {l : Nat}

theorem ownCause_append_unmet (h : Unmet ks) : ownCause (ks ++ ks') l = ownCause ks' l := by
  have hks : (ks.filter fun x => x.lanes.contains l) = [] :=
    List.filter_eq_nil_iff.2 fun x hx => by simp [h x hx]
  rw [ownCause, List.filter_append, hks, List.nil_append, ownCause]

theorem ownCause_cons_notMem (h : l ∉ k.lanes) : ownCause (k :: ks) l = ownCause ks l := by
  simp [ownCause, h]

/-- A condition that ranks no lower than those behind it is the cause of its lanes. -/
theorem ownCause_cons_mem (h : l ∈ k.lanes) (hle : ∀ x ∈ ks, k.rank ≤ x.rank) : ownCause (k :: ks) l = some k := by
  simp only [ownCause, List.filter_cons, List.contains_iff_mem, h, if_true, leastBy]
  split
  · rfl
  · next y hy =>
    obtain ⟨hmem, -⟩ := ownCause_mem hy
    rw [if_neg (Nat.not_lt.2 (hle y hmem))]

/-- The lanes whose cause has the number of a condition are the condition's, where it is the cause of its lanes and
no other lane has a cause of that number. -/
theorem causeLanes_rank {p : Nat → Bool} (hp : k.lanes = lanes.filter p)
    (hown : ∀ m ∈ k.lanes, ownCause ks m = some k)
    (honly : ∀ m x, ownCause ks m = some x → x.rank = k.rank → m ∈ k.lanes) :
    causeLanes ks lanes k.rank = k.lanes := by
  conv_rhs => rw [hp]
  refine List.filter_congr fun m hm => ?_
  have hmem : m ∈ k.lanes ↔ p m = true := by rw [hp, List.mem_filter, and_iff_right hm]
  rw [Bool.eq_iff_iff, ← hmem, Option.any_eq_true]
  exact ⟨fun ⟨x, hx, hr⟩ => honly m x hx (beq_iff_eq.1 hr), fun hm => ⟨k, hown m hm, beq_self_eq_true _⟩⟩

/-- What is reported where the first condition that concerns a lane leads: each one behind it concerns no other lanes,
or all those of one lower rank concern some. -/
theorem report_of_first {r' : Nat} {p : Nat → Bool} (hks : Unmet ks) (hp : k.lanes = lanes.filter p)
    (hne : k.lanes ≠ []) (h1 : k.rank ≠ 1) (h16 : k.rank ≠ 16)
    (hbehind : ∀ x ∈ ks', k.rank ≤ x.rank ∧ (x.lanes ⊆ k.lanes ∨ (k.rank < x.rank ∧ x.rank = r'))) :
    report lanes (ks ++ k :: ks') = some ⟨k.rank, 0, maskOf k.lanes,
      word (k.info + if causeLanes (ks ++ k :: ks') lanes r' = [] then 0 else summaryBit k.rank r')⟩ := by
  have hown {m : Nat} (hm : m ∈ k.lanes) : ownCause (ks ++ k :: ks') m = some k := by
    rw [ownCause_append_unmet hks, ownCause_cons_mem hm fun x hx => (hbehind x hx).1]
  have hother {m : Nat} {x : Cause} (hm : m ∉ k.lanes) (hx : ownCause (ks ++ k :: ks') m = some x) :
      k.rank < x.rank ∧ x.rank = r' := by
    rw [ownCause_append_unmet hks, ownCause_cons_notMem hm] at hx
    obtain ⟨hmem, hl⟩ := ownCause_mem hx
    exact (hbehind x hmem).2.resolve_left fun hsub => hm (hsub hl)
  have hlanes : causeLanes (ks ++ k :: ks') lanes k.rank = k.lanes :=
    causeLanes_rank hp (fun m hm => hown hm) fun m x hx hr => by
      by_contra hm
      exact (hother hm hx).1.ne' hr
  obtain ⟨m, hm⟩ := List.exists_mem_of_ne_nil _ hne
  have hmlanes : m ∈ lanes := List.mem_of_mem_filter (hp ▸ hm)
  rw [report_of_two (r' := r') hmlanes (hown hm) h1 h16, hlanes]
  intro n _ x hx
  by_cases hn : n ∈ k.lanes
  · rw [hown hn] at hx
    cases hx
    exact .inr ⟨rfl, rfl⟩
  · exact .inl (hother hn hx)

/-- Where the conditions behind it concern no lane besides, the report has no summary. -/
theorem report_of_only {p : Nat → Bool} (hks : Unmet ks) (hp : k.lanes = lanes.filter p)
    (hne : k.lanes ≠ []) (h1 : k.rank ≠ 1) (h16 : k.rank ≠ 16)
    (hbehind : ∀ x ∈ ks', k.rank ≤ x.rank ∧ x.lanes ⊆ k.lanes) :
    report lanes (ks ++ k :: ks') = some ⟨k.rank, 0, maskOf k.lanes, word k.info⟩ := by
  rw [report_of_first (r' := k.rank) hks hp hne h1 h16 fun x hx => (hbehind x hx).imp_right .inl, summaryBit_self,
    ite_self, Nat.add_zero]

/-- With one condition behind it, which concerns other lanes, the summary tells whether that one is met. -/
theorem report_of_pair {k' : Cause} {p q : Nat → Bool} (hks : Unmet ks) (hp : k.lanes = lanes.filter p)
    (hq : k'.lanes = lanes.filter q) (hdisj : ∀ l ∈ k'.lanes, l ∉ k.lanes) (hlt : k.rank < k'.rank)
    (hne : k.lanes ≠ []) (h1 : k.rank ≠ 1) (h16 : k.rank ≠ 16) :
    report lanes (ks ++ [k, k']) = some ⟨k.rank, 0, maskOf k.lanes,
      word (k.info + if k'.lanes = [] then 0 else summaryBit k.rank k'.rank)⟩ := by
  have hlanes : causeLanes (ks ++ [k, k']) lanes k'.rank = k'.lanes := by
    refine causeLanes_rank hq (fun m hm => ?_) fun m x hx hr => ?_
    · rw [ownCause_append_unmet hks, ownCause_cons_notMem (hdisj m hm),
        ownCause_cons_mem hm fun _ h => absurd h List.not_mem_nil]
    · rw [ownCause_append_unmet hks] at hx
      obtain ⟨hmem, hl⟩ := ownCause_mem hx
      obtain rfl | rfl : x = k ∨ x = k' := by simpa using hmem
      · exact absurd hr hlt.ne
      · exact hl
  rw [report_of_first (r' := k'.rank) hks hp hne h1 h16, hlanes]
  intro x hx
  cases List.mem_singleton.1 hx
  exact ⟨hlt.le, .inr ⟨hlt, rfl⟩⟩

end Reports

/-- An instruction traps with what it reports. -/
theorem check_report {s : State} {c : Issuer} {lanes : List Nat} {ks : List Cause} {go : State} {r : Report}
    (h : report lanes ks = some r) : check s c lanes ks go = takeTrap s c r c.pc := by
  rw [check, h]

/-! ## The lanes of some slices of the gang (R337) -/

theorem slice_of_mem_sliceLanes {w : Wave} {j l : Nat} (h : l ∈ sliceLanes w j) : l / 4 = j := by
  unfold sliceLanes at h
  dsimp only at h
  split at h
  · cases h
  · obtain ⟨k, hk, rfl⟩ := List.mem_map.1 h
    have hk : k < 4 := List.mem_range.1 (List.mem_filter.1 hk).1
    omega

theorem flatMap_sliceLanes_filter {w : Wave} {p : Nat → Bool} {js : List Nat} :
    (js.filter p).flatMap (sliceLanes w) = (js.flatMap (sliceLanes w)).filter fun l => p (l / 4) := by
  induction js with
  | nil => rfl
  | cons j js ih =>
    have hown : (sliceLanes w j).filter (fun l => p (l / 4)) = if p j then sliceLanes w j else [] := by
      rw [List.filter_congr (q := fun _ => p j) fun l hl => by rw [slice_of_mem_sliceLanes hl]]
      cases p j <;> simp
    rw [List.flatMap_cons, List.filter_append, hown, ← ih, List.filter_cons]
    split
    · rw [List.flatMap_cons]
    · rw [List.nil_append]

/-- The active lanes of the slices of the gang that p names. -/
def lanesWhere (c : Issuer) (p : Nat → Bool) : List Nat := ((slicesOf c.gang.slices).filter p).flatMap (sliceLanes c.w)

theorem lanesWhere_eq_filter {c : Issuer} {p : Nat → Bool} : lanesWhere c p = c.all.filter fun l => p (l / 4) :=
  flatMap_sliceLanes_filter

theorem lanesWhere_mono {c : Issuer} {p q : Nat → Bool} (h : ∀ j, p j = true → q j = true) :
    lanesWhere c p ⊆ lanesWhere c q := by
  rw [lanesWhere_eq_filter, lanesWhere_eq_filter]
  exact (List.monotone_filter_right _ fun l => h (l / 4)).subset

theorem lanesWhere_disjoint {c : Issuer} {p q : Nat → Bool} (h : ∀ j, p j = true → q j = false) {l : Nat}
    (hp : l ∈ lanesWhere c p) : l ∉ lanesWhere c q := by
  rw [lanesWhere_eq_filter, List.mem_filter] at *
  exact fun hq => by simp [h _ hp.2] at hq

/-! ## Targets of a control transfer (R54, R388) -/

theorem offGrid_eq_false {a : Word} : offGrid a = false ↔ a.toNat % 4 = 0 := by
  simp [offGrid]

theorem offGrid_eq_true {a : Word} : offGrid a = true ↔ a.toNat % 4 ≠ 0 := by
  simp [offGrid]

theorem targetCond_unmet {a : Word} {ls : List Nat} (h : a.toNat % 4 = 0 ∨ ls = []) :
    Unmet (targetCond (offGrid a) ls) :=
  Unmet.when fun hb => h.resolve_left (offGrid_eq_true.1 hb)

theorem targetCond_offGrid {a : Word} {ls : List Nat} (h : a.toNat % 4 ≠ 0) :
    targetCond (offGrid a) ls = [⟨6, 2 * 2 ^ 56, ls⟩] := by
  rw [offGrid_eq_true.2 h]
  rfl

theorem mem_targetCond {b : Bool} {ls : List Nat} {k : Cause} (h : k ∈ targetCond b ls) : k.rank = 6 ∧ k.lanes = ls := by
  cases b with
  | false => cases h
  | true =>
    cases List.mem_singleton.1 h
    exact ⟨rfl, rfl⟩

/-- A misaligned target alone is reported, on the lanes of the slices that would go there. -/
theorem check_misaligned {s go : State} {c : Issuer} {ks : List Cause} {p : Nat → Bool} (hks : Unmet ks)
    (hne : lanesWhere c p ≠ []) :
    check s c c.all (ks ++ [⟨6, 2 * 2 ^ 56, lanesWhere c p⟩]) go =
      takeTrap s c ⟨6, 0, maskOf (lanesWhere c p), word (2 * 2 ^ 56)⟩ c.pc :=
  check_report (report_of_only (k := ⟨6, _, _⟩) hks lanesWhere_eq_filter hne (by simp) (by simp) fun _ h => nomatch h)

/-! ## Branches (R342) -/

section Branch

variable {s : State} {c : Issuer} {g : Guard} {all : Bool} {len : Nat} {us : List Use} {target : Word}

theorem branch_free (hg : allFree c c.all [.pr g.p.val] = true) (hu : allFree c c.all us = true)
    (ht : target.toNat % 4 = 0 ∨ lanesWhere c (takes c g all) = []) :
    branch s c g all len us target =
      putWave s c (c.w.regroup c fun j => if takes c g all j then target else c.pc + word len) :=
  check_unmet (((guardConds_free hg).append (useConds_free hu)).append (targetCond_unmet ht))

theorem branch_misaligned (hg : allFree c c.all [.pr g.p.val] = true) (hu : allFree c c.all us = true)
    (ht : target.toNat % 4 ≠ 0) (hne : lanesWhere c (takes c g all) ≠ []) :
    branch s c g all len us target =
      takeTrap s c ⟨6, 0, maskOf (lanesWhere c (takes c g all)), word (2 * 2 ^ 56)⟩ c.pc := by
  unfold branch
  dsimp only
  rw [targetCond_offGrid ht]
  exact check_misaligned ((guardConds_free hg).append (useConds_free hu)) hne

end Branch

/-- Settles O16: both instructions are `branch`, each with its own target. -/
theorem branches : Obligations.Branches := by
  refine ⟨fun g all k s c h hg hu => ?bra, fun g all a b s c h hg hu => ?brx⟩
  case bra =>
    have hexec : exec (.bra g all k) s = .next (branch s c g all 12 [] (c.pc + sextK k)) := issued_some h
    rw [hexec]
    exact ⟨fun ht => congrArg _ (branch_free hg hu ht), fun ht hne => congrArg _ (branch_misaligned hg hu ht hne)⟩
  case brx =>
    have hexec : exec (.brx g all a b) s =
        .next (branch s c g all (slen b) (.sr a :: useS b) (c.w.readS a + c.w.srcS b)) := issued_some h
    have hlen : Instr.len (.brx g all a b) = slen b := form_bytes_eq_slen
    rw [hexec, hlen]
    exact ⟨fun ht => congrArg _ (branch_free hg hu ht), fun ht hne => congrArg _ (branch_misaligned hg hu ht hne)⟩

/-! ## Calls (R346) -/

theorem lanesWhere_true {c : Issuer} : lanesWhere c (fun _ => true) = c.all := by
  rw [lanesWhere_eq_filter, List.filter_true]

section Call

variable {s : State} {c : Issuer} {d : VReg} {len : Nat} {us : List Use} {target : Word}

theorem callOp_free (hu : allFree c c.all (.vw 0 d.val :: us) = true) (ht : target.toNat % 4 = 0) :
    callOp s c d len us target = putWave s c
      ((c.w.writeLanes d.val c.all fun _ => c.pc + word len).regroup c fun _ => target) :=
  check_unmet ((useConds_free hu).append (targetCond_unmet (.inl ht)))

theorem callOp_misaligned (hu : allFree c c.all (.vw 0 d.val :: us) = true) (ht : target.toNat % 4 ≠ 0)
    (hne : c.all ≠ []) :
    callOp s c d len us target = takeTrap s c ⟨6, 0, maskOf c.all, word (2 * 2 ^ 56)⟩ c.pc := by
  unfold callOp
  rw [targetCond_offGrid ht]
  rw [← lanesWhere_true] at hne
  simpa only [lanesWhere_true] using check_misaligned (useConds_free hu) hne

end Call

section Return

/-- The link of a slice: what its lowest active lane holds. -/
def returnLink (c : Issuer) (a : VReg) (j : Nat) : Word := c.w.readV a.val ((sliceLanes c.w j).headD (4 * j))

/-- The lanes of the slices whose link is not a multiple of 4. -/
def failedLinks (c : Issuer) (a : VReg) : List Nat := lanesWhere c fun j => offGrid (returnLink c a j)

variable {s : State} {c : Issuer} {a : VReg}

theorem exec_ret (h : issuer s = some c) : exec (.ret a) s = .next (check s c c.all
    (useConds c c.all [.vw 1 a.val] ++ useConds c c.leads [.vr 1 a.val] ++ targetCond true (failedLinks c a))
    (putWave s c (c.w.regroup c (returnLink c a)))) :=
  issued_some h

variable (h : issuer s = some c) (hw : allFree c c.all [.vw 1 a.val] = true)
  (hr : allFree c c.leads [.vr 1 a.val] = true)
include h hw hr

theorem exec_ret_free (hfailed : failedLinks c a = []) :
    exec (.ret a) s = .next (putWave s c (c.w.regroup c (returnLink c a))) := by
  have hlinks : Unmet (targetCond true (failedLinks c a)) := Unmet.when fun _ => hfailed
  rw [exec_ret h, check_unmet (((useConds_free hw).append (useConds_free hr)).append hlinks)]

theorem exec_ret_misaligned (hfailed : failedLinks c a ≠ []) : exec (.ret a) s =
    .next (takeTrap s c ⟨6, 0, maskOf (failedLinks c a), word (2 * 2 ^ 56)⟩ c.pc) := by
  rw [exec_ret h]
  exact congrArg _ (check_misaligned ((useConds_free hw).append (useConds_free hr)) hfailed)

end Return

/-- Settles O19: CALL and CALLI are `callOp`, each with its own target; RET goes by the slices whose link is amiss. -/
theorem calls : Obligations.Calls := by
  refine ⟨fun d k s c h hu => ?call, fun d a b s c h hu => ?calli, fun a s c h hw hr => ?ret⟩
  case call =>
    have hexec : exec (.call d k) s = .next (callOp s c d 12 [] (c.pc + sextK k)) := issued_some h
    rw [hexec]
    exact ⟨fun ht => congrArg _ (callOp_free hu ht), fun ht hne => congrArg _ (callOp_misaligned hu ht hne)⟩
  case calli =>
    have hexec : exec (.calli d a b) s =
        .next (callOp s c d (slen b) (.sr a :: useS b) (c.w.readS a + c.w.srcS b)) := issued_some h
    have hlen : Instr.len (.calli d a b) = slen b := form_bytes_eq_slen
    rw [hexec, hlen]
    exact ⟨fun ht => congrArg _ (callOp_free hu ht), fun ht hne => congrArg _ (callOp_misaligned hu ht hne)⟩
  case ret => exact ⟨exec_ret_free h hw hr, exec_ret_misaligned h hw hr⟩

/-! ## The divergence stack (R343, R344) -/

section Brs

variable {s : State} {c : Issuer} {g : Guard} {join : BitVec 16} {k : BitVec 32}

/-- The active lanes of a slice with guard bit 1. -/
def takenLanes (c : Issuer) (g : Guard) (j : Nat) : List Nat := (sliceLanes c.w j).filter (guardBit c.w g)

/-- The other active lanes of a slice. -/
def otherLanes (c : Issuer) (g : Guard) (j : Nat) : List Nat := (sliceLanes c.w j).filter fun l => !guardBit c.w g l

/-- BRS divides a slice that has lanes of both kinds. -/
def divides (c : Issuer) (g : Guard) (j : Nat) : Bool := takenLanes c g j != [] && otherLanes c g j != []

/-- A slice's stack has no room. -/
def stackFull (c : Issuer) (j : Nat) : Bool := decide (8 ≤ (sliceAt c.w j).stack.length)

/-- The lanes of the slices that go to the target. -/
def brsGoers (c : Issuer) (g : Guard) : List Nat := lanesWhere c fun j => takenLanes c g j != []

/-- The lanes of the slices that push an entry. -/
def brsPushers (c : Issuer) (g : Guard) : List Nat := lanesWhere c fun j => divides c g j && !stackFull c j

/-- The lanes of the slices that would push one and have no room. -/
def brsStuck (c : Issuer) (g : Guard) : List Nat := lanesWhere c fun j => divides c g j && stackFull c j

/-- A slice of the gang after BRS. -/
def brsPut (c : Issuer) (g : Guard) (joinPc : Word) (e : Slice × Nat) : Slice :=
  if c.gang.slices.getLsbD e.2 && divides c g e.2 then
    { e.1 with
        stack := ⟨joinPc, c.pc + 12, nibble (otherLanes c g e.2), e.1.amask⟩ :: e.1.stack
        amask := nibble (takenLanes c g e.2) }
  else e.1

theorem splitSlice_eq {j : Nat} : splitSlice c g j = (takenLanes c g j, otherLanes c g j) := by
  rw [splitSlice, List.partition_eq_filter_filter]
  rfl

theorem bne_nil_eq {xs : List Nat} : (xs != []) = !xs.isEmpty := by cases xs <;> rfl

theorem brsSlice_eq {joinPc : Word} {e : Slice × Nat} :
    (if c.gang.slices.getLsbD e.2 then brsSlice c g joinPc (c.pc + 12) e.2 e.1 else e.1) = brsPut c g joinPc e := by
  simp only [brsPut, brsSlice, splitSlice_eq, divides, bne_nil_eq, ← Bool.not_or]
  cases c.gang.slices.getLsbD e.2
  · rfl
  · cases (takenLanes c g e.2).isEmpty || (otherLanes c g e.2).isEmpty <;> rfl

/-- BRS: its conditions, and where its slices go. -/
theorem exec_brs (h : issuer s = some c) : exec (.brs g join k) s = .next (check s c c.all
    (guardConds c g ++ (targetCond (offGrid (c.pc + sextK k)) (brsGoers c g) ++
      targetCond (offGrid (c.pc + join.signExtend 64)) (brsPushers c g) ++ [⟨15, 0, brsStuck c g⟩]))
    (putWave s c (Wave.regroup
      { c.w with slices := c.w.slices.zipIdx.map (brsPut c g (c.pc + join.signExtend 64)) } c
      fun j => if takenLanes c g j = [] then c.pc + 12 else c.pc + sextK k))) := by
  have hexec : exec (.brs g join k) s = execBrs g join k s := rfl
  rw [hexec, execBrs, issued_some h]
  simp only [brsSlice_eq, splitSlice_eq, ← bne_nil_eq, List.isEmpty_iff]
  rfl

/-- Of the slices that BRS divides, each goes to the target. -/
theorem divided_subset_brsGoers {p : Nat → Bool} : (lanesWhere c fun j => divides c g j && p j) ⊆ brsGoers c g :=
  lanesWhere_mono fun _ h => (Bool.and_eq_true_iff.1 (Bool.and_eq_true_iff.1 h).1).1

theorem brsStuck_disjoint_brsPushers {l : Nat} (h : l ∈ brsStuck c g) : l ∉ brsPushers c g := by
  refine lanesWhere_disjoint (fun j hj => ?_) h
  obtain ⟨-, hfull⟩ := Bool.and_eq_true_iff.1 hj
  rw [hfull, Bool.not_true, Bool.and_false]

variable (h : issuer s = some c) (hg : allFree c c.all [.pr g.p.val] = true)
include h hg

theorem exec_brs_free (ht : (c.pc + sextK k).toNat % 4 = 0 ∨ brsGoers c g = [])
    (hj : (c.pc + join.signExtend 64).toNat % 4 = 0 ∨ brsPushers c g = []) (hs : brsStuck c g = []) :
    exec (.brs g join k) s = .next (putWave s c (Wave.regroup
      { c.w with slices := c.w.slices.zipIdx.map (brsPut c g (c.pc + join.signExtend 64)) } c
      fun j => if takenLanes c g j = [] then c.pc + 12 else c.pc + sextK k)) := by
  have hstuck : Unmet [⟨15, 0, brsStuck c g⟩] := by simpa [Unmet] using hs
  rw [exec_brs h, check_unmet ((guardConds_free hg).append
    (((targetCond_unmet ht).append (targetCond_unmet hj)).append hstuck))]

/-- A misaligned target stands before what the slices that go there meet besides. -/
theorem exec_brs_target (ht : (c.pc + sextK k).toNat % 4 ≠ 0) (hne : brsGoers c g ≠ []) :
    exec (.brs g join k) s = .next (takeTrap s c ⟨6, 0, maskOf (brsGoers c g), word (2 * 2 ^ 56)⟩ c.pc) := by
  rw [exec_brs h, targetCond_offGrid ht]
  refine congrArg _ (check_report (report_of_only (k := ⟨6, _, brsGoers c g⟩) (guardConds_free hg)
    lanesWhere_eq_filter hne (by simp) (by simp) fun x hx => ?_))
  obtain hx | hx := List.mem_append.1 hx
  · obtain ⟨hrank, hlanes⟩ := mem_targetCond hx
    exact ⟨hrank.ge, hlanes ▸ divided_subset_brsGoers⟩
  · cases List.mem_singleton.1 hx
    exact ⟨by simp, divided_subset_brsGoers⟩

theorem exec_brs_join (ht : (c.pc + sextK k).toNat % 4 = 0) (hj : (c.pc + join.signExtend 64).toNat % 4 ≠ 0)
    (hne : brsPushers c g ≠ []) : exec (.brs g join k) s = .next (takeTrap s c
      ⟨6, 0, maskOf (brsPushers c g), word (2 * 2 ^ 56 + if brsStuck c g = [] then 0 else 2 ^ 8)⟩ c.pc) := by
  have hbit : summaryBit 6 15 = 2 ^ 8 := by decide
  rw [exec_brs h, targetCond_offGrid hj, List.append_assoc, ← List.append_assoc, ← hbit]
  exact congrArg _ (check_report (report_of_pair (k := ⟨6, _, brsPushers c g⟩) (k' := ⟨15, 0, brsStuck c g⟩)
    ((guardConds_free hg).append (targetCond_unmet (.inl ht))) lanesWhere_eq_filter lanesWhere_eq_filter
    (fun _ => brsStuck_disjoint_brsPushers) (by simp) hne (by simp) (by simp)))

theorem exec_brs_stuck (ht : (c.pc + sextK k).toNat % 4 = 0)
    (hj : (c.pc + join.signExtend 64).toNat % 4 = 0 ∨ brsPushers c g = []) (hne : brsStuck c g ≠ []) :
    exec (.brs g join k) s = .next (takeTrap s c ⟨15, 0, maskOf (brsStuck c g), 0⟩ c.pc) := by
  rw [exec_brs h, ← List.append_assoc]
  exact congrArg _ (check_report (report_of_only (k := ⟨15, 0, brsStuck c g⟩)
    ((guardConds_free hg).append ((targetCond_unmet (.inl ht)).append (targetCond_unmet hj)))
    lanesWhere_eq_filter hne (by simp) (by simp) fun _ h => nomatch h))

end Brs

section JoinStack

variable {pc : Word} {e : StackEntry} {es : List StackEntry} {m : BitVec 4}

theorem joinStack_other (h : e.joinPc ≠ pc) : joinStack pc (e :: es) m = (m, e :: es, none) := by
  simp [joinStack, h]

theorem joinStack_pend (h : e.joinPc = pc) (hp : e.pend ≠ 0) :
    joinStack pc (e :: es) m = (e.pend, { e with pend := 0 } :: es, some e.pendPc) := by
  rw [joinStack, if_neg (by simp [h]), if_pos (bne_iff_ne.2 hp)]

theorem joinStack_pop (h : e.joinPc = pc) (hp : e.pend = 0) :
    joinStack pc (e :: es) m = joinStack pc es e.saved := by
  simp [joinStack, h, hp]

end JoinStack

/-- Settles O18: BRS by what its slices meet; JOIN is `joinOp` at either length, and its stack goes by the top entry. -/
theorem divergenceStack : Obligations.DivergenceStack := by
  refine ⟨fun g join k s c h hg => ?brs, fun s c h => ?join, fun pc e es m => ?stack⟩
  case brs =>
    exact ⟨exec_brs_free h hg, exec_brs_target h hg, exec_brs_join h hg, exec_brs_stuck h hg⟩
  case join => exact ⟨issued_some h, issued_some h⟩
  case stack => exact ⟨rfl, joinStack_other, joinStack_pend, joinStack_pop⟩

end Sys2Proof.Machine
end
